-- ==== Sys2Proof/Word.lean ====
section
/-! DEFINITION. The word and byte types of the CHE core and the one table constructor the tables are written with
(spec/00_scope.md R8, R9). -/

namespace Sys2Proof

/-- One byte of the data memory (R70). -/
abbrev Byte := BitVec 8

/-- A 64-bit register value: every register of the core is 64 bits wide (R9). -/
abbrev Word := BitVec 64

/-- The table of `n` entries whose entry `i` is `f i`. -/
def tabulate {α : Type} (n : Nat) (f : Nat → α) : Vector α n :=
  ⟨((List.range n).map f).toArray, by simp⟩

@[simp] theorem tabulate_getElem {α : Type} (n : Nat) (f : Nat → α) (i : Nat) (h : i < n) :
    (tabulate n f)[i] = f i := by
  simp [tabulate]

@[simp] theorem tabulate_getElem? {α : Type} (n : Nat) (f : Nat → α) (i : Nat) (h : i < n) :
    (tabulate n f)[i]? = some (f i) := by
  simp [h]

end Sys2Proof
end

