-- ==== Sys2Proof/Config.lean ====
section
/-! DEFINITION. What the spec leaves to the implementation or draws freely: the parameters of spec/92_eei_decisions.md
section 2 and the free values of spec/93_implementation_defined.md. A free value is an opaque constant without a body: no proof can see
what it is, so a theorem that holds, holds whatever it is. -/

namespace Sys2Proof.Config

/-- CODE_LEN_MAX, the longest Huffman code in bits (R7): "This hardware fixes it at 64." -/
def codeLenMax : Nat := 64

/-- MEM_ADDR_BITS of `State.reset`: the spec's default MEM_SIZE is 65536 = 2^16 (R6).
DESIGN CHOICE (log 1): the size is an argument of the model and stands in `State.memAddrBits`; this is only the value the reset
state takes. -/
def memAddrBitsDefault : Nat := 16

/-- REG_BASE of `State.reset`, the host address of the register port (R9, item I15): the platform places it, "any 4096-byte-aligned address", and the
spec gives no default, so the value is free (log 14). -/
opaque regBaseAtReset : Nat

/-- MEM_BASE of `State.reset`, the host address of the memory port (R9, item I15): "any MEM_SIZE-aligned address of the platform" (log 14). -/
opaque memBaseAtReset : Nat

/-- ID[31:0], the ASCII bytes "CHE1" read most significant first (R21). -/
def idMagic : Nat := 0x43484531

/-- MEM after hardware reset: "any value", one draw per address (R51, R290, item I2 of file 93; log 2). -/
opaque memAtReset : Nat → Byte

/-- TILE after hardware reset: "any value", one draw per entry (R51, R290, item I3 of file 93; log 3). -/
opaque tileAtReset : Nat → Byte

/-- The byte drawn when the model's draw counter has this value (R263, R293, items I1 and I4 of file 93; log 4). -/
opaque freeByte : Nat → Byte

/-- The 64-bit value drawn when the model's draw counter has this value (R82, R263, items I1 and I5 of file 93; log 4). -/
opaque freeWord : Nat → Word

end Sys2Proof.Config
end

