-- ==== Sys2Proof/Machine/State.lean ====
section
/-! DEFINITION. The state of the CHE core (spec/10_state.md), plain data, with what surrounds it: the two agents' pending moves, the
reasons a step can stop, and the state after hardware reset (R51). -/

namespace Sys2Proof.Machine

/-- The completion codes of R260. `State.errCode` holds one of them, so ERRCODE is never above 0x0C (item I10 of file 93). -/
inductive ErrCode where
  /-- 0x00, success. -/
  | ok
  /-- 0x01 ERR_CODEBOOK. -/
  | codebook
  /-- 0x02 ERR_TRUNC. -/
  | trunc
  /-- 0x03 ERR_ARG. -/
  | arg
  /-- 0x04 ERR_ILLEGAL. -/
  | illegal
  /-- 0x05 ERR_RANGE. -/
  | range
  /-- 0x06 ERR_OVERFLOW. -/
  | overflow
  /-- 0x07 ERR_ALIGN. -/
  | align
  /-- 0x08 ERR_NOCODE. -/
  | nocode
  /-- 0x09 ERR_NOTABLE. -/
  | notable
  /-- 0x0A ERR_RLE. -/
  | rle
  /-- 0x0B ERR_OVERLAP. -/
  | overlap
  /-- 0x0C ERR_CODELEN. -/
  | codelen
  deriving DecidableEq, Repr

/-- One access of the host to one of the core's two ports (R311): width in bytes, offset or address, value written. -/
inductive Access where
  /-- A read of the register port (R73). -/
  | regRead (width offset : Nat)
  /-- A write of the register port (R73). -/
  | regWrite (width offset : Nat) (v : Word)
  /-- A read of the memory port (R74). -/
  | memRead (width addr : Nat)
  /-- A write of the memory port (R74). -/
  | memWrite (width addr : Nat) (v : Word)
  deriving DecidableEq, Repr

/-- One access of the host at an address of the platform's address map, in which the two ports stand at REG_BASE and MEM_BASE (R9): width in bytes, address,
and the value written, if it is a write. -/
structure BusAccess where
  width : Nat
  addr : Nat
  value : Option Word
  deriving DecidableEq, Repr

/-- One move of one of the two agents (R10): the command engine takes its turn, or the host makes an access, given by the port and the offset in it or by
its address on the platform. -/
inductive Event where
  /-- The command engine executes the pending command, if there is one (R109). -/
  | engine
  /-- The host makes an access. -/
  | host (a : Access)
  /-- The host makes an access at an address of the platform (R9). -/
  | bus (b : BusAccess)
  /-- The host makes the read of STATUS of `check` (R105) and looks at bit 2. -/
  | check
  deriving DecidableEq, Repr

/-- Why the machine stops with a fault. Closed: there is one reason. -/
inductive Fault where
  /-- Raised by the core's MemRead and MemWrite (`memRead`, `memWrite`, `snapshot`) at an address at or above MEM_SIZE, which does not exist.
  R72 says such an access "never happens, because every command checks its regions first". Safe: the model stops, it makes up no
  byte. -/
  | memOutside (addr : Nat)
  deriving DecidableEq, Repr

/-- Why a step has no meaning. Closed. -/
inductive Refusal where
  /-- Raised by `exec` for a command the model gives no meaning to (none is left). Safe. -/
  | notModelled (mnemonic : String)
  /-- Raised by a host access to the register port that is not an aligned 64-bit access inside the 4096 bytes of the port: "The host must
  not make one, and a model refuses it" (R73, item I7 of file 93). Safe. -/
  | regAccess (width offset : Nat)
  /-- Raised by a host access to the memory port of a width other than 1, 2, 4 or 8, misaligned, or reaching past MEM_SIZE (R74, item I8 of
  file 93). Safe. -/
  | memAccess (width addr : Nat)
  /-- Raised by a host access at a platform address that lies in no port of the core, or in both (R9; log 14): the spec says nothing of what stands
  there. Safe. -/
  | noPort (width addr : Nat)
  deriving DecidableEq, Repr

/-- The data memory MEM (R70): the bytes written since hardware reset, addresses strictly rising. An address that is not listed has not
been written and has no value of its own here. -/
abbrev Memory := List Host.Cell

/-- The state of the machine. Registers in the order of the map of spec/10_state.md section 2, then the tables, then MEM, then the fields that
are the model's own. -/
structure State where
  /-- MEM_ADDR_BITS, the parameter of a core that sets MEM_SIZE: MEM_SIZE = 2^memAddrBits (R6). No step changes it. -/
  memAddrBits : Nat
  /-- REG_BASE, the host address of the register port, a parameter the platform gives (R9). No step changes it. -/
  regBase : Nat
  /-- MEM_BASE, the host address of the memory port, a parameter the platform gives (R9). No step changes it. -/
  memBase : Nat
  /-- CTRL.IE (R22). -/
  ie : Bool
  /-- PENDING (R46): the accepted command word not yet executed. STATUS.BUSY reads 1 exactly when there is one (R23, R46). -/
  pending : Option Word
  /-- STATUS.DONE (R23). -/
  done : Bool
  /-- STATUS.OVERRUN (R23). -/
  overrun : Bool
  /-- STATUS.EOB (R23). -/
  eob : Bool
  /-- STATUS.ERRCODE; STATUS.ERR reads 1 exactly when it is not OK (R23). -/
  errCode : ErrCode
  /-- CMD, the last accepted command word (R24). -/
  cmd : Word
  /-- SRC (R25). -/
  src : Word
  /-- SRC_LEN (R25). -/
  srcLen : Word
  /-- DST (R25). -/
  dst : Word
  /-- DST_CAP (R25). -/
  dstCap : Word
  /-- ARG_N (R26). -/
  argN : Word
  /-- ARG_VAL (R26). -/
  argVal : Word
  /-- LIMIT (R27). -/
  limit : Word
  /-- RESULT (R28). -/
  result : Word
  /-- ERR_INFO (R29). -/
  errInfo : Word
  /-- OUT_PTR (R30). -/
  outPtr : Word
  /-- OUT_END (R30). -/
  outEnd : Word
  /-- IN_PTR (R31). -/
  inPtr : Word
  /-- IN_END (R31). -/
  inEnd : Word
  /-- BP_ACC, the partly filled output byte (R32). -/
  bpAcc : Byte
  /-- BP_FREE, the number of unused bit positions of BP_ACC (R32). -/
  bpFree : Nat
  /-- BR_ACC, the last byte fetched (R33). -/
  brAcc : Byte
  /-- BR_LEFT, how many low bits of BR_ACC are still unread (R33). -/
  brLeft : Nat
  /-- MARKER[7:0] (R34). -/
  marker : Byte
  /-- IMG_BASE (R35). -/
  imgBase : Word
  /-- IMG_SIZE (R35). -/
  imgSize : Word
  /-- IMG_WIDTH (R35). -/
  imgWidth : Word
  /-- TILE_X (R36). -/
  tileX : Word
  /-- TILE_Y (R36). -/
  tileY : Word
  /-- TILE_GEOM.TW (R37). -/
  tw : BitVec 5
  /-- TILE_GEOM.TH (R37). -/
  th : BitVec 5
  /-- TILE_GEOM.TK (R37). -/
  tk : BitVec 5
  /-- ENC_MAXLEN (R38). -/
  encMaxlen : Nat
  /-- DEC_MAXLEN (R38). -/
  decMaxlen : Nat
  /-- TBL_SEL[3:0] (R39). -/
  tblSel : BitVec 4
  /-- TBL_IDX (R39). -/
  tblIdx : Word
  /-- FREQ[0..255] (R42). -/
  freq : Vector Word 256
  /-- STATUS.ENC_VALID (R23, R43). -/
  encValid : Bool
  /-- CODE_LEN[0..256] (R43). -/
  codeLen : Vector Nat 257
  /-- CODE_VAL[0..256] (R43). -/
  codeVal : Vector Word 257
  /-- STATUS.DEC_VALID (R23, R44). -/
  decValid : Bool
  /-- DEC_CNT[1..CODE_LEN_MAX] (R44); entry l stands at index l - 1. -/
  decCnt : Vector Nat 64
  /-- DEC_FIRST_CODE[1..CODE_LEN_MAX] (R44); entry l stands at index l - 1. -/
  decFirstCode : Vector Word 64
  /-- DEC_FIRST_SYM[1..CODE_LEN_MAX] (R44); entry l stands at index l - 1. -/
  decFirstSym : Vector Nat 64
  /-- DEC_ALPHA[0..256] (R44). -/
  decAlpha : Vector Nat 257
  /-- TILE[0..15][0..15] (R45); entry [r][c] stands at index 16 r + c, the order of the table window (R39). -/
  tile : Vector Byte 256
  /-- MEM (R48, R70). -/
  mem : Memory
  /-- The model's own: the moves of the host and the engine still to come, in the order they are taken (R10, R83; log 6). -/
  events : List Event
  /-- The model's own: the value the last port read gave the host (log 7). -/
  portData : Word
  /-- The model's own: whether the host has read STATUS with BUSY = 0 since the last acceptance (R312; log 19). -/
  seenIdle : Bool
  /-- The model's own: whether a `check` of the host program has found STATUS.ERR = 1, so that the program has failed (R105; log 22). -/
  checkFailed : Bool
  /-- The model's own: how many free values have been drawn so far (log 4). -/
  draws : Nat
  deriving DecidableEq, Repr

/-- The state after hardware reset (R51, R290): every register 0 but BP_FREE = 8, every table but TILE 0, PENDING empty, MEM and TILE drawn.
MEM lists nothing, for nothing has been written. DESIGN CHOICE (logs 1, 4, 6, 7, 19, 22): the value of MEM_ADDR_BITS and of the model's own
fields. REG_BASE and MEM_BASE are free (log 14). -/
def State.reset : State where
  memAddrBits := Config.memAddrBitsDefault
  regBase := Config.regBaseAtReset
  memBase := Config.memBaseAtReset
  ie := false
  pending := none
  done := false
  overrun := false
  eob := false
  errCode := .ok
  cmd := 0
  src := 0
  srcLen := 0
  dst := 0
  dstCap := 0
  argN := 0
  argVal := 0
  limit := 0
  result := 0
  errInfo := 0
  outPtr := 0
  outEnd := 0
  inPtr := 0
  inEnd := 0
  bpAcc := 0
  bpFree := 8
  brAcc := 0
  brLeft := 0
  marker := 0
  imgBase := 0
  imgSize := 0
  imgWidth := 0
  tileX := 0
  tileY := 0
  tw := 0
  th := 0
  tk := 0
  encMaxlen := 0
  decMaxlen := 0
  tblSel := 0
  tblIdx := 0
  freq := Vector.replicate 256 0
  encValid := false
  codeLen := Vector.replicate 257 0
  codeVal := Vector.replicate 257 0
  decValid := false
  decCnt := Vector.replicate 64 0
  decFirstCode := Vector.replicate 64 0
  decFirstSym := Vector.replicate 64 0
  decAlpha := Vector.replicate 257 0
  tile := tabulate 256 Config.tileAtReset
  mem := []
  events := []
  portData := 0
  seenIdle := true
  checkFailed := false
  draws := 0

end Sys2Proof.Machine
end

