-- ==== Sys2Proof/Machine/Ops.lean ====
section
/-! DEFINITION. The named operations the meanings are written with: MEM, the run of a command, acceptance and completion (the core's only
"exception entry", R262, R263, R267), the free draws, and the clearing of the tables. -/

namespace Sys2Proof.Machine

/-! ### Words -/

/-- A number as a register value: "A register write stores `v mod 2^64`" (R11). -/
def toWord (n : Nat) : Word := BitVec.ofNat 64 n

/-- A number as a byte, modulo 256. -/
def toByte (n : Nat) : Byte := BitVec.ofNat 8 n

/-- Entry `i` of a table, 0 past its end: the table accesses of a command are in range (R155, R183), and the table window reads 0 out of
range (R39). -/
def tableGet {α : Type} [Inhabited α] {n : Nat} (v : Vector α n) (i : Nat) : α := v[i]?.getD default

/-! ### MEM (R70, R72) -/

/-- The byte written at an address, if one has been. -/
def Memory.get? : Memory → Nat → Option Byte
  | [], _ => none
  | (b, v) :: m, a => if a = b then some v else Memory.get? m a

/-- The memory with one byte written, the addresses kept rising. -/
def Memory.set : Memory → Nat → Byte → Memory
  | [], a, v => [(a, v)]
  | (b, w) :: m, a, v =>
    if a < b then (a, v) :: (b, w) :: m
    else if a = b then (a, v) :: m
    else (b, w) :: Memory.set m a v

/-- The canonical form: addresses strictly rising and all of them in MEM (R70). An unlisted address has no value of its own in the list, so no
entry can repeat one. -/
abbrev Memory.wf (m : Memory) (size : Nat) : Prop :=
  m.Pairwise (fun x y => x.1 < y.1) ∧ ∀ x ∈ m, x.1 < size

/-- MEM_SIZE (R6). -/
def State.memSize (s : State) : Nat := 2 ^ s.memAddrBits

/-- The byte at an address of MEM: the byte written there, else the byte drawn at hardware reset (R51, R290; log 2). -/
def State.byteAt (s : State) (a : Nat) : Byte := (s.mem.get? a).getD (Config.memAtReset a)

/-- `n` bytes of MEM from address `a`. -/
def State.bytesAt (s : State) (a n : Nat) : List Byte := (List.range n).map fun i => s.byteAt (a + i)

/-- The state with a byte of MEM written. -/
def State.setByte (s : State) (a : Nat) (v : Byte) : State := { s with mem := s.mem.set a v }

/-! ### The run of a command -/

/-- Why the operation of a command ends before its end: `raise E(info)` of R12, or a core access outside MEM. -/
inductive Stop where
  /-- `raise code(info)` (R12): a run-time error (R263). -/
  | raise (code : ErrCode) (info : Word)
  /-- A core access outside MEM, which R72 says never happens. -/
  | fault (f : Fault)
  deriving DecidableEq, Repr

/-- The outcome of a step of this machine. -/
abbrev Result := Host.Outcome State Fault Refusal

/-- `MemRead(a, 1)` (R12, R72). -/
def memRead (a : Nat) (s : State) : Except Stop Byte :=
  if a < s.memSize then .ok (s.byteAt a) else .error (.fault (.memOutside a))

/-- `MemWrite(a, 1, v)` (R12, R72). -/
def memWrite (a : Nat) (v : Byte) (s : State) : Except Stop State :=
  if a < s.memSize then .ok (s.setByte a v) else .error (.fault (.memOutside a))

/-- The snapshot of a region, its bytes as they stand when the command starts (R15). -/
def snapshot (a n : Nat) (s : State) : Except Stop (List Byte) :=
  if a + n ≤ s.memSize then .ok (s.bytesAt a n) else .error (.fault (.memOutside (a + n - 1)))

/-- `MemWrite(a + k, 1, vs[k])` for each k, in order. -/
def writeBytes (a : Nat) : List Byte → State → Except Stop State
  | [], s => .ok s
  | v :: vs, s => (memWrite a v s).bind (writeBytes (a + 1) vs)

/-! ### Acceptance and completion (R108, R109, R262, R263) -/

/-- STATUS.BUSY (R23, R46): 1 exactly when PENDING is not empty. -/
def State.busy (s : State) : Bool := s.pending.isSome

/-- Acceptance of a command word (R108). RESULT and ERR_INFO keep their values. The host has not yet observed this command's completion (R312). -/
def State.accept (s : State) (w : Word) : State :=
  { s with cmd := w, pending := some w, done := false, errCode := .ok, eob := false, seenIdle := false }

/-- Completion: the completion state every command writes (R50, R109, R262, R263). -/
def State.complete (s : State) (code : ErrCode) (info result : Word) (eob : Bool) : State :=
  { s with pending := none, done := true, errCode := code, errInfo := info, result := result, eob := eob }

/-- Completion with success: ERRCODE = OK, ERR_INFO = 0 (R29, R109). -/
def State.succeed (s : State) (result : Word) (eob : Bool := false) : State := s.complete .ok 0 result eob

/-- Completion with an error: RESULT = 0 and EOB = 0 (R28, R262, R263). On the untouched state it is the whole effect of a pre-check
error. -/
def State.fail (s : State) (code : ErrCode) (info : Word) : State := s.complete code info 0 false

/-- What the operation of a command leaves when it comes to its end: the state, RESULT and whether it decoded EOB. -/
structure Finished where
  st : State
  result : Word
  eob : Bool := false

/-- The end of a command (R109, R263): its operation's state with the completion state; or, at a `raise`, the state the command's rule gives for
a run-time error with that error's completion; or the fault. -/
def conclude (onRaise : State) : Except Stop Finished → Result
  | .ok d => .next (d.st.succeed d.result d.eob)
  | .error (.raise code info) => .next (onRaise.fail code info)
  | .error (.fault f) => .fault f

/-- One pre-check of a command: the condition and the error reported where it does not hold (R112, R262). -/
structure Check where
  ok : Bool
  code : ErrCode
  info : Word
  deriving DecidableEq, Repr

/-- The first pre-check that fails, in the order listed (R264). -/
def firstFailing : List Check → Option (ErrCode × Word)
  | [] => none
  | c :: cs => if c.ok then firstFailing cs else some (c.code, c.info)

/-- A command with its pre-checks (R112): the first that fails ends it, changing nothing but the completion state (R262); else its
operation is performed. -/
def withChecks (s : State) (checks : List Check) (operation : State → Result) : Result :=
  match firstFailing checks with
  | some (code, info) => .next (s.fail code info)
  | none => operation s

/-! ### Draws (R263, R293; log 4) -/

/-- The bytes of MEM at these addresses, each drawn afresh. -/
def drawBytes : List Nat → State → State
  | [], s => s
  | a :: as, s => drawBytes as { s.setByte a (Config.freeByte s.draws) with draws := s.draws + 1 }

/-- A value between `lo` and `hi`, drawn from a free word: every one of them is a value it can have. -/
def drawBetween (free : Word) (lo hi : Nat) : Word := toWord (lo + free.toNat % (hi - lo + 1))

/-- A BP_FREE of 1..8, drawn (R143). -/
def drawBpFree (free : Word) : Nat := 1 + free.toNat % 8

/-- A BP_ACC whose low `n` bits are 0, drawn (R143). -/
def drawBpAcc (free : Byte) (n : Nat) : Byte := (free >>> n) <<< n

/-- OUT_PTR, BP_ACC and BP_FREE drawn within the bounds of R263: OUT_PTR "any value from its start value to OUT_END", the cursor "any pair
satisfying" R143. -/
def drawOutCursor (s : State) : State :=
  { s with
    outPtr := drawBetween (Config.freeWord s.draws) s.outPtr.toNat s.outEnd.toNat
    bpFree := drawBpFree (Config.freeWord (s.draws + 1))
    bpAcc := drawBpAcc (Config.freeByte (s.draws + 2)) (drawBpFree (Config.freeWord (s.draws + 1)))
    draws := s.draws + 3 }

/-- IN_PTR, BR_ACC and BR_LEFT drawn within the bounds of R263: IN_PTR "any value from its start value to IN_END", "any pair with BR_ACC <
256 and BR_LEFT in 0..7". -/
def drawInCursor (s : State) : State :=
  { s with
    inPtr := drawBetween (Config.freeWord s.draws) s.inPtr.toNat s.inEnd.toNat
    brAcc := Config.freeByte (s.draws + 1)
    brLeft := (Config.freeWord (s.draws + 2)).toNat % 8
    draws := s.draws + 3 }

/-- TILE drawn, every entry afresh (R293). -/
def drawTile (s : State) : State :=
  { s with tile := tabulate 256 fun i => Config.freeByte (s.draws + i), draws := s.draws + 256 }

/-- The `n` addresses of a region from `a` on (R14). -/
def regionAddrs (a n : Nat) : List Nat := (List.range n).map (a + ·)

/-- The output stream's write set drawn: MEM[out], OUT_PTR, BP_ACC, BP_FREE (R50, R263). -/
def drawOutStream (s : State) : State :=
  drawOutCursor (drawBytes (regionAddrs s.outPtr.toNat (s.outEnd.toNat - s.outPtr.toNat)) s)

/-- The destination drawn: MEM[DST, DST + DST_CAP) (R50, R263). -/
def drawDst (s : State) : State := drawBytes (regionAddrs s.dst.toNat s.dstCap.toNat) s

/-! ### Tables -/

/-- `clear_code_table()` of R153. -/
def State.clearCodeTable (s : State) : State :=
  { s with
    codeLen := Vector.replicate 257 0
    codeVal := Vector.replicate 257 0
    encValid := false
    encMaxlen := 0 }

/-- The defined effect of ERR_CODEBOOK (R181): "every decoder table entry <- 0", DEC_VALID and DEC_MAXLEN 0. -/
def State.clearDecTables (s : State) : State :=
  { s with
    decCnt := Vector.replicate 64 0
    decFirstCode := Vector.replicate 64 0
    decFirstSym := Vector.replicate 64 0
    decAlpha := Vector.replicate 257 0
    decValid := false
    decMaxlen := 0 }

end Sys2Proof.Machine
end

