-- ==== Sys2Proof/Machine/Operands.lean ====
section
/-! DEFINITION. What the commands compute from their operand registers: regions and their range and overlap checks (R14, R79, R80), stream sizes
and stream checks (R134, R135), and the shape of the current tile (R37, R230, R231). -/

namespace Sys2Proof.Machine

/-! ### Regions (R14) -/

/-- `in_mem(a, n)`, without wrap-around (R14). -/
def State.inMem (s : State) (a n : Nat) : Bool := a + n ≤ s.memSize

/-- `overlap(a, n, b, m)` (R14). -/
def overlap (a n b m : Nat) : Bool := n > 0 && m > 0 && a < b + m && b < a + n

/-- The source region's range check: `in_mem(SRC, SRC_LEN)`, else ERR_RANGE(1) (R79). -/
def srcCheck (s : State) : Check := ⟨s.inMem s.src.toNat s.srcLen.toNat, .range, 1⟩

/-- The destination's range check: `in_mem(DST, DST_CAP)`, else ERR_RANGE(2) (R79). -/
def dstCheck (s : State) : Check := ⟨s.inMem s.dst.toNat s.dstCap.toNat, .range, 2⟩

/-- The output stream's range check: `OUT_PTR <= OUT_END <= MEM_SIZE`, else ERR_RANGE(3) (R79, R135). -/
def outCheck (s : State) : Check :=
  ⟨s.outPtr.toNat ≤ s.outEnd.toNat && s.outEnd.toNat ≤ s.memSize, .range, 3⟩

/-- The input stream's range check: `IN_PTR <= IN_END <= MEM_SIZE`, else ERR_RANGE(4) (R79, R135). -/
def inCheck (s : State) : Check :=
  ⟨s.inPtr.toNat ≤ s.inEnd.toNat && s.inEnd.toNat ≤ s.memSize, .range, 4⟩

/-- ENC_VALID = 1, else ERR_NOTABLE(1) (R158 to R160). -/
def encTableCheck (s : State) : Check := ⟨s.encValid, .notable, 1⟩

/-- DEC_VALID = 1, else ERR_NOTABLE(2) (R185, R186). -/
def decTableCheck (s : State) : Check := ⟨s.decValid, .notable, 2⟩

/-- An overlap check (R80): the two regions do not overlap, else ERR_OVERLAP(0). -/
def disjointCheck (a n b m : Nat) : Check := ⟨!overlap a n b m, .overlap, 0⟩

/-! ### Streams (R134) -/

/-- `out_room`, the bytes the output stream can still take. -/
def State.outRoom (s : State) : Nat := s.outEnd.toNat - s.outPtr.toNat

/-- `bytes_for(n)`, the bytes that putting n more bits emits. -/
def State.bytesFor (s : State) (n : Nat) : Nat := (8 - s.bpFree + n) / 8

/-- `IN_END - IN_PTR`, the bytes the input stream can still give (R134, R181). -/
def State.inRoom (s : State) : Nat := s.inEnd.toNat - s.inPtr.toNat

/-- `bits_avail`, the bits the input stream can still give. -/
def State.bitsAvail (s : State) : Nat := s.brLeft + 8 * (s.inEnd.toNat - s.inPtr.toNat)

/-! ### The encoder's and decoder's tables -/

/-- DEC_FIRST_CODE[l], the tables indexed by code length from 1 (R44, R182). -/
def State.firstCode (s : State) (l : Nat) : Nat := (tableGet s.decFirstCode (l - 1)).toNat

/-- DEC_FIRST_SYM[l] (R44, R182). -/
def State.firstSym (s : State) (l : Nat) : Nat := tableGet s.decFirstSym (l - 1)

/-! ### The current tile (R37, R230, R231) -/

/-- `valid(r, c)` (R230): rows 0 to TH - 2 hold TW valid samples each, row TH - 1 holds TK. -/
def State.validPos (s : State) (r c : Nat) : Bool :=
  (r + 1 < s.th.toNat && c < s.tw.toNat) || (r + 1 == s.th.toNat && c < s.tk.toNat)

/-- TCNT, the value count (R37): `TW * (TH - 1) + TK` when TH >= 1, and 0 when TH = 0. -/
def State.tcnt (s : State) : Nat :=
  if s.th.toNat = 0 then 0 else s.tw.toNat * (s.th.toNat - 1) + s.tk.toNat

/-- `addr(r, c)` (R231), unbounded. -/
def State.sampleAddr (s : State) (r c : Nat) : Nat :=
  s.imgBase.toNat + (s.tileY.toNat + r) * s.imgWidth.toNat + s.tileX.toNat + c

/-- `rowmajor` (R235): the valid positions row by row. -/
def State.rowMajor (s : State) : List (Nat × Nat) :=
  (List.range 16).flatMap fun r => ((List.range 16).filter fun c => s.validPos r c).map fun c => (r, c)

/-- `transposed` (R235): the valid positions column by column. -/
def State.transposed (s : State) : List (Nat × Nat) :=
  (List.range 16).flatMap fun c => ((List.range 16).filter fun r => s.validPos r c).map fun r => (r, c)

/-- The order that flag T selects (R235): T = 0 row-major, T = 1 transposed. -/
def State.tileOrder (s : State) (t : Bool) : List (Nat × Nat) := if t then s.transposed else s.rowMajor

/-- The index of position (r, c) in TILE: the entry [i div 16][i mod 16] of R39. -/
def tileIndex (p : Nat × Nat) : Nat := 16 * p.1 + p.2

/-- R231, check 1: the shape, else ERR_ARG(3). -/
def shapeCheck (s : State) : Check :=
  ⟨1 ≤ s.tw.toNat && s.tw.toNat ≤ 16 && 1 ≤ s.th.toNat && s.th.toNat ≤ 16 && s.tk.toNat ≤ s.tw.toNat, .arg, 3⟩

/-- R231, check 2: the placement, else ERR_ARG(4). -/
def placementCheck (s : State) : Check := ⟨s.tileX.toNat + s.tw.toNat ≤ s.imgWidth.toNat, .arg, 4⟩

/-- R231, check 3: every valid position's address is in MEM, else ERR_RANGE(5). -/
def tileMemCheck (s : State) : Check :=
  ⟨s.rowMajor.all fun p => decide (s.sampleAddr p.1 p.2 < s.memSize), .range, 5⟩

end Sys2Proof.Machine
end

