-- ==== Sys2Proof/Machine/Delta.lean ====
section
/-! DEFINITION. The predictive delta transform: DELTA_ENC and DELTA_DEC (spec/43_predictive.md). -/

namespace Sys2Proof.Machine

/-- The output of DELTA_ENC after an original byte `prev` (R200): each byte less the original byte before it, mod 256. -/
def deltaEncode (prev : Byte) : List Byte → List Byte
  | [] => []
  | b :: bs => (b - prev) :: deltaEncode b bs

/-- The output of DELTA_DEC after an output byte `prev` (R201): the running sum mod 256. -/
def deltaDecode (prev : Byte) : List Byte → List Byte
  | [] => []
  | d :: ds => (prev + d) :: deltaDecode (prev + d) ds

/-- The pre-checks that DELTA_ENC and DELTA_DEC share (R200, R201). -/
def deltaChecks (s : State) : List Check :=
  [srcCheck s, dstCheck s, ⟨s.srcLen.toNat ≤ s.dstCap.toNat, .overflow, 2⟩,
   ⟨s.dst == s.src || !overlap s.src.toNat s.srcLen.toNat s.dst.toNat s.srcLen.toNat, .overlap, 0⟩]

/-- A transform of the source's snapshot written to the destination: RESULT = SRC_LEN (R200, R201). It raises nothing. -/
def transformSource (f : List Byte → List Byte) (s : State) : Result :=
  conclude s ((snapshot s.src.toNat s.srcLen.toNat s).bind fun bs =>
    (writeBytes s.dst.toNat (f bs) s).map fun t => ⟨t, s.srcLen, false⟩)

/-- DELTA_ENC (R200): the predictor starts at 0 on every command. -/
def execDeltaEnc (s : State) : Result := withChecks s (deltaChecks s) (transformSource (deltaEncode 0))

/-- DELTA_DEC (R201): the predictor starts at 0 on every command. -/
def execDeltaDec (s : State) : Result := withChecks s (deltaChecks s) (transformSource (deltaDecode 0))

end Sys2Proof.Machine
end

