-- ==== Sys2Proof/Machine/Geometry.lean ====
section
/-! DEFINITION. The block geometry serializer: GEOM, TILE_LOAD, TILE_STORE, TILE_SER and TILE_DESER (spec/45_geometry.md). -/

namespace Sys2Proof.Machine

/-! ### GEOM (R232), on unbounded integers -/

/-- `ceil_div(a, b)` (R11). -/
def ceilDiv (a b : Nat) : Nat := (a + b - 1) / b

/-- The position and shape of one tile. -/
structure TileShape where
  x : Nat
  y : Nat
  tw : Nat
  th : Nat
  tk : Nat
  deriving DecidableEq, Repr

/-- H, the image height in rows. -/
def imageRows (n w : Nat) : Nat := ceilDiv n w

/-- tpr, the tiles of one tile row. -/
def tilesPerRow (w : Nat) : Nat := ceilDiv w 16

/-- ntiles, the number of tiles of the image. -/
def tileCount (n w : Nat) : Nat := tilesPerRow w * ceilDiv (imageRows n w) 16

/-- The position and shape of tile `t` of an image of `n` samples and width `w` (R232). The subtraction in `max(0, rl - x)` is the one of Nat,
which stops at 0. -/
def tileShape (n w t : Nat) : TileShape :=
  let h := imageRows n w
  let x := 16 * (t % tilesPerRow w)
  let y := 16 * (t / tilesPerRow w)
  let tw := min 16 (w - x)
  let th := min 16 (h - y)
  let rl := n - (h - 1) * w
  { x := x, y := y, tw := tw, th := th, tk := if y + th = h then min tw (rl - x) else tw }

/-- The pre-checks of GEOM (R232). -/
def geomChecks (s : State) : List Check :=
  [⟨1 ≤ s.imgWidth.toNat, .arg, 1⟩, ⟨s.argN.toNat < tileCount s.imgSize.toNat s.imgWidth.toNat, .arg, 2⟩]

/-- The state with the current tile's position and shape set. -/
def State.setTile (s : State) (g : TileShape) : State :=
  { s with
    tileX := toWord g.x
    tileY := toWord g.y
    tw := BitVec.ofNat 5 g.tw
    th := BitVec.ofNat 5 g.th
    tk := BitVec.ofNat 5 g.tk }

/-- GEOM (R232). -/
def execGeom (s : State) : Result :=
  withChecks s (geomChecks s) fun s =>
    .next ((s.setTile (tileShape s.imgSize.toNat s.imgWidth.toNat s.argN.toNat)).succeed
      (toWord (tileCount s.imgSize.toNat s.imgWidth.toNat)))

/-! ### Moving a tile (R233, R234) -/

/-- The TILE of all zeros. -/
def zeroTile : Vector Byte 256 := Vector.replicate 256 0

/-- TILE with one position set. -/
def setPos (tile : Vector Byte 256) (p : Nat × Nat) (v : Byte) : Vector Byte 256 :=
  tile.setIfInBounds (tileIndex p) v

/-- TILE with the samples at these positions read from the image. -/
def loadPositions (s : State) : List (Nat × Nat) → Vector Byte 256 → Except Stop (Vector Byte 256)
  | [], tile => .ok tile
  | p :: ps, tile => (memRead (s.sampleAddr p.1 p.2) s).bind fun v => loadPositions s ps (setPos tile p v)

/-- The image with the samples at these positions written from TILE. -/
def storePositions : List (Nat × Nat) → State → Except Stop State
  | [], s => .ok s
  | p :: ps, s => (memWrite (s.sampleAddr p.1 p.2) (tableGet s.tile (tileIndex p)) s).bind (storePositions ps)

/-- The pre-checks that TILE_LOAD and TILE_STORE share (R231, R233, R234). -/
def tileMoveChecks (s : State) : List Check := [shapeCheck s, placementCheck s, tileMemCheck s]

/-- TILE_LOAD (R233): invalid positions are set to 0. -/
def execTileLoad (s : State) : Result :=
  withChecks s (tileMoveChecks s) fun s =>
    conclude s ((loadPositions s s.rowMajor zeroTile).map fun tile => ⟨{ s with tile := tile }, toWord s.tcnt, false⟩)

/-- TILE_STORE (R234). -/
def execTileStore (s : State) : Result :=
  withChecks s (tileMoveChecks s) fun s =>
    conclude s ((storePositions s.rowMajor s).map fun t => ⟨t, toWord s.tcnt, false⟩)

/-! ### Serialization (R235 to R237) -/

/-- The samples of TILE in the order that flag T selects. -/
def serialized (s : State) (t : Bool) : List Byte := (s.tileOrder t).map fun p => tableGet s.tile (tileIndex p)

/-- The pre-checks of TILE_SER (R236). -/
def tileSerChecks (s : State) : List Check :=
  [shapeCheck s, dstCheck s, ⟨s.tcnt ≤ s.dstCap.toNat, .overflow, 2⟩]

/-- TILE_SER and TILE_SER.T (R236). -/
def execTileSer (t : Bool) (s : State) : Result :=
  withChecks s (tileSerChecks s) fun s =>
    conclude s ((writeBytes s.dst.toNat (serialized s t) s).map fun u => ⟨u, toWord s.tcnt, false⟩)

/-- TILE filled from a sequence, its bytes going to these positions in order, every other position 0 (R237). -/
def fillPositions : List (Nat × Nat) → List Byte → Vector Byte 256 → Vector Byte 256
  | p :: ps, v :: vs, tile => fillPositions ps vs (setPos tile p v)
  | [], _, tile => tile
  | _ :: _, [], tile => tile

/-- The pre-checks of TILE_DESER (R237). -/
def tileDeserChecks (s : State) : List Check :=
  [shapeCheck s, srcCheck s, ⟨s.tcnt ≤ s.srcLen.toNat, .arg, 5⟩]

/-- TILE_DESER and TILE_DESER.T (R237). -/
def execTileDeser (t : Bool) (s : State) : Result :=
  withChecks s (tileDeserChecks s) fun s =>
    conclude s ((snapshot s.src.toNat s.srcLen.toNat s).map fun bs =>
      ⟨{ s with tile := fillPositions (s.tileOrder t) bs zeroTile }, toWord s.tcnt, false⟩)

end Sys2Proof.Machine
end

