-- ==== Sys2Proof/Machine/BitIO.lean ====
section
/-! DEFINITION. The stream primitives (R130 to R133) and the commands NOP, BP_CLEAR, BP_PUT, BP_FLUSH, BR_ALIGN and BR_GET
(spec/40_control_bitio.md). -/

namespace Sys2Proof.Machine

/-! ### Stream primitives -/

/-- `emit_byte(v)` (R131). -/
def emitByte (v : Byte) (s : State) : Except Stop State :=
  if s.outPtr.toNat ≥ s.outEnd.toNat then .error (.raise .overflow 3)
  else (memWrite s.outPtr.toNat v s).bind fun s => .ok { s with outPtr := s.outPtr + 1 }

/-- The bytes of a list emitted one after the other. -/
def emitBytes : List Byte → State → Except Stop State
  | [], s => .ok s
  | v :: vs, s => (emitByte v s).bind (emitBytes vs)

/-- `BP_ACC | (b << (BP_FREE - 1))` (R130). -/
def accWith (acc : Byte) (free : Nat) (b : Bool) : Byte := acc ||| toByte (b.toNat <<< (free - 1))

/-- `put_bit(b)` (R130). -/
def putBit (b : Bool) (s : State) : Except Stop State :=
  let acc := accWith s.bpAcc s.bpFree b
  let free := s.bpFree - 1
  if free = 0 then (emitByte acc s).bind fun s => .ok { s with bpAcc := 0, bpFree := 8 }
  else .ok { s with bpAcc := acc, bpFree := free }

/-- The bits of a list put one after the other. -/
def putBitList : List Bool → State → Except Stop State
  | [], s => .ok s
  | b :: bs, s => (putBit b s).bind (putBitList bs)

/-- The `n` low bits of `v`, the most significant of them first (R77, R130). -/
def msbBits (v n : Nat) : List Bool := (List.range n).map fun i => v.testBit (n - 1 - i)

/-- `put_bits(v, n)` (R130). -/
def putBits (v n : Nat) (s : State) : Except Stop State := putBitList (msbBits v n) s

/-- `fetch_byte()` (R133). -/
def fetchByte (s : State) : Except Stop State :=
  if s.inPtr.toNat ≥ s.inEnd.toNat then .error (.raise .trunc 0)
  else (memRead s.inPtr.toNat s).bind fun b => .ok { s with brAcc := b, inPtr := s.inPtr + 1 }

/-- The bytes that `n` turns of `fetch_byte()` load, in order. -/
def fetchBytes : Nat → State → Except Stop (List Byte × State)
  | 0, s => .ok ([], s)
  | n + 1, s => (fetchByte s).bind fun s => (fetchBytes n s).map fun (vs, t) => (s.brAcc :: vs, t)

/-- The bit at the read position taken from a reader that holds at least one unread bit (R132). -/
def takeBit (s : State) : Bool × State := (s.brAcc.getLsbD (s.brLeft - 1), { s with brLeft := s.brLeft - 1 })

/-- `get_bit()` (R132). -/
def getBit (s : State) : Except Stop (Bool × State) :=
  if s.brLeft = 0 then (fetchByte s).bind fun s => .ok (takeBit { s with brLeft := 8 })
  else .ok (takeBit s)

/-- `get_bits(n)` (R132), `v` being the bits read so far. -/
def getBits : Nat → Nat → State → Except Stop (Nat × State)
  | 0, v, s => .ok (v, s)
  | n + 1, v, s => (getBit s).bind fun (b, s) => getBits n (2 * v + b.toNat) s

/-! ### Engine control -/

/-- NOP (R136). -/
def execNop (s : State) : Result := .next (s.succeed 0)

/-! ### Bit packer -/

/-- BP_CLEAR (R137). -/
def execBpClear (s : State) : Result :=
  .next ({ s with bpAcc := 0, bpFree := 8 }.succeed (toWord (8 - s.bpFree)))

/-- The pre-checks of BP_PUT (R138). -/
def bpPutChecks (s : State) : List Check :=
  [outCheck s, ⟨s.argN.toNat ≤ 64, .arg, 1⟩, ⟨s.bytesFor s.argN.toNat ≤ s.outRoom, .overflow, 3⟩]

/-- BP_PUT (R138). The pre-checks rule out every `raise` (R134). -/
def execBpPut (s : State) : Result :=
  withChecks s (bpPutChecks s) fun s =>
    conclude (drawOutStream s)
      ((putBits s.argVal.toNat s.argN.toNat s).map fun t => ⟨t, toWord (s.bytesFor s.argN.toNat), false⟩)

/-- The pre-checks of BP_FLUSH (R139). -/
def bpFlushChecks (s : State) : List Check := [outCheck s, ⟨s.bpFree ≥ 8 || s.outRoom ≥ 1, .overflow, 3⟩]

/-- BP_FLUSH (R139). The pre-checks rule out every `raise` (R134). -/
def execBpFlush (s : State) : Result :=
  withChecks s (bpFlushChecks s) fun s =>
    if s.bpFree < 8 then
      conclude (drawOutStream s)
        ((emitByte s.bpAcc s).map fun t => ⟨{ t with bpAcc := 0, bpFree := 8 }, toWord s.bpFree, false⟩)
    else .next (s.succeed 0)

/-! ### Bit reader -/

/-- BR_ALIGN (R140). -/
def execBrAlign (s : State) : Result := .next ({ s with brLeft := 0, brAcc := 0 }.succeed (toWord s.brLeft))

/-- The pre-checks of BR_GET (R141). -/
def brGetChecks (s : State) : List Check :=
  [inCheck s, ⟨s.argN.toNat ≤ 64, .arg, 1⟩, ⟨s.argN.toNat ≤ s.bitsAvail, .trunc, 0⟩]

/-- BR_GET (R141). The pre-checks rule out every `raise` (R134). -/
def execBrGet (s : State) : Result :=
  withChecks s (brGetChecks s) fun s =>
    conclude (drawInCursor s) ((getBits s.argN.toNat 0 s).map fun (v, t) => ⟨t, toWord v, false⟩)

end Sys2Proof.Machine
end

