-- ==== Sys2Proof/Machine/HuffmanEncoder.lean ====
section
/-! DEFINITION. The canonical Huffman encoder: HFREQ_CLR, HFREQ_ADD, HBUILD, HCB_WRITE, HENC and HENC_EOB
(spec/41_huffman_encoder.md). -/

namespace Sys2Proof.Machine

/-- The end-of-block pseudo-symbol (R8, R17). -/
def eobSymbol : Nat := 256

/-! ### Frequency table -/

/-- HFREQ_CLR (R151). -/
def execHfreqClr (s : State) : Result := .next ({ s with freq := Vector.replicate 256 0 }.succeed 0)

/-- One occurrence of a byte counted, wrapping mod 2^64 (R152). -/
def countByte (freq : Vector Word 256) (b : Byte) : Vector Word 256 :=
  freq.set b.toNat (tableGet freq b.toNat + 1)

/-- The pre-checks of HFREQ_ADD (R152). -/
def hfreqAddChecks (s : State) : List Check := [srcCheck s]

/-- HFREQ_ADD (R152). -/
def execHfreqAdd (s : State) : Result :=
  withChecks s (hfreqAddChecks s) fun s =>
    conclude s ((snapshot s.src.toNat s.srcLen.toNat s).map fun bs =>
      ⟨{ s with freq := bs.foldl countByte s.freq }, s.srcLen, false⟩)

/-! ### Code construction (R154 to R157) -/

/-- The order on pairs of numbers that R155 (weight, id) and R156 (length, symbol) both use: lexicographic. -/
def lexLe (x y : Nat × Nat) : Bool := x.1 < y.1 || (x.1 == y.1 && x.2 ≤ y.2)

/-- A pair put into an ascending list of pairs. -/
def lexInsert (x : Nat × Nat) : List (Nat × Nat) → List (Nat × Nat)
  | [] => [x]
  | y :: ys => if lexLe x y then x :: y :: ys else y :: lexInsert x ys

/-- A list of pairs in ascending order. -/
def lexSort (l : List (Nat × Nat)) : List (Nat × Nat) := l.foldr lexInsert []

/-- The weight of a participant (R154): FREQ of a byte, 0 of EOB. -/
def weight (freq : Vector Word 256) (sym : Nat) : Nat :=
  if sym < 256 then (tableGet freq sym).toNat else 0

/-- The byte values with a non-zero frequency, ascending (R154). -/
def codedBytes (freq : Vector Word 256) : List Nat :=
  (freq.toList.zipIdx.filter fun p => p.1 != 0).map (·.2)

/-- `participants()` (R154). -/
def participants (freq : Vector Word 256) : List Nat := codedBytes freq ++ [eobSymbol]

/-- What the merging of R155 has so far: the heap, ascending, so that the two smallest stand first; the side array `parent`, newest entry
first; and the next internal id. -/
structure Merging where
  heap : List (Nat × Nat)
  parent : List (Nat × Nat)
  next : Nat
  deriving DecidableEq, Repr

/-- One turn of the loop of R155; a heap of one node is left alone. -/
def mergeOnce (m : Merging) : Merging :=
  match m.heap with
  | (wa, a) :: (wb, b) :: rest =>
    { heap := lexInsert (wa + wb, m.next) rest, parent := (b, m.next) :: (a, m.next) :: m.parent, next := m.next + 1 }
  | _ => m

/-- `k` turns of the loop of R155. Each takes one node off the heap, so |P| turns leave one. -/
def mergeTimes : Nat → Merging → Merging
  | 0, m => m
  | k + 1, m => mergeTimes k (mergeOnce m)

/-- The heap of R155 before the loop; internal ids start at 257. -/
def initialHeap (freq : Vector Word 256) (ps : List Nat) : Merging :=
  { heap := lexSort (ps.map fun p => (weight freq p, p)), parent := [], next := 257 }

/-- The number of steps that a node takes to reach the node without a parent, which is the root (R155). `fuel` bounds the steps: a tree of 513 ids has no
longer path. -/
def hopsToRoot (parent : List (Nat × Nat)) : Nat → Nat → Nat
  | 0, _ => 0
  | fuel + 1, id =>
    match parent.lookup id with
    | some p => hopsToRoot parent fuel p + 1
    | none => 0

/-- `code_lengths(P)` (R155): each participant with its code length, as pairs (length, symbol). -/
def codeLengths (freq : Vector Word 256) (ps : List Nat) : List (Nat × Nat) :=
  let parent := (mergeTimes ps.length (initialHeap freq ps)).parent
  ps.map fun p => (hopsToRoot parent 513 p, p)

/-- The longest length (R153). -/
def maxLength (lens : List (Nat × Nat)) : Nat := lens.foldl (fun m p => max m p.1) 0

/-- The code of one participant. -/
structure Code where
  sym : Nat
  len : Nat
  val : Nat
  deriving DecidableEq, Repr

/-- The codes of the participants after one of code `prev` and length `prevLen` (R156). -/
def codesAfter (prev prevLen : Nat) : List (Nat × Nat) → List Code
  | [] => []
  | (l, sym) :: rest =>
    let c := (prev + 1) <<< (l - prevLen)
    ⟨sym, l, c⟩ :: codesAfter c l rest

/-- `canonical_codes(P, len)` (R156). -/
def canonicalCodes (lens : List (Nat × Nat)) : List Code :=
  match lexSort lens with
  | [] => []
  | (l, sym) :: rest => ⟨sym, l, 0⟩ :: codesAfter 0 l rest

/-- The code of a symbol, if it has one. -/
def codeOf (codes : List Code) (sym : Nat) : Option Code := codes.find? fun c => c.sym == sym

/-- `write_code_table(P, len, code, L)` (R157). -/
def State.writeCodeTable (s : State) (codes : List Code) (l : Nat) : State :=
  { s with
    codeLen := tabulate 257 fun i => ((codeOf codes i).map (·.len)).getD 0
    codeVal := tabulate 257 fun i => toWord (((codeOf codes i).map (·.val)).getD 0)
    encValid := true
    encMaxlen := l }

/-- HBUILD (R153): an empty alphabet clears the code table and is no error (R164); a code longer than CODE_LEN_MAX clears it and is ERR_CODELEN;
any other code is written. -/
def execHbuild (s : State) : Result :=
  let lens := codeLengths s.freq (participants s.freq)
  let l := maxLength lens
  if (codedBytes s.freq).isEmpty then .next (s.clearCodeTable.succeed 0)
  else if l > Config.codeLenMax then .next (s.clearCodeTable.fail .codelen (toWord l))
  else .next ((s.writeCodeTable (canonicalCodes lens) l).succeed (toWord l))

/-! ### Codebook and symbols -/

/-- The bytes that have a code, as pairs (length, symbol) ascending (R158). -/
def transmitted (s : State) : List (Nat × Nat) :=
  lexSort ((List.range 256).filterMap fun i =>
    if tableGet s.codeLen i > 0 then some (tableGet s.codeLen i, i) else none)

/-- The transmitted codebook (R158): L - 1, the L counts, the symbols. EOB is not counted and not sent. -/
def codebookBytes (s : State) : List Byte :=
  [toByte (s.encMaxlen - 1)]
  ++ (List.range s.encMaxlen).map (fun k => toByte ((transmitted s).countP fun p => p.1 == k + 1))
  ++ (transmitted s).map fun p => toByte p.2

/-- The length of the codebook, `1 + L + S` (R158). -/
def codebookLength (s : State) : Nat := 1 + s.encMaxlen + (transmitted s).length

/-- The pre-checks of HCB_WRITE (R158). -/
def hcbWriteChecks (s : State) : List Check :=
  [outCheck s, encTableCheck s, ⟨s.bpFree == 8, .align, 1⟩, ⟨codebookLength s ≤ s.outRoom, .overflow, 3⟩]

/-- HCB_WRITE (R158). The pre-checks rule out every `raise`. -/
def execHcbWrite (s : State) : Result :=
  withChecks s (hcbWriteChecks s) fun s =>
    conclude (drawOutStream s)
      ((emitBytes (codebookBytes s) s).map fun t => ⟨t, toWord (codebookLength s), false⟩)

/-- The loop of HENC (R159): the bytes left, the bits put so far. The tables are not written by it. -/
def encodeBytes : List Byte → Nat → State → Except Stop (State × Nat)
  | [], bits, s => .ok (s, bits)
  | b :: bs, bits, s =>
    let len := tableGet s.codeLen b.toNat
    if len = 0 then .error (.raise .nocode (toWord b.toNat))
    else (putBits (tableGet s.codeVal b.toNat).toNat len s).bind (encodeBytes bs (bits + len))

/-- The pre-checks of HENC (R159). -/
def hencChecks (s : State) : List Check :=
  [srcCheck s, outCheck s, encTableCheck s,
   disjointCheck s.src.toNat s.srcLen.toNat s.outPtr.toNat (s.outEnd.toNat - s.outPtr.toNat)]

/-- HENC (R159). On a run-time error the output stream is drawn (R263). -/
def execHenc (s : State) : Result :=
  withChecks s (hencChecks s) fun s =>
    conclude (drawOutStream s)
      ((snapshot s.src.toNat s.srcLen.toNat s).bind fun bs =>
        (encodeBytes bs 0 s).map fun (t, bits) => ⟨t, toWord bits, false⟩)

/-- CODE_LEN[256]. -/
def eobLen (s : State) : Nat := tableGet s.codeLen eobSymbol

/-- The pre-checks of HENC_EOB (R160). -/
def hencEobChecks (s : State) : List Check :=
  [outCheck s, encTableCheck s, ⟨s.bytesFor (eobLen s) ≤ s.outRoom, .overflow, 3⟩]

/-- HENC_EOB (R160). The pre-checks rule out every `raise`. -/
def execHencEob (s : State) : Result :=
  withChecks s (hencEobChecks s) fun s =>
    conclude (drawOutStream s)
      ((putBits (tableGet s.codeVal eobSymbol).toNat (eobLen s) s).map fun t => ⟨t, toWord (eobLen s), false⟩)

end Sys2Proof.Machine
end

