-- ==== Sys2Proof/Machine/HuffmanDecoder.lean ====
section
/-! DEFINITION. The canonical Huffman decoder: HCB_READ, HDEC and HDEC_SYM (spec/42_huffman_decoder.md). -/

namespace Sys2Proof.Machine

/-! ### Codebook parse and tables -/

/-- A codebook as parsed (R181): the counts c[1..L], so L is their number, and the symbols. -/
structure Codebook where
  counts : List Nat
  syms : List Nat
  deriving DecidableEq, Repr

/-- L, the number of counts of a codebook. -/
def Codebook.maxLen (cb : Codebook) : Nat := cb.counts.length

/-- `sum over l in 1..L of c[l] * 2^(L - l)` (R181), of counts for the lengths up to L, the list's last. -/
def kraftSum : List Nat → Nat
  | [] => 0
  | c :: cs => c * 2 ^ cs.length + kraftSum cs

/-- `fail(r)` of R181: ERR_CODEBOOK(r). -/
def codebookFail {α : Type} (r : Nat) : Except Stop α := .error (.raise .codebook (toWord r))

/-- The parse of R181 with its checks in their order, every byte read by `fetch_byte` (R13); `p` of R181 is IN_PTR of the state it works
on. Each byte is known to be there before it is fetched, so no `raise` of R133 is reached. -/
def fetchCodebook (s : State) : Except Stop (Codebook × State) :=
  if s.inRoom < 1 then codebookFail 1
  else
    (fetchByte s).bind fun s =>
      let l := s.brAcc.toNat + 1
      if l > Config.codeLenMax then codebookFail 2
      else if s.inRoom < l then codebookFail 1
      else
        (fetchBytes l s).bind fun (cs, s) =>
          let counts := cs.map BitVec.toNat
          if counts.sum > 256 then codebookFail 3
          else if s.inRoom < counts.sum then codebookFail 1
          else
            (fetchBytes counts.sum s).bind fun (syms, s) =>
              if kraftSum counts + 1 ≠ 2 ^ l then codebookFail 4
              else .ok (⟨counts, syms.map BitVec.toNat⟩, s)

/-- DEC_CNT[1..L] of `build_tables` (R182): the counts, with EOB's slot added at length L. -/
def Codebook.decCounts (cb : Codebook) : List Nat := cb.counts.dropLast ++ [cb.counts.getLastD 0 + 1]

/-- DEC_FIRST_CODE[l] and DEC_FIRST_SYM[l] from some length on, by the recurrence of R182. -/
def firstTables : List Nat → Nat → Nat → List (Nat × Nat)
  | [], _, _ => []
  | c :: cs, code, sym => (code, sym) :: firstTables cs ((code + c) <<< 1) (sym + c)

/-- `build_tables(L, c, S, sym)` (R182). -/
def State.buildTables (s : State) (cb : Codebook) : State :=
  let first := firstTables cb.decCounts 0 0
  let alpha := cb.syms ++ [eobSymbol]
  { s with
    decCnt := tabulate 64 fun i => cb.decCounts.getD i 0
    decFirstCode := tabulate 64 fun i => toWord (first.getD i (0, 0)).1
    decFirstSym := tabulate 64 fun i => (first.getD i (0, 0)).2
    decAlpha := tabulate 257 fun i => alpha.getD i 0
    decValid := true
    decMaxlen := cb.maxLen }

/-- The codebook's length in bytes, `1 + L + S` (R181). -/
def Codebook.size (cb : Codebook) : Nat := 1 + cb.maxLen + cb.syms.length

/-- The pre-checks of HCB_READ (R181). -/
def hcbReadChecks (s : State) : List Check := [inCheck s, ⟨s.brLeft == 0, .align, 2⟩]

/-- The operation of HCB_READ (R181). Of the state that the parse worked on only IN_PTR is kept: "BR_ACC and BR_LEFT are unchanged" (log 21). -/
def readCodebook (s : State) : Except Stop Finished :=
  (fetchCodebook s).map fun (cb, t) => ⟨{ s.buildTables cb with inPtr := t.inPtr }, toWord cb.size, false⟩

/-- HCB_READ (R181). Its run-time error has the defined effect of clearing the decoder tables; IN_PTR keeps its value. -/
def execHcbRead (s : State) : Result :=
  withChecks s (hcbReadChecks s) fun s => conclude s.clearDecTables (readCodebook s)

/-! ### Decoding -/

/-- The symbol of a code `cv` of length `len` (R183): `DEC_ALPHA[DEC_FIRST_SYM[len] + (cv - DEC_FIRST_CODE[len])]`. -/
def symbolOf (s : State) (cv len : Nat) : Nat := tableGet s.decAlpha (s.firstSym len + (cv - s.firstCode len))

/-- The loop of `decode_symbol` (R183). `more` is how many bits the code may still have after the next one, so it is 0 when the next bit makes
len = L. -/
def decodeFrom : Nat → Nat → Nat → State → Except Stop (Nat × State)
  | 0, cv, len, s =>
    (getBit s).bind fun (b, s) => .ok (symbolOf s (2 * cv + b.toNat) (len + 1), s)
  | more + 1, cv, len, s =>
    (getBit s).bind fun (b, s) =>
      let cv := 2 * cv + b.toNat
      if 2 * cv < s.firstCode (len + 2) then .ok (symbolOf s cv (len + 1), s)
      else decodeFrom more cv (len + 1) s

/-- `decode_symbol()` (R183). -/
def decodeSymbol (s : State) : Except Stop (Nat × State) := decodeFrom (s.decMaxlen - 1) 0 0 s

/-- The loop of HDEC (R185) with `k` bytes written so far. `limit` is LIMIT when L = 1. Every turn but the last reads at least one bit, so as
many turns as the stream has bits and one more always reach an end; the answer for no turns left is what the next read would be. -/
def decodeLoop (limit : Option Nat) : Nat → Nat → State → Except Stop Finished
  | 0, _, _ => .error (.raise .trunc 0)
  | turns + 1, k, s =>
    if limit = some k then .ok ⟨s, toWord k, false⟩
    else
      (decodeSymbol s).bind fun (sym, s) =>
        if sym = eobSymbol then .ok ⟨s, toWord k, true⟩
        else if k = s.dstCap.toNat then .error (.raise .overflow 2)
        else (memWrite (s.dst.toNat + k) (toByte sym) s).bind (decodeLoop limit turns (k + 1))

/-- The pre-checks of HDEC (R185). -/
def hdecChecks (s : State) : List Check :=
  [inCheck s, dstCheck s, decTableCheck s,
   disjointCheck s.inPtr.toNat (s.inEnd.toNat - s.inPtr.toNat) s.dst.toNat s.dstCap.toNat]

/-- HDEC and HDEC.L (R185). On a run-time error the destination and the input cursor are drawn (R263). -/
def execHdec (l : Bool) (s : State) : Result :=
  withChecks s (hdecChecks s) fun s =>
    conclude (drawInCursor (drawDst s))
      (decodeLoop (if l then some s.limit.toNat else none) (s.bitsAvail + 1) 0 s)

/-- The pre-checks of HDEC_SYM (R186). -/
def hdecSymChecks (s : State) : List Check := [inCheck s, decTableCheck s]

/-- HDEC_SYM (R186). On a run-time error the input cursor is drawn (R263). -/
def execHdecSym (s : State) : Result :=
  withChecks s (hdecSymChecks s) fun s =>
    conclude (drawInCursor s)
      ((decodeSymbol s).map fun (sym, t) => ⟨t, toWord sym, sym == eobSymbol⟩)

end Sys2Proof.Machine
end

