-- ==== Sys2Proof/Machine/RunLength.lean ====
section
/-! DEFINITION. The run-length encoder and decoder: RLE_MARK, RLE_ENC and RLE_DEC (spec/44_rle.md). -/

namespace Sys2Proof.Machine

/-! ### Marker selection (R211) -/

/-- The values of the maximal runs of length exactly 1 of a sequence, `prev` being the byte before it. Runs are not capped. -/
def singletons : Option Byte → List Byte → List Byte
  | _, [] => []
  | prev, b :: bs =>
    if prev ≠ some b ∧ bs.head? ≠ some b then b :: singletons (some b) bs else singletons (some b) bs

/-- `single[v]` of R211. -/
def singletonCount (bs : List Byte) (v : Nat) : Nat := (singletons none bs).countP fun b => b.toNat == v

/-- The least value among the `n` first whose count is least (R211): a later value replaces the best so far only with a smaller count. -/
def leastMarker (bs : List Byte) : Nat → Nat
  | 0 => 0
  | n + 1 =>
    let m := leastMarker bs n
    if singletonCount bs n < singletonCount bs m then n else m

/-- The marker chosen for a sequence (R211): all 256 values take part. -/
def optimalMarker (bs : List Byte) : Byte := toByte (leastMarker bs 256)

/-- The pre-checks of RLE_MARK (R211). -/
def rleMarkChecks (s : State) : List Check := [srcCheck s]

/-- RLE_MARK (R211). -/
def execRleMark (s : State) : Result :=
  withChecks s (rleMarkChecks s) fun s =>
    conclude s ((snapshot s.src.toNat s.srcLen.toNat s).map fun bs =>
      ⟨{ s with marker := optimalMarker bs }, toWord (optimalMarker bs).toNat, false⟩)

/-! ### Encoding (R210, R212) -/

/-- How many of the first `most` bytes of a sequence equal `v` without a gap. -/
def leading (v : Byte) : Nat → List Byte → Nat
  | most + 1, b :: bs => if b = v then leading v most bs + 1 else 0
  | 0, _ => 0
  | _ + 1, [] => 0

/-- What one encoding run of `c` bytes `v` is written as, with marker `m` (R212). -/
def encodeRun (m v : Byte) (c : Nat) : List Byte :=
  if c ≥ 3 then [m, toByte (c - 1), v]
  else if v = m then [m, toByte (c - 1)]
  else List.replicate c v

/-- The loop of RLE_ENC (R212): encoding runs of at most 256 bytes cut from the left. Each turn takes at least one byte, so as many turns as bytes
suffice. -/
def rleEncodeTurns (m : Byte) : Nat → List Byte → List Byte
  | turns + 1, v :: rest =>
    let more := leading v 255 rest
    encodeRun m v (more + 1) ++ rleEncodeTurns m turns (rest.drop more)
  | _ + 1, [] => []
  | 0, _ => []

/-- The output of RLE_ENC without a limit on its length (R212). -/
def rleEncode (m : Byte) (bs : List Byte) : List Byte := rleEncodeTurns m bs.length bs

/-! ### Decoding (R213) -/

/-- The states of the decoder of R213: SCANNING, READING_COUNT, READING_SYMBOL with the count byte read. -/
inductive RleState where
  | scan
  | count
  | symbol (f : Nat)
  deriving DecidableEq, Repr

/-- The output of RLE_DEC without a limit on its length, and the state in which the input ends (R213). -/
def rleDecode (m : Byte) : RleState → List Byte → List Byte × RleState
  | st, [] => ([], st)
  | .scan, b :: bs =>
    if b = m then rleDecode m .count bs
    else
      let (out, e) := rleDecode m .scan bs
      (b :: out, e)
  | .count, b :: bs =>
    if b.toNat ≤ 1 then
      let (out, e) := rleDecode m .scan bs
      (List.replicate (b.toNat + 1) m ++ out, e)
    else rleDecode m (.symbol b.toNat) bs
  | .symbol f, b :: bs =>
    let (out, e) := rleDecode m .scan bs
    (List.replicate (f + 1) b ++ out, e)

/-- The run-time errors of an input that ends inside an escape (R213). -/
def escapeError : RleState → Option Stop
  | .scan => none
  | .count => some (.raise .rle 1)
  | .symbol _ => some (.raise .rle 2)

/-! ### The commands -/

/-- The pre-checks that RLE_ENC and RLE_DEC share (R212, R213). -/
def rleChecks (s : State) : List Check :=
  [srcCheck s, dstCheck s, disjointCheck s.src.toNat s.srcLen.toNat s.dst.toNat s.dstCap.toNat]

/-- The whole output of an RLE command given to the `out` of R212, byte by byte: some `out(b)` finds `k = DST_CAP` exactly when there are more than
DST_CAP bytes, and that is the first `raise` in program order. Else the bytes are written from DST on, and `late` is raised after them,
or RESULT is their number. -/
def outputBytes (out : List Byte) (late : Option Stop) (s : State) : Except Stop Finished :=
  if out.length > s.dstCap.toNat then .error (.raise .overflow 2)
  else
    match late with
    | some e => .error e
    | none => (writeBytes s.dst.toNat out s).map fun t => ⟨t, toWord out.length, false⟩

/-- RLE_ENC (R212). On a run-time error the destination is drawn (R263). -/
def execRleEnc (s : State) : Result :=
  withChecks s (rleChecks s) fun s =>
    conclude (drawDst s) ((snapshot s.src.toNat s.srcLen.toNat s).bind fun bs =>
      outputBytes (rleEncode s.marker bs) none s)

/-- RLE_DEC (R213). On a run-time error the destination is drawn (R263). -/
def execRleDec (s : State) : Result :=
  withChecks s (rleChecks s) fun s =>
    conclude (drawDst s) ((snapshot s.src.toNat s.srcLen.toNat s).bind fun bs =>
      outputBytes (rleDecode s.marker .scan bs).1 (escapeError (rleDecode s.marker .scan bs).2) s)

end Sys2Proof.Machine
end

