-- ==== Sys2Proof/Syntax.lean ====
section
/-! DEFINITION. The 25 commands of the CHE core, one constructor per row of the opcode map (spec/30_encoding.md R102).
The only operand a command word carries is the flag F, and only HDEC, TILE_SER and TILE_DESER admit it (R101). Every other operand is a
register read when the command starts (R103). -/

namespace Sys2Proof

inductive Instr where
  /-- 0x00 NOP (R136). -/
  | nop
  /-- 0x10 BP_CLEAR (R137). -/
  | bpClear
  /-- 0x11 BP_PUT (R138). -/
  | bpPut
  /-- 0x12 BP_FLUSH (R139). -/
  | bpFlush
  /-- 0x18 BR_ALIGN (R140). -/
  | brAlign
  /-- 0x19 BR_GET (R141). -/
  | brGet
  /-- 0x20 HFREQ_CLR (R151). -/
  | hfreqClr
  /-- 0x21 HFREQ_ADD (R152). -/
  | hfreqAdd
  /-- 0x22 HBUILD (R153). -/
  | hbuild
  /-- 0x23 HCB_WRITE (R158). -/
  | hcbWrite
  /-- 0x24 HENC (R159). -/
  | henc
  /-- 0x25 HENC_EOB (R160). -/
  | hencEob
  /-- 0x28 HCB_READ (R181). -/
  | hcbRead
  /-- 0x29 HDEC, flag L: stop after LIMIT symbols (R185). -/
  | hdec (l : Bool)
  /-- 0x2A HDEC_SYM (R186). -/
  | hdecSym
  /-- 0x30 DELTA_ENC (R200). -/
  | deltaEnc
  /-- 0x31 DELTA_DEC (R201). -/
  | deltaDec
  /-- 0x38 RLE_MARK (R211). -/
  | rleMark
  /-- 0x39 RLE_ENC (R212). -/
  | rleEnc
  /-- 0x3A RLE_DEC (R213). -/
  | rleDec
  /-- 0x40 GEOM (R232). -/
  | geom
  /-- 0x41 TILE_LOAD (R233). -/
  | tileLoad
  /-- 0x42 TILE_STORE (R234). -/
  | tileStore
  /-- 0x43 TILE_SER, flag T: transposed order (R236). -/
  | tileSer (t : Bool)
  /-- 0x44 TILE_DESER, flag T: transposed order (R237). -/
  | tileDeser (t : Bool)
  deriving DecidableEq, Repr

end Sys2Proof
end

