-- ==== Sys2Proof/Machine/Dispatch.lean ====
section
/-! DEFINITION. The meaning of each command, one arm per constructor of Instr (spec/30_encoding.md R102, R109). -/

namespace Sys2Proof.Machine

open Host

/-- The command engine's performance of a legal command, from its start to its completion (R109). -/
def exec (i : Instr) (s : State) : Host.Outcome State Fault Refusal :=
  match i with
  | .nop => Sys2Proof.Machine.execNop s
  | .bpClear => Sys2Proof.Machine.execBpClear s
  | .bpPut => Sys2Proof.Machine.execBpPut s
  | .bpFlush => Sys2Proof.Machine.execBpFlush s
  | .brAlign => Sys2Proof.Machine.execBrAlign s
  | .brGet => Sys2Proof.Machine.execBrGet s
  | .hfreqClr => Sys2Proof.Machine.execHfreqClr s
  | .hfreqAdd => Sys2Proof.Machine.execHfreqAdd s
  | .hbuild => Sys2Proof.Machine.execHbuild s
  | .hcbWrite => Sys2Proof.Machine.execHcbWrite s
  | .henc => Sys2Proof.Machine.execHenc s
  | .hencEob => Sys2Proof.Machine.execHencEob s
  | .hcbRead => Sys2Proof.Machine.execHcbRead s
  | .hdec l => Sys2Proof.Machine.execHdec l s
  | .hdecSym => Sys2Proof.Machine.execHdecSym s
  | .deltaEnc => Sys2Proof.Machine.execDeltaEnc s
  | .deltaDec => Sys2Proof.Machine.execDeltaDec s
  | .rleMark => Sys2Proof.Machine.execRleMark s
  | .rleEnc => Sys2Proof.Machine.execRleEnc s
  | .rleDec => Sys2Proof.Machine.execRleDec s
  | .geom => Sys2Proof.Machine.execGeom s
  | .tileLoad => Sys2Proof.Machine.execTileLoad s
  | .tileStore => Sys2Proof.Machine.execTileStore s
  | .tileSer t => Sys2Proof.Machine.execTileSer t s
  | .tileDeser t => Sys2Proof.Machine.execTileDeser t s

end Sys2Proof.Machine
end

