-- ==== Sys2Proof/Machine/Flags.lean ====
section
/-! DEFINITION. The STATUS register as the host reads it, its write-1-to-clear bits, and the interrupt line (R23, R47, R49, R260, R268). -/

namespace Sys2Proof.Machine

/-- The number of a completion code (R260). -/
def ErrCode.number : ErrCode → Nat
  | .ok => 0x00
  | .codebook => 0x01
  | .trunc => 0x02
  | .arg => 0x03
  | .illegal => 0x04
  | .range => 0x05
  | .overflow => 0x06
  | .align => 0x07
  | .nocode => 0x08
  | .notable => 0x09
  | .rle => 0x0A
  | .overlap => 0x0B
  | .codelen => 0x0C

/-- STATUS.ERR (R23): "reads 1 exactly when ERRCODE is not 0". -/
def State.err (s : State) : Bool := s.errCode.number != 0

/-- STATUS as a read returns it (R23): bit 7 and bits 63:16 read 0. -/
def State.statusWord (s : State) : Word :=
  toWord (s.busy.toNat + 2 * s.done.toNat + 4 * s.err.toNat + 8 * s.overrun.toNat + 16 * s.encValid.toNat
    + 32 * s.decValid.toNat + 64 * s.eob.toNat + 256 * s.errCode.number)

/-- A host write to STATUS (R23): writing 1 to DONE or OVERRUN clears it, every other bit is ignored, and the write is never dropped. -/
def State.writeStatus (s : State) (v : Word) : State :=
  { s with done := s.done && !v.getLsbD 1, overrun := s.overrun && !v.getLsbD 3 }

/-- The interrupt output IRQ (R47, R268). -/
def State.irq (s : State) : Bool := s.ie && s.done

/-- A host write dropped because the core is busy (R23, R110, R111). -/
def State.dropWrite (s : State) : State := { s with overrun := true }

end Sys2Proof.Machine
end

