-- ==== Sys2Proof/WellFormed.lean ====
section
/-! DEFINITION. Which command words are legal: the three conditions of spec/30_encoding.md R106, each a check of its own, over the
fields of the one command format (R100). A term of `Instr` carries only admitted flags, so what can be ill formed is the tuple of fields. -/

namespace Sys2Proof

/-- The fields of a command word (R100): OP in bits 7:0, F in bit 8, RSV in bits 63:9. -/
structure CmdFields where
  op : BitVec 8
  flag : Bool
  rsv : BitVec 55
  deriving DecidableEq, Repr

/-- The opcodes of the map of R102. -/
def opcodes : List Nat :=
  [0x00, 0x10, 0x11, 0x12, 0x18, 0x19, 0x20, 0x21, 0x22, 0x23, 0x24, 0x25, 0x28] ++
  [0x29, 0x2A, 0x30, 0x31, 0x38, 0x39, 0x3A, 0x40, 0x41, 0x42, 0x43, 0x44]

/-- The opcodes that admit F = 1 (R101). -/
def flaggedOpcodes : List Nat := [0x29, 0x43, 0x44]

/-- R106, first condition: bits 63:9 are all 0. -/
def CmdFields.rsvZero (c : CmdFields) : Bool := c.rsv == 0

/-- R106, second condition: OP is in the table of R102. -/
def CmdFields.opKnown (c : CmdFields) : Bool := opcodes.contains c.op.toNat

/-- R106, third condition: F = 1 only on 0x29, 0x43 and 0x44. -/
def CmdFields.flagAdmitted (c : CmdFields) : Bool := !c.flag || flaggedOpcodes.contains c.op.toNat

/-- A legal command word: none of the conditions of R106 makes it illegal. -/
def CmdFields.wf (c : CmdFields) : Bool := c.rsvZero && c.opKnown && c.flagAdmitted

/-- The opcode of a command (R102). -/
def Instr.op : Instr → Nat
  | .nop => 0x00
  | .bpClear => 0x10
  | .bpPut => 0x11
  | .bpFlush => 0x12
  | .brAlign => 0x18
  | .brGet => 0x19
  | .hfreqClr => 0x20
  | .hfreqAdd => 0x21
  | .hbuild => 0x22
  | .hcbWrite => 0x23
  | .henc => 0x24
  | .hencEob => 0x25
  | .hcbRead => 0x28
  | .hdec _ => 0x29
  | .hdecSym => 0x2A
  | .deltaEnc => 0x30
  | .deltaDec => 0x31
  | .rleMark => 0x38
  | .rleEnc => 0x39
  | .rleDec => 0x3A
  | .geom => 0x40
  | .tileLoad => 0x41
  | .tileStore => 0x42
  | .tileSer _ => 0x43
  | .tileDeser _ => 0x44

/-- The flag F of a command (R101): 0 for every command that admits none. -/
def Instr.flag : Instr → Bool
  | .hdec l => l
  | .tileSer t => t
  | .tileDeser t => t
  | .nop | .bpClear | .bpPut | .bpFlush | .brAlign | .brGet | .hfreqClr | .hfreqAdd | .hbuild | .hcbWrite | .henc | .hencEob
  | .hcbRead | .hdecSym | .deltaEnc | .deltaDec | .rleMark | .rleEnc | .rleDec | .geom | .tileLoad | .tileStore => false

/-- The fields of a command's word (R100). -/
def Instr.fields (i : Instr) : CmdFields := { op := BitVec.ofNat 8 i.op, flag := i.flag, rsv := 0 }

/-- Well-formedness of a command: its fields are those of a legal word (R106). -/
def Instr.wf (i : Instr) : Bool := i.fields.wf

end Sys2Proof
end

