-- ==== Sys2Proof/Decode.lean ====
section
/-! DEFINITION. The decoder of the 64-bit command word, total, rejecting by name (spec/30_encoding.md R100 to R102, R106, R107), and the
encoder written from the same map. There is one format and one length, so nothing is left over after a word. -/

namespace Sys2Proof

/-- Why a command word is illegal, one name for each condition of R106. All three complete with ERR_ILLEGAL. -/
inductive DecodeError where
  /-- Bits 63:9 are not all 0. -/
  | reservedBits
  /-- OP is not in the table of R102. -/
  | unknownOp
  /-- F = 1 and OP is not 0x29, 0x43 or 0x44. -/
  | flagNotAdmitted
  deriving DecidableEq, Repr

/-- The fields of a command word: `OP = w[7:0]`, `F = w[8]`, `RSV = w[63:9]` (R100). -/
def fieldsOf (w : Word) : CmdFields :=
  { op := w.extractLsb' 0 8, flag := w.getLsbD 8, rsv := w.extractLsb' 9 55 }

/-- The command of an opcode and flag, by the map of R102. `none` where the opcode is not in the map. The flag is looked at only by the
three flagged opcodes. -/
def commandOf (op : Nat) (f : Bool) : Option Instr :=
  match op with
  | 0x00 => some .nop
  | 0x10 => some .bpClear
  | 0x11 => some .bpPut
  | 0x12 => some .bpFlush
  | 0x18 => some .brAlign
  | 0x19 => some .brGet
  | 0x20 => some .hfreqClr
  | 0x21 => some .hfreqAdd
  | 0x22 => some .hbuild
  | 0x23 => some .hcbWrite
  | 0x24 => some .henc
  | 0x25 => some .hencEob
  | 0x28 => some .hcbRead
  | 0x29 => some (.hdec f)
  | 0x2A => some .hdecSym
  | 0x30 => some .deltaEnc
  | 0x31 => some .deltaDec
  | 0x38 => some .rleMark
  | 0x39 => some .rleEnc
  | 0x3A => some .rleDec
  | 0x40 => some .geom
  | 0x41 => some .tileLoad
  | 0x42 => some .tileStore
  | 0x43 => some (.tileSer f)
  | 0x44 => some (.tileDeser f)
  | _ => none

/-- Decoding of a command word's fields (R106). -/
def decodeFields (c : CmdFields) : Except DecodeError Instr :=
  if !c.rsvZero then .error .reservedBits
  else
    match commandOf c.op.toNat c.flag with
    | none => .error .unknownOp
    | some i => if c.flagAdmitted then .ok i else .error .flagNotAdmitted

/-- Decoding of a command word (R106, R107). -/
def decode (w : Word) : Except DecodeError Instr := decodeFields (fieldsOf w)

/-- The word of a command: `OP | (F << 8)`, bits 63:9 zero (R102). -/
def encode (i : Instr) : Word := BitVec.ofNat 64 (i.op ||| (i.flag.toNat <<< 8))

/-- What the decoder reads from the first `nbits` bits of `w`, the bits above them 0. The command word is one 64-bit register value, so bit 0 of
the opcode table is bit 0 of the value written to CMD, and a word longer than 64 bits is no command. -/
def decodeTableWord (nbits w : Nat) : Option Instr :=
  let v := w % 2 ^ nbits
  if v < 2 ^ 64 then
    match decode (BitVec.ofNat 64 v) with
    | .ok i => some i
    | .error _ => none
  else none

end Sys2Proof
end

