-- ==== Sys2Proof/Machine/SoftReset.lean ====
section
/-! DEFINITION. The write set of each command in MEM and TILE (R50), and the soft reset with the command it may abandon (R51, R292, R293). -/

namespace Sys2Proof.Machine

/-- The addresses of the output stream at command start, `out` of R50. -/
def State.outAddrs (s : State) : List Nat := regionAddrs s.outPtr.toNat (s.outEnd.toNat - s.outPtr.toNat)

/-- The addresses of the destination, `dst` of R50. -/
def State.dstAddrs (s : State) : List Nat := regionAddrs s.dst.toNat s.dstCap.toNat

/-- The addresses of MEM in a command's write set (R50), at command start. -/
def memWriteSet (s : State) : Instr → List Nat
  | .bpPut | .bpFlush | .hcbWrite | .henc | .hencEob => s.outAddrs
  | .hdec _ | .rleEnc | .rleDec => s.dstAddrs
  | .deltaEnc | .deltaDec => regionAddrs s.dst.toNat s.srcLen.toNat
  | .tileStore => s.rowMajor.map fun p => s.sampleAddr p.1 p.2
  | .tileSer _ => regionAddrs s.dst.toNat s.tcnt
  | .nop | .bpClear | .brAlign | .brGet | .hfreqClr | .hfreqAdd | .hbuild | .hcbRead | .hdecSym | .rleMark | .geom
  | .tileLoad | .tileDeser _ => []

/-- Whether TILE is in a command's write set (R50). -/
def writesTile : Instr → Bool
  | .tileLoad | .tileDeser _ => true
  | .nop | .bpClear | .bpPut | .bpFlush | .brAlign | .brGet | .hfreqClr | .hfreqAdd | .hbuild | .hcbWrite | .henc | .hencEob
  | .hcbRead | .hdec _ | .hdecSym | .deltaEnc | .deltaDec | .rleMark | .rleEnc | .rleDec | .geom | .tileStore
  | .tileSer _ => false

/-- What an abandoned command leaves in MEM and TILE (R293): its write set there drawn. Only bytes of MEM are drawn: a write set that reaches past
MEM_SIZE has none there. -/
def abandon (i : Instr) (s : State) : State :=
  let s' := drawBytes ((memWriteSet s i).filter fun a => decide (a < s.memSize)) s
  if writesTile i then drawTile s' else s'

/-- MEM and TILE as a soft reset leaves them: unchanged, but for the write set of a pending legal command (R51, R293). An illegal word has no
write set (R106). -/
def State.abandonPending (s : State) : State :=
  match s.pending with
  | none => s
  | some w =>
    match decode w with
    | .ok i => abandon i s
    | .error _ => s

/-- Soft reset (R51, R292): every register and every table but TILE at its reset value, MEM and TILE kept. The parameters of the core, the
agents' moves still to come and the model's own fields are no state of the core and stay. -/
def State.softReset (s : State) : State :=
  let a := s.abandonPending
  { State.reset with
    memAddrBits := a.memAddrBits
    regBase := a.regBase
    memBase := a.memBase
    tile := a.tile
    mem := a.mem
    events := a.events
    portData := a.portData
    seenIdle := a.seenIdle
    checkFailed := a.checkFailed
    draws := a.draws }

end Sys2Proof.Machine
end

