-- ==== Sys2Proof/Machine/Ports.lean ====
section
/-! DEFINITION. The host's accesses to the register port and the memory port (spec/10_state.md section 2, R73, R74, R82, R108 to R111, R311). -/

namespace Sys2Proof.Machine

/-! ### Which accesses the ports admit -/

/-- R73: "Register-port accesses are aligned 64-bit reads and writes" of the 4096-byte port. -/
def regAdmitted (width offset : Nat) : Bool := width == 8 && offset % 8 == 0 && offset < 4096

/-- R74: width 1, 2, 4 or 8, naturally aligned, inside MEM. -/
def memAdmitted (size width addr : Nat) : Bool :=
  [1, 2, 4, 8].contains width && addr % width == 0 && addr + width ≤ size

/-! ### Reading a register -/

/-- ID (R21). -/
def State.idWord (s : State) : Word :=
  toWord (Config.idMagic + 2 ^ 32 * Config.codeLenMax + 2 ^ 40 * s.memAddrBits)

/-- BP_STATE (R32). -/
def State.bpState (s : State) : Word := toWord (s.bpAcc.toNat + 2 ^ 8 * s.bpFree)

/-- BR_STATE (R33). -/
def State.brState (s : State) : Word := toWord (s.brAcc.toNat + 2 ^ 8 * s.brLeft)

/-- TILE_GEOM (R37). -/
def State.tileGeom (s : State) : Word :=
  toWord (s.tw.toNat + 2 ^ 8 * s.th.toNat + 2 ^ 16 * s.tk.toNat + 2 ^ 32 * s.tcnt)

/-- TBL_DATA (R39): the entry TBL_IDX of the table TBL_SEL, 0 when the index is out of range for the table or TBL_SEL is above 7. -/
def State.tblData (s : State) : Word :=
  let i := s.tblIdx.toNat
  match s.tblSel.toNat with
  | 0 => tableGet s.freq i
  | 1 => toWord (tableGet s.codeLen i)
  | 2 => tableGet s.codeVal i
  | 3 => toWord (tableGet s.tile i).toNat
  | 4 => if i = 0 then 0 else toWord (tableGet s.decCnt (i - 1))
  | 5 => if i = 0 then 0 else tableGet s.decFirstCode (i - 1)
  | 6 => if i = 0 then 0 else toWord (tableGet s.decFirstSym (i - 1))
  | 7 => toWord (tableGet s.decAlpha i)
  | _ => 0

/-- The value of the register at an offset of the map of spec/10_state.md section 2, while the core is idle. Reserved offsets read 0 (R40). -/
def State.readReg (s : State) (offset : Nat) : Word :=
  match offset with
  | 0x000 => s.idWord
  | 0x008 => toWord s.ie.toNat
  | 0x010 => s.statusWord
  | 0x018 => s.cmd
  | 0x020 => s.src
  | 0x028 => s.srcLen
  | 0x030 => s.dst
  | 0x038 => s.dstCap
  | 0x040 => s.argN
  | 0x048 => s.argVal
  | 0x050 => s.limit
  | 0x058 => s.result
  | 0x060 => s.errInfo
  | 0x068 => s.outPtr
  | 0x070 => s.outEnd
  | 0x078 => s.inPtr
  | 0x080 => s.inEnd
  | 0x088 => s.bpState
  | 0x090 => s.brState
  | 0x098 => toWord s.marker.toNat
  | 0x0A0 => s.imgBase
  | 0x0A8 => s.imgSize
  | 0x0B0 => s.imgWidth
  | 0x0B8 => s.tileX
  | 0x0C0 => s.tileY
  | 0x0C8 => s.tileGeom
  | 0x0D0 => toWord s.encMaxlen
  | 0x0D8 => toWord s.decMaxlen
  | 0x0E0 => toWord s.tblSel.toNat
  | 0x0E8 => s.tblIdx
  | 0x0F0 => s.tblData
  | _ => 0

/-- The reserved offsets of R40. -/
def reservedOffset (offset : Nat) : Bool := 0x0F8 ≤ offset

/-- The offsets whose value a read returns even while the core is busy: ID, CTRL and STATUS (R82), and the reserved ones, for which nothing is
drawn (item I9 of file 93; log 9). -/
def readableWhileBusy (offset : Nat) : Bool := offset ≤ 0x010 || reservedOffset offset

/-- A free value of a read of `width` bytes (R82, item I5 of file 93). -/
def State.drawRead (s : State) (width : Nat) : State :=
  { s with portData := toWord ((Config.freeWord s.draws).toNat % 2 ^ (8 * width)), draws := s.draws + 1 }

/-- Whether the host has observed BUSY = 0 since the last acceptance, after a read of this register (R300, R312; log 19): a read of STATUS shows it. -/
def State.observes (s : State) (offset : Nat) : Bool := s.seenIdle || (offset == 0x010 && !s.busy)

/-- A host read of the register port. -/
def State.hostReadReg (s : State) (offset : Nat) : State :=
  if s.busy && !readableWhileBusy offset then s.drawRead 8
  else { s with portData := s.readReg offset, seenIdle := s.observes offset }

/-! ### Writing a register -/

/-- A host write to CTRL (R22): writing 1 to SRST performs a soft reset and the IE value is discarded, else IE takes bit 0. -/
def State.writeCtrl (s : State) (v : Word) : State :=
  if v.getLsbD 1 then s.softReset else { s with ie := v.getLsbD 0 }

/-- A host write to a register other than CTRL, STATUS and CMD while the core is idle (R41): a RW register stores the value less its ignored bits;
RO registers, RO fields and reserved offsets ignore it. -/
def State.storeReg (s : State) (offset : Nat) (v : Word) : State :=
  match offset with
  | 0x020 => { s with src := v }
  | 0x028 => { s with srcLen := v }
  | 0x030 => { s with dst := v }
  | 0x038 => { s with dstCap := v }
  | 0x040 => { s with argN := v }
  | 0x048 => { s with argVal := v }
  | 0x050 => { s with limit := v }
  | 0x068 => { s with outPtr := v }
  | 0x070 => { s with outEnd := v }
  | 0x078 => { s with inPtr := v }
  | 0x080 => { s with inEnd := v }
  | 0x098 => { s with marker := v.extractLsb' 0 8 }
  | 0x0A0 => { s with imgBase := v }
  | 0x0A8 => { s with imgSize := v }
  | 0x0B0 => { s with imgWidth := v }
  | 0x0B8 => { s with tileX := v }
  | 0x0C0 => { s with tileY := v }
  | 0x0C8 => { s with tw := v.extractLsb' 0 5, th := v.extractLsb' 8 5, tk := v.extractLsb' 16 5 }
  | 0x0E0 => { s with tblSel := v.extractLsb' 0 4 }
  | 0x0E8 => { s with tblIdx := v }
  | _ => s

/-- A host write of the register port: CTRL and STATUS are never dropped (R22, R23); reserved offsets ignore it always (R40); any other is dropped
while the core is busy (R41, R110, R111); a write to CMD hands over a command word (R108). -/
def State.hostWriteReg (s : State) (offset : Nat) (v : Word) : State :=
  if offset = 0x008 then s.writeCtrl v
  else if offset = 0x010 then s.writeStatus v
  else if reservedOffset offset then s
  else if s.busy then s.dropWrite
  else if offset = 0x018 then s.accept v
  else s.storeReg offset v

/-! ### The memory port (R74, R82) -/

/-- The little-endian value of a list of bytes, the first the least significant. -/
def leValue : List Byte → Nat
  | [] => 0
  | b :: bs => b.toNat + 256 * leValue bs

/-- The `n` bytes of a value, least significant first. -/
def leBytes : Nat → Nat → List Byte
  | 0, _ => []
  | n + 1, v => toByte v :: leBytes n (v / 256)

/-- The bytes of a list put at consecutive addresses. -/
def State.setBytes (s : State) (a : Nat) : List Byte → State
  | [] => s
  | v :: vs => (s.setByte a v).setBytes (a + 1) vs

/-- A host read of the memory port. -/
def State.hostReadMem (s : State) (width addr : Nat) : State :=
  if s.busy then s.drawRead width
  else { s with portData := toWord (leValue (s.bytesAt addr width)) }

/-- A host write of the memory port. -/
def State.hostWriteMem (s : State) (width addr : Nat) (v : Word) : State :=
  if s.busy then s.dropWrite else s.setBytes addr (leBytes width v.toNat)

/-! ### One access -/

/-- One access of the host (R311): refused where its port does not admit it (R73, R74, items I7 and I8 of file 93). -/
def hostAccess (a : Access) (s : State) : Result :=
  match a with
  | .regRead w o => if regAdmitted w o then .next (s.hostReadReg o) else .refused (.regAccess w o)
  | .regWrite w o v => if regAdmitted w o then .next (s.hostWriteReg o v) else .refused (.regAccess w o)
  | .memRead w a => if memAdmitted s.memSize w a then .next (s.hostReadMem w a) else .refused (.memAccess w a)
  | .memWrite w a v => if memAdmitted s.memSize w a then .next (s.hostWriteMem w a v) else .refused (.memAccess w a)

/-- `check` (R105): the host reads STATUS, and "The program fails if bit 2 (ERR) is 1". The failure is recorded (log 22). -/
def State.hostCheck (s : State) : State :=
  let t := s.hostReadReg 0x010
  { t with checkFailed := s.checkFailed || t.portData.getLsbD 2 }

/-! ### The platform's address map (R9) -/

/-- Whether an address of the platform lies in a port of `size` bytes at `base`. -/
def inPort (base size addr : Nat) : Bool := base ≤ addr && addr < base + size

/-- The access of a port that an access at an address of the platform is: the register port's 4096 bytes stand at REG_BASE, the memory port's MEM_SIZE bytes
at MEM_BASE (R9). None where the address lies in neither port, or where the two are placed over each other (log 14). -/
def State.route (s : State) (b : BusAccess) : Option Access :=
  match inPort s.regBase 4096 b.addr, inPort s.memBase s.memSize b.addr with
  | true, false =>
    match b.value with
    | none => some (.regRead b.width (b.addr - s.regBase))
    | some v => some (.regWrite b.width (b.addr - s.regBase) v)
  | false, true =>
    match b.value with
    | none => some (.memRead b.width (b.addr - s.memBase))
    | some v => some (.memWrite b.width (b.addr - s.memBase) v)
  | true, true => none
  | false, false => none

/-- One access of the host at an address of the platform (R9). -/
def busAccess (b : BusAccess) (s : State) : Result :=
  match s.route b with
  | some a => hostAccess a s
  | none => .refused (.noPort b.width b.addr)

end Sys2Proof.Machine
end

