-- ==== Sys2Proof/Machine/Turn.lean ====
section
/-! DEFINITION. The turns of the two agents (R10, R83, R109): what the command engine does when its turn comes, and which agent's turn is next. -/

namespace Sys2Proof.Machine

/-- The command engine executes a command word (R109): a legal one by its command's rule, an illegal one by completing with ERR_ILLEGAL, ERR_INFO the
whole word and RESULT 0, before any pre-check (R106, R264). -/
def executeWord (w : Word) (s : State) : Result :=
  match decode w with
  | .ok i => exec i s
  | .error _ => .next (s.fail .illegal w)

/-- The command engine's turn: it executes the pending word; it is idle when PENDING is empty (R276). -/
def engineTurn (s : State) : Result :=
  match s.pending with
  | some w => executeWord w s
  | none => .next s

/-- The next move of `events` is taken off the list and made. With no move left it is the engine's turn: "the engine's step is eventually taken"
(R109). -/
def takeTurn (s : State) : Result :=
  match s.events with
  | [] => engineTurn s
  | .engine :: rest => engineTurn { s with events := rest }
  | .host a :: rest => hostAccess a { s with events := rest }
  | .bus b :: rest => busAccess b { s with events := rest }
  | .check :: rest => .next (State.hostCheck { s with events := rest })

/-- The state in which the command word `w` has just been accepted (R108) and the next move is the engine's. -/
def State.placeCommand (s : State) (w : Word) : State :=
  { s.accept w with events := .engine :: s.events }

end Sys2Proof.Machine
end

