-- ==== Sys2Proof/Machine/Step.lean ====
section
/-! DEFINITION. One step of the machine, and the placing of a command word where the next step executes it. -/

namespace Sys2Proof.Machine

/-- One step: one move of one agent (R10). -/
def step (s : State) : Host.Outcome State Fault Refusal := takeTurn s

/-- The state in which the next step executes the command word of `nbits` bits `w`, the bits above them 0. The core fetches no instructions from MEM (R20,
R86): a command is the value the host writes to CMD, so this is the state right after its acceptance (R108), with the engine's turn next. -/
def State.withFetchWord (s : State) (nbits w : Nat) : State := s.placeCommand (toWord (w % 2 ^ nbits))

end Sys2Proof.Machine
end

