-- ==== Sys2Proof/Machine/HostProgram.lean ====
section
/-! DEFINITION. Host programs: the statements and pseudo-instructions of spec/30_encoding.md R104 and R105, and the moves of the two agents they
stand for. A program runs as the `events` of a state. Comments and the writing of numbers are left to the text's reader. -/

namespace Sys2Proof.Machine

/-- The mnemonics and their opcodes (R102, R104). -/
def mnemonicTable : List (String × Nat) :=
  [("NOP", 0x00), ("BP_CLEAR", 0x10), ("BP_PUT", 0x11), ("BP_FLUSH", 0x12), ("BR_ALIGN", 0x18), ("BR_GET", 0x19)] ++
  [("HFREQ_CLR", 0x20), ("HFREQ_ADD", 0x21), ("HBUILD", 0x22), ("HCB_WRITE", 0x23), ("HENC", 0x24), ("HENC_EOB", 0x25)] ++
  [("HCB_READ", 0x28), ("HDEC", 0x29), ("HDEC_SYM", 0x2A), ("DELTA_ENC", 0x30), ("DELTA_DEC", 0x31)] ++
  [("RLE_MARK", 0x38), ("RLE_ENC", 0x39), ("RLE_DEC", 0x3A), ("GEOM", 0x40), ("TILE_LOAD", 0x41)] ++
  [("TILE_STORE", 0x42), ("TILE_SER", 0x43), ("TILE_DESER", 0x44)]

/-- The register names and their offsets (spec/10_state.md section 2). -/
def registerTable : List (String × Nat) :=
  [("ID", 0x000), ("CTRL", 0x008), ("STATUS", 0x010), ("CMD", 0x018), ("SRC", 0x020), ("SRC_LEN", 0x028), ("DST", 0x030)] ++
  [("DST_CAP", 0x038), ("ARG_N", 0x040), ("ARG_VAL", 0x048), ("LIMIT", 0x050), ("RESULT", 0x058), ("ERR_INFO", 0x060)] ++
  [("OUT_PTR", 0x068), ("OUT_END", 0x070), ("IN_PTR", 0x078), ("IN_END", 0x080), ("BP_STATE", 0x088), ("BR_STATE", 0x090)] ++
  [("MARKER", 0x098), ("IMG_BASE", 0x0A0), ("IMG_SIZE", 0x0A8), ("IMG_WIDTH", 0x0B0), ("TILE_X", 0x0B8), ("TILE_Y", 0x0C0)] ++
  [("TILE_GEOM", 0x0C8), ("ENC_MAXLEN", 0x0D0), ("DEC_MAXLEN", 0x0D8), ("TBL_SEL", 0x0E0), ("TBL_IDX", 0x0E8), ("TBL_DATA", 0x0F0)]

/-- The flag suffixes of a mnemonic (R18, R104). -/
inductive Suffix where
  /-- `.L`, of HDEC. -/
  | l
  /-- `.T`, of TILE_SER and TILE_DESER. -/
  | t
  deriving DecidableEq, Repr

/-- Why a statement is an assembly error (R104): "It must not be encoded." -/
inductive AsmError where
  /-- The name is no opcode name of R102. -/
  | unknownMnemonic
  /-- The mnemonic does not take this suffix. -/
  | badSuffix
  /-- The name is no register of the map. -/
  | unknownRegister
  deriving DecidableEq, Repr

/-- The command that a mnemonic and suffix name (R104): `.L` goes with HDEC, `.T` with TILE_SER and TILE_DESER, and nothing else. -/
def assemble (mnemonic : String) (suffix : Option Suffix) : Except AsmError Instr :=
  match mnemonicTable.lookup mnemonic with
  | none => .error .unknownMnemonic
  | some op =>
    match suffix, op with
    | some .l, 0x29 => .ok (.hdec true)
    | some .t, 0x43 => .ok (.tileSer true)
    | some .t, 0x44 => .ok (.tileDeser true)
    | some _, _ => .error .badSuffix
    | none, _ =>
      match commandOf op false with
      | some i => .ok i
      | none => .error .unknownMnemonic

/-- A host statement (R104) or pseudo-instruction (R105). -/
inductive Stmt where
  /-- `MNEMONIC`, `HDEC.L`, `TILE_SER.T`, `TILE_DESER.T`. -/
  | command (mnemonic : String) (suffix : Option Suffix)
  /-- `wr NAME, v`. -/
  | wr (name : String) (v : Word)
  /-- `rd NAME`. -/
  | rd (name : String)
  /-- `mem a: b0 b1 ...`. -/
  | mem (a : Nat) (bytes : List Byte)
  /-- `expect NAME = v`, no access. -/
  | expect (name : String) (v : Word)
  /-- `issue W`. -/
  | issue (w : Word)
  /-- `wait`. -/
  | wait
  /-- `check`. -/
  | check
  /-- `buf src, len, dst, cap`. -/
  | buf (src len dst cap : Word)
  /-- `ostream p, e`. -/
  | ostream (p e : Word)
  /-- `istream p, e`. -/
  | istream (p e : Word)
  /-- `putbits n, v`. -/
  | putbits (n v : Word)
  /-- `getbits n`. -/
  | getbits (n : Word)
  /-- `image base, n, w`. -/
  | image (base n w : Word)
  /-- `tile t`. -/
  | tile (t : Word)
  deriving DecidableEq, Repr

/-- A host write of the register at an offset. -/
def wrAt (offset : Nat) (v : Word) : Event := .host (.regWrite 8 offset v)

/-- A host read of the register at an offset. -/
def rdAt (offset : Nat) : Event := .host (.regRead 8 offset)

/-- `wait` (R105): the engine takes its turn, which completes the pending command, and the host's read of STATUS then finds BUSY = 0. The reads of STATUS
that find BUSY = 1 change no state and are left out (log 6). -/
def waitEvents : List Event := [.engine, rdAt 0x010]

/-- `issue W` (R105). -/
def issueEvents (w : Word) : List Event := wrAt 0x018 w :: waitEvents

/-- The byte writes of `mem` (R104). -/
def memEvents (a : Nat) : List Byte → List Event
  | [] => []
  | b :: bs => .host (.memWrite 1 a (b.setWidth 64)) :: memEvents (a + 1) bs

/-- The moves that a statement stands for (R104, R105). -/
def expand : Stmt → Except AsmError (List Event)
  | .command m sfx =>
    match assemble m sfx with
    | .ok i => .ok (issueEvents (encode i))
    | .error e => .error e
  | .wr name v =>
    match registerTable.lookup name with
    | some o => .ok [wrAt o v]
    | none => .error .unknownRegister
  | .rd name =>
    match registerTable.lookup name with
    | some o => .ok [rdAt o]
    | none => .error .unknownRegister
  | .mem a bs => .ok (memEvents a bs)
  | .expect _ _ => .ok []
  | .issue w => .ok (issueEvents w)
  | .wait => .ok waitEvents
  | .check => .ok [.check]
  | .buf src len dst cap => .ok [wrAt 0x020 src, wrAt 0x028 len, wrAt 0x030 dst, wrAt 0x038 cap]
  | .ostream p e => .ok ([wrAt 0x068 p, wrAt 0x070 e] ++ issueEvents (encode .bpClear))
  | .istream p e => .ok ([wrAt 0x078 p, wrAt 0x080 e] ++ issueEvents (encode .brAlign))
  | .putbits n v => .ok ([wrAt 0x040 n, wrAt 0x048 v] ++ issueEvents (encode .bpPut))
  | .getbits n => .ok (wrAt 0x040 n :: issueEvents (encode .brGet) ++ [rdAt 0x058])
  | .image base n w => .ok [wrAt 0x0A0 base, wrAt 0x0A8 n, wrAt 0x0B0 w]
  | .tile t => .ok (wrAt 0x040 t :: issueEvents (encode .geom))

/-- The moves of a whole program; no program with an assembly error has any. -/
def expandProgram : List Stmt → Except AsmError (List Event)
  | [] => .ok []
  | st :: sts =>
    match expand st, expandProgram sts with
    | .ok es, .ok rest => .ok (es ++ rest)
    | .error e, _ => .error e
    | .ok _, .error e => .error e

end Sys2Proof.Machine
end

