-- ==== Sys2Proof/Safety.lean ====
section
/-! DEFINITION. What counts as a safe state and a safe run, in the terms the statements use: the launch predicate (R291), the invariants of the
state between moves (R23, R32, R33, R38, R46, R143, R183), and the end of a well-behaved run (R300, R312). -/

namespace Sys2Proof.Machine

/-- `clean_entry` (R291), the launch predicate. It says nothing of MEM or TILE. -/
def State.cleanEntry (s : State) : Prop :=
  s.busy = false ∧ s.done = false ∧ s.errCode = .ok ∧ s.overrun = false ∧ s.eob = false
  ∧ s.encValid = false ∧ s.decValid = false ∧ s.pending = none
  ∧ s.bpAcc = 0 ∧ s.bpFree = 8 ∧ s.brAcc = 0 ∧ s.brLeft = 0 ∧ s.ie = false

/-- MEM_SIZE is a power of two from 2^8 to 2^32 (R6), and MEM is in its canonical form inside it (R70, R72). -/
def State.MemInv (s : State) : Prop := 8 ≤ s.memAddrBits ∧ s.memAddrBits ≤ 32 ∧ s.mem.wf s.memSize

/-- The cursor invariants of R143; `BP_ACC < 256` and `BR_ACC < 256` hold by type. -/
def State.CursorInv (s : State) : Prop :=
  1 ≤ s.bpFree ∧ s.bpFree ≤ 8 ∧ s.bpAcc.toNat % 2 ^ s.bpFree = 0 ∧ s.brLeft ≤ 7

/-- What holds while a command is pending (R23, R24, R108, R312): CMD is the pending word, DONE, ERRCODE and EOB are 0, and the host has not observed BUSY = 0
since its acceptance. -/
def State.PendingInv (s : State) : Prop :=
  ∀ w, s.pending = some w → s.cmd = w ∧ s.done = false ∧ s.errCode = .ok ∧ s.eob = false ∧ s.seenIdle = false

/-- The encoder's table between moves (R38, R43): no length is above ENC_MAXLEN, which is at most CODE_LEN_MAX, and 0 when ENC_VALID = 0; a symbol of
length 0 has code 0. -/
def State.EncInv (s : State) : Prop :=
  s.encMaxlen ≤ Config.codeLenMax ∧ (s.encValid = false → s.encMaxlen = 0)
  ∧ ∀ i, i < 257 → tableGet s.codeLen i ≤ s.encMaxlen ∧ (tableGet s.codeLen i = 0 → tableGet s.codeVal i = 0)

/-- `sum over s with CODE_LEN[s] > 0 of 2^(L - CODE_LEN[s])` (R161). -/
def State.codeSpace (s : State) : Nat :=
  ((List.range 257).map fun i =>
    if tableGet s.codeLen i = 0 then 0 else 2 ^ (s.encMaxlen - tableGet s.codeLen i)).sum

/-- The encoder's code between moves, when there is one (R157, R161 items 1 and 3): L is at least 1, the code fills the code space exactly, and EOB has
the length L and the code of L one bits. -/
def State.CodeInv (s : State) : Prop :=
  s.encValid = true →
    1 ≤ s.encMaxlen ∧ s.codeSpace = 2 ^ s.encMaxlen
    ∧ tableGet s.codeLen eobSymbol = s.encMaxlen ∧ (tableGet s.codeVal eobSymbol).toNat = 2 ^ s.encMaxlen - 1

/-- DEC_CNT[l] (R44). -/
def State.decCount (s : State) (l : Nat) : Nat := tableGet s.decCnt (l - 1)

/-- The decoder's tables between moves (R38, R44, R182, R183): DEC_MAXLEN is 0 when DEC_VALID = 0; when it is 1, L is in 1..CODE_LEN_MAX, the first codes
and first symbols follow the recurrence of R182, the codes fill the code space exactly at length L, leave some of it at every shorter
length, and EOB is the last of at most 257 symbols. -/
def State.DecInv (s : State) : Prop :=
  (s.decValid = false → s.decMaxlen = 0)
  ∧ (s.decValid = true →
      1 ≤ s.decMaxlen ∧ s.decMaxlen ≤ Config.codeLenMax
      ∧ s.firstCode 1 = 0 ∧ s.firstSym 1 = 0
      ∧ (∀ l, 1 ≤ l → l < s.decMaxlen →
          s.firstCode (l + 1) = 2 * (s.firstCode l + s.decCount l)
          ∧ s.firstSym (l + 1) = s.firstSym l + s.decCount l
          ∧ s.firstCode l + s.decCount l < 2 ^ l)
      ∧ s.firstCode s.decMaxlen + s.decCount s.decMaxlen = 2 ^ s.decMaxlen
      ∧ s.firstSym s.decMaxlen + s.decCount s.decMaxlen ≤ 257
      ∧ 1 ≤ s.decCount s.decMaxlen
      ∧ tableGet s.decAlpha (s.firstSym s.decMaxlen + s.decCount s.decMaxlen - 1) = eobSymbol)

/-! ### What the streams hold, bit by bit (R77, R130, R132) -/

/-- The bits of a byte in stream order, bit 7 first (R77). -/
def byteBits (b : Byte) : List Bool := msbBits b.toNat 8

/-- The bits of a sequence of bytes in stream order. -/
def bitsOfBytes (bs : List Byte) : List Bool := bs.flatMap byteBits

/-- The bits put but not yet written: those of BP_ACC above position BP_FREE - 1 (R32). -/
def State.heldBits (s : State) : List Bool := (byteBits s.bpAcc).take (8 - s.bpFree)

/-- The bits the input stream can still give, in the order they are read: the BR_LEFT low bits of BR_ACC, then the bytes from IN_PTR to IN_END
(R33, R132). -/
def State.unreadBits (s : State) : List Bool :=
  (byteBits s.brAcc).drop (8 - s.brLeft) ++ bitsOfBytes (s.bytesAt s.inPtr.toNat (s.inEnd.toNat - s.inPtr.toNat))

/-- The number that a list of bits spells, the first the most significant (R132). -/
def bitsValue (bs : List Bool) : Nat := bs.foldl (fun v b => 2 * v + b.toNat) 0

/-- What reading `n` bits of the input stream of `s` leaves (R33, R132, R133): IN_PTR has moved past the bytes fetched, up to IN_END at most, and the bits
read are the bits of those bytes and of BR_ACC before, less the BR_LEFT still held; BR_ACC is the last byte fetched; the bits left are those
after the first `n`; all state but IN_PTR, BR_ACC and BR_LEFT is as before. -/
def bitsRead (s : State) (n : Nat) (t : State) : Prop :=
  t = { s with inPtr := t.inPtr, brAcc := t.brAcc, brLeft := t.brLeft }
  ∧ s.inPtr.toNat ≤ t.inPtr.toNat ∧ t.inPtr.toNat ≤ s.inEnd.toNat ∧ t.brLeft ≤ 7
  ∧ t.brLeft + n = s.brLeft + 8 * (t.inPtr.toNat - s.inPtr.toNat)
  ∧ t.brAcc = (if t.inPtr = s.inPtr then s.brAcc else s.byteAt (t.inPtr.toNat - 1))
  ∧ t.unreadBits = s.unreadBits.drop n

/-- What putting a list of bits to the output stream of `s` leaves, when there is room (R130, R131, R134): the bytes completed are written from
OUT_PTR on and OUT_PTR moves past them; those bytes and the bits then held spell the bits held before followed by the bits put; every
other byte of MEM, and all state but MEM, OUT_PTR, BP_ACC and BP_FREE, is as before. -/
def bitsPut (s : State) (bits : List Bool) (t : State) : Prop :=
  t = { s with mem := t.mem, outPtr := t.outPtr, bpAcc := t.bpAcc, bpFree := t.bpFree }
  ∧ t.outPtr.toNat = s.outPtr.toNat + s.bytesFor bits.length
  ∧ bitsOfBytes (t.bytesAt s.outPtr.toNat (s.bytesFor bits.length)) ++ t.heldBits = s.heldBits ++ bits
  ∧ (1 ≤ t.bpFree ∧ t.bpFree ≤ 8 ∧ t.bpAcc.toNat % 2 ^ t.bpFree = 0)
  ∧ ∀ a, ¬ (s.outPtr.toNat ≤ a ∧ a < t.outPtr.toNat) → t.byteAt a = s.byteAt a

/-- A run is over (R312): the host has made its last access (no move is left), no command is pending (each has completed or was abandoned), and the host has
observed BUSY = 0 after the last one. -/
def State.runOver (s : State) : Bool := s.events.isEmpty && !s.busy && s.seenIdle

/-- A program is well-behaved when STATUS.OVERRUN = 0 at its end (R300). -/
def State.wellBehaved (s : State) : Bool := s.runOver && !s.overrun

/-- A step is safe when it answers a next state: no access outside MEM (R72) and no access that a port does not admit (R73, R74). -/
def safeStep (s : State) : Bool :=
  match step s with
  | .next _ => true
  | .fault _ => false
  | .refused _ => false

end Sys2Proof.Machine
end

