-- ==== Sys2Proof/Certificates/Slice0/Obligations.lean ====
section
/-! DEFINITION. The statements for the provers. Helper definitions stand under Sys2Proof.Claims; they restate the spec's own terms where a
statement would otherwise repeat the model's. -/

open Sys2Proof Sys2Proof.Machine

/-! ### Terms of the statements -/

/-- A pre-check: a condition, and the error reported where it does not hold. -/
def Sys2Proof.Claims.check (holds : Prop) [Decidable holds] (code : ErrCode) (info : Word) : Check := ⟨decide holds, code, info⟩

/-- The pre-checks of a command, written out from its rule, in the rule's order (R79, R80, R112, R135, R138, R139, R141, R152, R158 to R160, R181,
R185, R186, R200, R201, R211 to R213, R231 to R237). -/
def Sys2Proof.Claims.preChecks (s : State) (i : Instr) : List Check :=
  let src := Sys2Proof.Claims.check (s.src.toNat + s.srcLen.toNat ≤ 2 ^ s.memAddrBits) .range 1
  let dst := Sys2Proof.Claims.check (s.dst.toNat + s.dstCap.toNat ≤ 2 ^ s.memAddrBits) .range 2
  let out := Sys2Proof.Claims.check (s.outPtr.toNat ≤ s.outEnd.toNat ∧ s.outEnd.toNat ≤ 2 ^ s.memAddrBits) .range 3
  let inp := Sys2Proof.Claims.check (s.inPtr.toNat ≤ s.inEnd.toNat ∧ s.inEnd.toNat ≤ 2 ^ s.memAddrBits) .range 4
  let enc := Sys2Proof.Claims.check (s.encValid = true) .notable 1
  let dec := Sys2Proof.Claims.check (s.decValid = true) .notable 2
  let apart := fun a n b m => Sys2Proof.Claims.check (¬ (0 < n ∧ 0 < m ∧ a < b + m ∧ b < a + n)) .overlap 0
  let room := fun n => Sys2Proof.Claims.check ((8 - s.bpFree + n) / 8 ≤ s.outEnd.toNat - s.outPtr.toNat) .overflow 3
  let shape := Sys2Proof.Claims.check
    (1 ≤ s.tw.toNat ∧ s.tw.toNat ≤ 16 ∧ 1 ≤ s.th.toNat ∧ s.th.toNat ≤ 16 ∧ s.tk.toNat ≤ s.tw.toNat) .arg 3
  let placement := Sys2Proof.Claims.check (s.tileX.toNat + s.tw.toNat ≤ s.imgWidth.toNat) .arg 4
  let samples := Sys2Proof.Claims.check
    (∀ r ∈ List.range 16, ∀ c ∈ List.range 16,
      ((r + 1 < s.th.toNat ∧ c < s.tw.toNat) ∨ (r + 1 = s.th.toNat ∧ c < s.tk.toNat)) →
      s.imgBase.toNat + (s.tileY.toNat + r) * s.imgWidth.toNat + s.tileX.toNat + c < 2 ^ s.memAddrBits) .range 5
  let count := if s.th.toNat = 0 then 0 else s.tw.toNat * (s.th.toNat - 1) + s.tk.toNat
  let rows := (s.imgSize.toNat + s.imgWidth.toNat - 1) / s.imgWidth.toNat
  match i with
  | .nop | .bpClear | .brAlign | .hfreqClr | .hbuild => []
  | .bpPut => [out, Sys2Proof.Claims.check (s.argN.toNat ≤ 64) .arg 1, room s.argN.toNat]
  | .bpFlush => [out, Sys2Proof.Claims.check (s.bpFree < 8 → 1 ≤ s.outEnd.toNat - s.outPtr.toNat) .overflow 3]
  | .brGet =>
    [inp, Sys2Proof.Claims.check (s.argN.toNat ≤ 64) .arg 1,
     Sys2Proof.Claims.check (s.argN.toNat ≤ s.brLeft + 8 * (s.inEnd.toNat - s.inPtr.toNat)) .trunc 0]
  | .hfreqAdd | .rleMark => [src]
  | .hcbWrite =>
    [out, enc, Sys2Proof.Claims.check (s.bpFree = 8) .align 1,
     Sys2Proof.Claims.check
      (1 + s.encMaxlen + (List.range 256).countP (fun b => decide (0 < tableGet s.codeLen b)) ≤ s.outEnd.toNat - s.outPtr.toNat)
      .overflow 3]
  | .henc => [src, out, enc, apart s.src.toNat s.srcLen.toNat s.outPtr.toNat (s.outEnd.toNat - s.outPtr.toNat)]
  | .hencEob => [out, enc, room (tableGet s.codeLen 256)]
  | .hcbRead => [inp, Sys2Proof.Claims.check (s.brLeft = 0) .align 2]
  | .hdec _ => [inp, dst, dec, apart s.inPtr.toNat (s.inEnd.toNat - s.inPtr.toNat) s.dst.toNat s.dstCap.toNat]
  | .hdecSym => [inp, dec]
  | .deltaEnc | .deltaDec =>
    [src, dst, Sys2Proof.Claims.check (s.srcLen.toNat ≤ s.dstCap.toNat) .overflow 2,
     Sys2Proof.Claims.check
      (s.dst = s.src
        ∨ ¬ (0 < s.srcLen.toNat ∧ s.src.toNat < s.dst.toNat + s.srcLen.toNat ∧ s.dst.toNat < s.src.toNat + s.srcLen.toNat))
      .overlap 0]
  | .rleEnc | .rleDec => [src, dst, apart s.src.toNat s.srcLen.toNat s.dst.toNat s.dstCap.toNat]
  | .geom =>
    [Sys2Proof.Claims.check (1 ≤ s.imgWidth.toNat) .arg 1,
     Sys2Proof.Claims.check (s.argN.toNat < (s.imgWidth.toNat + 15) / 16 * ((rows + 15) / 16)) .arg 2]
  | .tileLoad | .tileStore => [shape, placement, samples]
  | .tileSer _ => [shape, dst, Sys2Proof.Claims.check (count ≤ s.dstCap.toNat) .overflow 2]
  | .tileDeser _ => [shape, src, Sys2Proof.Claims.check (count ≤ s.srcLen.toNat) .arg 5]

/-- `s` with the completion state of `t`: PENDING (STATUS.BUSY), DONE, ERRCODE, EOB, RESULT and ERR_INFO (R50). -/
def Sys2Proof.Claims.withCompletion (s t : State) : State :=
  { s with pending := t.pending, done := t.done, errCode := t.errCode, errInfo := t.errInfo, result := t.result, eob := t.eob }

/-- `s` with the registers and tables of a command's write set (R50), its completion state, MEM for a command that has MEM in its
write set, and the model's own count of draws for a command with a run-time error that draws, taken from `t`. -/
def Sys2Proof.Claims.withWriteSet (i : Instr) (s t : State) : State :=
  let u := Sys2Proof.Claims.withCompletion s t
  match i with
  | .nop => u
  | .bpClear => { u with bpAcc := t.bpAcc, bpFree := t.bpFree }
  | .bpPut | .bpFlush | .henc | .hencEob =>
    { u with mem := t.mem, outPtr := t.outPtr, bpAcc := t.bpAcc, bpFree := t.bpFree, draws := t.draws }
  | .brAlign => { u with brAcc := t.brAcc, brLeft := t.brLeft }
  | .brGet | .hdecSym => { u with inPtr := t.inPtr, brAcc := t.brAcc, brLeft := t.brLeft, draws := t.draws }
  | .hfreqClr | .hfreqAdd => { u with freq := t.freq }
  | .hbuild => { u with codeLen := t.codeLen, codeVal := t.codeVal, encValid := t.encValid, encMaxlen := t.encMaxlen }
  | .hcbWrite => { u with mem := t.mem, outPtr := t.outPtr }
  | .hcbRead =>
    { u with
      inPtr := t.inPtr
      decCnt := t.decCnt
      decFirstCode := t.decFirstCode
      decFirstSym := t.decFirstSym
      decAlpha := t.decAlpha
      decValid := t.decValid
      decMaxlen := t.decMaxlen }
  | .hdec _ =>
    { u with mem := t.mem, inPtr := t.inPtr, brAcc := t.brAcc, brLeft := t.brLeft, draws := t.draws }
  | .deltaEnc | .deltaDec => { u with mem := t.mem }
  | .rleMark => { u with marker := t.marker }
  | .rleEnc | .rleDec => { u with mem := t.mem, draws := t.draws }
  | .geom => { u with tileX := t.tileX, tileY := t.tileY, tw := t.tw, th := t.th, tk := t.tk }
  | .tileLoad | .tileDeser _ => { u with tile := t.tile }
  | .tileStore | .tileSer _ => { u with mem := t.mem }

/-- The source region lies in MEM (R79, region 1). -/
def Sys2Proof.Claims.srcInMem (s : State) : Prop := s.src.toNat + s.srcLen.toNat ≤ s.memSize

/-- The destination lies in MEM (R79, region 2). -/
def Sys2Proof.Claims.dstInMem (s : State) : Prop := s.dst.toNat + s.dstCap.toNat ≤ s.memSize

/-- The output stream lies in MEM (R79, region 3). -/
def Sys2Proof.Claims.outInMem (s : State) : Prop := s.outPtr.toNat ≤ s.outEnd.toNat ∧ s.outEnd.toNat ≤ s.memSize

/-- The input stream lies in MEM (R79, region 4). -/
def Sys2Proof.Claims.inInMem (s : State) : Prop := s.inPtr.toNat ≤ s.inEnd.toNat ∧ s.inEnd.toNat ≤ s.memSize

/-- The regions (a, n) and (b, m) do not overlap (R14, R80). -/
def Sys2Proof.Claims.apart (a n b m : Nat) : Prop := n = 0 ∨ m = 0 ∨ b + m ≤ a ∨ a + n ≤ b

/-- The bytes of the source region (R15). -/
def Sys2Proof.Claims.source (s : State) : List Byte := s.bytesAt s.src.toNat s.srcLen.toNat

/-- `u` is `s` with the bytes `bs` written from address `a` on, and nothing else changed. -/
def Sys2Proof.Claims.wrote (s : State) (a : Nat) (bs : List Byte) (u : State) : Prop :=
  u = { s with mem := u.mem } ∧ u.bytesAt a bs.length = bs
  ∧ ∀ b, ¬ (a ≤ b ∧ b < a + bs.length) → u.byteAt b = s.byteAt b

/-- `u` is `s` with what a run-time error of a command with the output stream in its write set leaves (R263): MEM[out] any bytes, OUT_PTR
from its start value to OUT_END, a cursor that R143 allows. -/
def Sys2Proof.Claims.outStreamDrawn (s u : State) : Prop :=
  u = { s with mem := u.mem, outPtr := u.outPtr, bpAcc := u.bpAcc, bpFree := u.bpFree, draws := u.draws }
  ∧ s.outPtr.toNat ≤ u.outPtr.toNat ∧ u.outPtr.toNat ≤ s.outEnd.toNat
  ∧ 1 ≤ u.bpFree ∧ u.bpFree ≤ 8 ∧ u.bpAcc.toNat % 2 ^ u.bpFree = 0
  ∧ ∀ a, ¬ (s.outPtr.toNat ≤ a ∧ a < s.outEnd.toNat) → u.byteAt a = s.byteAt a

/-- `u` is `s` with what a run-time error leaves of the input cursor (R263): IN_PTR from its start value to IN_END, BR_LEFT in 0..7; and of
MEM where `cap` bytes from DST on are in the write set. -/
def Sys2Proof.Claims.inStreamDrawn (s : State) (cap : Nat) (u : State) : Prop :=
  u = { s with mem := u.mem, inPtr := u.inPtr, brAcc := u.brAcc, brLeft := u.brLeft, draws := u.draws }
  ∧ s.inPtr.toNat ≤ u.inPtr.toNat ∧ u.inPtr.toNat ≤ s.inEnd.toNat ∧ u.brLeft ≤ 7
  ∧ ∀ a, ¬ (s.dst.toNat ≤ a ∧ a < s.dst.toNat + cap) → u.byteAt a = s.byteAt a

/-- `u` is `s` with the destination drawn (R263). -/
def Sys2Proof.Claims.dstDrawn (s u : State) : Prop :=
  u = { s with mem := u.mem, draws := u.draws }
  ∧ ∀ a, ¬ (s.dst.toNat ≤ a ∧ a < s.dst.toNat + s.dstCap.toNat) → u.byteAt a = s.byteAt a

/-- A symbol takes part in the code (R154): EOB, or a byte with a non-zero frequency. -/
def Sys2Proof.Claims.participates (s : State) (sym : Nat) : Prop :=
  sym = 256 ∨ (sym < 256 ∧ tableGet s.freq sym ≠ 0)

/-- A node of the heap of R155: its weight, its id, and the leaves below it as pairs (depth, symbol). -/
structure Sys2Proof.Claims.Node where
  weight : Nat
  id : Nat
  leaves : List (Nat × Nat)

/-- The order on heap entries of R155: lexicographic on (weight, id). -/
def Sys2Proof.Claims.Node.before (x y : Sys2Proof.Claims.Node) : Prop :=
  x.weight < y.weight ∨ (x.weight = y.weight ∧ x.id < y.id)

/-- The loop of R155 on a heap, whose entries stand in no order, with the next internal id: while more than one node is left, the two least, `a`
and then `b`, are taken off and a node of their weights' sum and the next id is put in, with their leaves one step deeper. When one node is left,
its leaves are the code lengths. -/
inductive Sys2Proof.Claims.Merged : Nat → List Sys2Proof.Claims.Node → List (Nat × Nat) → Prop where
  | root (next : Nat) (n : Sys2Proof.Claims.Node) : Sys2Proof.Claims.Merged next [n] n.leaves
  | merge (next : Nat) (heap rest : List Sys2Proof.Claims.Node) (a b : Sys2Proof.Claims.Node) (lens : List (Nat × Nat)) :
      heap.Perm (a :: b :: rest) → a.before b → (∀ c ∈ rest, b.before c) →
      Sys2Proof.Claims.Merged (next + 1)
        (⟨a.weight + b.weight, next, (a.leaves ++ b.leaves).map fun l => (l.1 + 1, l.2)⟩ :: rest) lens →
      Sys2Proof.Claims.Merged next heap lens

/-- The heap of R155 before its loop: one leaf for each participant of R154, whose id is its symbol and whose weight is its FREQ, 0 for EOB. -/
def Sys2Proof.Claims.leafHeap (s : State) : List Sys2Proof.Claims.Node :=
  ((List.range 257).filter fun p => p == 256 || tableGet s.freq p != 0).map fun p =>
    ⟨if p < 256 then (tableGet s.freq p).toNat else 0, p, [(0, p)]⟩

/-- The bits of a symbol's code, most significant first (R43, R77). -/
def Sys2Proof.Claims.codeBits (s : State) (sym : Nat) : List Bool :=
  msbBits (tableGet s.codeVal sym).toNat (tableGet s.codeLen sym)

/-- The byte values of a code length, ascending (R158). -/
def Sys2Proof.Claims.bytesOfLength (s : State) (l : Nat) : List Nat :=
  (List.range 256).filter fun b => tableGet s.codeLen b == l

/-- The transmitted codebook as R158 gives it: L - 1, the counts of lengths 1..L, the symbols by ascending length and then value. -/
def Sys2Proof.Claims.codebook (s : State) : List Byte :=
  let lengths := (List.range s.encMaxlen).map (· + 1)
  toByte (s.encMaxlen - 1) :: lengths.map (fun l => toByte (Sys2Proof.Claims.bytesOfLength s l).length)
    ++ (lengths.flatMap (Sys2Proof.Claims.bytesOfLength s)).map toByte

/-- The first `n` bits of a stream are the code of `sym` under the decoder's tables (R183): `n` is the first length, at most L, at which the
bits' value is one of the codes of that length. -/
def Sys2Proof.Claims.codeAt (s : State) (bits : List Bool) (n sym : Nat) : Prop :=
  1 ≤ n ∧ n ≤ s.decMaxlen ∧ n ≤ bits.length
  ∧ bitsValue (bits.take n) < s.firstCode n + s.decCount n
  ∧ (∀ m, 1 ≤ m → m < n → s.firstCode m + s.decCount m ≤ bitsValue (bits.take m))
  ∧ sym = tableGet s.decAlpha (s.firstSym n + (bitsValue (bits.take n) - s.firstCode n))

/-- A stream begins with the codes of these symbols, and these bits are left after them. -/
def Sys2Proof.Claims.codesOf (s : State) (bits : List Bool) : List Nat → List Bool → Prop
  | [], rest => bits = rest
  | sym :: syms, rest => ∃ n, Sys2Proof.Claims.codeAt s bits n sym ∧ Sys2Proof.Claims.codesOf s (bits.drop n) syms rest

/-- The reason for which HCB_READ rejects the codebook at IN_PTR, by the checks of R181 in their order. -/
def Sys2Proof.Claims.codebookFault (s : State) : Option Nat :=
  let room := s.inEnd.toNat - s.inPtr.toNat
  let l := (s.byteAt s.inPtr.toNat).toNat + 1
  let c := fun k => (s.byteAt (s.inPtr.toNat + k)).toNat
  let total := ((List.range l).map fun k => c (k + 1)).sum
  if room < 1 then some 1
  else if l > 64 then some 2
  else if room - 1 < l then some 1
  else if total > 256 then some 3
  else if room - 1 - l < total then some 1
  else if ((List.range l).map fun k => c (k + 1) * 2 ^ (l - (k + 1))).sum + 1 ≠ 2 ^ l then some 4
  else none

/-- `single[v]` of R211, by the rule's own condition on positions. -/
def Sys2Proof.Claims.single (bs : List Byte) (v : Nat) : Nat :=
  (List.range bs.length).countP fun i =>
    (bs[i]?.map BitVec.toNat == some v) && (i == 0 || bs[i - 1]? != bs[i]?) && (i + 1 == bs.length || bs[i + 1]? != bs[i]?)

/-- Encoding runs (R210): pieces of 1 to 256 equal bytes, of which one is followed by a piece of the same byte only when it is full. -/
def Sys2Proof.Claims.encodingRuns : List (Byte × Nat) → Prop
  | [] => True
  | [(_, c)] => 1 ≤ c ∧ c ≤ 256
  | (v, c) :: (v', c') :: rest =>
    1 ≤ c ∧ c ≤ 256 ∧ (v ≠ v' ∨ c = 256) ∧ Sys2Proof.Claims.encodingRuns ((v', c') :: rest)

/-- What an encoding run is written as with marker `m` (R210, R212). -/
def Sys2Proof.Claims.escapeOf (m : Byte) (r : Byte × Nat) : List Byte :=
  if 3 ≤ r.2 then [m, toByte (r.2 - 1), r.1]
  else if r.1 = m then [m, toByte (r.2 - 1)]
  else List.replicate r.2 r.1

/-- The pieces of an RLE input with marker `m` (R210): a literal other than m, the 2-byte escape `m, f` with f in {0, 1}, the 3-byte escape
`m, f, v` with f from 2 on. -/
inductive Sys2Proof.Claims.RlePiece where
  | literal (b : Byte)
  | pair (f : Byte)
  | triple (f v : Byte)

/-- The piece is one the format has (R210). -/
def Sys2Proof.Claims.RlePiece.ok (m : Byte) : Sys2Proof.Claims.RlePiece → Prop
  | .literal b => b ≠ m
  | .pair f => f.toNat ≤ 1
  | .triple f _ => 2 ≤ f.toNat

/-- The bytes of a piece (R210). -/
def Sys2Proof.Claims.RlePiece.input (m : Byte) : Sys2Proof.Claims.RlePiece → List Byte
  | .literal b => [b]
  | .pair f => [m, f]
  | .triple f v => [m, f, v]

/-- What a piece decodes to (R210). -/
def Sys2Proof.Claims.RlePiece.output (m : Byte) : Sys2Proof.Claims.RlePiece → List Byte
  | .literal b => [b]
  | .pair f => List.replicate (f.toNat + 1) m
  | .triple f v => List.replicate (f.toNat + 1) v

/-- Position (r, c) is valid for a tile of TW by TH samples whose last row holds TK (R230). -/
def Sys2Proof.Claims.valid (tw th tk r c : Nat) : Prop := (r + 1 < th ∧ c < tw) ∨ (r + 1 = th ∧ c < tk)

/-- The shape of the current tile is legal (R231, check 1). -/
def Sys2Proof.Claims.shapeLegal (s : State) : Prop :=
  1 ≤ s.tw.toNat ∧ s.tw.toNat ≤ 16 ∧ 1 ≤ s.th.toNat ∧ s.th.toNat ≤ 16 ∧ s.tk.toNat ≤ s.tw.toNat

/-- Position (r, c) of the current tile is valid (R230). -/
def Sys2Proof.Claims.tileValid (s : State) (r c : Nat) : Prop :=
  Sys2Proof.Claims.valid s.tw.toNat s.th.toNat s.tk.toNat r c

/-- The current tile lies in the image's rows and in MEM (R231, checks 2 and 3). -/
def Sys2Proof.Claims.tilePlaced (s : State) : Prop :=
  s.tileX.toNat + s.tw.toNat ≤ s.imgWidth.toNat
  ∧ ∀ r c, Sys2Proof.Claims.tileValid s r c →
      s.imgBase.toNat + (s.tileY.toNat + r) * s.imgWidth.toNat + s.tileX.toNat + c < s.memSize

/-- The number of a completion code (R260). -/
def Sys2Proof.Claims.errNumber : ErrCode → Nat
  | .ok => 0
  | .codebook => 1
  | .trunc => 2
  | .arg => 3
  | .illegal => 4
  | .range => 5
  | .overflow => 6
  | .align => 7
  | .nocode => 8
  | .notable => 9
  | .rle => 10
  | .overlap => 11
  | .codelen => 12

/-- The entry that TBL_DATA shows (R39): entry TBL_IDX of the table that TBL_SEL numbers, 0 where the index is out of the table's range or the
number above 7. The decoder's tables by code length have the entries 1 to CODE_LEN_MAX = 64. -/
def Sys2Proof.Claims.tableEntry (s : State) : Word :=
  let i := s.tblIdx.toNat
  if s.tblSel.toNat = 0 ∧ i < 256 then tableGet s.freq i
  else if s.tblSel.toNat = 1 ∧ i < 257 then toWord (tableGet s.codeLen i)
  else if s.tblSel.toNat = 2 ∧ i < 257 then tableGet s.codeVal i
  else if s.tblSel.toNat = 3 ∧ i < 256 then toWord (tableGet s.tile (16 * (i / 16) + i % 16)).toNat
  else if s.tblSel.toNat = 4 ∧ 1 ≤ i ∧ i ≤ 64 then toWord (s.decCount i)
  else if s.tblSel.toNat = 5 ∧ 1 ≤ i ∧ i ≤ 64 then toWord (s.firstCode i)
  else if s.tblSel.toNat = 6 ∧ 1 ≤ i ∧ i ≤ 64 then toWord (s.firstSym i)
  else if s.tblSel.toNat = 7 ∧ i < 257 then toWord (tableGet s.decAlpha i)
  else 0

/-! ### The command word and the step -/

/-- R102, on all 28 legal words, written out from its map, and on an illegal word of each of R106's conditions. The map and R101 give 22 commands
of one word and 3 of two; R102's sentence that counts 27 contradicts them, and the model follows the map (log 20). -/
def Obligations.DecodeReadsTheOpcodeMap : Prop :=
  decode 0x00 = .ok .nop ∧ decode 0x10 = .ok .bpClear ∧ decode 0x11 = .ok .bpPut ∧ decode 0x12 = .ok .bpFlush
  ∧ decode 0x18 = .ok .brAlign ∧ decode 0x19 = .ok .brGet ∧ decode 0x20 = .ok .hfreqClr ∧ decode 0x21 = .ok .hfreqAdd
  ∧ decode 0x22 = .ok .hbuild ∧ decode 0x23 = .ok .hcbWrite ∧ decode 0x24 = .ok .henc ∧ decode 0x25 = .ok .hencEob
  ∧ decode 0x28 = .ok .hcbRead ∧ decode 0x29 = .ok (.hdec false) ∧ decode 0x129 = .ok (.hdec true)
  ∧ decode 0x2A = .ok .hdecSym ∧ decode 0x30 = .ok .deltaEnc ∧ decode 0x31 = .ok .deltaDec ∧ decode 0x38 = .ok .rleMark
  ∧ decode 0x39 = .ok .rleEnc ∧ decode 0x3A = .ok .rleDec ∧ decode 0x40 = .ok .geom ∧ decode 0x41 = .ok .tileLoad
  ∧ decode 0x42 = .ok .tileStore ∧ decode 0x43 = .ok (.tileSer false) ∧ decode 0x143 = .ok (.tileSer true)
  ∧ decode 0x44 = .ok (.tileDeser false) ∧ decode 0x144 = .ok (.tileDeser true)
  ∧ decode 0x100 = .error .flagNotAdmitted ∧ decode 0x13 = .error .unknownOp ∧ decode 0x229 = .error .reservedBits

/-- R100 to R102, R106: each command has exactly the one word `OP | (F << 8)`, and no other word is a command. So 28 words are legal, by the map
of R102 and R101; R102's sentence that counts 27 contradicts them, and the model follows the map (log 20). -/
def Obligations.DecodeAcceptsExactlyTheEncodedWords : Prop :=
  ∀ (w : Word) (i : Instr), decode w = .ok i ↔ w = encode i

/-- R106: a word with bits 63:9 not 0, an opcode outside the map, or F = 1 on an opcode without a flag completes with ERR_ILLEGAL, ERR_INFO =
the word and RESULT = 0 and has no other effect, and no other word completes with ERR_ILLEGAL. -/
def Obligations.IllegalWordCompletesWithErrIllegal : Prop :=
  ∀ (s : State) (w : Word), s.pending = some w →
    let illegal := w.toNat / 512 ≠ 0 ∨ w.toNat % 256 ∉ opcodes
      ∨ (w.toNat / 256 % 2 = 1 ∧ w.toNat % 256 ≠ 0x29 ∧ w.toNat % 256 ≠ 0x43 ∧ w.toNat % 256 ≠ 0x44)
    (illegal → engineTurn s = .next
      { s with pending := none, done := true, errCode := .illegal, errInfo := w, result := 0, eob := false })
    ∧ (¬ illegal → ∀ t, engineTurn s = .next t → t.errCode ≠ .illegal)

/-- R105 (`check`), R109, R276, and the model's own order of moves (log 6). With the engine's move next, or no move left, a step is the engine's
turn in the state with that move taken off, whatever is pending: with a legal word pending it is `exec` of the command the word decodes to, and
with PENDING empty nothing changes (an illegal word pending is IllegalWordCompletesWithErrIllegal). A host move is that access, at a port or at
an address of the platform (log 14); a `check` is a read of STATUS, and fails the program, which the model records (log 22), where ERR is 1; and
`withFetchWord` places a word so that the next step runs it. -/
def Obligations.StepRunsTheDecodedCommand : Prop :=
  ∀ (s : State),
    (∀ w i, s.pending = some w → decode w = .ok i →
      (s.events = [] → step s = exec i s)
      ∧ ∀ rest, s.events = .engine :: rest → step s = exec i { s with events := rest })
    ∧ (s.events = [] → step s = engineTurn s)
    ∧ (∀ rest, s.events = .engine :: rest → step s = engineTurn { s with events := rest })
    ∧ (s.pending = none → engineTurn s = .next s)
    ∧ (∀ a rest, s.events = .host a :: rest → step s = hostAccess a { s with events := rest })
    ∧ (∀ b rest, s.events = .bus b :: rest → step s = busAccess b { s with events := rest })
    ∧ (∀ rest, s.events = .check :: rest →
        ∃ t : State, hostAccess (.regRead 8 0x010) { s with events := rest } = .next t
          ∧ step s = .next { t with checkFailed := s.checkFailed || decide (s.errCode ≠ .ok) })
    ∧ (∀ nbits w i, decode (BitVec.ofNat 64 (w % 2 ^ nbits)) = .ok i →
        step (s.withFetchWord nbits w) = exec i (s.accept (BitVec.ofNat 64 (w % 2 ^ nbits))))

/-! ### The host's accesses -/

/-- R108: a CMD write with BUSY = 0 is accepted at once; RESULT and ERR_INFO keep their values, and IRQ falls. The model's own note that the host
has observed BUSY = 0 is cleared (log 19). -/
def Obligations.CommandWriteIsAccepted : Prop :=
  ∀ (s : State) (w : Word), s.pending = none →
    ∃ t : State, hostAccess (.regWrite 8 0x018 w) s = .next t
      ∧ t = { s with cmd := w, pending := some w, done := false, errCode := .ok, eob := false, seenIdle := false }
      ∧ t.statusWord.getLsbD 0 = true ∧ t.irq = false

/-- R110, with R40, R41, R111 and the write half of R82: with BUSY = 1 a write to CMD, to MEM or to any register other than CTRL and STATUS is
dropped and sets OVERRUN, and one to a reserved offset is ignored. That a RO register (0x000, 0x058, 0x060, 0x088, 0x090, 0x0D0, 0x0D8, 0x0F0) is
among the registers whose dropped write sets OVERRUN is the model's reading of R41 and R111 (log 10). -/
def Obligations.WritesWhileBusyAreDropped : Prop :=
  ∀ (s : State) (v w : Word), s.pending = some w →
    (∀ o, o % 8 = 0 → o ≤ 0x0F0 → o ≠ 0x008 → o ≠ 0x010 →
      hostAccess (.regWrite 8 o v) s = .next { s with overrun := true })
    ∧ (∀ o, o % 8 = 0 → 0x0F8 ≤ o → o < 4096 → hostAccess (.regWrite 8 o v) s = .next s)
    ∧ ∀ n a, memAdmitted s.memSize n a = true → hostAccess (.memWrite n a v) s = .next { s with overrun := true }

/-- R82: with BUSY = 1 a read of a register other than ID, CTRL and STATUS, or of MEM, changes nothing but the value returned, which is a draw of
the access's width; ID, CTRL and STATUS read their values. That CMD (0x018) is among the registers drawn is the model's choice of R82 over R24
(log 18). The model's own fields that show it, `portData` and `draws`, are logs 7 and 4. -/
def Obligations.ReadsWhileBusyChangeNothing : Prop :=
  ∀ (s : State) (w : Word), s.pending = some w →
    (∀ o, o % 8 = 0 → 0x018 ≤ o → o ≤ 0x0F0 →
      ∃ t : State, hostAccess (.regRead 8 o) s = .next t ∧ t = { s with portData := t.portData, draws := s.draws + 1 })
    ∧ (∀ n a, memAdmitted s.memSize n a = true →
      ∃ t : State, hostAccess (.memRead n a) s = .next t ∧ t = { s with portData := t.portData, draws := s.draws + 1 }
        ∧ t.portData.toNat < 2 ^ (8 * n))
    ∧ hostAccess (.regRead 8 0x000) s
        = .next { s with portData := toWord (0x43484531 + 2 ^ 32 * 64 + 2 ^ 40 * s.memAddrBits) }
    ∧ hostAccess (.regRead 8 0x008) s = .next { s with portData := toWord s.ie.toNat }
    ∧ hostAccess (.regRead 8 0x010) s = .next { s with portData := s.statusWord }

/-- R21 to R41, R301: a CTRL write without SRST stores bit 0 in IE and nothing else, busy or not. With BUSY = 0 a write to a RW register changes only
that register, which takes the value less its ignored bits (for TILE_GEOM the three fields), and so it reads back (TILE_GEOM with TCNT computed); a
write to a RO register or a reserved offset changes nothing; and a read of each register of the map, the table window and the reserved offsets
returns its value. The value read stands in the model's own `portData` (log 7), and a STATUS read sets the model's own note that the host has
observed BUSY = 0 (log 19). -/
def Obligations.RegistersHoldWhatTheHostWrites : Prop :=
  (∀ (s : State) (v : Word), v.getLsbD 1 = false → hostAccess (.regWrite 8 0x008 v) s = .next { s with ie := v.getLsbD 0 })
  ∧ ∀ (s : State) (v : Word) (o : Nat), s.pending = none →
    (o ∈ [0x020, 0x028, 0x030, 0x038, 0x040, 0x048, 0x050, 0x068, 0x070, 0x078, 0x080, 0x098, 0x0A0, 0x0A8, 0x0B0, 0x0B8,
          0x0C0, 0x0E0, 0x0E8] →
      ∃ t u : State, hostAccess (.regWrite 8 o v) s = .next t ∧ hostAccess (.regRead 8 o) t = .next u
        ∧ u.portData = if o = 0x098 then v &&& 0xFF else if o = 0x0E0 then v &&& 0xF else v)
    ∧ (o = 0x0C8 →
      ∃ t u : State, hostAccess (.regWrite 8 o v) s = .next t ∧ hostAccess (.regRead 8 o) t = .next u
        ∧ u.portData = (v &&& 0x1F1F1F)
            + toWord (if v.toNat / 2 ^ 8 % 32 = 0 then 0
                      else v.toNat % 32 * (v.toNat / 2 ^ 8 % 32 - 1) + v.toNat / 2 ^ 16 % 32) <<< 32)
    ∧ (o ∈ [0x000, 0x058, 0x060, 0x088, 0x090, 0x0D0, 0x0D8, 0x0F0] → hostAccess (.regWrite 8 o v) s = .next s)
    ∧ (o % 8 = 0 → 0x0F8 ≤ o → o < 4096 →
      hostAccess (.regWrite 8 o v) s = .next s ∧ hostAccess (.regRead 8 o) s = .next { s with portData := 0 })
    ∧ hostAccess (.regWrite 8 0x020 v) s = .next { s with src := v }
    ∧ hostAccess (.regWrite 8 0x028 v) s = .next { s with srcLen := v }
    ∧ hostAccess (.regWrite 8 0x030 v) s = .next { s with dst := v }
    ∧ hostAccess (.regWrite 8 0x038 v) s = .next { s with dstCap := v }
    ∧ hostAccess (.regWrite 8 0x040 v) s = .next { s with argN := v }
    ∧ hostAccess (.regWrite 8 0x048 v) s = .next { s with argVal := v }
    ∧ hostAccess (.regWrite 8 0x050 v) s = .next { s with limit := v }
    ∧ hostAccess (.regWrite 8 0x068 v) s = .next { s with outPtr := v }
    ∧ hostAccess (.regWrite 8 0x070 v) s = .next { s with outEnd := v }
    ∧ hostAccess (.regWrite 8 0x078 v) s = .next { s with inPtr := v }
    ∧ hostAccess (.regWrite 8 0x080 v) s = .next { s with inEnd := v }
    ∧ hostAccess (.regWrite 8 0x098 v) s = .next { s with marker := BitVec.ofNat 8 v.toNat }
    ∧ hostAccess (.regWrite 8 0x0A0 v) s = .next { s with imgBase := v }
    ∧ hostAccess (.regWrite 8 0x0A8 v) s = .next { s with imgSize := v }
    ∧ hostAccess (.regWrite 8 0x0B0 v) s = .next { s with imgWidth := v }
    ∧ hostAccess (.regWrite 8 0x0B8 v) s = .next { s with tileX := v }
    ∧ hostAccess (.regWrite 8 0x0C0 v) s = .next { s with tileY := v }
    ∧ hostAccess (.regWrite 8 0x0E0 v) s = .next { s with tblSel := BitVec.ofNat 4 v.toNat }
    ∧ hostAccess (.regWrite 8 0x0E8 v) s = .next { s with tblIdx := v }
    ∧ hostAccess (.regWrite 8 0x0C8 v) s
        = .next { s with
                  tw := BitVec.ofNat 5 v.toNat
                  th := BitVec.ofNat 5 (v.toNat / 2 ^ 8)
                  tk := BitVec.ofNat 5 (v.toNat / 2 ^ 16) }
    ∧ hostAccess (.regRead 8 0x020) s = .next { s with portData := s.src }
    ∧ hostAccess (.regRead 8 0x028) s = .next { s with portData := s.srcLen }
    ∧ hostAccess (.regRead 8 0x030) s = .next { s with portData := s.dst }
    ∧ hostAccess (.regRead 8 0x038) s = .next { s with portData := s.dstCap }
    ∧ hostAccess (.regRead 8 0x040) s = .next { s with portData := s.argN }
    ∧ hostAccess (.regRead 8 0x048) s = .next { s with portData := s.argVal }
    ∧ hostAccess (.regRead 8 0x050) s = .next { s with portData := s.limit }
    ∧ hostAccess (.regRead 8 0x068) s = .next { s with portData := s.outPtr }
    ∧ hostAccess (.regRead 8 0x070) s = .next { s with portData := s.outEnd }
    ∧ hostAccess (.regRead 8 0x078) s = .next { s with portData := s.inPtr }
    ∧ hostAccess (.regRead 8 0x080) s = .next { s with portData := s.inEnd }
    ∧ hostAccess (.regRead 8 0x098) s = .next { s with portData := toWord s.marker.toNat }
    ∧ hostAccess (.regRead 8 0x0A0) s = .next { s with portData := s.imgBase }
    ∧ hostAccess (.regRead 8 0x0A8) s = .next { s with portData := s.imgSize }
    ∧ hostAccess (.regRead 8 0x0B0) s = .next { s with portData := s.imgWidth }
    ∧ hostAccess (.regRead 8 0x0B8) s = .next { s with portData := s.tileX }
    ∧ hostAccess (.regRead 8 0x0C0) s = .next { s with portData := s.tileY }
    ∧ hostAccess (.regRead 8 0x0E0) s = .next { s with portData := toWord s.tblSel.toNat }
    ∧ hostAccess (.regRead 8 0x0E8) s = .next { s with portData := s.tblIdx }
    ∧ hostAccess (.regRead 8 0x0C8) s
        = .next { s with
                  portData := toWord (s.tw.toNat + 2 ^ 8 * s.th.toNat + 2 ^ 16 * s.tk.toNat
                    + 2 ^ 32 * (if s.th.toNat = 0 then 0 else s.tw.toNat * (s.th.toNat - 1) + s.tk.toNat)) }
    ∧ hostAccess (.regRead 8 0x000) s
        = .next { s with portData := toWord (0x43484531 + 2 ^ 32 * 64 + 2 ^ 40 * s.memAddrBits) }
    ∧ hostAccess (.regRead 8 0x008) s = .next { s with portData := toWord s.ie.toNat }
    ∧ hostAccess (.regRead 8 0x010) s = .next { s with portData := s.statusWord, seenIdle := true }
    ∧ hostAccess (.regRead 8 0x018) s = .next { s with portData := s.cmd }
    ∧ hostAccess (.regRead 8 0x058) s = .next { s with portData := s.result }
    ∧ hostAccess (.regRead 8 0x060) s = .next { s with portData := s.errInfo }
    ∧ hostAccess (.regRead 8 0x088) s = .next { s with portData := toWord (s.bpAcc.toNat + 2 ^ 8 * s.bpFree) }
    ∧ hostAccess (.regRead 8 0x090) s = .next { s with portData := toWord (s.brAcc.toNat + 2 ^ 8 * s.brLeft) }
    ∧ hostAccess (.regRead 8 0x0D0) s = .next { s with portData := toWord s.encMaxlen }
    ∧ hostAccess (.regRead 8 0x0D8) s = .next { s with portData := toWord s.decMaxlen }
    ∧ hostAccess (.regRead 8 0x0F0) s = .next { s with portData := Sys2Proof.Claims.tableEntry s }

/-- R74, R75: with BUSY = 0 an admitted memory-port write sets byte `a + i` to bits `8 i + 7 : 8 i` of the value and no other byte, and a read returns
`sum over i < n of MEM[a + i] * 2^(8 i)`, in the model's own `portData` (log 7). -/
def Obligations.MemoryPortIsLittleEndian : Prop :=
  ∀ (s : State) (v : Word) (n a : Nat), s.pending = none →
    (n = 1 ∨ n = 2 ∨ n = 4 ∨ n = 8) → a % n = 0 → a + n ≤ s.memSize →
    (∃ t : State, hostAccess (.memWrite n a v) s = .next t ∧ t = { s with mem := t.mem }
        ∧ (∀ i, i < n → (t.byteAt (a + i)).toNat = v.toNat / 2 ^ (8 * i) % 256)
        ∧ ∀ b, ¬ (a ≤ b ∧ b < a + n) → t.byteAt b = s.byteAt b)
    ∧ hostAccess (.memRead n a) s
        = .next { s with portData := toWord (((List.range n).map fun i => (s.byteAt (a + i)).toNat * 2 ^ (8 * i)).sum) }

/-- R9, R73, R74: a port refuses an access exactly when it does not admit it: the register port one that is not an aligned 64-bit access inside
its 4096 bytes, the memory port one of a width other than 1, 2, 4 or 8, misaligned, or reaching past MEM_SIZE. With the ports placed apart on the
platform, at REG_BASE and MEM_BASE, an access in their bytes is the access at that offset; one outside both is refused, the model's choice (log
14). -/
def Obligations.PortsRefuseExactlyWhatTheyDoNotAdmit : Prop :=
  ∀ (s : State) (n a : Nat) (v : Word),
    (hostAccess (.regRead n a) s = .refused (.regAccess n a) ↔ ¬ (n = 8 ∧ a % 8 = 0 ∧ a < 4096))
    ∧ (hostAccess (.regWrite n a v) s = .refused (.regAccess n a) ↔ ¬ (n = 8 ∧ a % 8 = 0 ∧ a < 4096))
    ∧ (hostAccess (.memRead n a) s = .refused (.memAccess n a)
        ↔ ¬ ((n = 1 ∨ n = 2 ∨ n = 4 ∨ n = 8) ∧ a % n = 0 ∧ a + n ≤ s.memSize))
    ∧ (hostAccess (.memWrite n a v) s = .refused (.memAccess n a)
        ↔ ¬ ((n = 1 ∨ n = 2 ∨ n = 4 ∨ n = 8) ∧ a % n = 0 ∧ a + n ≤ s.memSize))
    ∧ (s.regBase + 4096 ≤ s.memBase ∨ s.memBase + s.memSize ≤ s.regBase →
        (a < 4096 → busAccess ⟨n, s.regBase + a, none⟩ s = hostAccess (.regRead n a) s
          ∧ busAccess ⟨n, s.regBase + a, some v⟩ s = hostAccess (.regWrite n a v) s)
        ∧ (a < s.memSize → busAccess ⟨n, s.memBase + a, none⟩ s = hostAccess (.memRead n a) s
          ∧ busAccess ⟨n, s.memBase + a, some v⟩ s = hostAccess (.memWrite n a v) s)
        ∧ ∀ value, ¬ (s.regBase ≤ a ∧ a < s.regBase + 4096) → ¬ (s.memBase ≤ a ∧ a < s.memBase + s.memSize) →
            busAccess ⟨n, a, value⟩ s = .refused (.noPort n a))

/-- R23, R260: STATUS shows BUSY, DONE, ERR, OVERRUN, ENC_VALID, DEC_VALID, EOB and ERRCODE, by the thirteen numbers of R260, at their places and
0 elsewhere; a write clears DONE and OVERRUN where it has a 1 and changes nothing else, whether or not the core is busy. -/
def Obligations.StatusShowsAndClearsTheFlags : Prop :=
  ∀ (s : State),
    s.statusWord.getLsbD 0 = s.pending.isSome ∧ s.statusWord.getLsbD 1 = s.done
    ∧ s.statusWord.getLsbD 2 = decide (s.errCode ≠ .ok) ∧ s.statusWord.getLsbD 3 = s.overrun
    ∧ s.statusWord.getLsbD 4 = s.encValid ∧ s.statusWord.getLsbD 5 = s.decValid ∧ s.statusWord.getLsbD 6 = s.eob
    ∧ s.statusWord.getLsbD 7 = false ∧ s.statusWord.toNat / 256 = Sys2Proof.Claims.errNumber s.errCode
    ∧ ∀ (v : Word), hostAccess (.regWrite 8 0x010 v) s = .next
          { s with
            done := if v.getLsbD 1 then false else s.done
            overrun := if v.getLsbD 3 then false else s.overrun }

/-! ### Reset -/

/-- R51, R290, R291: after hardware reset `clean_entry` holds, every register has the reset value the spec gives, ID its constant (with the
MEM_ADDR_BITS of log 1) and BP_FREE 8, and every table other than TILE is 0. -/
def Obligations.ResetStateIsCleanEntry : Prop :=
  let s := State.reset
  s.cleanEntry ∧ s.statusWord = 0 ∧ s.irq = false ∧ s.idWord = toWord (0x43484531 + 2 ^ 32 * 64 + 2 ^ 40 * s.memAddrBits)
  ∧ s.cmd = 0 ∧ s.src = 0 ∧ s.srcLen = 0 ∧ s.dst = 0 ∧ s.dstCap = 0 ∧ s.argN = 0 ∧ s.argVal = 0 ∧ s.limit = 0
  ∧ s.result = 0 ∧ s.errInfo = 0 ∧ s.outPtr = 0 ∧ s.outEnd = 0 ∧ s.inPtr = 0 ∧ s.inEnd = 0 ∧ s.bpState = 0x800
  ∧ s.brState = 0 ∧ s.marker = 0 ∧ s.imgBase = 0 ∧ s.imgSize = 0 ∧ s.imgWidth = 0 ∧ s.tileX = 0 ∧ s.tileY = 0
  ∧ s.tileGeom = 0 ∧ s.encMaxlen = 0 ∧ s.decMaxlen = 0 ∧ s.tblSel = 0 ∧ s.tblIdx = 0
  ∧ (∀ i, i < 256 → tableGet s.freq i = 0)
  ∧ (∀ i, i < 257 → tableGet s.codeLen i = 0 ∧ tableGet s.codeVal i = 0 ∧ tableGet s.decAlpha i = 0)
  ∧ (∀ i, i < 64 → tableGet s.decCnt i = 0 ∧ tableGet s.decFirstCode i = 0 ∧ tableGet s.decFirstSym i = 0)

/-- R292, R293, with the write sets of R50 and the illegal words of R106: a CTRL write with SRST = 1, at any time and whatever else it carries,
gives the reset state but for MEM and TILE. These keep their values where the pending command, if there is one, does not have them in its write
set; that the write set is the one at the soft reset, and that an illegal word pending has none, is the model's reading (log 8). The parameters
and the model's own fields are kept (logs 1, 4, 6, 7, 14, 19, 22). -/
def Obligations.SoftResetRestoresCleanEntry : Prop :=
  ∀ (s : State) (v : Word), v.getLsbD 1 = true →
    ∃ t : State, hostAccess (.regWrite 8 0x008 v) s = .next t ∧ t.cleanEntry
      ∧ t = { State.reset with
              memAddrBits := s.memAddrBits
              regBase := s.regBase
              memBase := s.memBase
              tile := t.tile
              mem := t.mem
              events := s.events
              portData := s.portData
              seenIdle := s.seenIdle
              checkFailed := s.checkFailed
              draws := t.draws }
      ∧ (s.pending = none → t.mem = s.mem ∧ t.tile = s.tile)
      ∧ ∀ w, s.pending = some w →
          (∀ e, decode w = .error e → t.mem = s.mem ∧ t.tile = s.tile)
          ∧ ∀ i, decode w = .ok i →
              (∀ a, a ∉ memWriteSet s i → t.byteAt a = s.byteAt a) ∧ (writesTile i = false → t.tile = s.tile)

/-- The reset state meets every invariant of the model. -/
def Obligations.ResetMeetsTheInvariants : Prop :=
  State.reset.MemInv ∧ State.reset.CursorInv ∧ State.reset.PendingInv ∧ State.reset.EncInv ∧ State.reset.CodeInv
  ∧ State.reset.DecInv

/-! ### Rules of the whole machine -/

/-- R109, with R28, R29 and R72: from every state every command completes. It answers a next state, with no access outside MEM, in which PENDING
is empty and DONE set; RESULT and EOB are 0 after an error, ERR_INFO is 0 after a success. -/
def Obligations.EveryCommandCompletes : Prop :=
  ∀ (i : Instr) (s : State), ∃ t : State, exec i s = .next t ∧ t.pending = none ∧ t.done = true
    ∧ (t.errCode ≠ .ok → t.result = 0 ∧ t.eob = false) ∧ (t.errCode = .ok → t.errInfo = 0)
    ∧ t.overrun = s.overrun ∧ t.cmd = s.cmd ∧ t.ie = s.ie ∧ t.memAddrBits = s.memAddrBits

/-- R262, R264: the first failing pre-check of a command's list is reported, and the command changes nothing but the completion state. -/
def Obligations.FailedPrecheckChangesOnlyCompletionState : Prop :=
  ∀ (i : Instr) (s : State) (pre post : List Check) (c : Check),
    Sys2Proof.Claims.preChecks s i = pre ++ c :: post → (∀ d ∈ pre, d.ok = true) → c.ok = false →
    exec i s = .next
      { s with pending := none, done := true, errCode := c.code, errInfo := c.info, result := 0, eob := false }

/-- R47, R268: after a completion, success and error alike, IRQ is IE; a CTRL write without SRST makes it IE and DONE, one with SRST lowers it;
clearing DONE, or the next acceptance, lowers it; and no host access but a write to CTRL raises it. -/
def Obligations.InterruptIsEnableAndDone : Prop :=
  (∀ (i : Instr) (s t : State), exec i s = .next t → t.irq = s.ie)
  ∧ (∀ (s t : State) (v : Word), hostAccess (.regWrite 8 0x008 v) s = .next t →
      t.irq = (v.getLsbD 0 && !v.getLsbD 1 && s.done))
  ∧ (∀ (s t : State) (v : Word), hostAccess (.regWrite 8 0x010 v) s = .next t → t.irq = (s.irq && !v.getLsbD 1))
  ∧ (∀ (s t : State) (w : Word), s.pending = none → hostAccess (.regWrite 8 0x018 w) s = .next t → t.irq = false)
  ∧ ∀ (s t : State) (a : Access), hostAccess a s = .next t → (∀ n v, a ≠ .regWrite n 0x008 v) → t.irq = true → s.irq = true

/-- R6, R9, R70, R72: MEM stays in its canonical form inside MEM_SIZE, and the parameters never change. -/
def Obligations.StepKeepsMemoryCanonical : Prop :=
  ∀ (s t : State), s.MemInv → step s = .next t → t.MemInv ∧ t.memAddrBits = s.memAddrBits ∧ t.regBase = s.regBase ∧ t.memBase = s.memBase

/-- R143: the cursor invariants hold between moves, also after a run-time error, whose draws stay in range. -/
def Obligations.StepKeepsCursorsInRange : Prop :=
  ∀ (s t : State), s.CursorInv → step s = .next t → t.CursorInv

/-- R23, R24, R46, R108: while a command is pending, CMD is its word, DONE, ERRCODE and EOB are 0, and the run is not over (R312, log 19). -/
def Obligations.StepKeepsThePendingCommandClean : Prop :=
  ∀ (s t : State), s.PendingInv → step s = .next t → t.PendingInv

/-- R38, R43, R157, R161 items 1 and 3: ENC_MAXLEN bounds the code lengths, is at most CODE_LEN_MAX and is 0 without a table, and a symbol without a
code has code 0; a valid table's code fills the code space, with EOB at its greatest length and of all one bits. -/
def Obligations.StepKeepsTheEncoderTableComplete : Prop :=
  ∀ (s t : State), s.EncInv → s.CodeInv → step s = .next t → t.EncInv ∧ t.CodeInv

/-- R38, R44, R182, R183: a valid decoder table describes a complete prefix code with EOB last. -/
def Obligations.StepKeepsTheDecoderTablesComplete : Prop :=
  ∀ (s t : State), s.DecInv → step s = .next t → t.DecInv

/-- R42 to R45, R304: no host access but a soft reset changes a table, a cursor or MARKER other than by a write to MARKER, and none but a memory-port
write or a soft reset changes MEM. -/
def Obligations.HostAccessesKeepTheTables : Prop :=
  ∀ (s t : State) (a : Access), hostAccess a s = .next t →
    (∀ n v, a = .regWrite n 0x008 v → v.getLsbD 1 = false) →
    t.freq = s.freq ∧ t.codeLen = s.codeLen ∧ t.codeVal = s.codeVal ∧ t.encValid = s.encValid ∧ t.encMaxlen = s.encMaxlen
    ∧ t.decCnt = s.decCnt ∧ t.decFirstCode = s.decFirstCode ∧ t.decFirstSym = s.decFirstSym ∧ t.decAlpha = s.decAlpha
    ∧ t.decValid = s.decValid ∧ t.decMaxlen = s.decMaxlen ∧ t.tile = s.tile
    ∧ t.bpAcc = s.bpAcc ∧ t.bpFree = s.bpFree ∧ t.brAcc = s.brAcc ∧ t.brLeft = s.brLeft
    ∧ t.result = s.result ∧ t.errInfo = s.errInfo
    ∧ ((∀ n v, a ≠ .regWrite n 0x098 v) → t.marker = s.marker)
    ∧ ((∀ n b v, a ≠ .memWrite n b v) → t.mem = s.mem)

/-! ### What a command leaves unchanged (R50) -/

/-- R50 for the commands that write the output stream: only their write sets change, and of MEM only the bytes from OUT_PTR to where OUT_PTR
ends, or to OUT_END after a run-time error. -/
def Obligations.OutputStreamCommandsFrame : Prop :=
  ∀ (i : Instr) (s t : State), i ∈ [Instr.bpPut, .bpFlush, .hcbWrite, .henc, .hencEob] → exec i s = .next t →
    t = Sys2Proof.Claims.withWriteSet i s t
    ∧ ∀ a, ¬ (s.outPtr.toNat ≤ a ∧ a < (if t.errCode = .ok then t.outPtr.toNat else s.outEnd.toNat)) →
        t.byteAt a = s.byteAt a

/-- R50 for the commands that write no memory: only their write sets change, and every byte of MEM reads as before. -/
def Obligations.CommandsWithoutStoresFrame : Prop :=
  ∀ (i : Instr) (s t : State),
    (i ∈ [Instr.nop, .bpClear, .brAlign, .brGet, .hfreqClr, .hfreqAdd, .hbuild, .hcbRead, .hdecSym, .rleMark, .geom, .tileLoad]
      ∨ ∃ b, i = .tileDeser b) →
    exec i s = .next t → t = Sys2Proof.Claims.withWriteSet i s t ∧ ∀ a, t.byteAt a = s.byteAt a

/-- R50 for the commands that store: only their write sets change, and of MEM only the bytes the rule of each names. -/
def Obligations.StoringCommandsFrame : Prop :=
  ∀ (s t : State),
    (∀ l, exec (.hdec l) s = .next t →
      t = Sys2Proof.Claims.withWriteSet (.hdec l) s t
      ∧ ∀ a, ¬ (s.dst.toNat ≤ a ∧ a < s.dst.toNat + (if t.errCode = .ok then t.result.toNat else s.dstCap.toNat)) →
          t.byteAt a = s.byteAt a)
    ∧ (∀ i, i ∈ [Instr.rleEnc, .rleDec] → exec i s = .next t →
      t = Sys2Proof.Claims.withWriteSet i s t
      ∧ ∀ a, ¬ (s.dst.toNat ≤ a ∧ a < s.dst.toNat + (if t.errCode = .ok then t.result.toNat else s.dstCap.toNat)) →
          t.byteAt a = s.byteAt a)
    ∧ (∀ i, i ∈ [Instr.deltaEnc, .deltaDec] → exec i s = .next t →
      t = Sys2Proof.Claims.withWriteSet i s t
      ∧ ∀ a, ¬ (t.errCode = .ok ∧ s.dst.toNat ≤ a ∧ a < s.dst.toNat + s.srcLen.toNat) → t.byteAt a = s.byteAt a)
    ∧ (exec .tileStore s = .next t →
      t = Sys2Proof.Claims.withWriteSet .tileStore s t
      ∧ ∀ a, ¬ (t.errCode = .ok ∧ ∃ r c, Sys2Proof.Claims.tileValid s r c ∧ a = s.sampleAddr r c) → t.byteAt a = s.byteAt a)
    ∧ ∀ f, exec (.tileSer f) s = .next t →
      t = Sys2Proof.Claims.withWriteSet (.tileSer f) s t
      ∧ ∀ a, ¬ (t.errCode = .ok ∧ s.dst.toNat ≤ a ∧ a < s.dst.toNat + s.tcnt) → t.byteAt a = s.byteAt a

/-! ### Engine, bit packer and bit reader -/

/-- R136, R137, R140, R151: NOP, BP_CLEAR, BR_ALIGN and HFREQ_CLR have these words and no pre-check, and complete from every state with exactly these
effects. -/
def Obligations.CommandsWithoutOperandsComplete : Prop :=
  decode 0x00 = .ok .nop ∧ decode 0x10 = .ok .bpClear ∧ decode 0x18 = .ok .brAlign ∧ decode 0x20 = .ok .hfreqClr
  ∧ ∀ (s : State),
    exec .nop s = .next { s with pending := none, done := true, errCode := .ok, errInfo := 0, result := 0, eob := false }
    ∧ exec .bpClear s = .next
        { s with
          bpAcc := 0
          bpFree := 8
          pending := none
          done := true
          errCode := .ok
          errInfo := 0
          result := toWord (8 - s.bpFree)
          eob := false }
    ∧ exec .brAlign s = .next
        { s with
          brAcc := 0
          brLeft := 0
          pending := none
          done := true
          errCode := .ok
          errInfo := 0
          result := toWord s.brLeft
          eob := false }
    ∧ ∃ t : State, exec .hfreqClr s = .next t ∧ (∀ v, v < 256 → tableGet t.freq v = 0)
        ∧ t = { s with freq := t.freq, pending := none, done := true, errCode := .ok, errInfo := 0, result := 0, eob := false }

/-- R138: BP_PUT with its operands admitted and room for the bytes it completes puts the ARG_N low bits of ARG_VAL, most significant first, and
RESULT is the number of bytes written. -/
def Obligations.BpPutAppendsItsBits : Prop :=
  ∀ (s : State), s.CursorInv → Sys2Proof.Claims.outInMem s → s.argN.toNat ≤ 64 →
    (8 - s.bpFree + s.argN.toNat) / 8 ≤ s.outEnd.toNat - s.outPtr.toNat →
    ∃ u : State, bitsPut s ((List.range s.argN.toNat).map fun i => s.argVal.toNat.testBit (s.argN.toNat - 1 - i)) u
      ∧ exec .bpPut s = .next (u.succeed (toWord ((8 - s.bpFree + s.argN.toNat) / 8)))

/-- R139: BP_FLUSH writes a partial byte at OUT_PTR, its padding bits already 0, and aligns the packer; on an aligned packer it writes nothing.
RESULT is the number of padding bits. -/
def Obligations.BpFlushWritesThePartialByte : Prop :=
  ∀ (s : State), Sys2Proof.Claims.outInMem s →
    (s.bpFree < 8 → s.outPtr.toNat < s.outEnd.toNat →
      ∃ u : State, Sys2Proof.Claims.wrote s s.outPtr.toNat [s.bpAcc] u
        ∧ exec .bpFlush s = .next
            ({ u with outPtr := s.outPtr + 1, bpAcc := 0, bpFree := 8 }.succeed (toWord s.bpFree)))
    ∧ (8 ≤ s.bpFree → exec .bpFlush s = .next (s.succeed 0))

/-- R141: BR_GET with enough bits left reads the next ARG_N of them, the first the most significant of RESULT, and leaves the cursor just past
them. -/
def Obligations.BrGetReadsTheNextBits : Prop :=
  ∀ (s : State), s.CursorInv → Sys2Proof.Claims.inInMem s → s.argN.toNat ≤ 64 →
    s.argN.toNat ≤ s.brLeft + 8 * (s.inEnd.toNat - s.inPtr.toNat) →
    ∃ u : State, bitsRead s s.argN.toNat u
      ∧ exec .brGet s = .next (u.succeed (toWord (bitsValue (s.unreadBits.take s.argN.toNat))))

/-! ### Huffman encoder -/

/-- R152: HFREQ_ADD adds to each FREQ entry, mod 2^64, the number of times its byte stands in the source. -/
def Obligations.HfreqAddCountsTheSource : Prop :=
  ∀ (s : State), Sys2Proof.Claims.srcInMem s →
    ∃ f : Vector Word 256, exec .hfreqAdd s = .next ({ s with freq := f }.succeed s.srcLen)
      ∧ ∀ v, v < 256 → tableGet f v
          = tableGet s.freq v + toWord ((Sys2Proof.Claims.source s).countP fun b => b.toNat == v)

/-- R153, R164: HBUILD on an all-zero FREQ is no error: it clears the code table and RESULT is 0. -/
def Obligations.HbuildOnTheEmptyAlphabetClears : Prop :=
  ∀ (s : State), (∀ v, v < 256 → tableGet s.freq v = 0) →
    ∃ t : State, exec .hbuild s = .next (t.succeed 0)
      ∧ t = { s with codeLen := t.codeLen, codeVal := t.codeVal, encValid := false, encMaxlen := 0 }
      ∧ ∀ i, i < 257 → tableGet t.codeLen i = 0 ∧ tableGet t.codeVal i = 0

/-- R153, R154, R155, R157: HBUILD on a non-empty alphabet gives each participant the length that the merging of R155 gives it, at least 1, and
no other symbol a code; RESULT and ENC_MAXLEN are the longest. Where that exceeds CODE_LEN_MAX it clears the table and reports ERR_CODELEN. -/
def Obligations.HbuildWritesTheCodeLengths : Prop :=
  ∀ (s : State), (∃ v, v < 256 ∧ tableGet s.freq v ≠ 0) →
    ∃ (lens : List (Nat × Nat)) (l : Nat), Sys2Proof.Claims.Merged 257 (Sys2Proof.Claims.leafHeap s) lens
      ∧ (∃ p ∈ lens, p.1 = l) ∧ (∀ p ∈ lens, p.1 ≤ l)
      ∧ (64 < l →
        ∃ t : State, exec .hbuild s = .next (t.fail .codelen (toWord l))
          ∧ t = { s with codeLen := t.codeLen, codeVal := t.codeVal, encValid := false, encMaxlen := 0 }
          ∧ ∀ i, i < 257 → tableGet t.codeLen i = 0 ∧ tableGet t.codeVal i = 0)
      ∧ (l ≤ 64 →
        ∃ t : State, exec .hbuild s = .next (t.succeed (toWord l))
          ∧ t = { s with codeLen := t.codeLen, codeVal := t.codeVal, encValid := true, encMaxlen := l }
          ∧ ∀ i, i < 257 →
              (Sys2Proof.Claims.participates s i → (tableGet t.codeLen i, i) ∈ lens ∧ 1 ≤ tableGet t.codeLen i)
              ∧ (¬ Sys2Proof.Claims.participates s i → tableGet t.codeLen i = 0 ∧ tableGet t.codeVal i = 0))

/-- R156: after a successful HBUILD the first symbol in the order (length, symbol) has code 0, and each next one `(previous_code + 1) << (length -
previous_length)`. -/
def Obligations.HbuildAssignsCanonicalCodes : Prop :=
  ∀ (s t : State), exec .hbuild s = .next t → t.encValid = true →
    let before := fun (p q : Nat) =>
      tableGet t.codeLen p < tableGet t.codeLen q ∨ (tableGet t.codeLen p = tableGet t.codeLen q ∧ p < q)
    let coded := fun (p : Nat) => p < 257 ∧ 0 < tableGet t.codeLen p
    (∀ p, coded p → (∀ q, coded q → ¬ before q p) → tableGet t.codeVal p = 0)
    ∧ ∀ p q, coded p → coded q → before p q → (∀ r, coded r → ¬ (before p r ∧ before r q)) →
        tableGet t.codeVal q
          = (tableGet t.codeVal p + 1) <<< (tableGet t.codeLen q - tableGet t.codeLen p)

/-- R161, item 1: the code that HBUILD writes satisfies Kraft's equality. -/
def Obligations.HbuildCodeFillsTheCodeSpace : Prop :=
  ∀ (s t : State), exec .hbuild s = .next t → t.encValid = true →
    t.codeSpace = 2 ^ t.encMaxlen

/-- R155, R156, R161, item 3: EOB has the greatest length L, and its code is L one bits. -/
def Obligations.EobHasTheLastLongestCode : Prop :=
  ∀ (s t : State), exec .hbuild s = .next t → t.encValid = true →
    tableGet t.codeLen 256 = t.encMaxlen ∧ (tableGet t.codeVal 256).toNat = 2 ^ t.encMaxlen - 1

/-- R158: HCB_WRITE with a table, an aligned packer and room writes the transmitted codebook from OUT_PTR on; RESULT is its length, and the
packer stays aligned. -/
def Obligations.HcbWriteSerializesTheCodebook : Prop :=
  ∀ (s : State), s.EncInv → Sys2Proof.Claims.outInMem s → s.encValid = true → s.bpFree = 8 →
    (Sys2Proof.Claims.codebook s).length ≤ s.outEnd.toNat - s.outPtr.toNat →
    ∃ u : State, Sys2Proof.Claims.wrote s s.outPtr.toNat (Sys2Proof.Claims.codebook s) u
      ∧ exec .hcbWrite s = .next
          ({ u with outPtr := s.outPtr + toWord (Sys2Proof.Claims.codebook s).length }.succeed
            (toWord (Sys2Proof.Claims.codebook s).length))

/-- R159: HENC of a source whose every byte has a code, with room, puts their codes in order; RESULT is the number of bits. -/
def Obligations.HencPutsTheCodesOfTheSource : Prop :=
  ∀ (s : State), s.CursorInv → Sys2Proof.Claims.srcInMem s → Sys2Proof.Claims.outInMem s → s.encValid = true →
    Sys2Proof.Claims.apart s.src.toNat s.srcLen.toNat s.outPtr.toNat (s.outEnd.toNat - s.outPtr.toNat) →
    let bits := (Sys2Proof.Claims.source s).flatMap fun b => Sys2Proof.Claims.codeBits s b.toNat
    (∀ b ∈ Sys2Proof.Claims.source s, tableGet s.codeLen b.toNat ≠ 0) →
    (8 - s.bpFree + bits.length) / 8 ≤ s.outEnd.toNat - s.outPtr.toNat →
    ∃ u : State, bitsPut s bits u ∧ exec .henc s = .next (u.succeed (toWord bits.length))

/-- R159, R263: HENC at the first byte without a code, with room for the codes before it, reports ERR_NOCODE with the byte, and where the codes
before such a byte (or all of them) do not fit it reports ERR_OVERFLOW(3); either leaves the output stream drawn within its bounds. -/
def Obligations.HencStopsAtAnUncodedByteOrAFullStream : Prop :=
  ∀ (s : State), s.CursorInv → Sys2Proof.Claims.srcInMem s → Sys2Proof.Claims.outInMem s → s.encValid = true →
    Sys2Proof.Claims.apart s.src.toNat s.srcLen.toNat s.outPtr.toNat (s.outEnd.toNat - s.outPtr.toNat) →
    ∀ (pre post : List Byte), Sys2Proof.Claims.source s = pre ++ post → (∀ b ∈ pre, tableGet s.codeLen b.toNat ≠ 0) →
      let n := (pre.flatMap fun b => Sys2Proof.Claims.codeBits s b.toNat).length
      (∀ b rest, post = b :: rest → tableGet s.codeLen b.toNat = 0 →
        (8 - s.bpFree + n) / 8 ≤ s.outEnd.toNat - s.outPtr.toNat →
        ∃ u : State, Sys2Proof.Claims.outStreamDrawn s u ∧ exec .henc s = .next (u.fail .nocode (toWord b.toNat)))
      ∧ (s.outEnd.toNat - s.outPtr.toNat < (8 - s.bpFree + n) / 8 →
        ∃ u : State, Sys2Proof.Claims.outStreamDrawn s u ∧ exec .henc s = .next (u.fail .overflow 3))

/-- R160: HENC_EOB with a table and room puts EOB's code; RESULT is its length. -/
def Obligations.HencEobPutsTheEobCode : Prop :=
  ∀ (s : State), s.CursorInv → Sys2Proof.Claims.outInMem s → s.encValid = true →
    (8 - s.bpFree + tableGet s.codeLen 256) / 8 ≤ s.outEnd.toNat - s.outPtr.toNat →
    ∃ u : State, bitsPut s (Sys2Proof.Claims.codeBits s 256) u
      ∧ exec .hencEob s = .next (u.succeed (toWord (tableGet s.codeLen 256)))

/-! ### Huffman decoder -/

/-- R181, R182: HCB_READ of a well-formed codebook consumes its 1 + L + S bytes and builds the tables: the counts with EOB's slot at length L,
the first codes and first symbols by their recurrence, the alphabet with EOB last, and 0 in every other entry. -/
def Obligations.HcbReadBuildsTheTables : Prop :=
  ∀ (s : State) (counts syms : List Byte), s.brLeft = 0 → Sys2Proof.Claims.inInMem s →
    let l := counts.length
    let total := (counts.map BitVec.toNat).sum
    let c := fun k => (counts.getD (k - 1) 0).toNat + if k = l then 1 else 0
    1 ≤ l → l ≤ 64 → total ≤ 256 → syms.length = total → 1 + l + total ≤ s.inEnd.toNat - s.inPtr.toNat →
    s.bytesAt s.inPtr.toNat (1 + l + total) = toByte (l - 1) :: counts ++ syms →
    ((List.range l).map fun k => (counts.getD k 0).toNat * 2 ^ (l - (k + 1))).sum + 1 = 2 ^ l →
    ∃ t : State, exec .hcbRead s = .next (t.succeed (toWord (1 + l + total)))
      ∧ t.inPtr.toNat = s.inPtr.toNat + (1 + l + total) ∧ t.decValid = true ∧ t.decMaxlen = l
      ∧ (∀ k, 1 ≤ k → k ≤ l → t.decCount k = c k)
      ∧ t.firstCode 1 = 0 ∧ t.firstSym 1 = 0
      ∧ (∀ k, 1 ≤ k → k < l → t.firstCode (k + 1) = 2 * (t.firstCode k + c k) ∧ t.firstSym (k + 1) = t.firstSym k + c k)
      ∧ (∀ k, l < k → k ≤ 64 → t.decCount k = 0 ∧ t.firstCode k = 0 ∧ t.firstSym k = 0)
      ∧ (∀ j, j < total → tableGet t.decAlpha j = (syms.getD j 0).toNat)
      ∧ tableGet t.decAlpha total = 256 ∧ ∀ j, total < j → j < 257 → tableGet t.decAlpha j = 0

/-- R181: a codebook that fails a check is reported with the first failing check's reason, and the error has defined effects: every decoder table
entry 0, DEC_VALID and DEC_MAXLEN 0, IN_PTR and all else unchanged. -/
def Obligations.HcbReadRejectsAndClears : Prop :=
  ∀ (s : State) (r : Nat), s.brLeft = 0 → Sys2Proof.Claims.inInMem s → Sys2Proof.Claims.codebookFault s = some r →
    ∃ t : State, exec .hcbRead s = .next (t.fail .codebook (toWord r))
      ∧ t = { s with
              decCnt := t.decCnt
              decFirstCode := t.decFirstCode
              decFirstSym := t.decFirstSym
              decAlpha := t.decAlpha
              decValid := false
              decMaxlen := 0 }
      ∧ (∀ k, k < 64 → tableGet t.decCnt k = 0 ∧ tableGet t.decFirstCode k = 0 ∧ tableGet t.decFirstSym k = 0)
      ∧ ∀ j, j < 257 → tableGet t.decAlpha j = 0

/-- R183, R186: HDEC_SYM reads the code at the read position and returns its symbol, with EOB set exactly when it is EOB; where the stream ends
inside a code it reports ERR_TRUNC(0) and leaves the input cursor drawn within its bounds. -/
def Obligations.HdecSymReadsOneSymbol : Prop :=
  ∀ (s : State), s.CursorInv → s.DecInv → Sys2Proof.Claims.inInMem s → s.decValid = true →
    (∀ n sym, Sys2Proof.Claims.codeAt s s.unreadBits n sym →
      ∃ u : State, bitsRead s n u
        ∧ exec .hdecSym s = .next (u.succeed (toWord sym) (sym == 256)))
    ∧ ((∀ n sym, ¬ Sys2Proof.Claims.codeAt s s.unreadBits n sym) →
      ∃ u : State, Sys2Proof.Claims.inStreamDrawn s 0 u ∧ exec .hdecSym s = .next (u.fail .trunc 0))

/-- R183, R188: on any valid table every bit sequence of at least L bits begins with a code, and the index it gives into DEC_ALPHA is one of the S + 1
symbols. -/
def Obligations.DecoderIsTotal : Prop :=
  ∀ (s : State) (bits : List Bool), s.DecInv → s.decValid = true → s.decMaxlen ≤ bits.length →
    ∃ n sym, Sys2Proof.Claims.codeAt s bits n sym
      ∧ s.firstSym n + (bitsValue (bits.take n) - s.firstCode n)
          < s.firstSym s.decMaxlen + s.decCount s.decMaxlen
      ∧ s.firstCode n ≤ bitsValue (bits.take n)

/-- R184: L one bits are EOB's code on the decode side. -/
def Obligations.AllOnesDecodesToEob : Prop :=
  ∀ (s : State) (rest : List Bool), s.CursorInv → s.DecInv → Sys2Proof.Claims.inInMem s → s.decValid = true →
    s.unreadBits = List.replicate s.decMaxlen true ++ rest →
    ∃ u : State, bitsRead s s.decMaxlen u ∧ u.unreadBits = rest ∧ exec .hdecSym s = .next (u.succeed 256 true)

/-- R161 items 2 and 5, R181 to R183: HCB_READ, at the codebook of a code that HBUILD wrote, succeeds and consumes exactly the codebook, and the
tables it builds decode every symbol's code, whatever bits follow it, back to that symbol. -/
def Obligations.DecoderUndoesTheEncoder : Prop :=
  ∀ (s t : State), exec .hbuild s = .next t → t.encValid = true →
    let cb := Sys2Proof.Claims.codebook t
    ∀ (u : State), u.brLeft = 0 → Sys2Proof.Claims.inInMem u → cb.length ≤ u.inEnd.toNat - u.inPtr.toNat →
      u.bytesAt u.inPtr.toNat cb.length = cb →
      ∃ v : State, exec .hcbRead u = .next v ∧ v.errCode = .ok ∧ v.result = toWord cb.length
        ∧ v.inPtr.toNat = u.inPtr.toNat + cb.length ∧ v.decValid = true ∧ v.decMaxlen = t.encMaxlen
        ∧ ∀ (sym : Nat) (rest : List Bool), sym < 257 → 0 < tableGet t.codeLen sym →
            Sys2Proof.Claims.codeAt v (Sys2Proof.Claims.codeBits t sym ++ rest) (tableGet t.codeLen sym) sym

/-- R185: HDEC writes the symbols decoded from DST on. It stops at EOB, which it does not write, with EOB = 1; with L = 1 it stops before LIMIT +
1 symbols, with EOB = 0. RESULT is the number of bytes written, and the stream is left just past the last code read. -/
def Obligations.HdecWritesTheDecodedSymbols : Prop :=
  ∀ (s : State) (l : Bool) (bytes : List Byte) (rest : List Bool),
    s.CursorInv → s.DecInv → Sys2Proof.Claims.inInMem s → Sys2Proof.Claims.dstInMem s → s.decValid = true →
    Sys2Proof.Claims.apart s.inPtr.toNat (s.inEnd.toNat - s.inPtr.toNat) s.dst.toNat s.dstCap.toNat →
    bytes.length ≤ s.dstCap.toNat →
    (Sys2Proof.Claims.codesOf s s.unreadBits (bytes.map BitVec.toNat ++ [256]) rest →
      (l = true → bytes.length < s.limit.toNat) →
      ∃ c u : State, bitsRead s (s.unreadBits.length - rest.length) c ∧ Sys2Proof.Claims.wrote c s.dst.toNat bytes u
        ∧ u.unreadBits = rest ∧ exec (.hdec l) s = .next (u.succeed (toWord bytes.length) true))
    ∧ (Sys2Proof.Claims.codesOf s s.unreadBits (bytes.map BitVec.toNat) rest → l = true → bytes.length = s.limit.toNat →
      ∃ c u : State, bitsRead s (s.unreadBits.length - rest.length) c ∧ Sys2Proof.Claims.wrote c s.dst.toNat bytes u
        ∧ u.unreadBits = rest ∧ exec (.hdec l) s = .next (u.succeed (toWord bytes.length) false))

/-- R185, R263: HDEC reports ERR_TRUNC(0) where the stream ends inside a code, and ERR_OVERFLOW(2) for a byte symbol with the destination full;
either leaves the destination and the input cursor drawn within their bounds. -/
def Obligations.HdecStopsAtAnEndOfStreamOrAFullDestination : Prop :=
  ∀ (s : State) (l : Bool) (bytes : List Byte) (rest : List Bool),
    s.CursorInv → s.DecInv → Sys2Proof.Claims.inInMem s → Sys2Proof.Claims.dstInMem s → s.decValid = true →
    Sys2Proof.Claims.apart s.inPtr.toNat (s.inEnd.toNat - s.inPtr.toNat) s.dst.toNat s.dstCap.toNat →
    Sys2Proof.Claims.codesOf s s.unreadBits (bytes.map BitVec.toNat) rest →
    (bytes.length ≤ s.dstCap.toNat → (l = true → bytes.length < s.limit.toNat) →
      (∀ n sym, ¬ Sys2Proof.Claims.codeAt s rest n sym) →
      ∃ u : State, Sys2Proof.Claims.inStreamDrawn s s.dstCap.toNat u ∧ exec (.hdec l) s = .next (u.fail .trunc 0))
    ∧ (bytes.length = s.dstCap.toNat + 1 → (l = true → s.dstCap.toNat < s.limit.toNat) →
      ∃ u : State, Sys2Proof.Claims.inStreamDrawn s s.dstCap.toNat u ∧ exec (.hdec l) s = .next (u.fail .overflow 2))

/-! ### Predictive delta -/

/-- R200, R201: DELTA_ENC writes each byte less the original byte before it, DELTA_DEC the running sum, both mod 256, starting from 0, on the
snapshot of the source, in place too; RESULT is SRC_LEN. -/
def Obligations.DeltaCommandsWriteDifferencesAndSums : Prop :=
  ∀ (s : State), Sys2Proof.Claims.srcInMem s → Sys2Proof.Claims.dstInMem s → s.srcLen.toNat ≤ s.dstCap.toNat →
    (s.dst = s.src ∨ Sys2Proof.Claims.apart s.src.toNat s.srcLen.toNat s.dst.toNat s.srcLen.toNat) →
    let src := fun i => s.byteAt (s.src.toNat + i)
    (∃ t : State, exec .deltaEnc s = .next (t.succeed s.srcLen) ∧ t = { s with mem := t.mem }
      ∧ (∀ i, i < s.srcLen.toNat → t.byteAt (s.dst.toNat + i) = src i - if i = 0 then 0 else src (i - 1))
      ∧ ∀ a, ¬ (s.dst.toNat ≤ a ∧ a < s.dst.toNat + s.srcLen.toNat) → t.byteAt a = s.byteAt a)
    ∧ ∃ t : State, exec .deltaDec s = .next (t.succeed s.srcLen) ∧ t = { s with mem := t.mem }
      ∧ (∀ i, i < s.srcLen.toNat →
          t.byteAt (s.dst.toNat + i) = (if i = 0 then 0 else t.byteAt (s.dst.toNat + (i - 1))) + src i)
      ∧ ∀ a, ¬ (s.dst.toNat ≤ a ∧ a < s.dst.toNat + s.srcLen.toNat) → t.byteAt a = s.byteAt a

/-- R202: each transform undoes the other, on every byte sequence, and so do the two commands in place, in either order. -/
def Obligations.DeltaTransformsAreInverse : Prop :=
  (∀ (bs : List Byte), deltaDecode 0 (deltaEncode 0 bs) = bs ∧ deltaEncode 0 (deltaDecode 0 bs) = bs
    ∧ (deltaEncode 0 bs).length = bs.length
    ∧ ∀ i, i < bs.length → (deltaEncode 0 bs).getD i 0 = bs.getD i 0 - if i = 0 then 0 else bs.getD (i - 1) 0)
  ∧ ∀ (s : State), Sys2Proof.Claims.dstInMem s → s.srcLen.toNat ≤ s.dstCap.toNat → s.dst = s.src →
      (∃ t u : State, exec .deltaEnc s = .next t ∧ exec .deltaDec t = .next u ∧ t.errCode = .ok ∧ u.errCode = .ok
        ∧ ∀ a, u.byteAt a = s.byteAt a)
      ∧ ∃ t u : State, exec .deltaDec s = .next t ∧ exec .deltaEnc t = .next u ∧ t.errCode = .ok ∧ u.errCode = .ok
        ∧ ∀ a, u.byteAt a = s.byteAt a

/-! ### Run-length coding -/

/-- R211, R215: RLE_MARK writes to MARKER and RESULT the least of the byte values with the fewest maximal runs of length exactly 1 in the source. -/
def Obligations.RleMarkChoosesTheLeastSingleton : Prop :=
  ∀ (s : State), Sys2Proof.Claims.srcInMem s →
    ∃ m : Byte, exec .rleMark s = .next ({ s with marker := m }.succeed (toWord m.toNat))
      ∧ ∀ v, v < 256 →
          Sys2Proof.Claims.single (Sys2Proof.Claims.source s) m.toNat ≤ Sys2Proof.Claims.single (Sys2Proof.Claims.source s) v
          ∧ (v < m.toNat →
              Sys2Proof.Claims.single (Sys2Proof.Claims.source s) m.toNat < Sys2Proof.Claims.single (Sys2Proof.Claims.source s) v)

/-- R212: RLE_ENC writes the escapes and literals of the source's encoding runs from DST on, and RESULT is their number of bytes; where they do
not fit in DST_CAP it reports ERR_OVERFLOW(2) with the destination drawn. -/
def Obligations.RleEncWritesTheEscapesOfTheRuns : Prop :=
  ∀ (s : State) (runs : List (Byte × Nat)), Sys2Proof.Claims.srcInMem s → Sys2Proof.Claims.dstInMem s →
    Sys2Proof.Claims.apart s.src.toNat s.srcLen.toNat s.dst.toNat s.dstCap.toNat →
    Sys2Proof.Claims.encodingRuns runs → Sys2Proof.Claims.source s = runs.flatMap (fun r => List.replicate r.2 r.1) →
    let out := runs.flatMap (Sys2Proof.Claims.escapeOf s.marker)
    (out.length ≤ s.dstCap.toNat →
      ∃ u : State, Sys2Proof.Claims.wrote s s.dst.toNat out u ∧ exec .rleEnc s = .next (u.succeed (toWord out.length)))
    ∧ (s.dstCap.toNat < out.length →
      ∃ u : State, Sys2Proof.Claims.dstDrawn s u ∧ exec .rleEnc s = .next (u.fail .overflow 2))

/-- R213: RLE_DEC of a sequence of literals and whole escapes writes what they decode to; an input that ends after a marker is ERR_RLE(1), one
that ends after a marker and a count byte from 2 on ERR_RLE(2), and output that does not fit is ERR_OVERFLOW(2), each with the destination drawn.
-/
def Obligations.RleDecWritesWhatThePiecesDecodeTo : Prop :=
  ∀ (s : State) (pieces : List Sys2Proof.Claims.RlePiece) (tail : List Byte), Sys2Proof.Claims.srcInMem s →
    Sys2Proof.Claims.dstInMem s → Sys2Proof.Claims.apart s.src.toNat s.srcLen.toNat s.dst.toNat s.dstCap.toNat →
    (∀ p ∈ pieces, p.ok s.marker) → Sys2Proof.Claims.source s = pieces.flatMap (·.input s.marker) ++ tail →
    let out := pieces.flatMap (·.output s.marker)
    (tail = [] → out.length ≤ s.dstCap.toNat →
      ∃ u : State, Sys2Proof.Claims.wrote s s.dst.toNat out u ∧ exec .rleDec s = .next (u.succeed (toWord out.length)))
    ∧ (tail = [s.marker] → out.length ≤ s.dstCap.toNat →
      ∃ u : State, Sys2Proof.Claims.dstDrawn s u ∧ exec .rleDec s = .next (u.fail .rle 1))
    ∧ (∀ f : Byte, tail = [s.marker, f] → 2 ≤ f.toNat → out.length ≤ s.dstCap.toNat →
      ∃ u : State, Sys2Proof.Claims.dstDrawn s u ∧ exec .rleDec s = .next (u.fail .rle 2))
    ∧ (s.dstCap.toNat < out.length →
      ∃ u : State, Sys2Proof.Claims.dstDrawn s u ∧ exec .rleDec s = .next (u.fail .overflow 2))

/-- R214, with the size bound of R212: for every marker the decoder undoes the encoder and the encoder at most doubles; and RLE_DEC of what a
successful RLE_ENC wrote, to any room large enough that does not overlap it, gives the source back. -/
def Obligations.RleDecoderUndoesTheEncoder : Prop :=
  (∀ (m : Byte) (bs : List Byte),
    rleDecode m .scan (rleEncode m bs) = (bs, .scan) ∧ (rleEncode m bs).length ≤ 2 * bs.length)
  ∧ ∀ (s t : State) (d cap : Word), exec .rleEnc s = .next t → t.errCode = .ok → s.srcLen.toNat ≤ cap.toNat →
      d.toNat + cap.toNat ≤ s.memSize → Sys2Proof.Claims.apart s.dst.toNat t.result.toNat d.toNat cap.toNat →
      ∃ u : State, exec .rleDec { t with src := s.dst, srcLen := t.result, dst := d, dstCap := cap } = .next u
        ∧ u.errCode = .ok ∧ u.result = s.srcLen
        ∧ u.bytesAt d.toNat s.srcLen.toNat = s.bytesAt s.src.toNat s.srcLen.toNat

/-! ### Block geometry -/

/-- R232: GEOM of a tile index of the image writes the tile's position and shape and RESULT is ntiles; the shape is legal and the tile lies
inside the image width. -/
def Obligations.GeomComputesTheTile : Prop :=
  ∀ (s : State),
    let n := s.imgSize.toNat
    let w := s.imgWidth.toNat
    let h := (n + w - 1) / w
    let tpr := (w + 15) / 16
    let ntiles := tpr * ((h + 15) / 16)
    let x := 16 * (s.argN.toNat % tpr)
    let y := 16 * (s.argN.toNat / tpr)
    let tw := min 16 (w - x)
    let th := min 16 (h - y)
    let tk := if y + th = h then min tw (n - (h - 1) * w - x) else tw
    1 ≤ w → s.argN.toNat < ntiles →
    ∃ t : State, exec .geom s = .next (t.succeed (toWord ntiles))
      ∧ t = { s with tileX := t.tileX, tileY := t.tileY, tw := t.tw, th := t.th, tk := t.tk }
      ∧ t.tileX.toNat = x ∧ t.tileY.toNat = y ∧ t.tw.toNat = tw ∧ t.th.toNat = th ∧ t.tk.toNat = tk
      ∧ Sys2Proof.Claims.shapeLegal t ∧ x + tw ≤ w ∧ t.tcnt = tw * (th - 1) + tk

/-- R238: the valid positions of the tiles of an image map one-to-one onto its samples, each tile lies within the image width, and the tiles
without samples are a suffix of the tile order. -/
def Obligations.TilesPartitionTheImage : Prop :=
  let samples := fun g : TileShape => g.tw * (g.th - 1) + g.tk
  ∀ (n w : Nat), 1 ≤ n → 1 ≤ w →
    (∀ t, t < tileCount n w →
      (tileShape n w t).x + (tileShape n w t).tw ≤ w
      ∧ ∀ t', t < t' → t' < tileCount n w → samples (tileShape n w t) = 0 → samples (tileShape n w t') = 0)
    ∧ (∀ k, k < n → ∃ t r c : Nat, t < tileCount n w
      ∧ Sys2Proof.Claims.valid (tileShape n w t).tw (tileShape n w t).th (tileShape n w t).tk r c
      ∧ ((tileShape n w t).y + r) * w + (tileShape n w t).x + c = k)
    ∧ ∀ t r c, t < tileCount n w →
        Sys2Proof.Claims.valid (tileShape n w t).tw (tileShape n w t).th (tileShape n w t).tk r c →
        ((tileShape n w t).y + r) * w + (tileShape n w t).x + c < n
        ∧ ∀ t' r' c', t' < tileCount n w →
            Sys2Proof.Claims.valid (tileShape n w t').tw (tileShape n w t').th (tileShape n w t').tk r' c' →
            ((tileShape n w t').y + r') * w + (tileShape n w t').x + c'
              = ((tileShape n w t).y + r) * w + (tileShape n w t).x + c →
            t' = t ∧ r' = r ∧ c' = c

/-- R233, R234: TILE_LOAD copies the valid samples of the image into TILE and sets every other entry 0; TILE_STORE copies the valid entries of
TILE to the image and writes no other byte. RESULT is TCNT. -/
def Obligations.TileLoadAndStoreMoveTheValidSamples : Prop :=
  ∀ (s : State), Sys2Proof.Claims.shapeLegal s → Sys2Proof.Claims.tilePlaced s →
    let addr := fun r c => s.imgBase.toNat + (s.tileY.toNat + r) * s.imgWidth.toNat + s.tileX.toNat + c
    (∃ tile : Vector Byte 256, exec .tileLoad s = .next ({ s with tile := tile }.succeed (toWord s.tcnt))
      ∧ ∀ r c, r < 16 → c < 16 →
          (Sys2Proof.Claims.tileValid s r c → tableGet tile (16 * r + c) = s.byteAt (addr r c))
          ∧ (¬ Sys2Proof.Claims.tileValid s r c → tableGet tile (16 * r + c) = 0))
    ∧ ∃ t : State, exec .tileStore s = .next (t.succeed (toWord s.tcnt)) ∧ t = { s with mem := t.mem }
      ∧ (∀ r c, Sys2Proof.Claims.tileValid s r c → t.byteAt (addr r c) = tableGet s.tile (16 * r + c))
      ∧ ∀ a, (∀ r c, Sys2Proof.Claims.tileValid s r c → a ≠ addr r c) → t.byteAt a = s.byteAt a

/-- R235: for a legal shape each order lists every valid position exactly once, so TCNT of them, row by row or column by column. -/
def Obligations.TileOrdersListTheValidPositions : Prop :=
  ∀ (s : State), Sys2Proof.Claims.shapeLegal s →
    ∀ f : Bool, (s.tileOrder f).length = s.tcnt
      ∧ (∀ p, p ∈ s.tileOrder f ↔ Sys2Proof.Claims.tileValid s p.1 p.2)
      ∧ (s.tileOrder f).Pairwise fun p q =>
          if f then p.2 < q.2 ∨ (p.2 = q.2 ∧ p.1 < q.1) else p.1 < q.1 ∨ (p.1 = q.1 ∧ p.2 < q.2)

/-- R236, R237: TILE_SER writes TILE's valid samples from DST on in the order that T selects; TILE_DESER fills the valid positions from the
source in that order and sets every other entry 0. RESULT is TCNT. -/
def Obligations.TileSerAndDeserFollowTheOrder : Prop :=
  ∀ (s : State) (f : Bool), Sys2Proof.Claims.shapeLegal s →
    (Sys2Proof.Claims.dstInMem s → s.tcnt ≤ s.dstCap.toNat →
      ∃ u : State, Sys2Proof.Claims.wrote s s.dst.toNat ((s.tileOrder f).map fun p => tableGet s.tile (16 * p.1 + p.2)) u
        ∧ exec (.tileSer f) s = .next (u.succeed (toWord s.tcnt)))
    ∧ (Sys2Proof.Claims.srcInMem s → s.tcnt ≤ s.srcLen.toNat →
      ∃ tile : Vector Byte 256, exec (.tileDeser f) s = .next ({ s with tile := tile }.succeed (toWord s.tcnt))
        ∧ (∀ j p, (s.tileOrder f)[j]? = some p → tableGet tile (16 * p.1 + p.2) = s.byteAt (s.src.toNat + j))
        ∧ ∀ r c, r < 16 → c < 16 → ¬ Sys2Proof.Claims.tileValid s r c → tableGet tile (16 * r + c) = 0)

/-- R239: TILE_DESER of the output of TILE_SER with the same flag restores every valid position of TILE and sets the rest to 0. -/
def Obligations.TileSerializationRoundTrips : Prop :=
  ∀ (s : State) (f : Bool), Sys2Proof.Claims.shapeLegal s → Sys2Proof.Claims.dstInMem s → s.tcnt ≤ s.dstCap.toNat →
    ∃ t u : State, exec (.tileSer f) s = .next t
      ∧ exec (.tileDeser f) { t with src := s.dst, srcLen := s.dstCap, tile := Vector.replicate 256 0xFF } = .next u
      ∧ u.errCode = .ok
      ∧ ∀ r c, r < 16 → c < 16 →
          (Sys2Proof.Claims.tileValid s r c → tableGet u.tile (16 * r + c) = tableGet s.tile (16 * r + c))
          ∧ (¬ Sys2Proof.Claims.tileValid s r c → tableGet u.tile (16 * r + c) = 0)
end

