-- ==== Sys2Proof/Laws/Code.lean ====
section
/-! SUPPORT. The merging of R155: the model's heap, kept ascending, and its side array of parents do what the loop on an unordered heap of
`Claims.Merged` does, so that the model's code lengths are the depths of the leaves. -/

namespace Sys2Proof.Machine

open Sys2Proof.Claims

/-! ### The ascending heap -/

/-- The strict order of heap entries (R155). -/
def lexLt (x y : Nat × Nat) : Prop := x.1 < y.1 ∨ (x.1 = y.1 ∧ x.2 < y.2)

theorem lexLt_trans {x y z : Nat × Nat} (h1 : lexLt x y) (h2 : lexLt y z) : lexLt x z := by
  unfold lexLt at *
  omega

theorem lexLe_true {x y : Nat × Nat} (h : lexLe x y = true) (hne : x.2 ≠ y.2) : lexLt x y := by
  simp [lexLe] at h
  unfold lexLt
  omega

theorem lexLe_false {x y : Nat × Nat} (h : lexLe x y = false) : lexLt y x := by
  simp [lexLe] at h
  unfold lexLt
  omega

theorem lexInsert_perm (x : Nat × Nat) (l : List (Nat × Nat)) : (lexInsert x l).Perm (x :: l) := by
  induction l with
  | nil => exact List.Perm.refl _
  | cons y ys ih =>
    simp only [lexInsert]
    split
    · exact List.Perm.refl _
    · exact (ih.cons y).trans (List.Perm.swap x y ys)

theorem lexInsert_sorted (x : Nat × Nat) (l : List (Nat × Nat)) (hl : l.Pairwise lexLt) (hx : ∀ y ∈ l, x.2 ≠ y.2) :
    (lexInsert x l).Pairwise lexLt := by
  induction l with
  | nil => simp [lexInsert]
  | cons y ys ih =>
    obtain ⟨hy, hys⟩ := List.pairwise_cons.mp hl
    simp only [lexInsert]
    split
    · rename_i h
      have hxy := lexLe_true h (hx y (by simp))
      refine List.pairwise_cons.mpr ⟨fun z hz => ?_, hl⟩
      rcases List.mem_cons.mp hz with rfl | hz
      · exact hxy
      · exact lexLt_trans hxy (hy z hz)
    · rename_i h
      have hyx := lexLe_false (Bool.eq_false_iff.mpr h)
      refine List.pairwise_cons.mpr ⟨fun z hz => ?_, ih hys fun z hz => hx z (List.mem_cons_of_mem _ hz)⟩
      rcases List.mem_cons.mp ((lexInsert_perm x ys).mem_iff.mp hz) with rfl | hz
      · exact hyx
      · exact hy z hz

theorem lexSort_perm (l : List (Nat × Nat)) : (lexSort l).Perm l := by
  induction l with
  | nil => exact List.Perm.refl _
  | cons x l ih => exact (lexInsert_perm x _).trans (ih.cons x)

theorem lexSort_sorted (l : List (Nat × Nat)) (h : (l.map (·.2)).Nodup) : (lexSort l).Pairwise lexLt := by
  induction l with
  | nil => exact List.Pairwise.nil
  | cons x l ih =>
    obtain ⟨h1, h2⟩ := List.nodup_cons.mp h
    refine lexInsert_sorted x _ (ih h2) fun y hy he => h1 ?_
    show x.2 ∈ l.map (·.2)
    rw [he]
    exact List.mem_map_of_mem ((lexSort_perm l).mem_iff.mp hy)

/-- A permutation of the entries' keys is one of the nodes that bear them. -/
theorem perm_of_map {α β : Type} (f : α → β) (l : List α) (m : List β) (h : m.Perm (l.map f)) :
    ∃ l' : List α, l'.Perm l ∧ l'.map f = m := by
  induction m generalizing l with
  | nil => exact ⟨l, List.Perm.refl _, by simpa using h⟩
  | cons y m ih =>
    have hy : y ∈ l.map f := h.mem_iff.mp (by simp)
    obtain ⟨x, hx, rfl⟩ := List.mem_map.mp hy
    obtain ⟨l1, l2, rfl⟩ := List.append_of_mem hx
    have hp : (f x :: m).Perm (f x :: (l1 ++ l2).map f) := by
      refine h.trans ?_
      simp only [List.map_append, List.map_cons]
      exact List.perm_middle
    obtain ⟨l', h1, h2⟩ := ih (l1 ++ l2) hp.cons_inv
    exact ⟨x :: l', (h1.cons x).trans List.perm_middle.symm, by simp [h2]⟩

/-! ### Hops -/

/-- `d` steps along the side array lead from `x` to `y`. -/
inductive Hops (parent : List (Nat × Nat)) : Nat → Nat → Nat → Prop where
  | done (x : Nat) : Hops parent 0 x x
  | step (d x y z : Nat) : parent.lookup x = some y → Hops parent d y z → Hops parent (d + 1) x z

theorem Hops.snoc {parent : List (Nat × Nat)} {d x y z : Nat} (h : Hops parent d x y) (hl : parent.lookup y = some z) :
    Hops parent (d + 1) x z := by
  induction h with
  | done x => exact .step 0 x z z hl (.done z)
  | step d x u v h1 _ ih => exact .step (d + 1) x u z h1 (ih hl)

/-- A step recorded for a node without a parent changes no path recorded before. -/
theorem Hops.cons {parent : List (Nat × Nat)} {d x y : Nat} (h : Hops parent d x y) (a p : Nat) (ha : parent.lookup a = none) :
    Hops ((a, p) :: parent) d x y := by
  induction h with
  | done x => exact .done x
  | step d x u v h1 _ ih =>
    refine .step d x u v ?_ ih
    have hne : x ≠ a := fun he => by rw [he, ha] at h1; cases h1
    rw [List.lookup_cons]
    have : (x == a) = false := by simpa using hne
    rw [this]
    exact h1

theorem hopsToRoot_of_hops {parent : List (Nat × Nat)} {d x y : Nat} (h : Hops parent d x y) (hy : parent.lookup y = none)
    (fuel : Nat) (hf : d ≤ fuel) : hopsToRoot parent fuel x = d := by
  induction h generalizing fuel with
  | done x =>
    cases fuel with
    | zero => rfl
    | succ n => simp [hopsToRoot, hy]
  | step d x u v h1 _ ih =>
    cases fuel with
    | zero => omega
    | succ n =>
      simp only [hopsToRoot, h1]
      rw [ih hy n (by omega)]

/-! ### The two merges agree -/

/-- The unordered loop does not depend on the order in which its heap is listed. -/
theorem merged_perm {next : Nat} {h h' : List Node} {lens : List (Nat × Nat)} (hm : Merged next h lens) (hp : h'.Perm h) :
    Merged next h' lens := by
  cases hm with
  | root =>
    rw [List.perm_singleton.mp hp]
    exact .root next _
  | merge =>
    rename_i rest a b h1 h2 h3 h4
    exact .merge next h' rest a b lens (hp.trans h3) h1 h2 h4

/-- The heap entry of a node. -/
def nodeKey (n : Node) : Nat × Nat := (n.weight, n.id)

/-- The model's state of the merging stands for a heap of nodes: the entries, their ids below `next` and all different, none with a parent, no
parent recorded for an id from `next` on, and the leaves at their depths below their node, not deeper than the merges done. -/
structure Stands (k : Nat) (m : Merging) (nodes : List Node) : Prop where
  heap : m.heap = nodes.map nodeKey
  sorted : m.heap.Pairwise lexLt
  distinct : (nodes.map Node.id).Nodup
  below : ∀ n ∈ nodes, n.id < m.next
  roots : ∀ n ∈ nodes, m.parent.lookup n.id = none
  fresh : ∀ x, m.next ≤ x → m.parent.lookup x = none
  paths : ∀ n ∈ nodes, ∀ l ∈ n.leaves, Hops m.parent l.1 l.2 n.id ∧ l.1 ≤ k

theorem lookup_cons_ne {x a p : Nat} {parent : List (Nat × Nat)} (h : x ≠ a) :
    ((a, p) :: parent).lookup x = parent.lookup x := by
  rw [List.lookup_cons]
  have : (x == a) = false := by simpa using h
  rw [this]

/-- The node that R155 makes of two. -/
def joined (a b : Node) (id : Nat) : Node :=
  ⟨a.weight + b.weight, id, (a.leaves ++ b.leaves).map fun l => (l.1 + 1, l.2)⟩

theorem mem_joined_leaves {a b : Node} {id : Nat} {l : Nat × Nat} (h : l ∈ (joined a b id).leaves) :
    ∃ c, (c = a ∨ c = b) ∧ ∃ l' ∈ c.leaves, l = (l'.1 + 1, l'.2) := by
  obtain ⟨l', hl', rfl⟩ := List.mem_map.mp h
  rcases List.mem_append.mp hl' with h | h
  · exact ⟨a, .inl rfl, l', h, rfl⟩
  · exact ⟨b, .inr rfl, l', h, rfl⟩

/-- One turn of the loop of R155. -/
theorem stands_mergeOnce {k : Nat} {m : Merging} {a b : Node} {rest : List Node} (h : Stands k m (a :: b :: rest)) :
    ∃ nodes, nodes.Perm (joined a b m.next :: rest) ∧ Stands (k + 1) (mergeOnce m) nodes ∧ (mergeOnce m).next = m.next + 1 := by
  obtain ⟨hh, hs, hd, hb, hr, hf, hpaths⟩ := h
  have hm : mergeOnce m =
      { heap := lexInsert (a.weight + b.weight, m.next) (rest.map nodeKey)
        parent := (b.id, m.next) :: (a.id, m.next) :: m.parent
        next := m.next + 1 } := by
    simp only [mergeOnce, hh, List.map_cons, nodeKey]
  have hab : a.id ≠ b.id := by
    have := (List.nodup_cons.mp hd).1
    intro he
    exact this (by simp [he])
  have ha : a.id < m.next := hb a (by simp)
  have hbb : b.id < m.next := hb b (by simp)
  have hperm := lexInsert_perm (a.weight + b.weight, m.next) (rest.map nodeKey)
  obtain ⟨nodes, hn1, hn2⟩ := perm_of_map nodeKey (joined a b m.next :: rest) _ hperm
  have hd' : (rest.map Node.id).Nodup := (List.nodup_cons.mp (List.nodup_cons.mp hd).2).2
  have hna : ∀ n ∈ rest, n.id ≠ a.id ∧ n.id ≠ b.id := by
    intro n hn
    have h1 := (List.nodup_cons.mp hd).1
    have h2 := (List.nodup_cons.mp (List.nodup_cons.mp hd).2).1
    refine ⟨fun he => h1 ?_, fun he => h2 ?_⟩
    · rw [← he]
      exact List.mem_cons_of_mem _ (List.mem_map_of_mem hn)
    · rw [← he]
      exact List.mem_map_of_mem hn
  have hra := hr a (by simp)
  have hrb := hr b (by simp)
  have hrb' : ((a.id, m.next) :: m.parent).lookup b.id = none := by rw [lookup_cons_ne (Ne.symm hab)]; exact hrb
  have hpath : ∀ d x y, Hops m.parent d x y → Hops ((b.id, m.next) :: (a.id, m.next) :: m.parent) d x y :=
    fun d x y h => (h.cons a.id m.next hra).cons b.id m.next hrb'
  refine ⟨nodes, hn1, ?_, by rw [hm]⟩
  rw [hm]
  refine ⟨hn2.symm, ?_, ?_, ?_, ?_, ?_, ?_⟩
  · refine lexInsert_sorted _ _ ?_ ?_
    · rw [hh] at hs
      exact (List.pairwise_cons.mp (List.pairwise_cons.mp hs).2).2
    · intro y hy
      obtain ⟨n, hn, rfl⟩ := List.mem_map.mp hy
      have := hb n (by simp [hn])
      show m.next ≠ n.id
      omega
  · refine (hn1.map Node.id).nodup_iff.mpr (List.nodup_cons.mpr ⟨?_, hd'⟩)
    intro hmem
    obtain ⟨n, hn, he⟩ := List.mem_map.mp hmem
    have := hb n (by simp [hn])
    have he' : n.id = m.next := he
    omega
  · intro n hn
    rcases List.mem_cons.mp (hn1.mem_iff.mp hn) with rfl | hn
    · exact Nat.lt_succ_self _
    · have := hb n (by simp [hn])
      show n.id < m.next + 1
      omega
  · intro n hn
    rcases List.mem_cons.mp (hn1.mem_iff.mp hn) with rfl | hn
    · show ((b.id, m.next) :: (a.id, m.next) :: m.parent).lookup m.next = none
      rw [lookup_cons_ne (by omega), lookup_cons_ne (by omega)]
      exact hf _ (Nat.le_refl _)
    · show ((b.id, m.next) :: (a.id, m.next) :: m.parent).lookup n.id = none
      rw [lookup_cons_ne (hna n hn).2, lookup_cons_ne (hna n hn).1]
      exact hr n (by simp [hn])
  · intro x hx
    have hx' : m.next + 1 ≤ x := hx
    show ((b.id, m.next) :: (a.id, m.next) :: m.parent).lookup x = none
    rw [lookup_cons_ne (by omega), lookup_cons_ne (by omega)]
    exact hf x (by omega)
  · intro n hn l hl
    rcases List.mem_cons.mp (hn1.mem_iff.mp hn) with rfl | hn
    · obtain ⟨c, hc, l', hl', rfl⟩ := mem_joined_leaves hl
      rcases hc with rfl | rfl
      · obtain ⟨h1, h2⟩ := hpaths c (by simp) l' hl'
        refine ⟨(hpath _ _ _ h1).snoc ?_, by show l'.1 + 1 ≤ k + 1; omega⟩
        rw [lookup_cons_ne hab, List.lookup_cons_self]
        rfl
      · obtain ⟨h1, h2⟩ := hpaths c (by simp) l' hl'
        refine ⟨(hpath _ _ _ h1).snoc ?_, by show l'.1 + 1 ≤ k + 1; omega⟩
        rw [List.lookup_cons_self]
        rfl
    · obtain ⟨h1, h2⟩ := hpaths n (by simp [hn]) l hl
      exact ⟨hpath _ _ _ h1, by omega⟩

/-- The loop of R155, on any state of it: the unordered loop ends with the leaves' hops to the root as their depths. -/
theorem merged_of_stands (j : Nat) (k : Nat) (m : Merging) (nodes : List Node) (h : Stands k m nodes) (h1 : 1 ≤ nodes.length)
    (hj : nodes.length ≤ j + 1) (hk : k + j ≤ 513) :
    ∃ lens, Merged m.next nodes lens
      ∧ (∀ l ∈ lens, hopsToRoot (mergeTimes j m).parent 513 l.2 = l.1)
      ∧ (lens.map (·.2)).Perm (nodes.flatMap fun n => n.leaves.map (·.2)) := by
  induction j generalizing k m nodes with
  | zero =>
    match nodes, h1, hj with
    | [n], _, _ =>
      refine ⟨n.leaves, .root _ n, fun l hl => ?_, by simp⟩
      obtain ⟨hp, hle⟩ := h.paths n (by simp) l hl
      exact hopsToRoot_of_hops hp (h.roots n (by simp)) 513 (by omega)
  | succ j ih =>
    match nodes, h1, h with
    | [n], _, h =>
      have hm : mergeOnce m = m := by
        have := h.heap
        simp only [List.map_cons, List.map_nil] at this
        simp [mergeOnce, this]
      obtain ⟨lens, a1, a2, a3⟩ := ih k m [n] h (by simp) (by simp) (by omega)
      exact ⟨lens, a1, by simpa only [mergeTimes, hm] using a2, a3⟩
    | a :: b :: rest, _, h =>
      obtain ⟨nodes', hp, hs, hnext⟩ := stands_mergeOnce h
      have hlen := hp.length_eq
      simp only [List.length_cons] at hlen hj
      obtain ⟨lens, a1, a2, a3⟩ := ih (k + 1) (mergeOnce m) nodes' hs (by omega) (by omega) (by omega)
      have hsort := h.sorted
      rw [h.heap] at hsort
      simp only [List.map_cons] at hsort
      obtain ⟨s1, s2⟩ := List.pairwise_cons.mp hsort
      obtain ⟨s3, _⟩ := List.pairwise_cons.mp s2
      refine ⟨lens, ?_, by simpa only [mergeTimes] using a2, a3.trans ?_⟩
      · refine .merge m.next _ rest a b lens (List.Perm.refl _) (s1 (nodeKey b) (by simp)) ?_ ?_
        · intro c hc
          exact s3 _ (List.mem_map_of_mem hc)
        · rw [← hnext]
          exact merged_perm a1 hp.symm
      · refine (hp.flatMap_right _).trans ?_
        simp [joined, List.map_map, Function.comp_def]

/-! ### The participants -/

theorem codedBytes_eq (freq : Vector Word 256) :
    codedBytes freq = (List.range 256).filter fun p => tableGet freq p != 0 := by
  have h : freq.toList.zipIdx = (List.range 256).map fun i => (tableGet freq i, i) := by
    refine List.ext_getElem (by simp) fun i h1 h2 => ?_
    have hi : i < 256 := by simpa using h2
    simp [tableGet, hi]
  simp only [codedBytes, h, List.filter_map, List.map_map, Function.comp_def, List.map_id']

theorem participants_eq (freq : Vector Word 256) :
    participants freq = (List.range 257).filter fun p => p == 256 || tableGet freq p != 0 := by
  have h : List.range 257 = List.range 256 ++ [256] := List.range_succ
  have h1 : (List.range 256).filter (fun p => tableGet freq p != 0)
      = (List.range 256).filter fun p => p == 256 || tableGet freq p != 0 := by
    refine List.filter_congr fun p hp => ?_
    have := List.mem_range.mp hp
    have hne : (p == 256) = false := by simp; omega
    rw [hne, Bool.false_or]
  have h2 : [256].filter (fun p => p == 256 || tableGet freq p != 0) = [256] := rfl
  rw [participants, codedBytes_eq, h, List.filter_append, h1, h2]
  rfl

theorem participants_length (freq : Vector Word 256) : (participants freq).length ≤ 257 := by
  rw [participants_eq]
  exact Nat.le_trans (List.length_filter_le _ _) (by simp)

theorem participants_nodup (freq : Vector Word 256) : (participants freq).Nodup := by
  rw [participants_eq]
  exact List.nodup_range.filter _

/-- The leaf of a participant. -/
def leafOf (freq : Vector Word 256) (p : Nat) : Node := ⟨weight freq p, p, [(0, p)]⟩

theorem leafHeap_eq (s : State) : leafHeap s = (participants s.freq).map (leafOf s.freq) := by
  rw [participants_eq]
  rfl

/-- The model's merging at its start stands for the heap of leaves. -/
theorem stands_initialHeap (s : State) :
    ∃ nodes, nodes.Perm (leafHeap s) ∧ Stands 0 (initialHeap s.freq (participants s.freq)) nodes := by
  have hkey : (leafHeap s).map nodeKey = (participants s.freq).map fun p => (weight s.freq p, p) := by
    rw [leafHeap_eq, List.map_map]
    rfl
  have hp := lexSort_perm ((participants s.freq).map fun p => (weight s.freq p, p))
  obtain ⟨nodes, h1, h2⟩ := perm_of_map nodeKey (leafHeap s) (initialHeap s.freq (participants s.freq)).heap
    (by rw [hkey]; exact hp)
  have hids : (leafHeap s).map Node.id = participants s.freq := by
    rw [leafHeap_eq, List.map_map]
    exact List.map_id _
  refine ⟨nodes, h1, h2.symm, lexSort_sorted _ ?_, ?_, ?_, fun _ _ => rfl, fun _ _ => rfl, ?_⟩
  · rw [List.map_map]
    show ((participants s.freq).map id).Nodup
    rw [List.map_id]
    exact participants_nodup s.freq
  · exact (h1.map Node.id).nodup_iff.mpr (by rw [hids]; exact participants_nodup s.freq)
  · intro n hn
    have hm : n.id ∈ participants s.freq := by
      rw [← hids]
      exact List.mem_map_of_mem (h1.mem_iff.mp hn)
    rw [participants_eq] at hm
    exact List.mem_range.mp (List.mem_filter.mp hm).1
  · intro n hn l hl
    have hm := h1.mem_iff.mp hn
    rw [leafHeap_eq] at hm
    obtain ⟨p, _, rfl⟩ := List.mem_map.mp hm
    have hl' : l = (0, p) := by simpa [leafOf] using hl
    rw [hl']
    exact ⟨.done p, Nat.le_refl 0⟩

/-- The code lengths of the model are those of R155's loop (R155). -/
theorem codeLengths_merged (s : State) :
    ∃ lens, Merged 257 (leafHeap s) lens ∧ ∀ l, l ∈ lens ↔ l ∈ codeLengths s.freq (participants s.freq) := by
  obtain ⟨nodes, hp, hs⟩ := stands_initialHeap s
  have hlen : nodes.length = (participants s.freq).length := by rw [hp.length_eq, leafHeap_eq, List.length_map]
  have hpos : 1 ≤ (participants s.freq).length := by simp [participants]
  have hle := participants_length s.freq
  obtain ⟨lens, a1, a2, a3⟩ := merged_of_stands (participants s.freq).length 0 _ nodes hs (by omega) (by omega) (by omega)
  have hsyms : ∀ p, p ∈ lens.map (·.2) ↔ p ∈ participants s.freq := by
    intro p
    rw [a3.mem_iff, (hp.flatMap_right _).mem_iff, leafHeap_eq, List.flatMap_map]
    simp [leafOf]
  refine ⟨lens, merged_perm a1 hp.symm, fun l => ⟨fun hl => ?_, fun hl => ?_⟩⟩
  · refine List.mem_map.mpr ⟨l.2, (hsyms l.2).mp (List.mem_map_of_mem hl), ?_⟩
    show (hopsToRoot _ 513 l.2, l.2) = l
    rw [a2 l hl]
  · obtain ⟨p, hpm, rfl⟩ := List.mem_map.mp hl
    obtain ⟨l', hl', he⟩ := List.mem_map.mp ((hsyms p).mpr hpm)
    have he' : l'.2 = p := he
    have := a2 l' hl'
    rw [he'] at this
    rw [this, ← he']
    exact hl'

/-- No leaf of a heap of two nodes or more ends at depth 0. -/
theorem merged_pos {next : Nat} {heap : List Node} {lens : List (Nat × Nat)} (h : Merged next heap lens)
    (h2 : 2 ≤ heap.length ∨ ∀ n ∈ heap, ∀ l ∈ n.leaves, 1 ≤ l.1) : ∀ l ∈ lens, 1 ≤ l.1 := by
  induction h with
  | root n =>
    rcases h2 with h2 | h2
    · simp at h2
    · exact h2 _ (by simp)
  | merge next heap rest a b lens hp _ _ _ ih =>
    apply ih
    cases rest with
    | nil =>
      refine .inr fun n hn l hl => ?_
      rw [List.mem_singleton.mp hn] at hl
      obtain ⟨c, _, l', _, rfl⟩ := mem_joined_leaves (a := a) (b := b) (id := next) hl
      exact Nat.le_add_left 1 l'.1
    | cons c rest => exact .inl (by simp)

end Sys2Proof.Machine
end

