-- ==== Sys2Proof/Laws/State.lean ====
section
/-! SUPPORT. What each named update of the state does to each field: one lemma per field, true by rfl, so that no later proof unfolds a record
update. -/

namespace Sys2Proof.Machine

/-! ### accept -/

@[simp] theorem State.accept_memAddrBits (s : State) (w : Word) : (s.accept w).memAddrBits = s.memAddrBits := rfl
@[simp] theorem State.accept_regBase (s : State) (w : Word) : (s.accept w).regBase = s.regBase := rfl
@[simp] theorem State.accept_memBase (s : State) (w : Word) : (s.accept w).memBase = s.memBase := rfl
@[simp] theorem State.accept_ie (s : State) (w : Word) : (s.accept w).ie = s.ie := rfl
@[simp] theorem State.accept_pending (s : State) (w : Word) : (s.accept w).pending = some w := rfl
@[simp] theorem State.accept_done (s : State) (w : Word) : (s.accept w).done = false := rfl
@[simp] theorem State.accept_overrun (s : State) (w : Word) : (s.accept w).overrun = s.overrun := rfl
@[simp] theorem State.accept_eob (s : State) (w : Word) : (s.accept w).eob = false := rfl
@[simp] theorem State.accept_errCode (s : State) (w : Word) : (s.accept w).errCode = .ok := rfl
@[simp] theorem State.accept_cmd (s : State) (w : Word) : (s.accept w).cmd = w := rfl
@[simp] theorem State.accept_src (s : State) (w : Word) : (s.accept w).src = s.src := rfl
@[simp] theorem State.accept_srcLen (s : State) (w : Word) : (s.accept w).srcLen = s.srcLen := rfl
@[simp] theorem State.accept_dst (s : State) (w : Word) : (s.accept w).dst = s.dst := rfl
@[simp] theorem State.accept_dstCap (s : State) (w : Word) : (s.accept w).dstCap = s.dstCap := rfl
@[simp] theorem State.accept_argN (s : State) (w : Word) : (s.accept w).argN = s.argN := rfl
@[simp] theorem State.accept_argVal (s : State) (w : Word) : (s.accept w).argVal = s.argVal := rfl
@[simp] theorem State.accept_limit (s : State) (w : Word) : (s.accept w).limit = s.limit := rfl
@[simp] theorem State.accept_result (s : State) (w : Word) : (s.accept w).result = s.result := rfl
@[simp] theorem State.accept_errInfo (s : State) (w : Word) : (s.accept w).errInfo = s.errInfo := rfl
@[simp] theorem State.accept_outPtr (s : State) (w : Word) : (s.accept w).outPtr = s.outPtr := rfl
@[simp] theorem State.accept_outEnd (s : State) (w : Word) : (s.accept w).outEnd = s.outEnd := rfl
@[simp] theorem State.accept_inPtr (s : State) (w : Word) : (s.accept w).inPtr = s.inPtr := rfl
@[simp] theorem State.accept_inEnd (s : State) (w : Word) : (s.accept w).inEnd = s.inEnd := rfl
@[simp] theorem State.accept_bpAcc (s : State) (w : Word) : (s.accept w).bpAcc = s.bpAcc := rfl
@[simp] theorem State.accept_bpFree (s : State) (w : Word) : (s.accept w).bpFree = s.bpFree := rfl
@[simp] theorem State.accept_brAcc (s : State) (w : Word) : (s.accept w).brAcc = s.brAcc := rfl
@[simp] theorem State.accept_brLeft (s : State) (w : Word) : (s.accept w).brLeft = s.brLeft := rfl
@[simp] theorem State.accept_marker (s : State) (w : Word) : (s.accept w).marker = s.marker := rfl
@[simp] theorem State.accept_imgBase (s : State) (w : Word) : (s.accept w).imgBase = s.imgBase := rfl
@[simp] theorem State.accept_imgSize (s : State) (w : Word) : (s.accept w).imgSize = s.imgSize := rfl
@[simp] theorem State.accept_imgWidth (s : State) (w : Word) : (s.accept w).imgWidth = s.imgWidth := rfl
@[simp] theorem State.accept_tileX (s : State) (w : Word) : (s.accept w).tileX = s.tileX := rfl
@[simp] theorem State.accept_tileY (s : State) (w : Word) : (s.accept w).tileY = s.tileY := rfl
@[simp] theorem State.accept_tw (s : State) (w : Word) : (s.accept w).tw = s.tw := rfl
@[simp] theorem State.accept_th (s : State) (w : Word) : (s.accept w).th = s.th := rfl
@[simp] theorem State.accept_tk (s : State) (w : Word) : (s.accept w).tk = s.tk := rfl
@[simp] theorem State.accept_encMaxlen (s : State) (w : Word) : (s.accept w).encMaxlen = s.encMaxlen := rfl
@[simp] theorem State.accept_decMaxlen (s : State) (w : Word) : (s.accept w).decMaxlen = s.decMaxlen := rfl
@[simp] theorem State.accept_tblSel (s : State) (w : Word) : (s.accept w).tblSel = s.tblSel := rfl
@[simp] theorem State.accept_tblIdx (s : State) (w : Word) : (s.accept w).tblIdx = s.tblIdx := rfl
@[simp] theorem State.accept_freq (s : State) (w : Word) : (s.accept w).freq = s.freq := rfl
@[simp] theorem State.accept_encValid (s : State) (w : Word) : (s.accept w).encValid = s.encValid := rfl
@[simp] theorem State.accept_codeLen (s : State) (w : Word) : (s.accept w).codeLen = s.codeLen := rfl
@[simp] theorem State.accept_codeVal (s : State) (w : Word) : (s.accept w).codeVal = s.codeVal := rfl
@[simp] theorem State.accept_decValid (s : State) (w : Word) : (s.accept w).decValid = s.decValid := rfl
@[simp] theorem State.accept_decCnt (s : State) (w : Word) : (s.accept w).decCnt = s.decCnt := rfl
@[simp] theorem State.accept_decFirstCode (s : State) (w : Word) : (s.accept w).decFirstCode = s.decFirstCode := rfl
@[simp] theorem State.accept_decFirstSym (s : State) (w : Word) : (s.accept w).decFirstSym = s.decFirstSym := rfl
@[simp] theorem State.accept_decAlpha (s : State) (w : Word) : (s.accept w).decAlpha = s.decAlpha := rfl
@[simp] theorem State.accept_tile (s : State) (w : Word) : (s.accept w).tile = s.tile := rfl
@[simp] theorem State.accept_mem (s : State) (w : Word) : (s.accept w).mem = s.mem := rfl
@[simp] theorem State.accept_events (s : State) (w : Word) : (s.accept w).events = s.events := rfl
@[simp] theorem State.accept_portData (s : State) (w : Word) : (s.accept w).portData = s.portData := rfl
@[simp] theorem State.accept_seenIdle (s : State) (w : Word) : (s.accept w).seenIdle = false := rfl
@[simp] theorem State.accept_checkFailed (s : State) (w : Word) : (s.accept w).checkFailed = s.checkFailed := rfl
@[simp] theorem State.accept_draws (s : State) (w : Word) : (s.accept w).draws = s.draws := rfl

/-! ### complete -/

@[simp] theorem State.complete_memAddrBits (s : State) (c : ErrCode) (info res : Word) (e : Bool) : (s.complete c info res e).memAddrBits = s.memAddrBits := rfl
@[simp] theorem State.complete_regBase (s : State) (c : ErrCode) (info res : Word) (e : Bool) : (s.complete c info res e).regBase = s.regBase := rfl
@[simp] theorem State.complete_memBase (s : State) (c : ErrCode) (info res : Word) (e : Bool) : (s.complete c info res e).memBase = s.memBase := rfl
@[simp] theorem State.complete_ie (s : State) (c : ErrCode) (info res : Word) (e : Bool) : (s.complete c info res e).ie = s.ie := rfl
@[simp] theorem State.complete_pending (s : State) (c : ErrCode) (info res : Word) (e : Bool) : (s.complete c info res e).pending = none := rfl
@[simp] theorem State.complete_done (s : State) (c : ErrCode) (info res : Word) (e : Bool) : (s.complete c info res e).done = true := rfl
@[simp] theorem State.complete_overrun (s : State) (c : ErrCode) (info res : Word) (e : Bool) : (s.complete c info res e).overrun = s.overrun := rfl
@[simp] theorem State.complete_eob (s : State) (c : ErrCode) (info res : Word) (e : Bool) : (s.complete c info res e).eob = e := rfl
@[simp] theorem State.complete_errCode (s : State) (c : ErrCode) (info res : Word) (e : Bool) : (s.complete c info res e).errCode = c := rfl
@[simp] theorem State.complete_cmd (s : State) (c : ErrCode) (info res : Word) (e : Bool) : (s.complete c info res e).cmd = s.cmd := rfl
@[simp] theorem State.complete_src (s : State) (c : ErrCode) (info res : Word) (e : Bool) : (s.complete c info res e).src = s.src := rfl
@[simp] theorem State.complete_srcLen (s : State) (c : ErrCode) (info res : Word) (e : Bool) : (s.complete c info res e).srcLen = s.srcLen := rfl
@[simp] theorem State.complete_dst (s : State) (c : ErrCode) (info res : Word) (e : Bool) : (s.complete c info res e).dst = s.dst := rfl
@[simp] theorem State.complete_dstCap (s : State) (c : ErrCode) (info res : Word) (e : Bool) : (s.complete c info res e).dstCap = s.dstCap := rfl
@[simp] theorem State.complete_argN (s : State) (c : ErrCode) (info res : Word) (e : Bool) : (s.complete c info res e).argN = s.argN := rfl
@[simp] theorem State.complete_argVal (s : State) (c : ErrCode) (info res : Word) (e : Bool) : (s.complete c info res e).argVal = s.argVal := rfl
@[simp] theorem State.complete_limit (s : State) (c : ErrCode) (info res : Word) (e : Bool) : (s.complete c info res e).limit = s.limit := rfl
@[simp] theorem State.complete_result (s : State) (c : ErrCode) (info res : Word) (e : Bool) : (s.complete c info res e).result = res := rfl
@[simp] theorem State.complete_errInfo (s : State) (c : ErrCode) (info res : Word) (e : Bool) : (s.complete c info res e).errInfo = info := rfl
@[simp] theorem State.complete_outPtr (s : State) (c : ErrCode) (info res : Word) (e : Bool) : (s.complete c info res e).outPtr = s.outPtr := rfl
@[simp] theorem State.complete_outEnd (s : State) (c : ErrCode) (info res : Word) (e : Bool) : (s.complete c info res e).outEnd = s.outEnd := rfl
@[simp] theorem State.complete_inPtr (s : State) (c : ErrCode) (info res : Word) (e : Bool) : (s.complete c info res e).inPtr = s.inPtr := rfl
@[simp] theorem State.complete_inEnd (s : State) (c : ErrCode) (info res : Word) (e : Bool) : (s.complete c info res e).inEnd = s.inEnd := rfl
@[simp] theorem State.complete_bpAcc (s : State) (c : ErrCode) (info res : Word) (e : Bool) : (s.complete c info res e).bpAcc = s.bpAcc := rfl
@[simp] theorem State.complete_bpFree (s : State) (c : ErrCode) (info res : Word) (e : Bool) : (s.complete c info res e).bpFree = s.bpFree := rfl
@[simp] theorem State.complete_brAcc (s : State) (c : ErrCode) (info res : Word) (e : Bool) : (s.complete c info res e).brAcc = s.brAcc := rfl
@[simp] theorem State.complete_brLeft (s : State) (c : ErrCode) (info res : Word) (e : Bool) : (s.complete c info res e).brLeft = s.brLeft := rfl
@[simp] theorem State.complete_marker (s : State) (c : ErrCode) (info res : Word) (e : Bool) : (s.complete c info res e).marker = s.marker := rfl
@[simp] theorem State.complete_imgBase (s : State) (c : ErrCode) (info res : Word) (e : Bool) : (s.complete c info res e).imgBase = s.imgBase := rfl
@[simp] theorem State.complete_imgSize (s : State) (c : ErrCode) (info res : Word) (e : Bool) : (s.complete c info res e).imgSize = s.imgSize := rfl
@[simp] theorem State.complete_imgWidth (s : State) (c : ErrCode) (info res : Word) (e : Bool) : (s.complete c info res e).imgWidth = s.imgWidth := rfl
@[simp] theorem State.complete_tileX (s : State) (c : ErrCode) (info res : Word) (e : Bool) : (s.complete c info res e).tileX = s.tileX := rfl
@[simp] theorem State.complete_tileY (s : State) (c : ErrCode) (info res : Word) (e : Bool) : (s.complete c info res e).tileY = s.tileY := rfl
@[simp] theorem State.complete_tw (s : State) (c : ErrCode) (info res : Word) (e : Bool) : (s.complete c info res e).tw = s.tw := rfl
@[simp] theorem State.complete_th (s : State) (c : ErrCode) (info res : Word) (e : Bool) : (s.complete c info res e).th = s.th := rfl
@[simp] theorem State.complete_tk (s : State) (c : ErrCode) (info res : Word) (e : Bool) : (s.complete c info res e).tk = s.tk := rfl
@[simp] theorem State.complete_encMaxlen (s : State) (c : ErrCode) (info res : Word) (e : Bool) : (s.complete c info res e).encMaxlen = s.encMaxlen := rfl
@[simp] theorem State.complete_decMaxlen (s : State) (c : ErrCode) (info res : Word) (e : Bool) : (s.complete c info res e).decMaxlen = s.decMaxlen := rfl
@[simp] theorem State.complete_tblSel (s : State) (c : ErrCode) (info res : Word) (e : Bool) : (s.complete c info res e).tblSel = s.tblSel := rfl
@[simp] theorem State.complete_tblIdx (s : State) (c : ErrCode) (info res : Word) (e : Bool) : (s.complete c info res e).tblIdx = s.tblIdx := rfl
@[simp] theorem State.complete_freq (s : State) (c : ErrCode) (info res : Word) (e : Bool) : (s.complete c info res e).freq = s.freq := rfl
@[simp] theorem State.complete_encValid (s : State) (c : ErrCode) (info res : Word) (e : Bool) : (s.complete c info res e).encValid = s.encValid := rfl
@[simp] theorem State.complete_codeLen (s : State) (c : ErrCode) (info res : Word) (e : Bool) : (s.complete c info res e).codeLen = s.codeLen := rfl
@[simp] theorem State.complete_codeVal (s : State) (c : ErrCode) (info res : Word) (e : Bool) : (s.complete c info res e).codeVal = s.codeVal := rfl
@[simp] theorem State.complete_decValid (s : State) (c : ErrCode) (info res : Word) (e : Bool) : (s.complete c info res e).decValid = s.decValid := rfl
@[simp] theorem State.complete_decCnt (s : State) (c : ErrCode) (info res : Word) (e : Bool) : (s.complete c info res e).decCnt = s.decCnt := rfl
@[simp] theorem State.complete_decFirstCode (s : State) (c : ErrCode) (info res : Word) (e : Bool) : (s.complete c info res e).decFirstCode = s.decFirstCode := rfl
@[simp] theorem State.complete_decFirstSym (s : State) (c : ErrCode) (info res : Word) (e : Bool) : (s.complete c info res e).decFirstSym = s.decFirstSym := rfl
@[simp] theorem State.complete_decAlpha (s : State) (c : ErrCode) (info res : Word) (e : Bool) : (s.complete c info res e).decAlpha = s.decAlpha := rfl
@[simp] theorem State.complete_tile (s : State) (c : ErrCode) (info res : Word) (e : Bool) : (s.complete c info res e).tile = s.tile := rfl
@[simp] theorem State.complete_mem (s : State) (c : ErrCode) (info res : Word) (e : Bool) : (s.complete c info res e).mem = s.mem := rfl
@[simp] theorem State.complete_events (s : State) (c : ErrCode) (info res : Word) (e : Bool) : (s.complete c info res e).events = s.events := rfl
@[simp] theorem State.complete_portData (s : State) (c : ErrCode) (info res : Word) (e : Bool) : (s.complete c info res e).portData = s.portData := rfl
@[simp] theorem State.complete_seenIdle (s : State) (c : ErrCode) (info res : Word) (e : Bool) : (s.complete c info res e).seenIdle = s.seenIdle := rfl
@[simp] theorem State.complete_checkFailed (s : State) (c : ErrCode) (info res : Word) (e : Bool) : (s.complete c info res e).checkFailed = s.checkFailed := rfl
@[simp] theorem State.complete_draws (s : State) (c : ErrCode) (info res : Word) (e : Bool) : (s.complete c info res e).draws = s.draws := rfl

/-! ### succeed -/

@[simp] theorem State.succeed_memAddrBits (s : State) (res : Word) (e : Bool) : (s.succeed res e).memAddrBits = s.memAddrBits := rfl
@[simp] theorem State.succeed_regBase (s : State) (res : Word) (e : Bool) : (s.succeed res e).regBase = s.regBase := rfl
@[simp] theorem State.succeed_memBase (s : State) (res : Word) (e : Bool) : (s.succeed res e).memBase = s.memBase := rfl
@[simp] theorem State.succeed_ie (s : State) (res : Word) (e : Bool) : (s.succeed res e).ie = s.ie := rfl
@[simp] theorem State.succeed_pending (s : State) (res : Word) (e : Bool) : (s.succeed res e).pending = none := rfl
@[simp] theorem State.succeed_done (s : State) (res : Word) (e : Bool) : (s.succeed res e).done = true := rfl
@[simp] theorem State.succeed_overrun (s : State) (res : Word) (e : Bool) : (s.succeed res e).overrun = s.overrun := rfl
@[simp] theorem State.succeed_eob (s : State) (res : Word) (e : Bool) : (s.succeed res e).eob = e := rfl
@[simp] theorem State.succeed_errCode (s : State) (res : Word) (e : Bool) : (s.succeed res e).errCode = .ok := rfl
@[simp] theorem State.succeed_cmd (s : State) (res : Word) (e : Bool) : (s.succeed res e).cmd = s.cmd := rfl
@[simp] theorem State.succeed_src (s : State) (res : Word) (e : Bool) : (s.succeed res e).src = s.src := rfl
@[simp] theorem State.succeed_srcLen (s : State) (res : Word) (e : Bool) : (s.succeed res e).srcLen = s.srcLen := rfl
@[simp] theorem State.succeed_dst (s : State) (res : Word) (e : Bool) : (s.succeed res e).dst = s.dst := rfl
@[simp] theorem State.succeed_dstCap (s : State) (res : Word) (e : Bool) : (s.succeed res e).dstCap = s.dstCap := rfl
@[simp] theorem State.succeed_argN (s : State) (res : Word) (e : Bool) : (s.succeed res e).argN = s.argN := rfl
@[simp] theorem State.succeed_argVal (s : State) (res : Word) (e : Bool) : (s.succeed res e).argVal = s.argVal := rfl
@[simp] theorem State.succeed_limit (s : State) (res : Word) (e : Bool) : (s.succeed res e).limit = s.limit := rfl
@[simp] theorem State.succeed_result (s : State) (res : Word) (e : Bool) : (s.succeed res e).result = res := rfl
@[simp] theorem State.succeed_errInfo (s : State) (res : Word) (e : Bool) : (s.succeed res e).errInfo = 0 := rfl
@[simp] theorem State.succeed_outPtr (s : State) (res : Word) (e : Bool) : (s.succeed res e).outPtr = s.outPtr := rfl
@[simp] theorem State.succeed_outEnd (s : State) (res : Word) (e : Bool) : (s.succeed res e).outEnd = s.outEnd := rfl
@[simp] theorem State.succeed_inPtr (s : State) (res : Word) (e : Bool) : (s.succeed res e).inPtr = s.inPtr := rfl
@[simp] theorem State.succeed_inEnd (s : State) (res : Word) (e : Bool) : (s.succeed res e).inEnd = s.inEnd := rfl
@[simp] theorem State.succeed_bpAcc (s : State) (res : Word) (e : Bool) : (s.succeed res e).bpAcc = s.bpAcc := rfl
@[simp] theorem State.succeed_bpFree (s : State) (res : Word) (e : Bool) : (s.succeed res e).bpFree = s.bpFree := rfl
@[simp] theorem State.succeed_brAcc (s : State) (res : Word) (e : Bool) : (s.succeed res e).brAcc = s.brAcc := rfl
@[simp] theorem State.succeed_brLeft (s : State) (res : Word) (e : Bool) : (s.succeed res e).brLeft = s.brLeft := rfl
@[simp] theorem State.succeed_marker (s : State) (res : Word) (e : Bool) : (s.succeed res e).marker = s.marker := rfl
@[simp] theorem State.succeed_imgBase (s : State) (res : Word) (e : Bool) : (s.succeed res e).imgBase = s.imgBase := rfl
@[simp] theorem State.succeed_imgSize (s : State) (res : Word) (e : Bool) : (s.succeed res e).imgSize = s.imgSize := rfl
@[simp] theorem State.succeed_imgWidth (s : State) (res : Word) (e : Bool) : (s.succeed res e).imgWidth = s.imgWidth := rfl
@[simp] theorem State.succeed_tileX (s : State) (res : Word) (e : Bool) : (s.succeed res e).tileX = s.tileX := rfl
@[simp] theorem State.succeed_tileY (s : State) (res : Word) (e : Bool) : (s.succeed res e).tileY = s.tileY := rfl
@[simp] theorem State.succeed_tw (s : State) (res : Word) (e : Bool) : (s.succeed res e).tw = s.tw := rfl
@[simp] theorem State.succeed_th (s : State) (res : Word) (e : Bool) : (s.succeed res e).th = s.th := rfl
@[simp] theorem State.succeed_tk (s : State) (res : Word) (e : Bool) : (s.succeed res e).tk = s.tk := rfl
@[simp] theorem State.succeed_encMaxlen (s : State) (res : Word) (e : Bool) : (s.succeed res e).encMaxlen = s.encMaxlen := rfl
@[simp] theorem State.succeed_decMaxlen (s : State) (res : Word) (e : Bool) : (s.succeed res e).decMaxlen = s.decMaxlen := rfl
@[simp] theorem State.succeed_tblSel (s : State) (res : Word) (e : Bool) : (s.succeed res e).tblSel = s.tblSel := rfl
@[simp] theorem State.succeed_tblIdx (s : State) (res : Word) (e : Bool) : (s.succeed res e).tblIdx = s.tblIdx := rfl
@[simp] theorem State.succeed_freq (s : State) (res : Word) (e : Bool) : (s.succeed res e).freq = s.freq := rfl
@[simp] theorem State.succeed_encValid (s : State) (res : Word) (e : Bool) : (s.succeed res e).encValid = s.encValid := rfl
@[simp] theorem State.succeed_codeLen (s : State) (res : Word) (e : Bool) : (s.succeed res e).codeLen = s.codeLen := rfl
@[simp] theorem State.succeed_codeVal (s : State) (res : Word) (e : Bool) : (s.succeed res e).codeVal = s.codeVal := rfl
@[simp] theorem State.succeed_decValid (s : State) (res : Word) (e : Bool) : (s.succeed res e).decValid = s.decValid := rfl
@[simp] theorem State.succeed_decCnt (s : State) (res : Word) (e : Bool) : (s.succeed res e).decCnt = s.decCnt := rfl
@[simp] theorem State.succeed_decFirstCode (s : State) (res : Word) (e : Bool) : (s.succeed res e).decFirstCode = s.decFirstCode := rfl
@[simp] theorem State.succeed_decFirstSym (s : State) (res : Word) (e : Bool) : (s.succeed res e).decFirstSym = s.decFirstSym := rfl
@[simp] theorem State.succeed_decAlpha (s : State) (res : Word) (e : Bool) : (s.succeed res e).decAlpha = s.decAlpha := rfl
@[simp] theorem State.succeed_tile (s : State) (res : Word) (e : Bool) : (s.succeed res e).tile = s.tile := rfl
@[simp] theorem State.succeed_mem (s : State) (res : Word) (e : Bool) : (s.succeed res e).mem = s.mem := rfl
@[simp] theorem State.succeed_events (s : State) (res : Word) (e : Bool) : (s.succeed res e).events = s.events := rfl
@[simp] theorem State.succeed_portData (s : State) (res : Word) (e : Bool) : (s.succeed res e).portData = s.portData := rfl
@[simp] theorem State.succeed_seenIdle (s : State) (res : Word) (e : Bool) : (s.succeed res e).seenIdle = s.seenIdle := rfl
@[simp] theorem State.succeed_checkFailed (s : State) (res : Word) (e : Bool) : (s.succeed res e).checkFailed = s.checkFailed := rfl
@[simp] theorem State.succeed_draws (s : State) (res : Word) (e : Bool) : (s.succeed res e).draws = s.draws := rfl

/-! ### fail -/

@[simp] theorem State.fail_memAddrBits (s : State) (c : ErrCode) (info : Word) : (s.fail c info).memAddrBits = s.memAddrBits := rfl
@[simp] theorem State.fail_regBase (s : State) (c : ErrCode) (info : Word) : (s.fail c info).regBase = s.regBase := rfl
@[simp] theorem State.fail_memBase (s : State) (c : ErrCode) (info : Word) : (s.fail c info).memBase = s.memBase := rfl
@[simp] theorem State.fail_ie (s : State) (c : ErrCode) (info : Word) : (s.fail c info).ie = s.ie := rfl
@[simp] theorem State.fail_pending (s : State) (c : ErrCode) (info : Word) : (s.fail c info).pending = none := rfl
@[simp] theorem State.fail_done (s : State) (c : ErrCode) (info : Word) : (s.fail c info).done = true := rfl
@[simp] theorem State.fail_overrun (s : State) (c : ErrCode) (info : Word) : (s.fail c info).overrun = s.overrun := rfl
@[simp] theorem State.fail_eob (s : State) (c : ErrCode) (info : Word) : (s.fail c info).eob = false := rfl
@[simp] theorem State.fail_errCode (s : State) (c : ErrCode) (info : Word) : (s.fail c info).errCode = c := rfl
@[simp] theorem State.fail_cmd (s : State) (c : ErrCode) (info : Word) : (s.fail c info).cmd = s.cmd := rfl
@[simp] theorem State.fail_src (s : State) (c : ErrCode) (info : Word) : (s.fail c info).src = s.src := rfl
@[simp] theorem State.fail_srcLen (s : State) (c : ErrCode) (info : Word) : (s.fail c info).srcLen = s.srcLen := rfl
@[simp] theorem State.fail_dst (s : State) (c : ErrCode) (info : Word) : (s.fail c info).dst = s.dst := rfl
@[simp] theorem State.fail_dstCap (s : State) (c : ErrCode) (info : Word) : (s.fail c info).dstCap = s.dstCap := rfl
@[simp] theorem State.fail_argN (s : State) (c : ErrCode) (info : Word) : (s.fail c info).argN = s.argN := rfl
@[simp] theorem State.fail_argVal (s : State) (c : ErrCode) (info : Word) : (s.fail c info).argVal = s.argVal := rfl
@[simp] theorem State.fail_limit (s : State) (c : ErrCode) (info : Word) : (s.fail c info).limit = s.limit := rfl
@[simp] theorem State.fail_result (s : State) (c : ErrCode) (info : Word) : (s.fail c info).result = 0 := rfl
@[simp] theorem State.fail_errInfo (s : State) (c : ErrCode) (info : Word) : (s.fail c info).errInfo = info := rfl
@[simp] theorem State.fail_outPtr (s : State) (c : ErrCode) (info : Word) : (s.fail c info).outPtr = s.outPtr := rfl
@[simp] theorem State.fail_outEnd (s : State) (c : ErrCode) (info : Word) : (s.fail c info).outEnd = s.outEnd := rfl
@[simp] theorem State.fail_inPtr (s : State) (c : ErrCode) (info : Word) : (s.fail c info).inPtr = s.inPtr := rfl
@[simp] theorem State.fail_inEnd (s : State) (c : ErrCode) (info : Word) : (s.fail c info).inEnd = s.inEnd := rfl
@[simp] theorem State.fail_bpAcc (s : State) (c : ErrCode) (info : Word) : (s.fail c info).bpAcc = s.bpAcc := rfl
@[simp] theorem State.fail_bpFree (s : State) (c : ErrCode) (info : Word) : (s.fail c info).bpFree = s.bpFree := rfl
@[simp] theorem State.fail_brAcc (s : State) (c : ErrCode) (info : Word) : (s.fail c info).brAcc = s.brAcc := rfl
@[simp] theorem State.fail_brLeft (s : State) (c : ErrCode) (info : Word) : (s.fail c info).brLeft = s.brLeft := rfl
@[simp] theorem State.fail_marker (s : State) (c : ErrCode) (info : Word) : (s.fail c info).marker = s.marker := rfl
@[simp] theorem State.fail_imgBase (s : State) (c : ErrCode) (info : Word) : (s.fail c info).imgBase = s.imgBase := rfl
@[simp] theorem State.fail_imgSize (s : State) (c : ErrCode) (info : Word) : (s.fail c info).imgSize = s.imgSize := rfl
@[simp] theorem State.fail_imgWidth (s : State) (c : ErrCode) (info : Word) : (s.fail c info).imgWidth = s.imgWidth := rfl
@[simp] theorem State.fail_tileX (s : State) (c : ErrCode) (info : Word) : (s.fail c info).tileX = s.tileX := rfl
@[simp] theorem State.fail_tileY (s : State) (c : ErrCode) (info : Word) : (s.fail c info).tileY = s.tileY := rfl
@[simp] theorem State.fail_tw (s : State) (c : ErrCode) (info : Word) : (s.fail c info).tw = s.tw := rfl
@[simp] theorem State.fail_th (s : State) (c : ErrCode) (info : Word) : (s.fail c info).th = s.th := rfl
@[simp] theorem State.fail_tk (s : State) (c : ErrCode) (info : Word) : (s.fail c info).tk = s.tk := rfl
@[simp] theorem State.fail_encMaxlen (s : State) (c : ErrCode) (info : Word) : (s.fail c info).encMaxlen = s.encMaxlen := rfl
@[simp] theorem State.fail_decMaxlen (s : State) (c : ErrCode) (info : Word) : (s.fail c info).decMaxlen = s.decMaxlen := rfl
@[simp] theorem State.fail_tblSel (s : State) (c : ErrCode) (info : Word) : (s.fail c info).tblSel = s.tblSel := rfl
@[simp] theorem State.fail_tblIdx (s : State) (c : ErrCode) (info : Word) : (s.fail c info).tblIdx = s.tblIdx := rfl
@[simp] theorem State.fail_freq (s : State) (c : ErrCode) (info : Word) : (s.fail c info).freq = s.freq := rfl
@[simp] theorem State.fail_encValid (s : State) (c : ErrCode) (info : Word) : (s.fail c info).encValid = s.encValid := rfl
@[simp] theorem State.fail_codeLen (s : State) (c : ErrCode) (info : Word) : (s.fail c info).codeLen = s.codeLen := rfl
@[simp] theorem State.fail_codeVal (s : State) (c : ErrCode) (info : Word) : (s.fail c info).codeVal = s.codeVal := rfl
@[simp] theorem State.fail_decValid (s : State) (c : ErrCode) (info : Word) : (s.fail c info).decValid = s.decValid := rfl
@[simp] theorem State.fail_decCnt (s : State) (c : ErrCode) (info : Word) : (s.fail c info).decCnt = s.decCnt := rfl
@[simp] theorem State.fail_decFirstCode (s : State) (c : ErrCode) (info : Word) : (s.fail c info).decFirstCode = s.decFirstCode := rfl
@[simp] theorem State.fail_decFirstSym (s : State) (c : ErrCode) (info : Word) : (s.fail c info).decFirstSym = s.decFirstSym := rfl
@[simp] theorem State.fail_decAlpha (s : State) (c : ErrCode) (info : Word) : (s.fail c info).decAlpha = s.decAlpha := rfl
@[simp] theorem State.fail_tile (s : State) (c : ErrCode) (info : Word) : (s.fail c info).tile = s.tile := rfl
@[simp] theorem State.fail_mem (s : State) (c : ErrCode) (info : Word) : (s.fail c info).mem = s.mem := rfl
@[simp] theorem State.fail_events (s : State) (c : ErrCode) (info : Word) : (s.fail c info).events = s.events := rfl
@[simp] theorem State.fail_portData (s : State) (c : ErrCode) (info : Word) : (s.fail c info).portData = s.portData := rfl
@[simp] theorem State.fail_seenIdle (s : State) (c : ErrCode) (info : Word) : (s.fail c info).seenIdle = s.seenIdle := rfl
@[simp] theorem State.fail_checkFailed (s : State) (c : ErrCode) (info : Word) : (s.fail c info).checkFailed = s.checkFailed := rfl
@[simp] theorem State.fail_draws (s : State) (c : ErrCode) (info : Word) : (s.fail c info).draws = s.draws := rfl

/-! ### setByte -/

@[simp] theorem State.setByte_memAddrBits (s : State) (a : Nat) (v : Byte) : (s.setByte a v).memAddrBits = s.memAddrBits := rfl
@[simp] theorem State.setByte_regBase (s : State) (a : Nat) (v : Byte) : (s.setByte a v).regBase = s.regBase := rfl
@[simp] theorem State.setByte_memBase (s : State) (a : Nat) (v : Byte) : (s.setByte a v).memBase = s.memBase := rfl
@[simp] theorem State.setByte_ie (s : State) (a : Nat) (v : Byte) : (s.setByte a v).ie = s.ie := rfl
@[simp] theorem State.setByte_pending (s : State) (a : Nat) (v : Byte) : (s.setByte a v).pending = s.pending := rfl
@[simp] theorem State.setByte_done (s : State) (a : Nat) (v : Byte) : (s.setByte a v).done = s.done := rfl
@[simp] theorem State.setByte_overrun (s : State) (a : Nat) (v : Byte) : (s.setByte a v).overrun = s.overrun := rfl
@[simp] theorem State.setByte_eob (s : State) (a : Nat) (v : Byte) : (s.setByte a v).eob = s.eob := rfl
@[simp] theorem State.setByte_errCode (s : State) (a : Nat) (v : Byte) : (s.setByte a v).errCode = s.errCode := rfl
@[simp] theorem State.setByte_cmd (s : State) (a : Nat) (v : Byte) : (s.setByte a v).cmd = s.cmd := rfl
@[simp] theorem State.setByte_src (s : State) (a : Nat) (v : Byte) : (s.setByte a v).src = s.src := rfl
@[simp] theorem State.setByte_srcLen (s : State) (a : Nat) (v : Byte) : (s.setByte a v).srcLen = s.srcLen := rfl
@[simp] theorem State.setByte_dst (s : State) (a : Nat) (v : Byte) : (s.setByte a v).dst = s.dst := rfl
@[simp] theorem State.setByte_dstCap (s : State) (a : Nat) (v : Byte) : (s.setByte a v).dstCap = s.dstCap := rfl
@[simp] theorem State.setByte_argN (s : State) (a : Nat) (v : Byte) : (s.setByte a v).argN = s.argN := rfl
@[simp] theorem State.setByte_argVal (s : State) (a : Nat) (v : Byte) : (s.setByte a v).argVal = s.argVal := rfl
@[simp] theorem State.setByte_limit (s : State) (a : Nat) (v : Byte) : (s.setByte a v).limit = s.limit := rfl
@[simp] theorem State.setByte_result (s : State) (a : Nat) (v : Byte) : (s.setByte a v).result = s.result := rfl
@[simp] theorem State.setByte_errInfo (s : State) (a : Nat) (v : Byte) : (s.setByte a v).errInfo = s.errInfo := rfl
@[simp] theorem State.setByte_outPtr (s : State) (a : Nat) (v : Byte) : (s.setByte a v).outPtr = s.outPtr := rfl
@[simp] theorem State.setByte_outEnd (s : State) (a : Nat) (v : Byte) : (s.setByte a v).outEnd = s.outEnd := rfl
@[simp] theorem State.setByte_inPtr (s : State) (a : Nat) (v : Byte) : (s.setByte a v).inPtr = s.inPtr := rfl
@[simp] theorem State.setByte_inEnd (s : State) (a : Nat) (v : Byte) : (s.setByte a v).inEnd = s.inEnd := rfl
@[simp] theorem State.setByte_bpAcc (s : State) (a : Nat) (v : Byte) : (s.setByte a v).bpAcc = s.bpAcc := rfl
@[simp] theorem State.setByte_bpFree (s : State) (a : Nat) (v : Byte) : (s.setByte a v).bpFree = s.bpFree := rfl
@[simp] theorem State.setByte_brAcc (s : State) (a : Nat) (v : Byte) : (s.setByte a v).brAcc = s.brAcc := rfl
@[simp] theorem State.setByte_brLeft (s : State) (a : Nat) (v : Byte) : (s.setByte a v).brLeft = s.brLeft := rfl
@[simp] theorem State.setByte_marker (s : State) (a : Nat) (v : Byte) : (s.setByte a v).marker = s.marker := rfl
@[simp] theorem State.setByte_imgBase (s : State) (a : Nat) (v : Byte) : (s.setByte a v).imgBase = s.imgBase := rfl
@[simp] theorem State.setByte_imgSize (s : State) (a : Nat) (v : Byte) : (s.setByte a v).imgSize = s.imgSize := rfl
@[simp] theorem State.setByte_imgWidth (s : State) (a : Nat) (v : Byte) : (s.setByte a v).imgWidth = s.imgWidth := rfl
@[simp] theorem State.setByte_tileX (s : State) (a : Nat) (v : Byte) : (s.setByte a v).tileX = s.tileX := rfl
@[simp] theorem State.setByte_tileY (s : State) (a : Nat) (v : Byte) : (s.setByte a v).tileY = s.tileY := rfl
@[simp] theorem State.setByte_tw (s : State) (a : Nat) (v : Byte) : (s.setByte a v).tw = s.tw := rfl
@[simp] theorem State.setByte_th (s : State) (a : Nat) (v : Byte) : (s.setByte a v).th = s.th := rfl
@[simp] theorem State.setByte_tk (s : State) (a : Nat) (v : Byte) : (s.setByte a v).tk = s.tk := rfl
@[simp] theorem State.setByte_encMaxlen (s : State) (a : Nat) (v : Byte) : (s.setByte a v).encMaxlen = s.encMaxlen := rfl
@[simp] theorem State.setByte_decMaxlen (s : State) (a : Nat) (v : Byte) : (s.setByte a v).decMaxlen = s.decMaxlen := rfl
@[simp] theorem State.setByte_tblSel (s : State) (a : Nat) (v : Byte) : (s.setByte a v).tblSel = s.tblSel := rfl
@[simp] theorem State.setByte_tblIdx (s : State) (a : Nat) (v : Byte) : (s.setByte a v).tblIdx = s.tblIdx := rfl
@[simp] theorem State.setByte_freq (s : State) (a : Nat) (v : Byte) : (s.setByte a v).freq = s.freq := rfl
@[simp] theorem State.setByte_encValid (s : State) (a : Nat) (v : Byte) : (s.setByte a v).encValid = s.encValid := rfl
@[simp] theorem State.setByte_codeLen (s : State) (a : Nat) (v : Byte) : (s.setByte a v).codeLen = s.codeLen := rfl
@[simp] theorem State.setByte_codeVal (s : State) (a : Nat) (v : Byte) : (s.setByte a v).codeVal = s.codeVal := rfl
@[simp] theorem State.setByte_decValid (s : State) (a : Nat) (v : Byte) : (s.setByte a v).decValid = s.decValid := rfl
@[simp] theorem State.setByte_decCnt (s : State) (a : Nat) (v : Byte) : (s.setByte a v).decCnt = s.decCnt := rfl
@[simp] theorem State.setByte_decFirstCode (s : State) (a : Nat) (v : Byte) : (s.setByte a v).decFirstCode = s.decFirstCode := rfl
@[simp] theorem State.setByte_decFirstSym (s : State) (a : Nat) (v : Byte) : (s.setByte a v).decFirstSym = s.decFirstSym := rfl
@[simp] theorem State.setByte_decAlpha (s : State) (a : Nat) (v : Byte) : (s.setByte a v).decAlpha = s.decAlpha := rfl
@[simp] theorem State.setByte_tile (s : State) (a : Nat) (v : Byte) : (s.setByte a v).tile = s.tile := rfl
@[simp] theorem State.setByte_mem (s : State) (a : Nat) (v : Byte) : (s.setByte a v).mem = s.mem.set a v := rfl
@[simp] theorem State.setByte_events (s : State) (a : Nat) (v : Byte) : (s.setByte a v).events = s.events := rfl
@[simp] theorem State.setByte_portData (s : State) (a : Nat) (v : Byte) : (s.setByte a v).portData = s.portData := rfl
@[simp] theorem State.setByte_seenIdle (s : State) (a : Nat) (v : Byte) : (s.setByte a v).seenIdle = s.seenIdle := rfl
@[simp] theorem State.setByte_checkFailed (s : State) (a : Nat) (v : Byte) : (s.setByte a v).checkFailed = s.checkFailed := rfl
@[simp] theorem State.setByte_draws (s : State) (a : Nat) (v : Byte) : (s.setByte a v).draws = s.draws := rfl

/-! ### The size of MEM under each of them -/

@[simp] theorem State.accept_memSize (s : State) (w : Word) : (s.accept w).memSize = s.memSize := rfl
@[simp] theorem State.complete_memSize (s : State) (c : ErrCode) (info res : Word) (e : Bool) :
    (s.complete c info res e).memSize = s.memSize := rfl
@[simp] theorem State.succeed_memSize (s : State) (res : Word) (e : Bool) : (s.succeed res e).memSize = s.memSize := rfl
@[simp] theorem State.fail_memSize (s : State) (c : ErrCode) (info : Word) : (s.fail c info).memSize = s.memSize := rfl
@[simp] theorem State.setByte_memSize (s : State) (a : Nat) (v : Byte) : (s.setByte a v).memSize = s.memSize := rfl

/-! ### The bytes of MEM under each of them but setByte -/

@[simp] theorem State.accept_byteAt (s : State) (w : Word) (a : Nat) : (s.accept w).byteAt a = s.byteAt a := rfl
@[simp] theorem State.complete_byteAt (s : State) (c : ErrCode) (info res : Word) (e : Bool) (a : Nat) :
    (s.complete c info res e).byteAt a = s.byteAt a := rfl
@[simp] theorem State.succeed_byteAt (s : State) (res : Word) (e : Bool) (a : Nat) :
    (s.succeed res e).byteAt a = s.byteAt a := rfl
@[simp] theorem State.fail_byteAt (s : State) (c : ErrCode) (info : Word) (a : Nat) :
    (s.fail c info).byteAt a = s.byteAt a := rfl

end Sys2Proof.Machine
end

