-- ==== Sys2Proof/Laws/Memory.lean ====
section
/-! SUPPORT. MEM: read after write, the canonical form kept by every memory operation, and the one thing each shared memory operation can do. -/

namespace Sys2Proof.Machine

/-! ### The list of written bytes -/

@[simp] theorem Memory.get?_nil (a : Nat) : Memory.get? [] a = none := rfl

theorem Memory.get?_cons (b : Nat) (w : Byte) (m : Memory) (a : Nat) :
    Memory.get? ((b, w) :: m) a = if a = b then some w else Memory.get? m a := rfl

@[simp] theorem Memory.get?_set_self (m : Memory) (a : Nat) (v : Byte) : (m.set a v).get? a = some v := by
  induction m with
  | nil => simp [Memory.set, Memory.get?]
  | cons c m ih =>
    obtain ⟨b, w⟩ := c
    by_cases h : a < b
    · simp [Memory.set, Memory.get?, h]
    · by_cases h' : a = b <;> simp [Memory.set, Memory.get?, h, h', ih]

theorem Memory.get?_set_ne (m : Memory) (a : Nat) (v : Byte) (c : Nat) (h : c ≠ a) : (m.set a v).get? c = m.get? c := by
  induction m with
  | nil => simp [Memory.set, Memory.get?, h]
  | cons d m ih =>
    obtain ⟨b, w⟩ := d
    by_cases h1 : a < b
    · simp [Memory.set, Memory.get?, h1, h]
    · by_cases h2 : a = b
      · subst h2
        simp [Memory.set, Memory.get?, h]
      · simp [Memory.set, Memory.get?, h1, h2, ih]

/-- Every listed cell of a memory after a write is the written one or was listed before. -/
theorem Memory.mem_set (m : Memory) (a : Nat) (v : Byte) (x : Host.Cell) (h : x ∈ m.set a v) : x = (a, v) ∨ x ∈ m := by
  induction m with
  | nil => simpa [Memory.set] using h
  | cons d m ih =>
    obtain ⟨b, w⟩ := d
    unfold Memory.set at h
    split at h
    · simpa using h
    · split at h
      · rcases List.mem_cons.mp h with h | h
        · exact .inl h
        · exact .inr (List.mem_cons_of_mem _ h)
      · rcases List.mem_cons.mp h with h | h
        · exact .inr (by simp [h])
        · exact (ih h).imp id (List.mem_cons_of_mem _)

/-- A write inside MEM keeps the canonical form. -/
theorem Memory.wf_set (m : Memory) (size a : Nat) (v : Byte) (hm : m.wf size) (ha : a < size) : (m.set a v).wf size := by
  refine ⟨?_, fun x hx => ?_⟩
  · have hp := hm.1
    clear hm
    induction m with
    | nil => simp [Memory.set]
    | cons d m ih =>
      obtain ⟨b, w⟩ := d
      obtain ⟨hd, hp⟩ := List.pairwise_cons.mp hp
      unfold Memory.set
      split
      · refine List.pairwise_cons.mpr ⟨fun y hy => ?_, List.pairwise_cons.mpr ⟨hd, hp⟩⟩
        rcases List.mem_cons.mp hy with hy | hy
        · simp [*]
        · have := hd y hy
          simp only at *
          omega
      · split
        · rename_i hab
          exact List.pairwise_cons.mpr ⟨by simpa [hab] using hd, hp⟩
        · refine List.pairwise_cons.mpr ⟨fun y hy => ?_, ih hp⟩
          rcases Memory.mem_set m a v y hy with rfl | hy
          · simp only
            omega
          · exact hd y hy
  · rcases Memory.mem_set m a v x hx with rfl | hx
    · exact ha
    · exact hm.2 x hx

theorem Memory.wf_nil (size : Nat) : Memory.wf [] size := ⟨List.Pairwise.nil, by simp⟩

/-! ### The bytes of a state -/

@[simp] theorem State.byteAt_setByte_self (s : State) (a : Nat) (v : Byte) : (s.setByte a v).byteAt a = v := by
  simp [State.byteAt, State.setByte]

theorem State.byteAt_setByte_ne (s : State) (a : Nat) (v : Byte) (b : Nat) (h : b ≠ a) :
    (s.setByte a v).byteAt b = s.byteAt b := by
  simp [State.byteAt, State.setByte, Memory.get?_set_ne _ _ _ _ h]

theorem State.byteAt_setByte (s : State) (a : Nat) (v : Byte) (b : Nat) :
    (s.setByte a v).byteAt b = if b = a then v else s.byteAt b := by
  by_cases h : b = a
  · simp [h]
  · simp [h, State.byteAt_setByte_ne]

@[simp] theorem State.bytesAt_length (s : State) (a n : Nat) : (s.bytesAt a n).length = n := by
  simp [State.bytesAt]

theorem State.bytesAt_getElem (s : State) (a n i : Nat) (h : i < (s.bytesAt a n).length) :
    (s.bytesAt a n)[i] = s.byteAt (a + i) := by
  simp [State.bytesAt]

/-- A write kept inside MEM keeps the memory invariant's canonical form. -/
theorem State.setByte_wf (s : State) (a : Nat) (v : Byte) (h : s.mem.wf s.memSize) (ha : a < s.memSize) :
    (s.setByte a v).mem.wf (s.setByte a v).memSize :=
  Memory.wf_set _ _ _ _ h ha

/-! ### The shared memory operations -/

theorem memRead_of_lt (a : Nat) (s : State) (h : a < s.memSize) : memRead a s = .ok (s.byteAt a) := by
  simp [memRead, h]

theorem memWrite_of_lt (a : Nat) (v : Byte) (s : State) (h : a < s.memSize) : memWrite a v s = .ok (s.setByte a v) := by
  simp [memWrite, h]

/-- All that `memWrite` can do. -/
theorem memWrite_ok {a : Nat} {v : Byte} {s t : State} (h : memWrite a v s = .ok t) : a < s.memSize ∧ t = s.setByte a v := by
  unfold memWrite at h
  split at h
  · exact ⟨‹_›, by simpa using h.symm⟩
  · simp at h

theorem snapshot_of_le (a n : Nat) (s : State) (h : a + n ≤ s.memSize) : snapshot a n s = .ok (s.bytesAt a n) := by
  simp [snapshot, h]

@[simp] theorem writeBytes_nil (a : Nat) (s : State) : writeBytes a [] s = .ok s := rfl

/-- `writeBytes` inside MEM comes to its end. -/
theorem writeBytes_of_le (a : Nat) (vs : List Byte) (s : State) (h : a + vs.length ≤ s.memSize) :
    ∃ t, writeBytes a vs s = .ok t := by
  induction vs generalizing a s with
  | nil => exact ⟨s, rfl⟩
  | cons v vs ih =>
    have ha : a < s.memSize := by simp only [List.length_cons] at h; omega
    simp only [writeBytes, memWrite_of_lt a v s ha, Except.bind]
    exact ih (a + 1) _ (by simp only [List.length_cons, State.setByte_memSize] at *; omega)

/-- All that `writeBytes` changes: MEM. -/
theorem writeBytes_frame {a : Nat} {vs : List Byte} {s t : State} (h : writeBytes a vs s = .ok t) :
    t = { s with mem := t.mem } := by
  induction vs generalizing a s with
  | nil => simp only [writeBytes, Except.ok.injEq] at h; subst h; rfl
  | cons v vs ih =>
    simp only [writeBytes] at h
    cases hw : memWrite a v s with
    | error e => simp [hw, Except.bind] at h
    | ok u =>
      simp only [hw, Except.bind] at h
      have hu := (memWrite_ok hw).2
      have := ih h
      rw [this, hu]
      rfl

/-- The bytes after `writeBytes`: the list's at its addresses, every other as before. -/
theorem writeBytes_byteAt {a : Nat} {vs : List Byte} {s t : State} (h : writeBytes a vs s = .ok t) (b : Nat) :
    t.byteAt b = if a ≤ b then (vs[b - a]?).getD (s.byteAt b) else s.byteAt b := by
  induction vs generalizing a s with
  | nil => simp only [writeBytes, Except.ok.injEq] at h; subst h; simp
  | cons v vs ih =>
    simp only [writeBytes] at h
    cases hw : memWrite a v s with
    | error e => simp [hw, Except.bind] at h
    | ok u =>
      simp only [hw, Except.bind] at h
      have hu := (memWrite_ok hw).2
      rw [ih h, hu]
      by_cases hb : b = a
      · subst hb
        have h1 : ¬ b + 1 ≤ b := by omega
        simp [h1]
      · rw [State.byteAt_setByte_ne _ _ _ _ hb]
        by_cases hlt : a ≤ b
        · have h1 : a + 1 ≤ b := by omega
          have h2 : b - a = (b - (a + 1)) + 1 := by omega
          simp [hlt, h1, h2]
        · have h1 : ¬ a + 1 ≤ b := by omega
          simp [hlt, h1]

/-- `writeBytes` keeps the canonical form. -/
theorem writeBytes_wf {a : Nat} {vs : List Byte} {s t : State} (h : writeBytes a vs s = .ok t) (hm : s.mem.wf s.memSize) :
    t.mem.wf t.memSize := by
  induction vs generalizing a s with
  | nil => simp only [writeBytes, Except.ok.injEq] at h; subst h; exact hm
  | cons v vs ih =>
    simp only [writeBytes] at h
    cases hw : memWrite a v s with
    | error e => simp [hw, Except.bind] at h
    | ok u =>
      simp only [hw, Except.bind] at h
      obtain ⟨ha, rfl⟩ := memWrite_ok hw
      exact ih h (State.setByte_wf s a v hm ha)

/-! ### Draws -/

/-- All that `drawBytes` changes: MEM and the count of draws. -/
theorem drawBytes_frame (as : List Nat) (s : State) :
    drawBytes as s = { s with mem := (drawBytes as s).mem, draws := s.draws + as.length } := by
  induction as generalizing s with
  | nil => rfl
  | cons a as ih =>
    unfold drawBytes
    rw [ih]
    simp only [State.setByte_memAddrBits, List.length_cons]
    simp only [State.setByte, Nat.add_assoc, Nat.add_comm 1]

/-- `drawBytes` leaves every byte outside its addresses. -/
theorem drawBytes_byteAt_of_not_mem (as : List Nat) (s : State) (b : Nat) (h : b ∉ as) :
    (drawBytes as s).byteAt b = s.byteAt b := by
  induction as generalizing s with
  | nil => rfl
  | cons a as ih =>
    simp only [List.mem_cons, not_or] at h
    unfold drawBytes
    rw [ih _ h.2]
    exact State.byteAt_setByte_ne s a _ b h.1

/-- `drawBytes` at addresses of MEM keeps the canonical form. -/
theorem drawBytes_wf (as : List Nat) (s : State) (hm : s.mem.wf s.memSize) (ha : ∀ a ∈ as, a < s.memSize) :
    (drawBytes as s).mem.wf (drawBytes as s).memSize := by
  induction as generalizing s with
  | nil => exact hm
  | cons a as ih =>
    unfold drawBytes
    exact ih _ (State.setByte_wf s a _ hm (ha a (by simp))) (fun b hb => ha b (List.mem_cons_of_mem _ hb))

theorem mem_regionAddrs (a n b : Nat) : b ∈ regionAddrs a n ↔ a ≤ b ∧ b < a + n := by
  simp only [regionAddrs, List.mem_map, List.mem_range]
  constructor
  · rintro ⟨i, hi, rfl⟩
    omega
  · rintro ⟨h1, h2⟩
    exact ⟨b - a, by omega, by omega⟩

end Sys2Proof.Machine
end

