-- ==== Sys2Proof/Laws/Completion.lean ====
section
/-! SUPPORT. Pre-checks and the end of a command: when `withChecks` and `conclude` answer what. -/

namespace Sys2Proof.Machine

/-! ### Pre-checks -/

@[simp] theorem firstFailing_nil : firstFailing [] = none := rfl

theorem firstFailing_cons (c : Check) (cs : List Check) :
    firstFailing (c :: cs) = if c.ok then firstFailing cs else some (c.code, c.info) := rfl

/-- No pre-check fails exactly when every one holds. -/
theorem firstFailing_eq_none (cs : List Check) : firstFailing cs = none ↔ ∀ c ∈ cs, c.ok = true := by
  induction cs with
  | nil => simp
  | cons c cs ih => by_cases h : c.ok <;> simp [firstFailing_cons, h, ih]

/-- The error reported is that of a check that does not hold, every check before it holding (R264). -/
theorem firstFailing_eq_some (cs : List Check) (code : ErrCode) (info : Word) (h : firstFailing cs = some (code, info)) :
    ∃ pre c post, cs = pre ++ c :: post ∧ (∀ d ∈ pre, d.ok = true) ∧ c.ok = false ∧ c.code = code ∧ c.info = info := by
  induction cs with
  | nil => simp at h
  | cons c cs ih =>
    by_cases hc : c.ok
    · obtain ⟨pre, d, post, h1, h2, h3⟩ := ih (by simpa [firstFailing_cons, hc] using h)
      exact ⟨c :: pre, d, post, by simp [h1], by simpa [hc] using h2, h3⟩
    · simp only [firstFailing_cons, hc, Bool.false_eq_true, if_false, Option.some.injEq, Prod.mk.injEq] at h
      exact ⟨[], c, cs, rfl, by simp, by simpa using hc, h.1, h.2⟩

/-- With every pre-check holding the operation is performed. -/
theorem withChecks_of_pass (s : State) (cs : List Check) (op : State → Result) (h : firstFailing cs = none) :
    withChecks s cs op = op s := by
  simp [withChecks, h]

/-- A failing pre-check ends the command, changing only the completion state (R262). -/
theorem withChecks_of_fail (s : State) (cs : List Check) (op : State → Result) (code : ErrCode) (info : Word)
    (h : firstFailing cs = some (code, info)) : withChecks s cs op = .next (s.fail code info) := by
  simp [withChecks, h]

/-- All that a command with pre-checks can do. -/
theorem withChecks_cases (s : State) (cs : List Check) (op : State → Result) :
    (∃ code info, firstFailing cs = some (code, info) ∧ withChecks s cs op = .next (s.fail code info))
    ∨ (firstFailing cs = none ∧ withChecks s cs op = op s) := by
  cases h : firstFailing cs with
  | none => exact .inr ⟨rfl, withChecks_of_pass s cs op h⟩
  | some p => exact .inl ⟨p.1, p.2, rfl, withChecks_of_fail s cs op p.1 p.2 h⟩

/-! ### The end of an operation -/

@[simp] theorem conclude_ok (u : State) (d : Finished) : conclude u (.ok d) = .next (d.st.succeed d.result d.eob) := rfl

@[simp] theorem conclude_raise (u : State) (code : ErrCode) (info : Word) :
    conclude u (.error (.raise code info)) = .next (u.fail code info) := rfl

@[simp] theorem conclude_fault (u : State) (f : Fault) : conclude u (.error (.fault f)) = .fault f := rfl

/-- All that the end of an operation can answer as a next state. -/
theorem conclude_next {u t : State} {r : Except Stop Finished} (h : conclude u r = .next t) :
    (∃ d, r = .ok d ∧ t = d.st.succeed d.result d.eob) ∨ (∃ code info, r = .error (.raise code info) ∧ t = u.fail code info) := by
  match r, h with
  | .ok d, h => exact .inl ⟨d, rfl, by simpa using h.symm⟩
  | .error (.raise code info), h => exact .inr ⟨code, info, rfl, by simpa using h.symm⟩

/-- An operation that meets no fault answers a next state. -/
theorem conclude_isNext (u : State) (r : Except Stop Finished) (h : ∀ f, r ≠ .error (.fault f)) : ∃ t, conclude u r = .next t := by
  match r, h with
  | .ok d, _ => exact ⟨_, rfl⟩
  | .error (.raise code info), _ => exact ⟨_, rfl⟩
  | .error (.fault f), h => exact absurd rfl (h f)

end Sys2Proof.Machine
end

