-- ==== Sys2Proof/Laws/Streams.lean ====
section
/-! SUPPORT. The bit packer and the bit reader: what one primitive can do, and what putting and getting a list of bits does. -/

namespace Sys2Proof.Machine

/-! ### One byte, bit by bit -/

@[simp] theorem msbBits_length (v n : Nat) : (msbBits v n).length = n := by simp [msbBits]

@[simp] theorem byteBits_length (b : Byte) : (byteBits b).length = 8 := msbBits_length _ _

@[simp] theorem bitsOfBytes_nil : bitsOfBytes [] = [] := rfl

theorem bitsOfBytes_append (xs ys : List Byte) : bitsOfBytes (xs ++ ys) = bitsOfBytes xs ++ bitsOfBytes ys := by
  simp [bitsOfBytes]

theorem bitsOfBytes_length (bs : List Byte) : (bitsOfBytes bs).length = 8 * bs.length := by
  induction bs with
  | nil => rfl
  | cons b bs ih => simp only [bitsOfBytes, List.flatMap_cons, List.length_append, byteBits_length, List.length_cons] at *; omega

/-- The accumulator after one more bit, over all accumulators that R143 allows: the bits put so far are the old ones and the new one, and
the unused positions are still 0. -/
theorem accWith_table :
    ∀ acc < 256, ∀ free < 9, ∀ b : Bool, 1 ≤ free → acc % 2 ^ free = 0 →
      (byteBits (accWith (BitVec.ofNat 8 acc) free b)).take (9 - free) = (byteBits (BitVec.ofNat 8 acc)).take (8 - free) ++ [b]
      ∧ (accWith (BitVec.ofNat 8 acc) free b).toNat % 2 ^ (free - 1) = 0 := by
  decide +kernel

theorem accWith_spec (acc : Byte) (free : Nat) (b : Bool) (h1 : 1 ≤ free) (h8 : free ≤ 8) (h0 : acc.toNat % 2 ^ free = 0) :
    (byteBits (accWith acc free b)).take (9 - free) = (byteBits acc).take (8 - free) ++ [b]
    ∧ (accWith acc free b).toNat % 2 ^ (free - 1) = 0 := by
  have := accWith_table acc.toNat acc.isLt free (by omega) b h1 h0
  simpa using this

/-- A pointer below an end moves by one without wrap-around. -/
theorem word_succ_toNat (a b : Word) (h : a.toNat < b.toNat) : (a + 1).toNat = a.toNat + 1 := by
  have := b.isLt
  rw [BitVec.toNat_add]
  show (a.toNat + 1) % 2 ^ 64 = _
  omega

/-! ### The bit packer -/

/-- The packer's part of the cursor invariant (R143). -/
def State.packerInv (s : State) : Prop := 1 ≤ s.bpFree ∧ s.bpFree ≤ 8 ∧ s.bpAcc.toNat % 2 ^ s.bpFree = 0

theorem State.heldBits_length (s : State) : s.heldBits.length = 8 - s.bpFree := by
  simp [State.heldBits]

theorem emitByte_of_room (v : Byte) (s : State) (h1 : s.outPtr.toNat < s.outEnd.toNat) (h2 : s.outEnd.toNat ≤ s.memSize) :
    emitByte v s = .ok { s.setByte s.outPtr.toNat v with outPtr := s.outPtr + 1 } := by
  have h3 : ¬ s.outPtr.toNat ≥ s.outEnd.toNat := by omega
  simp only [emitByte, h3, if_false, memWrite_of_lt _ v s (show s.outPtr.toNat < s.memSize by omega), Except.bind]
  rfl

theorem State.bytesAt_append (s : State) (a m n : Nat) : s.bytesAt a (m + n) = s.bytesAt a m ++ s.bytesAt (a + m) n := by
  simp [State.bytesAt, List.range_add, Nat.add_assoc]

theorem State.bytesAt_congr (s t : State) (a n : Nat) (h : ∀ b, a ≤ b → b < a + n → t.byteAt b = s.byteAt b) :
    t.bytesAt a n = s.bytesAt a n := by
  simp only [State.bytesAt]
  refine List.map_congr_left fun i hi => h _ (by omega) ?_
  have := List.mem_range.mp hi
  omega

/-- Nothing put: nothing changed. -/
theorem bitsPut_nil (s : State) (h : s.packerInv) : bitsPut s [] s := by
  have h8 : s.bytesFor 0 = 0 := by simp only [State.bytesFor]; have := h.1; omega
  refine ⟨rfl, by simp [h8], by simp [h8, State.bytesAt], h, fun _ _ => rfl⟩

/-- Putting a list of bits and then another is putting the two together. -/
theorem bitsPut_trans {s u t : State} {xs ys : List Bool} (h1 : bitsPut s xs u) (h2 : bitsPut u ys t) :
    bitsPut s (xs ++ ys) t := by
  obtain ⟨e1, p1, b1, i1, m1⟩ := h1
  obtain ⟨e2, p2, b2, i2, m2⟩ := h2
  have hlen : 8 * s.bytesFor xs.length + (8 - u.bpFree) = 8 - s.bpFree + xs.length := by
    have := congrArg List.length b1
    simpa [bitsOfBytes_length, State.heldBits_length] using this
  have hadd : s.bytesFor (xs ++ ys).length = s.bytesFor xs.length + u.bytesFor ys.length := by
    simp only [State.bytesFor, List.length_append] at *
    omega
  have hend : u.outEnd = s.outEnd := by rw [e1]
  refine ⟨?_, by omega, ?_, i2, fun a ha => ?_⟩
  · rw [e2, e1]
  · rw [hadd, State.bytesAt_append, bitsOfBytes_append, List.append_assoc, ← p1, b2, ← List.append_assoc, ← List.append_assoc, ← b1]
    congr 3
    refine State.bytesAt_congr u t _ _ fun b hb hb' => m2 b ?_
    omega
  · rw [m2 a (by omega), m1 a (by omega)]

/-- One bit put, with room for the byte it may complete (R130). -/
theorem putBit_bitsPut (b : Bool) (s : State) (hs : s.packerInv) (h1 : s.bytesFor 1 ≤ s.outRoom)
    (h2 : s.outEnd.toNat ≤ s.memSize) : ∃ t, putBit b s = .ok t ∧ bitsPut s [b] t := by
  obtain ⟨f1, f8, f0⟩ := hs
  obtain ⟨a1, a2⟩ := accWith_spec s.bpAcc s.bpFree b f1 f8 f0
  by_cases hf : s.bpFree - 1 = 0
  · have hfree : s.bpFree = 1 := by omega
    have hb1 : s.bytesFor 1 = 1 := by simp [State.bytesFor, hfree]
    have hroom : s.outPtr.toNat < s.outEnd.toNat := by simp only [State.outRoom] at h1; omega
    have hptr := word_succ_toNat _ _ hroom
    refine ⟨_, by simp only [putBit, hf, if_true, emitByte_of_room _ s hroom h2, Except.bind]; rfl, ?_⟩
    refine ⟨rfl, by rw [List.length_singleton, hb1]; exact hptr, ?_, by simp, fun a ha => ?_⟩
    · simp only [List.length_singleton, hb1]
      have : bitsOfBytes [accWith s.bpAcc s.bpFree b] = s.heldBits ++ [b] := by
        have h9 : 9 - s.bpFree = 8 := by omega
        rw [State.heldBits, ← a1, h9]
        simp only [bitsOfBytes, List.flatMap_cons, List.flatMap_nil, List.append_nil]
        rw [List.take_of_length_le (by simp)]
      rw [← this]
      simp [State.bytesAt, State.byteAt, State.setByte, State.heldBits]
    · refine State.byteAt_setByte_ne s _ _ a ?_
      simp only [hptr] at ha
      omega
  · have hb1 : s.bytesFor 1 = 0 := by simp only [State.bytesFor]; omega
    refine ⟨{ s with bpAcc := accWith s.bpAcc s.bpFree b, bpFree := s.bpFree - 1 }, by simp only [putBit, hf, if_false], ?_⟩
    refine ⟨rfl, by simp [hb1], ?_, ⟨by show 1 ≤ s.bpFree - 1; omega, by show s.bpFree - 1 ≤ 8; omega, a2⟩, fun _ _ => rfl⟩
    have h9 : 8 - (s.bpFree - 1) = 9 - s.bpFree := by omega
    simp only [List.length_singleton, hb1, State.bytesAt, List.range_zero, List.map_nil, bitsOfBytes_nil, List.nil_append,
      State.heldBits, h9]
    exact a1

/-- A list of bits put, with room for the bytes it completes (R130, R134): no `raise` of R131 is taken. -/
theorem putBitList_bitsPut (bits : List Bool) (s : State) (hs : s.packerInv) (h1 : s.bytesFor bits.length ≤ s.outRoom)
    (h2 : s.outEnd.toNat ≤ s.memSize) : ∃ t, putBitList bits s = .ok t ∧ bitsPut s bits t := by
  induction bits generalizing s with
  | nil => exact ⟨s, rfl, bitsPut_nil s hs⟩
  | cons b bits ih =>
    have hmono : s.bytesFor 1 ≤ s.bytesFor (b :: bits).length := by
      simp only [State.bytesFor, List.length_cons]; omega
    obtain ⟨u, hu, pu⟩ := putBit_bitsPut b s hs (by omega) h2
    have pu' := pu
    obtain ⟨e1, p1, b1, i1, m1⟩ := pu
    have hend : u.outEnd = s.outEnd := by rw [e1]
    have hsize : u.memSize = s.memSize := by rw [e1]; rfl
    have hlen : 8 * s.bytesFor 1 + (8 - u.bpFree) = 8 - s.bpFree + 1 := by
      have := congrArg List.length b1
      simpa [bitsOfBytes_length, State.heldBits_length] using this
    have hroom : u.bytesFor bits.length ≤ u.outRoom := by
      have := hs.2.1
      have := hs.1
      have := i1.1
      have := i1.2.1
      simp only [List.length_singleton] at p1
      simp only [State.outRoom, hend] at *
      simp only [State.bytesFor, List.length_cons] at *
      omega
    obtain ⟨t, ht, pt⟩ := ih u i1 hroom (by rw [hend, hsize]; exact h2)
    exact ⟨t, by simp only [putBitList, hu, Except.bind, ht], bitsPut_trans pu' pt⟩

/-! ### All that the packer's operations can do, whether or not there is room -/

theorem emitByte_ok {v : Byte} {s t : State} (h : emitByte v s = .ok t) :
    s.outPtr.toNat < s.outEnd.toNat ∧ s.outPtr.toNat < s.memSize
    ∧ t = { s.setByte s.outPtr.toNat v with outPtr := s.outPtr + 1 } := by
  unfold emitByte at h
  split at h
  · simp at h
  · cases hw : memWrite s.outPtr.toNat v s with
    | error e => simp [hw, Except.bind] at h
    | ok u =>
      obtain ⟨h1, rfl⟩ := memWrite_ok hw
      simp only [hw, Except.bind, Except.ok.injEq] at h
      exact ⟨by omega, h1, by rw [← h]; rfl⟩

/-- A stop of the packer's operations, when the stream lies in MEM, is a `raise`. -/
theorem emitByte_not_fault {v : Byte} {s : State} (h2 : s.outEnd.toNat ≤ s.memSize) (f : Fault) :
    emitByte v s ≠ .error (.fault f) := by
  by_cases h : s.outPtr.toNat < s.outEnd.toNat
  · simp [emitByte_of_room v s h h2]
  · have h' : s.outPtr.toNat ≥ s.outEnd.toNat := by omega
    simp [emitByte, h']

/-- All that `putBit` changes, when it comes to its end. -/
theorem putBit_frame {b : Bool} {s t : State} (h : putBit b s = .ok t) :
    t = { s with mem := t.mem, outPtr := t.outPtr, bpAcc := t.bpAcc, bpFree := t.bpFree } := by
  unfold putBit at h
  simp only at h
  split at h
  · cases he : emitByte (accWith s.bpAcc s.bpFree b) s with
    | error e => simp [he, Except.bind] at h
    | ok u =>
      obtain ⟨_, _, rfl⟩ := emitByte_ok he
      simp only [he, Except.bind, Except.ok.injEq] at h
      rw [← h]
      rfl
  · simp only [Except.ok.injEq] at h
    rw [← h]

theorem putBit_not_fault {b : Bool} {s : State} (h2 : s.outEnd.toNat ≤ s.memSize) (f : Fault) :
    putBit b s ≠ .error (.fault f) := by
  unfold putBit
  simp only
  split
  · cases he : emitByte (accWith s.bpAcc s.bpFree b) s with
    | error e =>
      intro hc
      simp only [Except.bind, Except.error.injEq] at hc
      exact emitByte_not_fault h2 f (by rw [he, hc])
    | ok u => simp [Except.bind]
  · simp

/-- All that `putBitList` changes, when it comes to its end. -/
theorem putBitList_frame {bits : List Bool} {s t : State} (h : putBitList bits s = .ok t) :
    t = { s with mem := t.mem, outPtr := t.outPtr, bpAcc := t.bpAcc, bpFree := t.bpFree } := by
  induction bits generalizing s with
  | nil => simp only [putBitList, Except.ok.injEq] at h; rw [h]
  | cons b bits ih =>
    simp only [putBitList] at h
    cases hp : putBit b s with
    | error e => simp [hp, Except.bind] at h
    | ok u =>
      simp only [hp, Except.bind] at h
      rw [ih h, putBit_frame hp]

theorem putBitList_not_fault {bits : List Bool} {s : State} (h2 : s.outEnd.toNat ≤ s.memSize) (f : Fault) :
    putBitList bits s ≠ .error (.fault f) := by
  induction bits generalizing s with
  | nil => simp [putBitList]
  | cons b bits ih =>
    cases hp : putBit b s with
    | error e =>
      intro hc
      simp only [putBitList, hp, Except.bind, Except.error.injEq] at hc
      exact putBit_not_fault h2 f (by rw [hp, hc])
    | ok u =>
      simp only [putBitList, hp, Except.bind]
      have hu := putBit_frame hp
      exact ih (by rw [hu]; exact h2)

/-! ### The bit reader -/

/-- The reader's part of the state after `get_bit` and the bit it returns (R132), when there is a bit to read. -/
theorem getBit_spec (s : State) (hl : s.brLeft ≤ 7) (h1 : 1 ≤ s.bitsAvail) (h2 : s.inEnd.toNat ≤ s.memSize) :
    ∃ b t, getBit s = .ok (b, t) ∧ s.unreadBits = b :: t.unreadBits ∧ t.brLeft ≤ 7 ∧ t.bitsAvail + 1 = s.bitsAvail
      ∧ t = { s with inPtr := t.inPtr, brAcc := t.brAcc, brLeft := t.brLeft } := by
  have hbit : ∀ acc < 256, ∀ left < 9, 1 ≤ left →
      (byteBits (BitVec.ofNat 8 acc)).drop (8 - left)
        = (BitVec.ofNat 8 acc).getLsbD (left - 1) :: (byteBits (BitVec.ofNat 8 acc)).drop (8 - (left - 1)) := by
    decide +kernel
  have hbit' : ∀ (acc : Byte) (left : Nat), 1 ≤ left → left ≤ 8 →
      (byteBits acc).drop (8 - left) = acc.getLsbD (left - 1) :: (byteBits acc).drop (8 - (left - 1)) := by
    intro acc left h1 h8
    simpa using hbit acc.toNat acc.isLt left (by omega) h1
  by_cases h0 : s.brLeft = 0
  · have hlt : s.inPtr.toNat < s.inEnd.toNat := by simp only [State.bitsAvail, h0] at h1; omega
    have hge : ¬ s.inPtr.toNat ≥ s.inEnd.toNat := by omega
    have hptr := word_succ_toNat _ _ hlt
    have hn : s.inEnd.toNat - s.inPtr.toNat = 1 + (s.inEnd.toNat - (s.inPtr.toNat + 1)) := by omega
    refine ⟨(s.byteAt s.inPtr.toNat).getLsbD 7, { s with brAcc := s.byteAt s.inPtr.toNat, inPtr := s.inPtr + 1, brLeft := 7 },
      ?_, ?_, by simp, ?_, rfl⟩
    · simp only [getBit, h0, if_true, fetchByte, hge, if_false, memRead_of_lt _ s (show s.inPtr.toNat < s.memSize by omega),
        Except.bind, takeBit]
    · simp only [State.unreadBits, h0, hptr, hn, State.bytesAt_append, bitsOfBytes_append]
      have h8 := hbit' (s.byteAt s.inPtr.toNat) 8 (by omega) (by omega)
      simp only [Nat.sub_self, List.drop_zero] at h8
      have hd : (byteBits s.brAcc).drop (8 - 0) = [] := List.drop_eq_nil_of_le (by simp)
      rw [hd]
      simp only [List.nil_append]
      simp only [State.bytesAt, List.range_one, List.map_cons, List.map_nil, Nat.add_zero, bitsOfBytes, List.flatMap_cons,
        List.flatMap_nil, List.append_nil]
      rw [h8]
      rfl
    · simp only [State.bitsAvail, h0, hptr]
      omega
  · refine ⟨s.brAcc.getLsbD (s.brLeft - 1), { s with brLeft := s.brLeft - 1 }, ?_, ?_, ?_, ?_, rfl⟩
    · simp only [getBit, h0, if_false, takeBit]
    · simp only [State.unreadBits]
      rw [hbit' s.brAcc s.brLeft (by omega) (by omega)]
      rfl
    · show s.brLeft - 1 ≤ 7
      omega
    · simp only [State.bitsAvail] at *
      omega

/-- Nothing read: nothing changed. -/
theorem bitsRead_zero (s : State) (hl : s.brLeft ≤ 7) (hp : s.inPtr.toNat ≤ s.inEnd.toNat) : bitsRead s 0 s :=
  ⟨rfl, Nat.le_refl _, hp, hl, by omega, by simp, by simp⟩

/-- Reading some bits and then some more is reading them together. -/
theorem bitsRead_trans {s u t : State} {m n : Nat} (h1 : bitsRead s m u) (h2 : bitsRead u n t) : bitsRead s (m + n) t := by
  obtain ⟨e1, p1, q1, l1, c1, a1, d1⟩ := h1
  obtain ⟨e2, p2, q2, l2, c2, a2, d2⟩ := h2
  have hend : u.inEnd = s.inEnd := by rw [e1]
  have hbyte : ∀ a, u.byteAt a = s.byteAt a := by
    intro a
    rw [e1]
    rfl
  refine ⟨by rw [e2, e1], by omega, by rw [hend] at q2; exact q2, l2, by omega, ?_, by rw [d2, d1, List.drop_drop]⟩
  rw [a2, a1]
  by_cases hu : t.inPtr = u.inPtr
  · rw [if_pos hu, hu]
  · have hlt : u.inPtr.toNat ≠ t.inPtr.toNat := fun h => hu (BitVec.eq_of_toNat_eq h.symm)
    have hs : t.inPtr ≠ s.inPtr := fun h => by rw [h] at p2 hlt; omega
    rw [if_neg hu, if_neg hs, hbyte]

/-- `get_bit` reads one bit (R132). -/
theorem getBit_bitsRead (s : State) (hl : s.brLeft ≤ 7) (h1 : 1 ≤ s.bitsAvail) (hp : s.inPtr.toNat ≤ s.inEnd.toNat)
    (h2 : s.inEnd.toNat ≤ s.memSize) : ∃ b t, getBit s = .ok (b, t) ∧ s.unreadBits = b :: t.unreadBits ∧ bitsRead s 1 t := by
  obtain ⟨b, t, ht, et, lt, at', ft⟩ := getBit_spec s hl h1 h2
  refine ⟨b, t, ht, et, ft, ?_⟩
  have hd : t.unreadBits = s.unreadBits.drop 1 := by rw [et]; rfl
  by_cases h0 : s.brLeft = 0
  · have hlt : s.inPtr.toNat < s.inEnd.toNat := by simp only [State.bitsAvail, h0] at h1; omega
    have hge : ¬ s.inPtr.toNat ≥ s.inEnd.toNat := by omega
    have hptr := word_succ_toNat _ _ hlt
    simp only [getBit, h0, if_true, fetchByte, hge, if_false, memRead_of_lt _ s (show s.inPtr.toNat < s.memSize by omega),
      Except.bind, takeBit, Except.ok.injEq, Prod.mk.injEq] at ht
    have hi : t.inPtr = s.inPtr + 1 := by rw [← ht.2]
    have ha : t.brAcc = s.byteAt s.inPtr.toNat := by rw [← ht.2]
    have hb : t.brLeft = 7 := by rw [← ht.2]
    have hne : t.inPtr ≠ s.inPtr := fun h => by rw [hi] at h; rw [h] at hptr; omega
    rw [hi, hb, ha, if_neg (by rw [← hi]; exact hne), hptr]
    exact ⟨by omega, by omega, by omega, by omega, by simp, hd⟩
  · simp only [getBit, h0, if_false, takeBit, Except.ok.injEq, Prod.mk.injEq] at ht
    have hi : t.inPtr = s.inPtr := by rw [← ht.2]
    have ha : t.brAcc = s.brAcc := by rw [← ht.2]
    have hb : t.brLeft = s.brLeft - 1 := by rw [← ht.2]
    rw [hi, hb, ha, if_pos rfl]
    exact ⟨Nat.le_refl _, hp, by omega, by omega, rfl, hd⟩

/-- All that `get_bit` changes, when it comes to its end. -/
theorem getBit_frame {s t : State} {b : Bool} (h : getBit s = .ok (b, t)) :
    t = { s with inPtr := t.inPtr, brAcc := t.brAcc, brLeft := t.brLeft } := by
  unfold getBit at h
  split at h
  · unfold fetchByte at h
    split at h
    · simp [Except.bind] at h
    · cases hr : memRead s.inPtr.toNat s with
      | error e => simp [hr, Except.bind] at h
      | ok v =>
        simp only [hr, Except.bind, takeBit, Except.ok.injEq, Prod.mk.injEq] at h
        rw [← h.2]
  · simp only [takeBit, Except.ok.injEq, Prod.mk.injEq] at h
    rw [← h.2]

theorem getBit_not_fault {s : State} (h2 : s.inEnd.toNat ≤ s.memSize) (f : Fault) : getBit s ≠ .error (.fault f) := by
  unfold getBit
  split
  · unfold fetchByte
    split
    · simp [Except.bind]
    · rw [memRead_of_lt _ s (by omega)]
      simp [Except.bind]
  · simp

/-- `get_bits` when there are bits enough (R132, R134): no `raise` of R133 is taken, the bits read are the first of the unread ones, and the value
is the number they spell. -/
theorem getBits_spec (n v : Nat) (s : State) (hl : s.brLeft ≤ 7) (h1 : n ≤ s.bitsAvail) (h2 : s.inEnd.toNat ≤ s.memSize) :
    ∃ t, getBits n v s = .ok ((s.unreadBits.take n).foldl (fun v b => 2 * v + b.toNat) v, t)
      ∧ t.unreadBits = s.unreadBits.drop n ∧ t.brLeft ≤ 7 ∧ t.bitsAvail + n = s.bitsAvail
      ∧ t = { s with inPtr := t.inPtr, brAcc := t.brAcc, brLeft := t.brLeft } := by
  induction n generalizing v s with
  | zero => exact ⟨s, by simp [getBits], by simp, hl, rfl, rfl⟩
  | succ n ih =>
    obtain ⟨b, u, hu, eu, lu, au, fu⟩ := getBit_spec s hl (by omega) h2
    have hend : u.inEnd = s.inEnd := by rw [fu]
    have hsize : u.memSize = s.memSize := by rw [fu]; rfl
    obtain ⟨t, ht, et, lt, at', ft⟩ := ih (2 * v + b.toNat) u lu (by omega) (by rw [hend, hsize]; exact h2)
    refine ⟨t, ?_, ?_, lt, by omega, by rw [ft, fu]⟩
    · simp only [getBits, hu, Except.bind, ht, eu, List.take_succ_cons, List.foldl_cons]
    · rw [et, eu, List.drop_succ_cons]

/-- `get_bits` reads `n` bits (R132), where there are as many. -/
theorem getBits_bitsRead (n v : Nat) (s : State) (hl : s.brLeft ≤ 7) (h1 : n ≤ s.bitsAvail) (hp : s.inPtr.toNat ≤ s.inEnd.toNat)
    (h2 : s.inEnd.toNat ≤ s.memSize) :
    ∃ t, getBits n v s = .ok ((s.unreadBits.take n).foldl (fun v b => 2 * v + b.toNat) v, t) ∧ bitsRead s n t := by
  induction n generalizing v s with
  | zero => exact ⟨s, by simp [getBits], bitsRead_zero s hl hp⟩
  | succ n ih =>
    obtain ⟨b, u, hu, eu, ru⟩ := getBit_bitsRead s hl (by omega) hp h2
    have ru' := ru
    obtain ⟨e1, p1, q1, l1, c1, a1, d1⟩ := ru
    have hend : u.inEnd = s.inEnd := by rw [e1]
    have hsize : u.memSize = s.memSize := by rw [e1]; rfl
    have hav : u.bitsAvail + 1 = s.bitsAvail := by
      simp only [State.bitsAvail, hend] at *
      omega
    obtain ⟨t, ht, rt⟩ := ih (2 * v + b.toNat) u l1 (by omega) (by rw [hend]; exact q1) (by rw [hend, hsize]; exact h2)
    refine ⟨t, ?_, by rw [Nat.add_comm]; exact bitsRead_trans ru' rt⟩
    simp only [getBits, hu, Except.bind, ht, eu, List.take_succ_cons, List.foldl_cons]

end Sys2Proof.Machine
end

