-- ==== Sys2Proof/Laws/Codebook.lean ====
section
/-! SUPPORT. HCB_READ (R181) read as a function of the bytes of the input stream: fetching bytes one after the other gives the bytes that stand there, so the
parse by `fetch_byte` is the parse of a list. -/

namespace Sys2Proof.Machine

/-- The parse of R181 on the bytes from IN_PTR to IN_END, with its checks in their order. The error is the reason r of `fail(r)`. -/
def parseCodebook : List Byte → Except Nat Codebook
  | [] => .error 1
  | b :: rest =>
    let l := b.toNat + 1
    let counts := (rest.take l).map BitVec.toNat
    let total := counts.sum
    let syms := (rest.drop l).take total
    if l > Config.codeLenMax then .error 2
    else if rest.length < l then .error 1
    else if total > 256 then .error 3
    else if (rest.drop l).length < total then .error 1
    else if kraftSum counts + 1 ≠ 2 ^ l then .error 4
    else .ok ⟨counts, syms.map BitVec.toNat⟩

/-- The bytes the input stream can still give. -/
def State.inBytes (s : State) : List Byte := s.bytesAt s.inPtr.toNat s.inRoom

@[simp] theorem State.inBytes_length (s : State) : s.inBytes.length = s.inRoom := by simp [State.inBytes, State.bytesAt]

/-- `t` is `s` with `n` bytes of its input stream fetched. -/
def fetched (s t : State) (n : Nat) : Prop :=
  t = { s with inPtr := s.inPtr + toWord n, brAcc := t.brAcc } ∧ t.inRoom = s.inRoom - n ∧ t.inBytes = s.inBytes.drop n

theorem fetched_zero (s : State) : fetched s s 0 := ⟨by simp [toWord], rfl, rfl⟩

theorem fetched_trans {s u t : State} {m n : Nat} (h1 : fetched s u m) (h2 : fetched u t n) : fetched s t (m + n) := by
  obtain ⟨e1, r1, b1⟩ := h1
  obtain ⟨e2, r2, b2⟩ := h2
  refine ⟨?_, by omega, by rw [b2, b1, List.drop_drop]⟩
  rw [e2, e1]
  simp [toWord, BitVec.ofNat_add, BitVec.add_assoc]

/-- One byte fetched, with a byte left (R133). -/
theorem fetchByte_ok (s : State) (h1 : 1 ≤ s.inRoom) (h2 : s.inEnd.toNat ≤ s.memSize) :
    ∃ t, fetchByte s = .ok t ∧ fetched s t 1 ∧ s.inBytes = t.brAcc :: t.inBytes := by
  have hlt : s.inPtr.toNat < s.inEnd.toNat := by simp only [State.inRoom] at h1; omega
  have hp := word_succ_toNat _ _ hlt
  have hm : s.inPtr.toNat < s.memSize := by omega
  have hr : s.inRoom = 1 + (s.inEnd.toNat - (s.inPtr + 1).toNat) := by simp only [State.inRoom]; omega
  have hb : s.inBytes = s.byteAt s.inPtr.toNat :: s.bytesAt (s.inPtr + 1).toNat (s.inEnd.toNat - (s.inPtr + 1).toNat) := by
    rw [State.inBytes, hr, State.bytesAt_append, hp]
    rfl
  refine ⟨{ s with brAcc := s.byteAt s.inPtr.toNat, inPtr := s.inPtr + 1 }, ?_, ⟨rfl, ?_, ?_⟩, hb⟩
  · have hn : ¬ s.inPtr.toNat ≥ s.inEnd.toNat := by omega
    simp only [fetchByte, hn, if_false, memRead_of_lt _ s hm, Except.bind]
  · rw [hr]
    simp only [State.inRoom]
    omega
  · rw [hb]
    rfl

/-- Bytes fetched one after the other are the next bytes of the stream (R13, R133). -/
theorem fetchBytes_ok (n : Nat) (s : State) (h1 : n ≤ s.inRoom) (h2 : s.inEnd.toNat ≤ s.memSize) :
    ∃ t, fetchBytes n s = .ok (s.inBytes.take n, t) ∧ fetched s t n := by
  induction n generalizing s with
  | zero => exact ⟨s, rfl, fetched_zero s⟩
  | succ n ih =>
    obtain ⟨u, hu, fu, bu⟩ := fetchByte_ok s (by omega) h2
    have hm : u.memSize = s.memSize := by rw [fu.1]; rfl
    have he : u.inEnd = s.inEnd := by rw [fu.1]
    have hr := fu.2.1
    obtain ⟨t, ht, ft⟩ := ih u (by omega) (by rw [hm, he]; exact h2)
    refine ⟨t, ?_, by simpa [Nat.add_comm] using fetched_trans fu ft⟩
    rw [bu]
    simp [fetchBytes, hu, ht, Except.bind, Except.map]

/-- The parse of HCB_READ is the parse of the bytes from IN_PTR to IN_END. -/
theorem fetchCodebook_eq (s : State) (h2 : s.inEnd.toNat ≤ s.memSize) :
    match parseCodebook s.inBytes with
    | .error r => fetchCodebook s = codebookFail r
    | .ok cb => ∃ t, fetchCodebook s = .ok (cb, t) ∧ t.inPtr = s.inPtr + toWord cb.size := by
  by_cases h1 : s.inRoom < 1
  · have : s.inBytes = [] := List.eq_nil_of_length_eq_zero (by simp; omega)
    simp [this, parseCodebook, fetchCodebook, h1]
  obtain ⟨u, hu, fu, bu⟩ := fetchByte_ok s (by omega) h2
  have hu2 : u.inEnd.toNat ≤ u.memSize := by rw [fu.1]; exact h2
  rw [bu]
  simp only [parseCodebook, fetchCodebook, h1, if_false, hu, Except.bind, State.inBytes_length]
  by_cases h3 : u.brAcc.toNat + 1 > Config.codeLenMax
  · simp only [h3, if_true]
  simp only [h3, if_false]
  by_cases h4 : u.inRoom < u.brAcc.toNat + 1
  · simp only [h4, if_true]
  simp only [h4, if_false]
  obtain ⟨v, hv, fv⟩ := fetchBytes_ok (u.brAcc.toNat + 1) u (by omega) hu2
  have hv2 : v.inEnd.toNat ≤ v.memSize := by rw [fv.1]; exact hu2
  rw [hv, ← fv.2.2, State.inBytes_length]
  simp only
  generalize hc : ((u.inBytes.take (u.brAcc.toNat + 1)).map BitVec.toNat) = counts
  have hl : counts.length = u.brAcc.toNat + 1 := by rw [← hc]; simp; omega
  by_cases h5 : counts.sum > 256
  · simp only [h5, if_true]
  simp only [h5, if_false]
  by_cases h6 : v.inRoom < counts.sum
  · simp only [h6, if_true]
  simp only [h6, if_false]
  obtain ⟨t, ht, ft⟩ := fetchBytes_ok counts.sum v (by omega) hv2
  rw [ht]
  simp only
  by_cases h7 : kraftSum counts + 1 ≠ 2 ^ (u.brAcc.toNat + 1)
  · rw [if_pos h7, if_pos h7]
  · rw [if_neg h7, if_neg h7]
    refine ⟨t, rfl, ?_⟩
    have hf := (fetched_trans (fetched_trans fu fv) ft).1
    have hs : ((v.inBytes.take counts.sum).map BitVec.toNat).length = counts.sum := by simp; omega
    rw [Codebook.size, Codebook.maxLen, hs, hl, hf]

/-- What the operation of HCB_READ does, said of the bytes of its stream (R181). -/
theorem readCodebook_eq (s : State) (h2 : s.inEnd.toNat ≤ s.memSize) :
    readCodebook s =
      match parseCodebook s.inBytes with
      | .error r => .error (.raise .codebook (toWord r))
      | .ok cb => .ok ⟨{ s.buildTables cb with inPtr := s.inPtr + toWord cb.size }, toWord cb.size, false⟩ := by
  have h := fetchCodebook_eq s h2
  cases hp : parseCodebook s.inBytes with
  | error r =>
    rw [hp] at h
    simp only at h
    rw [readCodebook, h]
    rfl
  | ok cb =>
    rw [hp] at h
    obtain ⟨t, ht, hi⟩ := h
    rw [readCodebook, ht]
    simp only [Except.map, hi]

end Sys2Proof.Machine
end

