-- ==== Sys2Proof/Laws/Commands.lean ====
section
/-! SUPPORT. The loops of the commands: all that each can change, that none accesses MEM outside its checked regions, and that the decoder
always reaches a symbol when there are bits enough. -/

namespace Sys2Proof.Machine

/-! ### Bytes emitted to the output stream -/

theorem emitBytes_frame {vs : List Byte} {s t : State} (h : emitBytes vs s = .ok t) :
    t = { s with mem := t.mem, outPtr := t.outPtr } := by
  induction vs generalizing s with
  | nil => simp only [emitBytes, Except.ok.injEq] at h; rw [h]
  | cons v vs ih =>
    simp only [emitBytes] at h
    cases he : emitByte v s with
    | error e => simp [he, Except.bind] at h
    | ok u =>
      simp only [he, Except.bind] at h
      obtain ⟨_, _, rfl⟩ := emitByte_ok he
      rw [ih h]
      rfl

theorem emitBytes_not_fault {vs : List Byte} {s : State} (h2 : s.outEnd.toNat ≤ s.memSize) (f : Fault) :
    emitBytes vs s ≠ .error (.fault f) := by
  induction vs generalizing s with
  | nil => simp [emitBytes]
  | cons v vs ih =>
    cases he : emitByte v s with
    | error e =>
      intro hc
      simp only [emitBytes, he, Except.bind, Except.error.injEq] at hc
      exact emitByte_not_fault h2 f (by rw [he, hc])
    | ok u =>
      simp only [emitBytes, he, Except.bind]
      obtain ⟨_, _, rfl⟩ := emitByte_ok he
      exact ih h2

/-- With room for all of them the bytes are written from OUT_PTR on, and OUT_PTR moves past them (R131). -/
theorem emitBytes_of_room (vs : List Byte) (s : State) (h1 : vs.length ≤ s.outRoom) (hp : s.outPtr.toNat ≤ s.outEnd.toNat)
    (h2 : s.outEnd.toNat ≤ s.memSize) :
    ∃ t, emitBytes vs s = .ok t ∧ t.outPtr.toNat = s.outPtr.toNat + vs.length
      ∧ t.bytesAt s.outPtr.toNat vs.length = vs
      ∧ ∀ a, ¬ (s.outPtr.toNat ≤ a ∧ a < s.outPtr.toNat + vs.length) → t.byteAt a = s.byteAt a := by
  induction vs generalizing s with
  | nil => exact ⟨s, rfl, rfl, by simp [State.bytesAt], fun _ _ => rfl⟩
  | cons v vs ih =>
    simp only [List.length_cons, State.outRoom] at h1
    have hlt : s.outPtr.toNat < s.outEnd.toNat := by omega
    have hptr := word_succ_toNat _ _ hlt
    let u : State := { s.setByte s.outPtr.toNat v with outPtr := s.outPtr + 1 }
    have hu : u.outPtr.toNat = s.outPtr.toNat + 1 := hptr
    have hue : u.outEnd = s.outEnd := rfl
    obtain ⟨t, ht, pt, bt, mt⟩ := ih u (by simp only [State.outRoom, hu, hue]; omega) (by rw [hu, hue]; omega) h2
    refine ⟨t, ?_, by simp only [List.length_cons]; omega, ?_, fun a ha => ?_⟩
    · simp only [emitBytes, emitByte_of_room v s hlt h2, Except.bind]
      exact ht
    · rw [List.length_cons, Nat.add_comm, State.bytesAt_append, ← hu, bt]
      have : t.byteAt s.outPtr.toNat = v := by
        rw [mt _ (by omega)]
        exact State.byteAt_setByte_self s _ v
      simp [State.bytesAt, this]
    · simp only [List.length_cons] at ha
      rw [mt a (by omega)]
      exact State.byteAt_setByte_ne s _ v a (by omega)

/-! ### The encoder's loop (R159) -/

theorem encodeBytes_frame {bs : List Byte} {n m : Nat} {s t : State} (h : encodeBytes bs n s = .ok (t, m)) :
    t = { s with mem := t.mem, outPtr := t.outPtr, bpAcc := t.bpAcc, bpFree := t.bpFree } := by
  induction bs generalizing n s with
  | nil => simp only [encodeBytes, Except.ok.injEq, Prod.mk.injEq] at h; rw [h.1]
  | cons b bs ih =>
    simp only [encodeBytes] at h
    split at h
    · simp at h
    · cases hp : putBits (tableGet s.codeVal b.toNat).toNat (tableGet s.codeLen b.toNat) s with
      | error e => simp [hp, Except.bind] at h
      | ok u =>
        simp only [hp, Except.bind] at h
        rw [ih h, putBitList_frame hp]

theorem encodeBytes_not_fault {bs : List Byte} {n : Nat} {s : State} (h2 : s.outEnd.toNat ≤ s.memSize) (f : Fault) :
    encodeBytes bs n s ≠ .error (.fault f) := by
  induction bs generalizing n s with
  | nil => simp [encodeBytes]
  | cons b bs ih =>
    simp only [encodeBytes]
    split
    · simp
    · cases hp : putBits (tableGet s.codeVal b.toNat).toNat (tableGet s.codeLen b.toNat) s with
      | error e =>
        intro hc
        simp only [Except.bind, Except.error.injEq] at hc
        exact putBitList_not_fault h2 f (show putBits _ _ s = _ by rw [hp, hc])
      | ok u =>
        simp only [Except.bind]
        have hu := putBitList_frame hp
        exact ih (by rw [hu]; exact h2)

/-! ### The decoder's loops (R183, R185) -/

theorem decodeFrom_frame {more cv len sym : Nat} {s t : State} (h : decodeFrom more cv len s = .ok (sym, t)) :
    t = { s with inPtr := t.inPtr, brAcc := t.brAcc, brLeft := t.brLeft } := by
  induction more generalizing cv len s with
  | zero =>
    simp only [decodeFrom] at h
    cases hg : getBit s with
    | error e => simp [hg, Except.bind] at h
    | ok p =>
      simp only [hg, Except.bind, Except.ok.injEq, Prod.mk.injEq] at h
      rw [← h.2]
      exact getBit_frame hg
  | succ more ih =>
    simp only [decodeFrom] at h
    cases hg : getBit s with
    | error e => simp [hg, Except.bind] at h
    | ok p =>
      obtain ⟨b, u⟩ := p
      have hu := getBit_frame hg
      simp only [hg, Except.bind] at h
      split at h
      · simp only [Except.ok.injEq, Prod.mk.injEq] at h
        rw [← h.2]
        exact hu
      · rw [ih h, hu]

theorem decodeFrom_not_fault {more cv len : Nat} {s : State} (h2 : s.inEnd.toNat ≤ s.memSize) (f : Fault) :
    decodeFrom more cv len s ≠ .error (.fault f) := by
  induction more generalizing cv len s with
  | zero =>
    simp only [decodeFrom]
    cases hg : getBit s with
    | error e =>
      intro hc
      simp only [Except.bind, Except.error.injEq] at hc
      exact getBit_not_fault h2 f (by rw [hg, hc])
    | ok p => simp [Except.bind]
  | succ more ih =>
    simp only [decodeFrom]
    cases hg : getBit s with
    | error e =>
      intro hc
      simp only [Except.bind, Except.error.injEq] at hc
      exact getBit_not_fault h2 f (by rw [hg, hc])
    | ok p =>
      obtain ⟨b, u⟩ := p
      have hu := getBit_frame hg
      simp only [Except.bind]
      split
      · simp
      · exact ih (by rw [hu]; exact h2)

/-- The decoder reads a symbol whenever the stream has as many bits as the longest code (R183, R188). -/
theorem decodeFrom_of_bits (more cv len : Nat) (s : State) (hl : s.brLeft ≤ 7) (h1 : more + 1 ≤ s.bitsAvail)
    (h2 : s.inEnd.toNat ≤ s.memSize) :
    ∃ sym t, decodeFrom more cv len s = .ok (sym, t) ∧ t.brLeft ≤ 7 ∧ t.bitsAvail < s.bitsAvail := by
  induction more generalizing cv len s with
  | zero =>
    obtain ⟨b, u, hu, _, lu, au, _⟩ := getBit_spec s hl h1 h2
    exact ⟨symbolOf u (2 * cv + b.toNat) (len + 1), u, by simp only [decodeFrom, hu, Except.bind], lu, by omega⟩
  | succ more ih =>
    obtain ⟨b, u, hu, _, lu, au, fu⟩ := getBit_spec s hl (by omega) h2
    by_cases hc : 2 * (2 * cv + b.toNat) < u.firstCode (len + 2)
    · exact ⟨symbolOf u (2 * cv + b.toNat) (len + 1), u, by simp only [decodeFrom, hu, Except.bind, hc, if_true], lu, by omega⟩
    · have hend : u.inEnd = s.inEnd := by rw [fu]
      have hsize : u.memSize = s.memSize := by rw [fu]; rfl
      obtain ⟨sym, t, ht, lt, at'⟩ := ih (2 * cv + b.toNat) (len + 1) u lu (by omega) (by rw [hend, hsize]; exact h2)
      exact ⟨sym, t, by simp only [decodeFrom, hu, Except.bind, hc, if_false, ht], lt, by omega⟩

theorem decodeLoop_frame {limit : Option Nat} {turns k : Nat} {s : State} {d : Finished}
    (h : decodeLoop limit turns k s = .ok d) :
    d.st = { s with mem := d.st.mem, inPtr := d.st.inPtr, brAcc := d.st.brAcc, brLeft := d.st.brLeft } := by
  induction turns generalizing k s with
  | zero => simp [decodeLoop] at h
  | succ turns ih =>
    simp only [decodeLoop] at h
    split at h
    · simp only [Except.ok.injEq] at h; rw [← h]
    · cases hg : decodeSymbol s with
      | error e => simp [hg, Except.bind] at h
      | ok p =>
        obtain ⟨sym, u⟩ := p
        have hu := decodeFrom_frame hg
        simp only [hg, Except.bind] at h
        split at h
        · simp only [Except.ok.injEq] at h
          rw [← h]
          show u = { s with mem := u.mem, inPtr := u.inPtr, brAcc := u.brAcc, brLeft := u.brLeft }
          rw [hu]
        · split at h
          · simp at h
          · cases hw : memWrite (u.dst.toNat + k) (toByte sym) u with
            | error e => simp [hw] at h
            | ok v =>
              simp only [hw] at h
              obtain ⟨_, rfl⟩ := memWrite_ok hw
              rw [ih h]
              rw [hu]
              rfl

theorem decodeLoop_not_fault {limit : Option Nat} {turns k : Nat} {s : State} (h2 : s.inEnd.toNat ≤ s.memSize)
    (h3 : s.dst.toNat + s.dstCap.toNat ≤ s.memSize) (hk : k ≤ s.dstCap.toNat) (f : Fault) :
    decodeLoop limit turns k s ≠ .error (.fault f) := by
  induction turns generalizing k s with
  | zero => simp [decodeLoop]
  | succ turns ih =>
    simp only [decodeLoop]
    split
    · simp
    · cases hg : decodeSymbol s with
      | error e =>
        intro hc
        simp only [Except.bind, Except.error.injEq] at hc
        exact decodeFrom_not_fault h2 f (show decodeSymbol s = _ by rw [hg, hc])
      | ok p =>
        obtain ⟨sym, u⟩ := p
        have hu := decodeFrom_frame hg
        have e1 : u.dst = s.dst := by rw [hu]
        have e2 : u.dstCap = s.dstCap := by rw [hu]
        have e3 : u.memSize = s.memSize := by rw [hu]; rfl
        have e4 : u.inEnd = s.inEnd := by rw [hu]
        simp only [Except.bind]
        split
        · simp
        · split
          · simp
          · rename_i hne
            rw [e2] at hne
            have hlt : u.dst.toNat + k < u.memSize := by rw [e1, e3]; omega
            simp only [memWrite_of_lt _ (toByte sym) u hlt]
            refine ih ?_ ?_ ?_
            · rw [State.setByte_inEnd, State.setByte_memSize, e4, e3]; exact h2
            · rw [State.setByte_dst, State.setByte_dstCap, State.setByte_memSize, e1, e2, e3]; exact h3
            · rw [State.setByte_dstCap, e2]; omega

/-! ### The tile's loops (R233, R234) -/

theorem loadPositions_of_lt (s : State) (ps : List (Nat × Nat)) (tile : Vector Byte 256)
    (h : ∀ p ∈ ps, s.sampleAddr p.1 p.2 < s.memSize) :
    loadPositions s ps tile = .ok (ps.foldl (fun tl p => setPos tl p (s.byteAt (s.sampleAddr p.1 p.2))) tile) := by
  induction ps generalizing tile with
  | nil => rfl
  | cons p ps ih =>
    simp only [loadPositions, memRead_of_lt _ s (h p (by simp)), Except.bind, List.foldl_cons]
    exact ih _ fun q hq => h q (List.mem_cons_of_mem _ hq)

theorem storePositions_frame {ps : List (Nat × Nat)} {s t : State} (h : storePositions ps s = .ok t) :
    t = { s with mem := t.mem } := by
  induction ps generalizing s with
  | nil => simp only [storePositions, Except.ok.injEq] at h; rw [h]
  | cons p ps ih =>
    simp only [storePositions] at h
    cases hw : memWrite (s.sampleAddr p.1 p.2) (tableGet s.tile (tileIndex p)) s with
    | error e => simp [hw, Except.bind] at h
    | ok u =>
      simp only [hw, Except.bind] at h
      obtain ⟨_, rfl⟩ := memWrite_ok hw
      rw [ih h]
      rfl

theorem storePositions_of_lt (ps : List (Nat × Nat)) (s : State) (h : ∀ p ∈ ps, s.sampleAddr p.1 p.2 < s.memSize) :
    ∃ t, storePositions ps s = .ok t := by
  induction ps generalizing s with
  | nil => exact ⟨s, rfl⟩
  | cons p ps ih =>
    simp only [storePositions, memWrite_of_lt _ _ s (h p (by simp)), Except.bind]
    exact ih _ fun q hq => h q (List.mem_cons_of_mem _ hq)

/-! ### The longest outputs (R200, R201) -/

@[simp] theorem deltaEncode_length (prev : Byte) (bs : List Byte) : (deltaEncode prev bs).length = bs.length := by
  induction bs generalizing prev with
  | nil => rfl
  | cons b bs ih => simp [deltaEncode, ih]

@[simp] theorem deltaDecode_length (prev : Byte) (bs : List Byte) : (deltaDecode prev bs).length = bs.length := by
  induction bs generalizing prev with
  | nil => rfl
  | cons b bs ih => simp [deltaDecode, ih]

end Sys2Proof.Machine
end

