-- ==== Sys2Proof/Laws/PerInstr.lean ====
section
/-! SUPPORT. The statements made per instruction, with one lemma per constructor. -/

namespace Sys2Proof.Laws.Encoding

/-- A command is well formed, its word carries its opcode, its flag and zero bits 63:9, and decoding that word gives the command back (R100, R102). -/
def Statement (i : Instr) : Prop :=
  i.wf = true ∧ fieldsOf (encode i) = i.fields ∧ decode (encode i) = .ok i

theorem nop : Statement .nop := ⟨rfl, rfl, rfl⟩

theorem bpClear : Statement .bpClear := ⟨rfl, rfl, rfl⟩

theorem bpPut : Statement .bpPut := ⟨rfl, rfl, rfl⟩

theorem bpFlush : Statement .bpFlush := ⟨rfl, rfl, rfl⟩

theorem brAlign : Statement .brAlign := ⟨rfl, rfl, rfl⟩

theorem brGet : Statement .brGet := ⟨rfl, rfl, rfl⟩

theorem hfreqClr : Statement .hfreqClr := ⟨rfl, rfl, rfl⟩

theorem hfreqAdd : Statement .hfreqAdd := ⟨rfl, rfl, rfl⟩

theorem hbuild : Statement .hbuild := ⟨rfl, rfl, rfl⟩

theorem hcbWrite : Statement .hcbWrite := ⟨rfl, rfl, rfl⟩

theorem henc : Statement .henc := ⟨rfl, rfl, rfl⟩

theorem hencEob : Statement .hencEob := ⟨rfl, rfl, rfl⟩

theorem hcbRead : Statement .hcbRead := ⟨rfl, rfl, rfl⟩

theorem hdec (f : Bool) : Statement (.hdec f) := by
  cases f <;> exact ⟨rfl, rfl, rfl⟩

theorem hdecSym : Statement .hdecSym := ⟨rfl, rfl, rfl⟩

theorem deltaEnc : Statement .deltaEnc := ⟨rfl, rfl, rfl⟩

theorem deltaDec : Statement .deltaDec := ⟨rfl, rfl, rfl⟩

theorem rleMark : Statement .rleMark := ⟨rfl, rfl, rfl⟩

theorem rleEnc : Statement .rleEnc := ⟨rfl, rfl, rfl⟩

theorem rleDec : Statement .rleDec := ⟨rfl, rfl, rfl⟩

theorem geom : Statement .geom := ⟨rfl, rfl, rfl⟩

theorem tileLoad : Statement .tileLoad := ⟨rfl, rfl, rfl⟩

theorem tileStore : Statement .tileStore := ⟨rfl, rfl, rfl⟩

theorem tileSer (f : Bool) : Statement (.tileSer f) := by
  cases f <;> exact ⟨rfl, rfl, rfl⟩

theorem tileDeser (f : Bool) : Statement (.tileDeser f) := by
  cases f <;> exact ⟨rfl, rfl, rfl⟩

end Sys2Proof.Laws.Encoding
end

