-- ==== Sys2Proof/Laws/Step.lean ====
section
/-! SUPPORT. What a step, the engine's turn and a host access can do, said once. -/

namespace Sys2Proof.Machine

/-- The state with these moves still to come. -/
def State.withEvents (s : State) (es : List Event) : State := { s with events := es }

theorem step_of_no_events (s : State) (h : s.events = []) : step s = engineTurn s := by
  simp [step, takeTurn, h]

theorem step_of_engine (s : State) (rest : List Event) (h : s.events = .engine :: rest) :
    step s = engineTurn (s.withEvents rest) := by
  simp [step, takeTurn, h, State.withEvents]

theorem step_of_host (s : State) (a : Access) (rest : List Event) (h : s.events = .host a :: rest) :
    step s = hostAccess a (s.withEvents rest) := by
  simp [step, takeTurn, h, State.withEvents]

theorem step_of_bus (s : State) (b : BusAccess) (rest : List Event) (h : s.events = .bus b :: rest) :
    step s = busAccess b (s.withEvents rest) := by
  simp [step, takeTurn, h, State.withEvents]

theorem step_of_check (s : State) (rest : List Event) (h : s.events = .check :: rest) :
    step s = .next (s.withEvents rest).hostCheck := by
  simp [step, takeTurn, h, State.withEvents]

/-- A `check` is a read of STATUS, and records whether it showed ERR. -/
theorem hostCheck_eq (s : State) :
    ∃ t, hostAccess (.regRead 8 0x010) s = .next t
      ∧ s.hostCheck = { t with checkFailed := s.checkFailed || t.portData.getLsbD 2 } :=
  ⟨s.hostReadReg 0x010, by simp [hostAccess, regAdmitted], rfl⟩

/-- An access at an address of the platform is an access of one port, or is refused. -/
theorem busAccess_cases (b : BusAccess) (s : State) :
    (∃ a, s.route b = some a ∧ busAccess b s = hostAccess a s)
    ∨ (s.route b = none ∧ busAccess b s = .refused (.noPort b.width b.addr)) := by
  unfold busAccess
  cases h : s.route b with
  | some a => exact .inl ⟨a, rfl, rfl⟩
  | none => exact .inr ⟨rfl, rfl⟩

/-- A step that answers a next state is the engine's turn, one host access or a `check`, in the state with the move taken off. -/
theorem step_cases {s t : State} (hn : step s = .next t) :
    ∃ rest, engineTurn (s.withEvents rest) = .next t ∨ (∃ a, hostAccess a (s.withEvents rest) = .next t)
      ∨ t = (s.withEvents rest).hostCheck := by
  cases h : s.events with
  | nil =>
    refine ⟨[], .inl ?_⟩
    rw [← hn, step_of_no_events s h]
    simp [State.withEvents, ← h]
  | cons e rest =>
    cases e with
    | engine => exact ⟨rest, .inl (by rw [← step_of_engine s rest h, hn])⟩
    | host a => exact ⟨rest, .inr (.inl ⟨a, by rw [← step_of_host s a rest h, hn]⟩)⟩
    | check =>
      rw [step_of_check s rest h] at hn
      cases hn
      exact ⟨rest, .inr (.inr rfl)⟩
    | bus b =>
      rw [step_of_bus s b rest h] at hn
      rcases busAccess_cases b (s.withEvents rest) with ⟨a, _, ha⟩ | ⟨_, ha⟩
      · exact ⟨rest, .inr (.inl ⟨a, by rw [← ha, hn]⟩)⟩
      · rw [ha] at hn
        cases hn

/-- The engine's turn idles, executes a legal command, or completes an illegal word with ERR_ILLEGAL (R106, R109, R276). -/
theorem engineTurn_cases (s : State) :
    (s.pending = none ∧ engineTurn s = .next s)
    ∨ (∃ w i, s.pending = some w ∧ decode w = .ok i ∧ engineTurn s = exec i s)
    ∨ ∃ w e, s.pending = some w ∧ decode w = .error e ∧ engineTurn s = .next (s.fail .illegal w) := by
  cases hp : s.pending with
  | none => exact .inl ⟨rfl, by simp [engineTurn, hp]⟩
  | some w =>
    cases hd : decode w with
    | ok i => exact .inr (.inl ⟨w, i, rfl, hd, by simp [engineTurn, hp, executeWord, hd]⟩)
    | error e => exact .inr (.inr ⟨w, e, rfl, hd, by simp [engineTurn, hp, executeWord, hd]⟩)

/-- A register-port write that answers a next state: a write to CTRL, to STATUS, one that is ignored, one that is dropped, an acceptance, or a store. -/
theorem hostWriteReg_cases (s : State) (o : Nat) (v : Word) :
    (o = 0x008 ∧ s.hostWriteReg o v = s.writeCtrl v)
    ∨ (o = 0x010 ∧ s.hostWriteReg o v = s.writeStatus v)
    ∨ (0x0F8 ≤ o ∧ s.hostWriteReg o v = s)
    ∨ (s.busy = true ∧ s.hostWriteReg o v = s.dropWrite)
    ∨ (s.busy = false ∧ o = 0x018 ∧ s.hostWriteReg o v = s.accept v)
    ∨ (s.busy = false ∧ s.hostWriteReg o v = s.storeReg o v) := by
  unfold State.hostWriteReg reservedOffset
  by_cases h1 : o = 0x008
  · exact .inl ⟨h1, by rw [if_pos h1]⟩
  by_cases h2 : o = 0x010
  · exact .inr (.inl ⟨h2, by rw [if_neg h1, if_pos h2]⟩)
  by_cases h3 : 0x0F8 ≤ o
  · exact .inr (.inr (.inl ⟨h3, by rw [if_neg h1, if_neg h2, if_pos (by simpa using h3)]⟩))
  by_cases h4 : s.busy = true
  · exact .inr (.inr (.inr (.inl ⟨h4, by rw [if_neg h1, if_neg h2, if_neg (by simpa using h3), if_pos h4]⟩)))
  by_cases h5 : o = 0x018
  · exact .inr (.inr (.inr (.inr (.inl ⟨by simpa using h4, h5, by
      rw [if_neg h1, if_neg h2, if_neg (by simpa using h3), if_neg h4, if_pos h5]⟩))))
  · exact .inr (.inr (.inr (.inr (.inr ⟨by simpa using h4, by
      rw [if_neg h1, if_neg h2, if_neg (by simpa using h3), if_neg h4, if_neg h5]⟩))))

/-- An ignored, RO or RW register write with BUSY = 0 changes no field but the registers of the map that the host writes. -/
theorem storeReg_frame (s : State) (o : Nat) (v : Word) :
    ∃ src srcLen dst dstCap argN argVal limit outPtr outEnd inPtr inEnd : Word, ∃ marker : Byte,
      ∃ imgBase imgSize imgWidth tileX tileY tblIdx : Word, ∃ tw th tk : BitVec 5, ∃ tblSel : BitVec 4,
      s.storeReg o v = { s with
        src := src, srcLen := srcLen, dst := dst, dstCap := dstCap, argN := argN, argVal := argVal, limit := limit
        outPtr := outPtr, outEnd := outEnd, inPtr := inPtr, inEnd := inEnd, marker := marker
        imgBase := imgBase, imgSize := imgSize, imgWidth := imgWidth, tileX := tileX, tileY := tileY
        tw := tw, th := th, tk := tk, tblSel := tblSel, tblIdx := tblIdx } := by
  unfold State.storeReg
  split <;> exact ⟨_, _, _, _, _, _, _, _, _, _, _, _, _, _, _, _, _, _, _, _, _, _, rfl⟩

/-- A host access that answers a next state is one its port admits, and is one of the four. -/
theorem hostAccess_cases (a : Access) (s t : State) (h : hostAccess a s = .next t) :
    (∃ w o, a = .regRead w o ∧ regAdmitted w o = true ∧ t = s.hostReadReg o)
    ∨ (∃ w o v, a = .regWrite w o v ∧ regAdmitted w o = true ∧ t = s.hostWriteReg o v)
    ∨ (∃ w b, a = .memRead w b ∧ memAdmitted s.memSize w b = true ∧ t = s.hostReadMem w b)
    ∨ ∃ w b v, a = .memWrite w b v ∧ memAdmitted s.memSize w b = true ∧ t = s.hostWriteMem w b v := by
  cases a with
  | regRead w o =>
    by_cases hc : regAdmitted w o = true
    · rw [hostAccess, if_pos hc] at h
      exact .inl ⟨w, o, rfl, hc, by simpa using h.symm⟩
    · rw [hostAccess, if_neg hc] at h
      cases h
  | regWrite w o v =>
    by_cases hc : regAdmitted w o = true
    · rw [hostAccess, if_pos hc] at h
      exact .inr (.inl ⟨w, o, v, rfl, hc, by simpa using h.symm⟩)
    · rw [hostAccess, if_neg hc] at h
      cases h
  | memRead w b =>
    by_cases hc : memAdmitted s.memSize w b = true
    · rw [hostAccess, if_pos hc] at h
      exact .inr (.inr (.inl ⟨w, b, rfl, hc, by simpa using h.symm⟩))
    · rw [hostAccess, if_neg hc] at h
      cases h
  | memWrite w b v =>
    by_cases hc : memAdmitted s.memSize w b = true
    · rw [hostAccess, if_pos hc] at h
      exact .inr (.inr (.inr ⟨w, b, v, rfl, hc, by simpa using h.symm⟩))
    · rw [hostAccess, if_neg hc] at h
      cases h

end Sys2Proof.Machine
end

