-- ==== Sys2Proof/Tests/Slice0.lean ====
section
/-! SUPPORT. The model's own tests. Decoding: words written out from spec/30_encoding.md R100 and R102. Commands: one step each, with expected values
from the examples of the rules (spec/40 to 45) and from spec/95_test_vectors.md. Witnesses: for each statement of
Certificates/Slice0/Obligations.lean that has hypotheses, a concrete state and operands that meet them. -/

namespace Sys2Proof.Tests

open Sys2Proof Sys2Proof.Machine

-- Each theorem below is a kernel evaluation; checked one after the other they need one thread.
set_option Elab.async false

/-- The result is a next state that passes a check. -/
def after (r : Result) (p : State → Bool) : Bool :=
  match r with
  | .next t => p t
  | .fault _ => false
  | .refused _ => false

/-- Bytes listed at consecutive addresses. -/
def cells (a : Nat) : List Nat → Memory
  | [] => []
  | v :: vs => (a, toByte v) :: cells (a + 1) vs

/-- A table with these entries and 0 elsewhere. -/
def sparse {α : Type} (n : Nat) (zero : α) (entries : List (Nat × α)) : Vector α n :=
  tabulate n fun i => (entries.lookup i).getD zero

/-- The state after reset with TILE all 0, so that all of it is known but MEM. -/
def base : State := { State.reset with tile := zeroTile }

/-- The code of R153's example: a:1, b:2, EOB:2 with codes 0, 10, 11. -/
def coded : State :=
  { base with
    encValid := true
    encMaxlen := 2
    codeLen := sparse 257 0 [(97, 1), (98, 2), (256, 2)]
    codeVal := sparse 257 0 [(98, 2), (256, 3)] }

/-- The decoder tables of R181's example: L = 2, counts 1 and 1, symbols a and b, then EOB (R182). -/
def decoding : State :=
  { base with
    decValid := true
    decMaxlen := 2
    decCnt := sparse 64 0 [(0, 1), (1, 2)]
    decFirstCode := sparse 64 0 [(1, 2)]
    decFirstSym := sparse 64 0 [(1, 1)]
    decAlpha := sparse 257 0 [(0, 97), (1, 98), (2, 256)] }

/-- The decoding state with one byte of input at 0x100 and a destination at 0x300. -/
def decodingAt (v cap : Nat) : State :=
  { decoding with inPtr := 0x100, inEnd := 0x101, dst := 0x300, dstCap := toWord cap, mem := cells 0x100 [v] }

/-- A state with a source region of these bytes at 0x100 and a destination at 0x200. -/
def sourced (bs : List Nat) (cap : Nat) : State :=
  { base with src := 0x100, srcLen := toWord bs.length, dst := 0x200, dstCap := toWord cap, mem := cells 0x100 bs }

/-- A state with an output stream of `n` bytes at 0x200, the packer at this cursor. -/
def streamed (s : State) (n acc free : Nat) : State :=
  { s with outPtr := 0x200, outEnd := toWord (0x200 + n), bpAcc := toByte acc, bpFree := free }

/-- R233's example: an image of the 5 samples `a b c d e` at 0x100 of width 3, its tile 0 current: TW = 3, TH = 2, TK = 2. -/
def imaged : State :=
  { base with imgBase := 0x100, imgSize := 5, imgWidth := 3, tw := 3, th := 2, tk := 2, mem := cells 0x100 [97, 98, 99, 100, 101] }

/-- TILE of R233's example: rows `a b c` and `d e 0`. -/
def tiled : State :=
  { imaged with tile := sparse 256 0 [(0, 97), (1, 98), (2, 99), (16, 100), (17, 101)] }

/-- A busy state: a word accepted from reset and not executed yet. -/
def busyWith (w : Word) : State := base.accept w

/-! ### Well-formedness and decoding -/

theorem test_reserved_bit_is_ill_formed : (⟨0x29, false, 1⟩ : CmdFields).rsvZero = false := by decide
theorem test_unknown_op_is_ill_formed : (⟨0x13, false, 0⟩ : CmdFields).opKnown = false := by decide
theorem test_flag_on_nop_is_ill_formed : (⟨0x00, true, 0⟩ : CmdFields).flagAdmitted = false := by decide
theorem test_ill_formed_fields_are_refused :
    (⟨0x29, false, 1⟩ : CmdFields).wf = false ∧ (⟨0x13, false, 0⟩ : CmdFields).wf = false
    ∧ (⟨0x00, true, 0⟩ : CmdFields).wf = false ∧ (⟨0x29, true, 0⟩ : CmdFields).wf = true := by decide

theorem test_decode_0x00 : decode 0x0000000000000000 = .ok .nop := rfl
theorem test_decode_0x10 : decode 0x0000000000000010 = .ok .bpClear := rfl
theorem test_decode_0x11 : decode 0x0000000000000011 = .ok .bpPut := rfl
theorem test_decode_0x12 : decode 0x0000000000000012 = .ok .bpFlush := rfl
theorem test_decode_0x18 : decode 0x0000000000000018 = .ok .brAlign := rfl
theorem test_decode_0x19 : decode 0x0000000000000019 = .ok .brGet := rfl
theorem test_decode_0x20 : decode 0x0000000000000020 = .ok .hfreqClr := rfl
theorem test_decode_0x21 : decode 0x0000000000000021 = .ok .hfreqAdd := rfl
theorem test_decode_0x22 : decode 0x0000000000000022 = .ok .hbuild := rfl
theorem test_decode_0x23 : decode 0x0000000000000023 = .ok .hcbWrite := rfl
theorem test_decode_0x24 : decode 0x0000000000000024 = .ok .henc := rfl
theorem test_decode_0x25 : decode 0x0000000000000025 = .ok .hencEob := rfl
theorem test_decode_0x28 : decode 0x0000000000000028 = .ok .hcbRead := rfl
theorem test_decode_0x29 : decode 0x0000000000000029 = .ok (.hdec false) := rfl
theorem test_decode_0x129 : decode 0x0000000000000129 = .ok (.hdec true) := rfl
theorem test_decode_0x2A : decode 0x000000000000002A = .ok .hdecSym := rfl
theorem test_decode_0x30 : decode 0x0000000000000030 = .ok .deltaEnc := rfl
theorem test_decode_0x31 : decode 0x0000000000000031 = .ok .deltaDec := rfl
theorem test_decode_0x38 : decode 0x0000000000000038 = .ok .rleMark := rfl
theorem test_decode_0x39 : decode 0x0000000000000039 = .ok .rleEnc := rfl
theorem test_decode_0x3A : decode 0x000000000000003A = .ok .rleDec := rfl
theorem test_decode_0x40 : decode 0x0000000000000040 = .ok .geom := rfl
theorem test_decode_0x41 : decode 0x0000000000000041 = .ok .tileLoad := rfl
theorem test_decode_0x42 : decode 0x0000000000000042 = .ok .tileStore := rfl
theorem test_decode_0x43 : decode 0x0000000000000043 = .ok (.tileSer false) := rfl
theorem test_decode_0x143 : decode 0x0000000000000143 = .ok (.tileSer true) := rfl
theorem test_decode_0x44 : decode 0x0000000000000044 = .ok (.tileDeser false) := rfl
theorem test_decode_0x144 : decode 0x0000000000000144 = .ok (.tileDeser true) := rfl

/-- The illegal words of spec/95_test_vectors.md section 2.1. -/
theorem test_decode_refuses :
    decode 0x100 = .error .flagNotAdmitted ∧ decode 0x111 = .error .flagNotAdmitted ∧ decode 0x01 = .error .unknownOp
    ∧ decode 0x13 = .error .unknownOp ∧ decode 0xFF = .error .unknownOp ∧ decode 0x201 = .error .reservedBits
    ∧ decode 0x8000000000000000 = .error .reservedBits ∧ decode 0x229 = .error .reservedBits :=
  ⟨rfl, rfl, rfl, rfl, rfl, rfl, rfl, rfl⟩

theorem test_decodeTableWord : decodeTableWord 64 0x129 = some (.hdec true) ∧ decodeTableWord 64 0x229 = none := by decide
theorem test_fetch_runs_the_word : after (step (base.withFetchWord 64 0x10)) (fun t => t.cmd == 0x10 && t.done) = true := by
  decide +kernel

/-- R104: a suffix goes only with its mnemonics. -/
theorem test_assemble : (assemble "HDEC" (some .l)).toOption = some (.hdec true) ∧ (assemble "HDEC" (some .t)).toOption = none
    ∧ (assemble "NOP" (some .l)).toOption = none ∧ (assemble "TILE_SER" (some .t)).toOption = some (.tileSer true)
    ∧ (assemble "HALT" none).toOption = none := by decide

/-! ### The ports -/

theorem test_register_port_admits : regAdmitted 8 0xFF8 = true ∧ regAdmitted 4 0x008 = false ∧ regAdmitted 8 0x00C = false
    ∧ regAdmitted 8 0x1000 = false := by decide
theorem test_memory_port_admits : memAdmitted 65536 8 65528 = true ∧ memAdmitted 65536 4 65533 = false
    ∧ memAdmitted 65536 3 0 = false ∧ memAdmitted 65536 1 65536 = false := by decide
/-- R21: ID of a core with CODE_LEN_MAX = 64 and MEM_SIZE = 2^16. -/
theorem test_id : base.idWord = 0x0000104043484531 := by decide +kernel
/-- R74, R75: a 4-byte write is little-endian. -/
theorem test_memory_port_write :
    after (hostAccess (.memWrite 4 0x10 0x11223344) base) (fun t => t.bytesAt 0x10 4 == [0x44, 0x33, 0x22, 0x11]) = true := by
  decide +kernel
/-- R111: a register write while busy is dropped and sets OVERRUN. -/
theorem test_write_while_busy :
    after (hostAccess (.regWrite 8 0x020 5) (busyWith 0x10)) (fun t => t.overrun && t.src == 0) = true := by decide +kernel
/-- The state after reset with the ports placed apart on the platform. -/
def placed : State := { base with regBase := 0x40000, memBase := 0x80000 }

/-- R9: an access in a port's bytes on the platform is the port's access at that offset; the last byte of MEM is the last of its port, and the address after
it lies in neither. -/
theorem test_platform_addresses :
    after (busAccess ⟨8, 0x40020, some 5⟩ placed) (fun t => t.src == 5) = true
    ∧ after (busAccess ⟨1, 0x8FFFF, some 7⟩ placed) (fun t => t.byteAt 0xFFFF == 7) = true
    ∧ placed.route ⟨8, 0x90000, none⟩ = none := by decide +kernel
/-- R312: after its command has completed a run is over only when the host has read BUSY = 0. -/
theorem test_run_over :
    after (exec .nop (busyWith 0)) (fun t => !t.runOver) = true
    ∧ after (hostAccess (.regRead 8 0x010) ((busyWith 0).succeed 0)) (fun t => t.runOver && t.portData == 0x02) = true
    ∧ after (hostAccess (.regRead 8 0x010) (busyWith 0)) (fun t => !t.runOver) = true := by decide +kernel
/-- R105: a `check` after an illegal word fails the program; after a NOP it does not. -/
theorem test_check :
    (expand .check).toOption = some [.check]
    ∧ after (step { (busyWith 0x45).fail .illegal 0x45 with events := [.check] }) (fun t => t.checkFailed && t.portData == 0x406) = true
    ∧ after (step { (busyWith 0).succeed 0 with events := [.check] }) (fun t => !t.checkFailed && t.portData == 0x02) = true := by
  decide +kernel
/-- R22, R292: SRST with IE clears IE and PENDING. -/
theorem test_soft_reset :
    after (hostAccess (.regWrite 8 0x008 3) (busyWith 0x10)) (fun t => !t.ie && t.pending.isNone && t.cmd == 0) = true := by
  decide +kernel

/-! ### The commands -/

/-- R136: "`NOP` → STATUS = 0x02 (DONE), RESULT = 0". -/
theorem test_nop : after (exec .nop (busyWith 0)) (fun t => t.statusWord == 0x02 && t.result == 0) = true := by decide +kernel
/-- R137's example. -/
theorem test_bpClear :
    after (exec .bpClear (streamed base 16 0xA0 5)) (fun t => t.result == 3 && t.bpState == 0x800) = true := by decide +kernel
/-- V-BP1, step 3. -/
theorem test_bpPut :
    after (exec .bpPut { streamed base 16 0xA0 5 with argN := 7, argVal := 0x7F })
      (fun t => t.byteAt 0x200 == 0xBF && t.bpState == 0x6C0 && t.result == 1) = true := by decide +kernel
/-- V-BP2, step 4: ARG_N = 65 is ERR_ARG(1). -/
theorem test_bpPut_65 :
    after (exec .bpPut { streamed base 16 0x80 7 with argN := 65 }) (fun t => t.statusWord == 0x306 && t.errInfo == 1) = true := by
  decide +kernel
/-- R139's example. -/
theorem test_bpFlush :
    after (exec .bpFlush (streamed base 16 0xA0 5))
      (fun t => t.byteAt 0x200 == 0xA0 && t.outPtr == 0x201 && t.result == 5 && t.bpFree == 8) = true := by decide +kernel
/-- R140's example. -/
theorem test_brAlign :
    after (exec .brAlign { base with brAcc := 0xA5, brLeft := 3 }) (fun t => t.result == 3 && t.brState == 0) = true := by
  decide +kernel
/-- R141's example. -/
theorem test_brGet :
    after (exec .brGet { decodingAt 0xA5 0 with argN := 3 })
      (fun t => t.result == 5 && t.inPtr == 0x101 && t.brState == 0x5A5) = true := by decide +kernel
/-- R151's example, on one entry. -/
theorem test_hfreqClr :
    after (exec .hfreqClr { base with freq := sparse 256 0 [(97, 2)] }) (fun t => tableGet t.freq 97 == 0) = true := by
  decide +kernel
/-- R152's example. -/
theorem test_hfreqAdd :
    after (exec .hfreqAdd (sourced [97, 97, 98] 0))
      (fun t => tableGet t.freq 97 == 2 && tableGet t.freq 98 == 1 && t.result == 3) = true := by decide +kernel
/-- R153's example. -/
theorem test_hbuild :
    after (exec .hbuild { base with freq := sparse 256 0 [(97, 2), (98, 1)] })
      (fun t => tableGet t.codeLen 97 == 1 && tableGet t.codeVal 98 == 2 && tableGet t.codeVal 256 == 3 && t.result == 2) = true := by
  decide +kernel
/-- "abcd" of spec/95_test_vectors.md section 2.3, the tie-break of R155: EOB and a, popped first, are the deepest. -/
theorem test_hbuild_abcd :
    after (exec .hbuild { base with freq := sparse 256 0 [(97, 1), (98, 1), (99, 1), (100, 1)] })
      (fun t => [97, 98, 99, 100, 256].map (tableGet t.codeLen) == [3, 2, 2, 2, 3]
        && [97, 98, 99, 100, 256].map (tableGet t.codeVal) == [6, 0, 1, 2, 7]
        && Claims.codebook t == [0x02, 0x00, 0x03, 0x01, 0x62, 0x63, 0x64, 0x61] && t.result == 3) = true := by decide +kernel
/-- R158's example. -/
theorem test_hcbWrite :
    after (exec .hcbWrite (streamed coded 5 0 8)) (fun t => t.bytesAt 0x200 5 == [1, 1, 1, 97, 98] && t.result == 5) = true := by
  decide +kernel
/-- R159's example. -/
theorem test_henc :
    after (exec .henc { streamed coded 4 0 8 with src := 0x100, srcLen := 3, mem := cells 0x100 [97, 97, 98] })
      (fun t => t.bpState == 0x420 && t.result == 4) = true := by decide +kernel
/-- R160's example. -/
theorem test_hencEob :
    after (exec .hencEob (streamed coded 4 0x20 4)) (fun t => t.bpState == 0x22C && t.result == 2) = true := by decide +kernel
/-- R181's example, with R182's first codes; BR_ACC and BR_LEFT are unchanged. -/
theorem test_hcbRead :
    after (exec .hcbRead { base with brAcc := 0x5A, inPtr := 0x100, inEnd := 0x105, mem := cells 0x100 [1, 1, 1, 97, 98] })
      (fun t => t.result == 5 && t.inPtr == 0x105 && t.firstCode 2 == 2 && tableGet t.decAlpha 2 == 256
        && t.brState == 0x5A) = true := by decide +kernel
/-- A codebook whose maxLength byte is 64, so L = 65, is ERR_CODEBOOK(2). -/
theorem test_hcbRead_maxlen :
    after (exec .hcbRead { decoding with inPtr := 0x100, inEnd := 0x105, mem := cells 0x100 [64, 1, 1, 97, 98] })
      (fun t => t.statusWord == 0x106 && t.errInfo == 2 && t.decMaxlen == 0) = true := by decide +kernel
/-- R185's example. -/
theorem test_hdec :
    after (exec (.hdec false) (decodingAt 0x2C 3))
      (fun t => t.bytesAt 0x300 3 == [97, 97, 98] && t.result == 3 && t.eob && t.brLeft == 2) = true := by decide +kernel
/-- R185: with L = 1 and LIMIT = 2 the command stops before the third symbol, with EOB = 0. -/
theorem test_hdec_limit :
    after (exec (.hdec true) { decodingAt 0x2C 3 with limit := 2 }) (fun t => t.result == 2 && !t.eob && t.brLeft == 6) = true := by
  decide +kernel
/-- R186's example. -/
theorem test_hdecSym :
    after (exec .hdecSym (decodingAt 0xC0 0)) (fun t => t.result == 256 && t.eob && t.brLeft == 6) = true := by decide +kernel
/-- R200's example. -/
theorem test_deltaEnc :
    after (exec .deltaEnc (sourced [5, 7, 6] 3)) (fun t => t.bytesAt 0x200 3 == [0x05, 0x02, 0xFF] && t.result == 3) = true := by
  decide +kernel
/-- R201's example. -/
theorem test_deltaDec :
    after (exec .deltaDec (sourced [0x05, 0x02, 0xFF] 3)) (fun t => t.bytesAt 0x200 3 == [5, 7, 6] && t.result == 3) = true := by
  decide +kernel
/-- R211's example. -/
theorem test_rleMark :
    after (exec .rleMark (sourced [0x41, 0x41, 0x41, 0x41, 0x42, 0x00, 0x43, 0x43] 0))
      (fun t => t.marker == 0x01 && t.result == 1) = true := by decide +kernel
/-- R212's example. -/
theorem test_rleEnc :
    after (exec .rleEnc { sourced [0x41, 0x41, 0x41, 0x41, 0x42, 0x00, 0x43, 0x43] 7 with marker := 1 })
      (fun t => t.bytesAt 0x200 7 == [0x01, 0x03, 0x41, 0x42, 0x00, 0x43, 0x43] && t.result == 7) = true := by decide +kernel
/-- R213's example. -/
theorem test_rleDec :
    after (exec .rleDec { sourced [0x01, 0x03, 0x41, 0x42, 0x00, 0x43, 0x43] 8 with marker := 1 })
      (fun t => t.bytesAt 0x200 8 == [0x41, 0x41, 0x41, 0x41, 0x42, 0x00, 0x43, 0x43] && t.result == 8) = true := by decide +kernel
/-- R213: an input that ends after `m, f` with f from 2 on is ERR_RLE(2). -/
theorem test_rleDec_truncated :
    after (exec .rleDec { sourced [0x01, 0x02] 8 with marker := 1 }) (fun t => t.errCode == .rle && t.errInfo == 2) = true := by
  decide +kernel
/-- R232's example. -/
theorem test_geom :
    after (exec .geom { base with imgSize := 17, imgWidth := 5 })
      (fun t => t.result == 1 && t.tw == 5 && t.th == 4 && t.tk == 2 && t.tcnt == 17) = true := by decide +kernel
/-- R232: N = 1, W = 17, T = 1 gives an empty tile. -/
theorem test_geom_empty :
    after (exec .geom { base with imgSize := 1, imgWidth := 17, argN := 1 })
      (fun t => t.tileX == 16 && t.tw == 1 && t.th == 1 && t.tk == 0 && t.tcnt == 0) = true := by decide +kernel
/-- R233's example. -/
theorem test_tileLoad :
    after (exec .tileLoad imaged)
      (fun t => tableGet t.tile 2 == 99 && tableGet t.tile 17 == 101 && tableGet t.tile 18 == 0 && t.result == 5) = true := by
  decide +kernel
/-- R234's example. -/
theorem test_tileStore :
    after (exec .tileStore { tiled with mem := cells 0x100 [0, 0, 0, 0, 0, 7] })
      (fun t => t.bytesAt 0x100 6 == [97, 98, 99, 100, 101, 7] && t.result == 5) = true := by decide +kernel
/-- R236's example. -/
theorem test_tileSer_transposed :
    after (exec (.tileSer true) { tiled with dst := 0x200, dstCap := 5 })
      (fun t => t.bytesAt 0x200 5 == [97, 100, 98, 101, 99] && t.result == 5) = true := by decide +kernel
/-- R237's example. -/
theorem test_tileDeser_transposed :
    after (exec (.tileDeser true) { imaged with src := 0x100, srcLen := 5, mem := cells 0x100 [97, 100, 98, 101, 99] })
      (fun t => tableGet t.tile 1 == 98 && tableGet t.tile 16 == 100 && tableGet t.tile 18 == 0) = true := by decide +kernel

/-! ### Witnesses: concrete states and operands that meet the hypotheses of the statements -/

/-- IllegalWordCompletesWithErrIllegal: an illegal word pending, by each condition of R106 alone. -/
theorem witness_illegal_word :
    (busyWith 0x200).pending = some 0x200 ∧ (0x200 : Word).toNat / 512 ≠ 0
    ∧ (busyWith 0x45).pending = some 0x45 ∧ (0x45 : Word).toNat % 256 ∉ opcodes
    ∧ (busyWith 0x100).pending = some 0x100 ∧ (0x100 : Word).toNat / 256 % 2 = 1 ∧ (0x100 : Word).toNat % 256 = 0 := by decide +kernel
/-- Its second clause: a legal word pending whose execution answers a next state, the greatest legal word. -/
theorem witness_legal_word :
    (busyWith 0x144).pending = some 0x144 ∧ (0x144 : Word).toNat / 512 = 0 ∧ (0x144 : Word).toNat % 256 ∈ opcodes
    ∧ after (engineTurn (busyWith 0x144)) (fun _ => true) = true := by decide +kernel
/-- StepRunsTheDecodedCommand: the engine's move, no move left, with a legal word, an illegal word and no word pending, a host move at a port and at
an address, a `check`, and a placed word. -/
theorem witness_step_runs :
    ({ busyWith 0x10 with events := [.engine] }).pending = some 0x10 ∧ decode 0x10 = .ok .bpClear
    ∧ (busyWith 0x10).events = [] ∧ ({ base with events := [wrAt 0x018 0] }).events = .host (.regWrite 8 0x018 0) :: []
    ∧ ({ base with events := [.bus ⟨8, 0x40018, none⟩] }).events = .bus ⟨8, 0x40018, none⟩ :: []
    ∧ ({ busyWith 0x45 with events := [.engine] }).events = .engine :: [] ∧ decode 0x45 = .error .unknownOp
    ∧ base.events = [] ∧ base.pending = none ∧ ({ base with events := [.check] }).events = .check :: []
    ∧ decode (BitVec.ofNat 64 (0x129 % 2 ^ 64)) = .ok (.hdec true) := ⟨rfl, rfl, rfl, rfl, rfl, rfl, rfl, rfl, rfl, rfl, rfl⟩
/-- R106, R109: a step with an illegal word pending completes it with ERR_ILLEGAL(word), STATUS 0x406; one with PENDING empty changes nothing (R276). -/
theorem test_step_of_an_illegal_word :
    after (step (busyWith 0x45)) (fun t => t.statusWord == 0x406 && t.errInfo == 0x45) = true
    ∧ step base = .next base := ⟨by decide +kernel, rfl⟩
/-- CommandWriteIsAccepted, and the last clause of InterruptIsEnableAndDone. -/
theorem witness_accept :
    ({ base with ie := true, done := true, events := [wrAt 0x018 0x200] }).events = .host (.regWrite 8 0x018 0x200) :: []
    ∧ ({ base with ie := true, done := true, events := [wrAt 0x018 0x200] }).pending = none := ⟨rfl, rfl⟩
/-- WritesWhileBusyAreDropped: its three clauses at the ends of their ranges. -/
theorem witness_write_busy :
    (busyWith 0x10).pending = some 0x10
    ∧ (0x000 % 8 = 0 ∧ 0x000 ≤ 0x0F0 ∧ 0x000 ≠ 0x008 ∧ 0x000 ≠ 0x010) ∧ (0x0F0 % 8 = 0 ∧ 0x0F0 ≤ 0x0F0)
    ∧ (0x0F8 % 8 = 0 ∧ 0x0F8 ≤ 0x0F8) ∧ (0xFF8 % 8 = 0 ∧ 0x0F8 ≤ 0xFF8 ∧ 0xFF8 < 4096)
    ∧ memAdmitted (busyWith 0x10).memSize 8 65528 = true
    ∧ ({ busyWith 0x10 with events := [.host (.memWrite 8 65528 1)] }).events = .host (.memWrite 8 65528 1) :: [] := by
  decide +kernel
/-- ReadsWhileBusyChangeNothing: its clauses at the ends of their ranges. -/
theorem witness_read_busy :
    (busyWith 0x10).pending = some 0x10 ∧ (0x018 % 8 = 0 ∧ 0x018 ≤ 0x018) ∧ (0x0F0 % 8 = 0 ∧ 0x0F0 ≤ 0x0F0)
    ∧ memAdmitted (busyWith 0x10).memSize 1 65535 = true
    ∧ ({ busyWith 0x10 with events := [rdAt 0x010] }).events = .host (.regRead 8 0x010) :: [] := by decide +kernel
/-- RegistersHoldWhatTheHostWrites: an idle core, the host's write and read still to come, a CTRL value without SRST, and the ends of the reserved
offsets. -/
theorem witness_register_write :
    base.pending = none ∧ (0xFFFFFFFFFFFFFFFD : Word).getLsbD 1 = false
    ∧ (0x0F8 % 8 = 0 ∧ 0x0F8 ≤ 0x0F8) ∧ (0xFF8 % 8 = 0 ∧ 0x0F8 ≤ 0xFF8 ∧ 0xFF8 < 4096)
    ∧ ({ base with events := [wrAt 0x0E8 5, rdAt 0x0E8] }).events = .host (.regWrite 8 0x0E8 5) :: .host (.regRead 8 0x0E8) :: []
    ∧ ({ base with events := [wrAt 0x0C8 5, rdAt 0x0C8] }).events = .host (.regWrite 8 0x0C8 5) :: .host (.regRead 8 0x0C8) :: []
    ∧ ({ base with events := [wrAt 0x0F0 5] }).events = .host (.regWrite 8 0x0F0 5) :: [] :=
  ⟨rfl, rfl, by decide, by decide, rfl, rfl, rfl⟩
/-- PortsRefuseExactlyWhatTheyDoNotAdmit: ports apart, each before the other and touching; the first and last offset of each, and the addresses on either side. -/
theorem witness_ports :
    let s := { base with regBase := 0x1000, memBase := 0x2000 }
    s.regBase + 4096 ≤ s.memBase ∧ 4095 < 4096 ∧ 65535 < s.memSize
    ∧ ¬ (s.regBase ≤ 0xFFF ∧ 0xFFF < s.regBase + 4096) ∧ ¬ (s.memBase ≤ 0xFFF ∧ 0xFFF < s.memBase + s.memSize)
    ∧ ¬ (s.regBase ≤ 0x12000 ∧ 0x12000 < s.regBase + 4096) ∧ ¬ (s.memBase ≤ 0x12000 ∧ 0x12000 < s.memBase + s.memSize)
    ∧ ({ base with regBase := 0x10000, memBase := 0 }).memBase + base.memSize ≤ ({ base with regBase := 0x10000, memBase := 0 }).regBase := by
  decide +kernel
/-- MemoryPortIsLittleEndian: the widest access at the top of MEM. -/
theorem witness_memory_port :
    base.pending = none ∧ 65528 % 8 = 0 ∧ 65528 + 8 ≤ base.memSize
    ∧ ({ base with events := [.host (.memWrite 8 65528 7)] }).events = .host (.memWrite 8 65528 7) :: [] := by decide +kernel
/-- The third clause of InterruptIsEnableAndDone, and the step of a STATUS write. -/
theorem witness_status_write :
    ({ base with ie := true, done := true, events := [wrAt 0x010 2] }).events = .host (.regWrite 8 0x010 2) :: []
    ∧ after (step { base with ie := true, done := true, events := [wrAt 0x010 2] }) (fun _ => true) = true := by decide +kernel
/-- SoftResetRestoresCleanEntry: idle, and with a legal and an illegal word pending. -/
theorem witness_soft_reset :
    (3 : Word).getLsbD 1 = true ∧ ({ base with events := [wrAt 0x008 3] }).events = .host (.regWrite 8 0x008 3) :: []
    ∧ base.pending = none ∧ (busyWith 0x41).pending = some 0x41 ∧ decode 0x41 = .ok .tileLoad
    ∧ (busyWith 0x45).pending = some 0x45 ∧ decode 0x45 = .error .unknownOp := ⟨rfl, rfl, rfl, rfl, rfl, rfl, rfl⟩
/-- FailedPrecheckChangesOnlyCompletionState: HCB_WRITE without a table fails its second check. -/
theorem witness_failed_check :
    ∃ pre post c, Claims.preChecks base .hcbWrite = pre ++ c :: post ∧ (∀ d ∈ pre, d.ok = true) ∧ c.ok = false :=
  ⟨[Claims.check (base.outPtr.toNat ≤ base.outEnd.toNat ∧ base.outEnd.toNat ≤ 2 ^ base.memAddrBits) .range 3], _,
    Claims.check (base.encValid = true) .notable 1, rfl, by decide +kernel, by decide +kernel⟩
/-- InterruptIsEnableAndDone: a completion, and a CTRL write without SRST. -/
theorem witness_interrupt :
    exec .nop base = .next (base.succeed 0) ∧ (1 : Word).getLsbD 1 = false
    ∧ ({ base with events := [wrAt 0x008 1] }).events = .host (.regWrite 8 0x008 1) :: []
    ∧ after (step { base with events := [wrAt 0x008 1] }) (fun _ => true) = true := ⟨rfl, rfl, rfl, by decide +kernel⟩

/-- The invariants, in a state with MEM written, a partial byte, a command pending and a step to take. -/
theorem witness_invariants :
    let s := { streamed base 16 0xA0 5 with mem := cells 0xFFFF [7], pending := some 0x12, cmd := 0x12, seenIdle := false }
    s.MemInv ∧ s.CursorInv ∧ s.PendingInv ∧ after (step s) (fun _ => true) = true := by
  refine ⟨by unfold State.MemInv; decide +kernel, by unfold State.CursorInv; decide +kernel, ?_, by decide +kernel⟩
  intro w h
  cases h
  exact ⟨rfl, rfl, rfl, rfl, rfl⟩

/-- The invariants of the encoder's table, with a code in it. -/
theorem witness_encoder_invariants :
    coded.EncInv ∧ coded.CodeInv ∧ after (step { coded with pending := some 0 }) (fun _ => true) = true := by
  refine ⟨by unfold State.EncInv; decide +kernel, ?_, by decide +kernel⟩
  intro _
  decide +kernel

/-- The invariants of the decoder's tables, with a codebook in them. -/
theorem witness_decoder_invariant : decoding.DecInv ∧ after (step { decoding with pending := some 0 }) (fun _ => true) = true := by
  refine ⟨⟨fun h => (by cases h), fun _ => ?_⟩, by decide +kernel⟩
  refine ⟨by decide, by decide, by decide +kernel, by decide +kernel, fun l h1 h2 => ?_, by decide +kernel, by decide +kernel,
    by decide +kernel, by decide +kernel⟩
  have hl : decoding.decMaxlen = 2 := rfl
  obtain rfl : l = 1 := by omega
  decide +kernel

/-- HostAccessesKeepTheTables: an access that answers a next state and is no soft reset. -/
theorem witness_host_access :
    after (hostAccess (.regWrite 8 0x098 5) base) (fun _ => true) = true ∧ after (hostAccess (.regWrite 8 0x008 1) base) (fun _ => true) = true
    ∧ (1 : Word).getLsbD 1 = false := by decide +kernel

/-- The frames: each command answers a next state with success and, where it has one, with an error. -/
theorem witness_frames :
    after (exec .bpPut { streamed base 1 0 8 with argN := 8 }) (fun t => t.errCode == .ok) = true
    ∧ after (exec .bpPut { streamed base 0 0 8 with argN := 8 }) (fun t => t.errCode == .overflow) = true
    ∧ after (exec .geom { base with imgSize := 17, imgWidth := 5 }) (fun t => t.errCode == .ok) = true
    ∧ after (exec (.tileDeser true) { imaged with src := 0x100, srcLen := 5 }) (fun t => t.errCode == .ok) = true
    ∧ after (exec (.hdec false) (decodingAt 0x2C 3)) (fun t => t.errCode == .ok) = true
    ∧ after (exec (.hdec false) (decodingAt 0x2C 2)) (fun t => t.errCode == .overflow) = true
    ∧ after (exec .rleEnc (sourced [1, 2] 2)) (fun t => t.errCode == .ok) = true
    ∧ after (exec .deltaDec (sourced [1, 2] 2)) (fun t => t.errCode == .ok) = true
    ∧ after (exec .tileStore tiled) (fun t => t.errCode == .ok) = true
    ∧ after (exec (.tileSer true) { tiled with dst := 0x200, dstCap := 5 }) (fun t => t.errCode == .ok) = true := by
  decide +kernel

/-- BpPutAppendsItsBits: 64 bits over a partial byte, with exactly the room they take. -/
theorem witness_bpPut :
    let s := { streamed base 8 0x80 7 with argN := 64 }
    s.CursorInv ∧ Claims.outInMem s ∧ s.argN.toNat ≤ 64
    ∧ (8 - s.bpFree + s.argN.toNat) / 8 ≤ s.outEnd.toNat - s.outPtr.toNat := by
  unfold State.CursorInv Claims.outInMem; decide +kernel
/-- BpFlushWritesThePartialByte: a partial byte with one byte of room, and an aligned packer with none. -/
theorem witness_bpFlush :
    let s := streamed base 1 0x80 7
    Claims.outInMem s ∧ s.bpFree < 8 ∧ s.outPtr.toNat < s.outEnd.toNat
    ∧ Claims.outInMem (streamed base 0 0 8) ∧ 8 ≤ (streamed base 0 0 8).bpFree := by
  unfold Claims.outInMem; decide +kernel
/-- BrGetReadsTheNextBits: every bit the stream has. -/
theorem witness_brGet :
    let s := { decodingAt 0xA5 0 with argN := 8 }
    s.CursorInv ∧ Claims.inInMem s ∧ s.argN.toNat ≤ 64
    ∧ s.argN.toNat ≤ s.brLeft + 8 * (s.inEnd.toNat - s.inPtr.toNat) := by
  unfold State.CursorInv Claims.inInMem; decide +kernel
/-- HfreqAddCountsTheSource and RleMarkChoosesTheLeastSingleton: a source of three bytes, and an empty one at the end of MEM. -/
theorem witness_source :
    Claims.srcInMem (sourced [97, 97, 98] 0) ∧ Claims.srcInMem { base with src := 0x10000, srcLen := 0 } := by
  unfold Claims.srcInMem; decide +kernel
/-- HbuildOnTheEmptyAlphabetClears. -/
theorem witness_empty_alphabet : ∀ v, v < 256 → tableGet base.freq v = 0 := by
  intro v h
  simp [base, State.reset, tableGet, h]
/-- The weights 1 and 2^0 to 2^63, so that EOB stands at depth 65. -/
def deep : Vector Word 256 := tabulate 256 fun v => if v = 0 then 1 else if v ≤ 64 then toWord (2 ^ (v - 1)) else 0

/-- HbuildWritesTheCodeLengths, first clause: a code one bit too long. -/
theorem witness_code_too_long :
    (∃ v, v < 256 ∧ tableGet { base with freq := deep }.freq v ≠ 0) ∧ maxLength (codeLengths deep (participants deep)) = 65 :=
  ⟨⟨0, by decide, by decide +kernel⟩, by decide +kernel⟩
/-- HbuildWritesTheCodeLengths, second clause, and the four statements about a successful HBUILD. -/
theorem witness_code :
    let f := sparse 256 (0 : Word) [(97, 2), (98, 1)]
    (∃ v, v < 256 ∧ tableGet { base with freq := f }.freq v ≠ 0) ∧ maxLength (codeLengths f (participants f)) = 2
    ∧ after (exec .hbuild { base with freq := f }) (fun t => t.encValid) = true :=
  ⟨⟨97, by decide, by decide +kernel⟩, by decide +kernel, by decide +kernel⟩
/-- HcbWriteSerializesTheCodebook: exactly the room of the codebook. -/
theorem witness_hcbWrite :
    let s := streamed coded 5 0 8
    s.EncInv ∧ Claims.outInMem s ∧ s.encValid = true ∧ s.bpFree = 8
    ∧ (Claims.codebook s).length ≤ s.outEnd.toNat - s.outPtr.toNat := by
  refine ⟨witness_encoder_invariants.1, ?_⟩
  unfold Claims.outInMem; decide +kernel

/-- The bytes `aab` at 0x100 as the source of HENC, an output stream of `n` bytes at 0x200. -/
def toEncode (bs : List Nat) (n : Nat) : State :=
  { streamed coded n 0 8 with src := 0x100, srcLen := toWord bs.length, mem := cells 0x100 bs }

/-- HencPutsTheCodesOfTheSource: the source `aab` with room for none of its 4 bits but in the packer. -/
theorem witness_henc :
    let s := toEncode [97, 97, 98] 0
    s.CursorInv ∧ Claims.srcInMem s ∧ Claims.outInMem s ∧ s.encValid = true
    ∧ Claims.apart s.src.toNat s.srcLen.toNat s.outPtr.toNat (s.outEnd.toNat - s.outPtr.toNat)
    ∧ (∀ b ∈ Claims.source s, tableGet s.codeLen b.toNat ≠ 0)
    ∧ (8 - s.bpFree + ((Claims.source s).flatMap fun b => Claims.codeBits s b.toNat).length) / 8
        ≤ s.outEnd.toNat - s.outPtr.toNat := by
  unfold State.CursorInv Claims.srcInMem Claims.outInMem Claims.apart; decide +kernel
/-- HencStopsAtAnUncodedByteOrAFullStream: the byte c has no code; four b's fill 8 bits and find no room. -/
theorem witness_henc_stops :
    let s := toEncode [97, 99] 0
    let t := toEncode [98, 98, 98, 98] 0
    s.CursorInv ∧ Claims.srcInMem s ∧ Claims.outInMem s ∧ s.encValid = true
    ∧ Claims.apart s.src.toNat s.srcLen.toNat s.outPtr.toNat (s.outEnd.toNat - s.outPtr.toNat)
    ∧ Claims.source s = [97] ++ [99] ∧ (∀ b ∈ ([97] : List Byte), tableGet s.codeLen b.toNat ≠ 0)
    ∧ tableGet s.codeLen (99 : Byte).toNat = 0
    ∧ (8 - s.bpFree + (([97] : List Byte).flatMap fun b => Claims.codeBits s b.toNat).length) / 8
        ≤ s.outEnd.toNat - s.outPtr.toNat
    ∧ t.CursorInv ∧ Claims.srcInMem t ∧ Claims.outInMem t ∧ t.encValid = true
    ∧ Claims.apart t.src.toNat t.srcLen.toNat t.outPtr.toNat (t.outEnd.toNat - t.outPtr.toNat)
    ∧ Claims.source t = [98, 98, 98, 98] ++ [] ∧ (∀ b ∈ ([98, 98, 98, 98] : List Byte), tableGet t.codeLen b.toNat ≠ 0)
    ∧ t.outEnd.toNat - t.outPtr.toNat
        < (8 - t.bpFree + (([98, 98, 98, 98] : List Byte).flatMap fun b => Claims.codeBits t b.toNat).length) / 8 := by
  unfold State.CursorInv Claims.srcInMem Claims.outInMem Claims.apart; decide +kernel
/-- HencEobPutsTheEobCode: EOB's 2 bits in the packer, with no byte of room. -/
theorem witness_hencEob :
    let s := streamed coded 0 0 8
    s.CursorInv ∧ Claims.outInMem s ∧ s.encValid = true
    ∧ (8 - s.bpFree + tableGet s.codeLen 256) / 8 ≤ s.outEnd.toNat - s.outPtr.toNat := by
  unfold State.CursorInv Claims.outInMem; decide +kernel
/-- HcbReadBuildsTheTables: R181's example, with exactly its bytes in the stream. -/
theorem witness_hcbRead :
    let s := { base with inPtr := 0x100, inEnd := 0x105, mem := cells 0x100 [1, 1, 1, 97, 98] }
    let counts : List Byte := [1, 1]
    let syms : List Byte := [97, 98]
    s.brLeft = 0 ∧ Claims.inInMem s ∧ 1 ≤ counts.length ∧ counts.length ≤ 64 ∧ (counts.map BitVec.toNat).sum ≤ 256
    ∧ syms.length = (counts.map BitVec.toNat).sum ∧ 1 + 2 + 2 ≤ s.inEnd.toNat - s.inPtr.toNat
    ∧ s.bytesAt s.inPtr.toNat (1 + 2 + 2) = toByte (2 - 1) :: counts ++ syms
    ∧ ((List.range 2).map fun k => (counts.getD k 0).toNat * 2 ^ (2 - (k + 1))).sum + 1 = 2 ^ 2 := by
  unfold Claims.inInMem; decide +kernel
/-- DecoderUndoesTheEncoder: the code of R153's example has the codebook of R181's example, the bytes of the state of `witness_hcbRead`. -/
theorem witness_decoder_undoes_encoder :
    after (exec .hbuild { base with freq := sparse 256 0 [(97, 2), (98, 1)] })
      (fun t => t.encValid && Claims.codebook t == [1, 1, 1, 97, 98]) = true
    ∧ (let u := { base with inPtr := 0x100, inEnd := 0x105, mem := cells 0x100 [1, 1, 1, 97, 98] }
       u.brLeft = 0 ∧ Claims.inInMem u ∧ 5 ≤ u.inEnd.toNat - u.inPtr.toNat ∧ u.bytesAt u.inPtr.toNat 5 = [1, 1, 1, 97, 98]) := by
  unfold Claims.inInMem; decide +kernel
/-- HcbReadRejectsAndClears: one codebook for each reason of R181. -/
theorem witness_hcbRead_rejects :
    let s := fun (bs : List Nat) => { base with inPtr := 0x100, inEnd := toWord (0x100 + bs.length), mem := cells 0x100 bs }
    (s []).brLeft = 0 ∧ Claims.inInMem (s []) ∧ Claims.codebookFault (s []) = some 1
    ∧ Claims.inInMem (s [64]) ∧ Claims.codebookFault (s [64]) = some 2
    ∧ Claims.inInMem (s [1, 255, 2]) ∧ Claims.codebookFault (s [1, 255, 2]) = some 3
    ∧ Claims.inInMem (s [0, 0]) ∧ Claims.codebookFault (s [0, 0]) = some 4 := by
  unfold Claims.inInMem; decide +kernel

/-- Reading a code of one bit. -/
theorem codeAt_one (s : State) (bits : List Bool) (sym : Nat)
    (h : (1 ≤ s.decMaxlen ∧ 1 ≤ bits.length) ∧ bitsValue (bits.take 1) < s.firstCode 1 + s.decCount 1
      ∧ sym = tableGet s.decAlpha (s.firstSym 1 + (bitsValue (bits.take 1) - s.firstCode 1))) :
    Claims.codeAt s bits 1 sym :=
  ⟨Nat.le_refl 1, h.1.1, h.1.2, h.2.1, fun m h1 h2 => absurd h2 (by omega), h.2.2⟩

/-- Reading a code of two bits. -/
theorem codeAt_two (s : State) (bits : List Bool) (sym : Nat)
    (h : (2 ≤ s.decMaxlen ∧ 2 ≤ bits.length) ∧ bitsValue (bits.take 2) < s.firstCode 2 + s.decCount 2
      ∧ s.firstCode 1 + s.decCount 1 ≤ bitsValue (bits.take 1)
      ∧ sym = tableGet s.decAlpha (s.firstSym 2 + (bitsValue (bits.take 2) - s.firstCode 2))) :
    Claims.codeAt s bits 2 sym := by
  refine ⟨by omega, h.1.1, h.1.2, h.2.1, fun m h1 h2 => ?_, h.2.2.2⟩
  obtain rfl : m = 1 := by omega
  exact h.2.2.1

/-- No stream without bits begins with a code. -/
theorem no_code_of_nil (s : State) (n sym : Nat) : ¬ Claims.codeAt s [] n sym := by
  intro h
  have h1 := h.1
  have h2 := h.2.2.1
  simp at h2
  omega

/-- The decoder's statements: the tables, the stream in MEM, the destination in MEM and apart from it. -/
theorem witness_decoder (v cap : Nat) (h : cap = 3 ∨ cap = 2) (hv : v = 0x2C ∨ v = 0xC0) :
    let s := decodingAt v cap
    s.CursorInv ∧ s.DecInv ∧ Claims.inInMem s ∧ Claims.dstInMem s ∧ s.decValid = true
    ∧ Claims.apart s.inPtr.toNat (s.inEnd.toNat - s.inPtr.toNat) s.dst.toNat s.dstCap.toNat := by
  have hd : (decodingAt v cap).DecInv := witness_decoder_invariant.1
  unfold State.CursorInv Claims.inInMem Claims.dstInMem Claims.apart
  rcases h with rfl | rfl <;> rcases hv with rfl | rfl <;>
    exact ⟨by decide +kernel, hd, by decide +kernel, by decide +kernel, rfl, by decide +kernel⟩

theorem unread_2C (cap : Nat) (h : cap = 3 ∨ cap = 2) :
    (decodingAt 0x2C cap).unreadBits = [false, false, true, false, true, true, false, false] := by
  rcases h with rfl | rfl <;> decide +kernel

/-- HdecSymReadsOneSymbol, first clause: a one-bit code and a two-bit code; DecoderIsTotal: a stream of exactly L bits. -/
theorem witness_hdecSym :
    Claims.codeAt (decodingAt 0x2C 3) (decodingAt 0x2C 3).unreadBits 1 97
    ∧ Claims.codeAt (decodingAt 0xC0 3) (decodingAt 0xC0 3).unreadBits 2 256
    ∧ (decodingAt 0xC0 3).decMaxlen ≤ [true, true].length :=
  ⟨codeAt_one _ _ _ (by decide +kernel), codeAt_two _ _ _ (by decide +kernel), by decide⟩
/-- HdecSymReadsOneSymbol, second clause: an empty stream. -/
theorem witness_hdecSym_truncated :
    let s := { decoding with inPtr := 0x100, inEnd := 0x100 }
    s.CursorInv ∧ s.DecInv ∧ Claims.inInMem s ∧ s.decValid = true ∧ ∀ n sym, ¬ Claims.codeAt s s.unreadBits n sym := by
  have h : ({ decoding with inPtr := 0x100, inEnd := 0x100 } : State).unreadBits = [] := by decide +kernel
  refine ⟨by unfold State.CursorInv; decide +kernel, witness_decoder_invariant.1, by unfold Claims.inInMem; decide +kernel, rfl, ?_⟩
  intro n sym
  rw [h]
  exact no_code_of_nil _ n sym
/-- AllOnesDecodesToEob: the byte C0 begins with L = 2 one bits. -/
theorem witness_all_ones :
    (decodingAt 0xC0 3).unreadBits
      = List.replicate (decodingAt 0xC0 3).decMaxlen true ++ [false, false, false, false, false, false] := by decide +kernel
/-- HdecWritesTheDecodedSymbols: R185's example to its EOB, with exactly the room it needs; and two symbols of it with LIMIT = 2. -/
theorem witness_hdec :
    Claims.codesOf (decodingAt 0x2C 3) (decodingAt 0x2C 3).unreadBits (([97, 97, 98] : List Byte).map BitVec.toNat ++ [256])
      [false, false]
    ∧ ([97, 97, 98] : List Byte).length ≤ (decodingAt 0x2C 3).dstCap.toNat
    ∧ Claims.codesOf (decodingAt 0x2C 3) (decodingAt 0x2C 3).unreadBits (([97, 97] : List Byte).map BitVec.toNat)
      [true, false, true, true, false, false]
    ∧ ([97, 97] : List Byte).length = { decodingAt 0x2C 3 with limit := 2 }.limit.toNat := by
  rw [unread_2C 3 (.inl rfl)]
  refine ⟨?_, by decide, ?_, by decide⟩
  · refine ⟨1, codeAt_one _ _ _ (by decide +kernel), 1, codeAt_one _ _ _ (by decide +kernel), 2,
      codeAt_two _ _ _ (by decide +kernel), 2, codeAt_two _ _ _ (by decide +kernel), rfl⟩
  · exact ⟨1, codeAt_one _ _ _ (by decide +kernel), 1, codeAt_one _ _ _ (by decide +kernel), rfl⟩
/-- HdecStopsAtAnEndOfStreamOrAFullDestination: a stream that ends after no symbol, and three symbols for a destination of two bytes. -/
theorem witness_hdec_stops :
    (let s := { decoding with inPtr := 0x100, inEnd := 0x100 }
     Claims.codesOf s s.unreadBits [] [] ∧ ∀ n sym, ¬ Claims.codeAt s [] n sym)
    ∧ Claims.codesOf (decodingAt 0x2C 2) (decodingAt 0x2C 2).unreadBits (([97, 97, 98] : List Byte).map BitVec.toNat)
      [true, true, false, false]
    ∧ ([97, 97, 98] : List Byte).length = (decodingAt 0x2C 2).dstCap.toNat + 1 := by
  have h : ({ decoding with inPtr := 0x100, inEnd := 0x100 } : State).unreadBits = [] := by decide +kernel
  refine ⟨⟨h, fun n sym => no_code_of_nil _ n sym⟩, ?_, by decide +kernel⟩
  rw [unread_2C 2 (.inr rfl)]
  exact ⟨1, codeAt_one _ _ _ (by decide +kernel), 1, codeAt_one _ _ _ (by decide +kernel), 2,
    codeAt_two _ _ _ (by decide +kernel), rfl⟩

/-- DeltaCommandsWriteDifferencesAndSums: apart, with exactly the room, and in place; DeltaTransformsAreInverse: in place. -/
theorem witness_delta :
    let s := sourced [5, 7, 6] 3
    let t := { sourced [5, 7, 6] 3 with dst := 0x100 }
    Claims.srcInMem s ∧ Claims.dstInMem s ∧ s.srcLen.toNat ≤ s.dstCap.toNat
    ∧ Claims.apart s.src.toNat s.srcLen.toNat s.dst.toNat s.srcLen.toNat
    ∧ Claims.srcInMem t ∧ Claims.dstInMem t ∧ t.srcLen.toNat ≤ t.dstCap.toNat ∧ t.dst = t.src := by
  unfold Claims.srcInMem Claims.dstInMem Claims.apart; decide +kernel
/-- RleEncWritesTheEscapesOfTheRuns: a run of 256 cut off a longer one, with exactly the room and with one byte less. -/
theorem witness_rleEnc :
    let s := { sourced (List.replicate 257 7) 4 with dst := 0x400 }
    let t := { s with dstCap := 3 }
    let runs : List (Byte × Nat) := [(7, 256), (7, 1)]
    Claims.srcInMem s ∧ Claims.dstInMem s ∧ Claims.apart s.src.toNat s.srcLen.toNat s.dst.toNat s.dstCap.toNat
    ∧ Claims.encodingRuns runs ∧ Claims.source s = runs.flatMap (fun r => List.replicate r.2 r.1)
    ∧ (runs.flatMap (Claims.escapeOf s.marker)).length ≤ s.dstCap.toNat
    ∧ Claims.dstInMem t ∧ Claims.apart t.src.toNat t.srcLen.toNat t.dst.toNat t.dstCap.toNat
    ∧ t.dstCap.toNat < (runs.flatMap (Claims.escapeOf t.marker)).length := by
  unfold Claims.srcInMem Claims.dstInMem Claims.apart Claims.encodingRuns Claims.encodingRuns; decide +kernel
/-- RleDecWritesWhatThePiecesDecodeTo: a literal, both escapes with the least and greatest counts they have, and each tail. -/
theorem witness_rleDec :
    let whole := { sourced [9, 1, 1, 1, 2, 7] 6 with marker := 1 }
    let cut := { sourced [9, 1] 1 with marker := 1 }
    let cut2 := { sourced [9, 1, 2] 1 with marker := 1 }
    let pieces : List Claims.RlePiece := [.literal 9, .pair 1, .triple 2 7]
    Claims.srcInMem whole ∧ Claims.dstInMem whole
    ∧ Claims.apart whole.src.toNat whole.srcLen.toNat whole.dst.toNat whole.dstCap.toNat
    ∧ Claims.source whole = pieces.flatMap (·.input whole.marker) ++ []
    ∧ (pieces.flatMap (·.output whole.marker)).length = whole.dstCap.toNat
    ∧ Claims.source cut = [Claims.RlePiece.literal 9].flatMap (·.input cut.marker) ++ [cut.marker]
    ∧ Claims.source cut2 = [Claims.RlePiece.literal 9].flatMap (·.input cut2.marker) ++ [cut2.marker, 2]
    ∧ ({ whole with dstCap := 5 }).dstCap.toNat < (pieces.flatMap (·.output whole.marker)).length := by
  unfold Claims.srcInMem Claims.dstInMem Claims.apart; decide +kernel
theorem witness_rle_pieces :
    ∀ p ∈ ([.literal 9, .pair 1, .triple 2 7] : List Claims.RlePiece), p.ok 1 := by
  intro p hp
  simp only [List.mem_cons, List.not_mem_nil, or_false] at hp
  rcases hp with rfl | rfl | rfl
  · show (9 : Byte) ≠ 1
    decide
  · show (1 : Byte).toNat ≤ 1
    decide
  · show 2 ≤ (2 : Byte).toNat
    decide
/-- RleDecoderUndoesTheEncoder: a successful RLE_ENC, and room for the source apart from what it wrote. -/
theorem witness_rle_round_trip :
    let s := { sourced [0x41, 0x41, 0x41, 0x42] 4 with marker := 1 }
    after (exec .rleEnc s) (fun t => t.errCode == .ok && t.result == 4) = true ∧ s.srcLen.toNat ≤ (4 : Word).toNat
    ∧ (0x204 : Word).toNat + (4 : Word).toNat ≤ s.memSize ∧ Claims.apart s.dst.toNat (4 : Word).toNat (0x204 : Word).toNat (4 : Word).toNat := by
  unfold Claims.apart; decide +kernel

/-- GeomComputesTheTile: the last tile of an image whose last row is short; TilesPartitionTheImage: that image. -/
theorem witness_geom :
    let s := { base with imgSize := 18, imgWidth := 17, argN := 1 }
    1 ≤ s.imgWidth.toNat
    ∧ s.argN.toNat < (s.imgWidth.toNat + 15) / 16 * (((s.imgSize.toNat + s.imgWidth.toNat - 1) / s.imgWidth.toNat + 15) / 16)
    ∧ 1 < tileCount 18 17 ∧ Claims.valid (tileShape 18 17 1).tw (tileShape 18 17 1).th (tileShape 18 17 1).tk 0 0 := by
  unfold Claims.valid; decide +kernel
/-- An empty tile before another: the suffix clause of TilesPartitionTheImage. -/
theorem witness_empty_tiles :
    1 < 2 ∧ 2 < tileCount 1 33 ∧ (tileShape 1 33 1).tw * ((tileShape 1 33 1).th - 1) + (tileShape 1 33 1).tk = 0 := by decide +kernel
/-- The tile statements: R233's example; and the full 16 x 16 shape for those that need no image. -/
theorem witness_tile :
    Claims.shapeLegal imaged ∧ Claims.shapeLegal { base with tw := 16, th := 16, tk := 16 }
    ∧ Claims.dstInMem { imaged with dst := 0x200, dstCap := 5 } ∧ imaged.tcnt ≤ { imaged with dstCap := 5 }.dstCap.toNat
    ∧ Claims.srcInMem { imaged with src := 0x100, srcLen := 5 } ∧ imaged.tcnt ≤ { imaged with srcLen := 5 }.srcLen.toNat := by
  unfold Claims.shapeLegal Claims.dstInMem Claims.srcInMem; decide +kernel
theorem witness_tile_placed : Claims.tilePlaced imaged := by
  refine ⟨by decide, fun r c h => ?_⟩
  have hw : imaged.imgBase.toNat + (imaged.tileY.toNat + r) * imaged.imgWidth.toNat + imaged.tileX.toNat + c = 0x100 + (0 + r) * 3 + 0 + c := rfl
  have hs : imaged.memSize = 65536 := by decide +kernel
  have hv : (r + 1 < 2 ∧ c < 3) ∨ (r + 1 = 2 ∧ c < 2) := h
  rw [hw, hs]
  omega

end Sys2Proof.Tests
end

section
/-! ## PROOFS. The statements of `00_scope.md`: the ports' admission (R73, R74, R9), and MEM with its parameters under every step (R6, R70, R72). -/

namespace Sys2Proof.Machine

/-! ### Which accesses the ports admit (R73, R74) -/

theorem regAdmitted_iff (w o : Nat) : regAdmitted w o = true ↔ w = 8 ∧ o % 8 = 0 ∧ o < 4096 := by
  simp [regAdmitted, and_assoc]

theorem memAdmitted_iff (size w a : Nat) :
    memAdmitted size w a = true ↔ (w = 1 ∨ w = 2 ∨ w = 4 ∨ w = 8) ∧ a % w = 0 ∧ a + w ≤ size := by
  simp [memAdmitted, and_assoc]

theorem hostAccess_regRead_refused_iff (w o : Nat) (s : State) :
    hostAccess (.regRead w o) s = .refused (.regAccess w o) ↔ ¬ (w = 8 ∧ o % 8 = 0 ∧ o < 4096) := by
  rw [← regAdmitted_iff]
  by_cases h : regAdmitted w o = true <;> simp [hostAccess, h]

theorem hostAccess_regWrite_refused_iff (w o : Nat) (v : Word) (s : State) :
    hostAccess (.regWrite w o v) s = .refused (.regAccess w o) ↔ ¬ (w = 8 ∧ o % 8 = 0 ∧ o < 4096) := by
  rw [← regAdmitted_iff]
  by_cases h : regAdmitted w o = true <;> simp [hostAccess, h]

theorem hostAccess_memRead_refused_iff (w a : Nat) (s : State) :
    hostAccess (.memRead w a) s = .refused (.memAccess w a)
      ↔ ¬ ((w = 1 ∨ w = 2 ∨ w = 4 ∨ w = 8) ∧ a % w = 0 ∧ a + w ≤ s.memSize) := by
  rw [← memAdmitted_iff]
  by_cases h : memAdmitted s.memSize w a = true <;> simp [hostAccess, h]

theorem hostAccess_memWrite_refused_iff (w a : Nat) (v : Word) (s : State) :
    hostAccess (.memWrite w a v) s = .refused (.memAccess w a)
      ↔ ¬ ((w = 1 ∨ w = 2 ∨ w = 4 ∨ w = 8) ∧ a % w = 0 ∧ a + w ≤ s.memSize) := by
  rw [← memAdmitted_iff]
  by_cases h : memAdmitted s.memSize w a = true <;> simp [hostAccess, h]

/-! ### Where the platform places the ports (R9) -/

theorem inPort_iff (base size a : Nat) : inPort base size a = true ↔ base ≤ a ∧ a < base + size := by
  simp [inPort]

theorem inPort_eq_false_iff (base size a : Nat) : inPort base size a = false ↔ ¬ (base ≤ a ∧ a < base + size) := by
  rw [← inPort_iff, Bool.not_eq_true]

section Placement

variable {s : State} {n a : Nat}

/-- An address in the register port's bytes only is the register port's offset. -/
theorem busAccess_regPort (v : Word) (hr : inPort s.regBase 4096 (s.regBase + a) = true)
    (hm : inPort s.memBase s.memSize (s.regBase + a) = false) :
    busAccess ⟨n, s.regBase + a, none⟩ s = hostAccess (.regRead n a) s
    ∧ busAccess ⟨n, s.regBase + a, some v⟩ s = hostAccess (.regWrite n a v) s := by
  simp [busAccess, State.route, hr, hm]

/-- An address in the memory port's bytes only is the memory port's address. -/
theorem busAccess_memPort (v : Word) (hr : inPort s.regBase 4096 (s.memBase + a) = false)
    (hm : inPort s.memBase s.memSize (s.memBase + a) = true) :
    busAccess ⟨n, s.memBase + a, none⟩ s = hostAccess (.memRead n a) s
    ∧ busAccess ⟨n, s.memBase + a, some v⟩ s = hostAccess (.memWrite n a v) s := by
  simp [busAccess, State.route, hr, hm]

/-- An address in neither port is refused (log 14). -/
theorem busAccess_noPort (value : Option Word) (hr : inPort s.regBase 4096 a = false)
    (hm : inPort s.memBase s.memSize a = false) : busAccess ⟨n, a, value⟩ s = .refused (.noPort n a) := by
  simp [busAccess, State.route, hr, hm]

end Placement

/-- Settles O10: each port's refusals by its admission, and the platform's addresses by the port they lie in. -/
theorem portsRefuseExactlyWhatTheyDoNotAdmit : Obligations.PortsRefuseExactlyWhatTheyDoNotAdmit := by
  intro s n a v
  refine ⟨hostAccess_regRead_refused_iff n a s, hostAccess_regWrite_refused_iff n a v s, hostAccess_memRead_refused_iff n a s,
    hostAccess_memWrite_refused_iff n a v s, fun happart => ⟨fun ha => ?_, fun ha => ?_, fun value hr hm => ?_⟩⟩
  · exact busAccess_regPort v ((inPort_iff ..).mpr (by omega)) ((inPort_eq_false_iff ..).mpr (by omega))
  · exact busAccess_memPort v ((inPort_eq_false_iff ..).mpr (by omega)) ((inPort_iff ..).mpr (by omega))
  · exact busAccess_noPort value ((inPort_eq_false_iff ..).mpr hr) ((inPort_eq_false_iff ..).mpr hm)

/-! ### Operations that stop -/

theorem bind_eq_ok_iff {α β : Type} {x : Except Stop α} {f : α → Except Stop β} {b : β} :
    x.bind f = .ok b ↔ ∃ a, x = .ok a ∧ f a = .ok b := by
  cases x <;> simp [Except.bind]

theorem map_eq_ok_iff {α β : Type} {x : Except Stop α} {f : α → β} {b : β} : x.map f = .ok b ↔ ∃ a, x = .ok a ∧ f a = b := by
  cases x <;> simp [Except.map]

/-! ### Keeping MEM canonical -/

/-- `t` has the parameters of `s`, and its MEM is canonical inside MEM_SIZE if that of `s` is. Every operation of the machine relates its
states so, and the relation composes. -/
structure KeepsMem (s t : State) : Prop where
  memAddrBits : t.memAddrBits = s.memAddrBits
  regBase : t.regBase = s.regBase
  memBase : t.memBase = s.memBase
  wf : s.mem.wf s.memSize → t.mem.wf t.memSize

namespace KeepsMem

theorem refl (s : State) : KeepsMem s s := ⟨rfl, rfl, rfl, id⟩

theorem trans {s u t : State} (h₁ : KeepsMem s u) (h₂ : KeepsMem u t) : KeepsMem s t :=
  ⟨h₂.memAddrBits.trans h₁.memAddrBits, h₂.regBase.trans h₁.regBase, h₂.memBase.trans h₁.memBase, h₂.wf ∘ h₁.wf⟩

/-- An update of other fields. -/
theorem of_eq {s t : State} (hbits : t.memAddrBits = s.memAddrBits) (hreg : t.regBase = s.regBase) (hbase : t.memBase = s.memBase)
    (hmem : t.mem = s.mem) : KeepsMem s t :=
  ⟨hbits, hreg, hbase, fun h => by rwa [hmem, State.memSize, hbits]⟩

theorem memInv {s t : State} (h : KeepsMem s t) (hs : s.MemInv) : t.MemInv := by
  obtain ⟨hlow, hhigh, hwf⟩ := hs
  exact ⟨by rwa [h.memAddrBits], by rwa [h.memAddrBits], h.wf hwf⟩

theorem succeed {s t : State} (h : KeepsMem s t) (result : Word) (eob : Bool) : KeepsMem s (t.succeed result eob) :=
  h.trans (of_eq rfl rfl rfl rfl)

theorem fail {s t : State} (h : KeepsMem s t) (code : ErrCode) (info : Word) : KeepsMem s (t.fail code info) :=
  h.trans (of_eq rfl rfl rfl rfl)

theorem setByte {s : State} {a : Nat} (v : Byte) (ha : a < s.memSize) : KeepsMem s (s.setByte a v) :=
  ⟨rfl, rfl, rfl, fun h => State.setByte_wf s a v h ha⟩

/-- The end of a command keeps MEM where its operation does, and where what it leaves on a run-time error does. -/
theorem of_conclude {s u t : State} {r : Except Stop Finished} (h : conclude u r = .next t) (hraise : KeepsMem s u)
    (hok : ∀ d, r = .ok d → KeepsMem s d.st) : KeepsMem s t := by
  rcases conclude_next h with ⟨d, hd, rfl⟩ | ⟨code, info, _, rfl⟩
  · exact (hok d hd).succeed _ _
  · exact hraise.fail code info

/-- The same for an operation that only turns what a loop leaves into its end. -/
theorem of_conclude_map {α : Type} {s u t : State} {x : Except Stop α} {f : α → Finished} (h : conclude u (x.map f) = .next t)
    (hraise : KeepsMem s u) (hok : ∀ a, x = .ok a → KeepsMem s (f a).st) : KeepsMem s t := by
  refine of_conclude h hraise fun d hd => ?_
  obtain ⟨a, ha, rfl⟩ := map_eq_ok_iff.mp hd
  exact hok a ha

/-- A command with pre-checks keeps MEM where its operation does once they hold. -/
theorem of_withChecks {s t : State} {cs : List Check} {op : State → Result} (h : withChecks s cs op = .next t)
    (hop : (∀ c ∈ cs, c.ok = true) → op s = .next t → KeepsMem s t) : KeepsMem s t := by
  rcases withChecks_cases s cs op with ⟨code, info, _, hfail⟩ | ⟨hpass, hrun⟩
  · cases hfail.symm.trans h
    exact (refl s).fail code info
  · exact hop ((firstFailing_eq_none cs).mp hpass) (hrun.symm.trans h)

end KeepsMem

/-! ### The shared operations on MEM -/

theorem memWrite_keepsMem {a : Nat} {v : Byte} {s t : State} (h : memWrite a v s = .ok t) : KeepsMem s t := by
  obtain ⟨ha, rfl⟩ := memWrite_ok h
  exact .setByte v ha

theorem writeBytes_keepsMem {a : Nat} {vs : List Byte} {s t : State} (h : writeBytes a vs s = .ok t) : KeepsMem s t := by
  have hf := writeBytes_frame h
  exact ⟨by rw [hf], by rw [hf], by rw [hf], writeBytes_wf h⟩

theorem drawBytes_keepsMem {as : List Nat} {s : State} (ha : ∀ a ∈ as, a < s.memSize) : KeepsMem s (drawBytes as s) := by
  have hf := drawBytes_frame as s
  exact ⟨by rw [hf], by rw [hf], by rw [hf], fun h => drawBytes_wf as s h ha⟩

/-- The output stream's write set lies in MEM, by the check that precedes every command drawing it. -/
theorem drawOutStream_keepsMem {s : State} (hc : (outCheck s).ok = true) : KeepsMem s (drawOutStream s) := by
  have hend : s.outPtr.toNat ≤ s.outEnd.toNat ∧ s.outEnd.toNat ≤ s.memSize := by simpa [outCheck] using hc
  refine (drawBytes_keepsMem fun a ha => ?_).trans (.of_eq rfl rfl rfl rfl)
  rw [mem_regionAddrs] at ha
  omega

/-- The destination lies in MEM, by the check that precedes every command drawing it. -/
theorem drawDst_keepsMem {s : State} (hc : (dstCheck s).ok = true) : KeepsMem s (drawDst s) := by
  have hend : s.dst.toNat + s.dstCap.toNat ≤ s.memSize := by simpa [dstCheck, State.inMem] using hc
  refine drawBytes_keepsMem fun a ha => ?_
  rw [mem_regionAddrs] at ha
  omega

theorem drawInCursor_keepsMem (s : State) : KeepsMem s (drawInCursor s) := .of_eq rfl rfl rfl rfl

/-! ### The bit packer, the bit reader and the loops of the commands -/

theorem emitByte_keepsMem {v : Byte} {s t : State} (h : emitByte v s = .ok t) : KeepsMem s t := by
  obtain ⟨_, ha, rfl⟩ := emitByte_ok h
  exact (KeepsMem.setByte v ha).trans (.of_eq rfl rfl rfl rfl)

theorem emitBytes_keepsMem {vs : List Byte} {s t : State} (h : emitBytes vs s = .ok t) : KeepsMem s t := by
  induction vs generalizing s with
  | nil => cases h; exact .refl _
  | cons v vs ih =>
    obtain ⟨u, hu, ht⟩ := bind_eq_ok_iff.mp h
    exact (emitByte_keepsMem hu).trans (ih ht)

theorem putBit_keepsMem {b : Bool} {s t : State} (h : putBit b s = .ok t) : KeepsMem s t := by
  simp only [putBit] at h
  split at h
  · obtain ⟨u, hu, ht⟩ := bind_eq_ok_iff.mp h
    cases ht
    exact (emitByte_keepsMem hu).trans (.of_eq rfl rfl rfl rfl)
  · cases h
    exact .of_eq rfl rfl rfl rfl

theorem putBitList_keepsMem {bits : List Bool} {s t : State} (h : putBitList bits s = .ok t) : KeepsMem s t := by
  induction bits generalizing s with
  | nil => cases h; exact .refl _
  | cons b bits ih =>
    obtain ⟨u, hu, ht⟩ := bind_eq_ok_iff.mp h
    exact (putBit_keepsMem hu).trans (ih ht)

theorem encodeBytes_keepsMem {bs : List Byte} {n m : Nat} {s t : State} (h : encodeBytes bs n s = .ok (t, m)) : KeepsMem s t := by
  induction bs generalizing n s with
  | nil => cases h; exact .refl _
  | cons b bs ih =>
    simp only [encodeBytes] at h
    split at h
    · cases h
    · obtain ⟨u, hu, ht⟩ := bind_eq_ok_iff.mp h
      exact (putBitList_keepsMem hu).trans (ih ht)

theorem getBits_keepsMem {n v w : Nat} {s t : State} (h : getBits n v s = .ok (w, t)) : KeepsMem s t := by
  induction n generalizing v s with
  | zero => cases h; exact .refl _
  | succ n ih =>
    obtain ⟨⟨b, u⟩, hu, ht⟩ := bind_eq_ok_iff.mp h
    have hsu : KeepsMem s u := by rw [getBit_frame hu]; exact .of_eq rfl rfl rfl rfl
    exact hsu.trans (ih ht)

theorem decodeSymbol_keepsMem {sym : Nat} {s t : State} (h : decodeSymbol s = .ok (sym, t)) : KeepsMem s t := by
  rw [decodeFrom_frame h]
  exact .of_eq rfl rfl rfl rfl

theorem decodeLoop_keepsMem {limit : Option Nat} {turns k : Nat} {s : State} {d : Finished} (h : decodeLoop limit turns k s = .ok d) :
    KeepsMem s d.st := by
  induction turns generalizing k s with
  | zero => cases h
  | succ turns ih =>
    simp only [decodeLoop] at h
    split at h
    · cases h
      exact .refl s
    · obtain ⟨⟨sym, u⟩, hu, hrest⟩ := bind_eq_ok_iff.mp h
      refine (decodeSymbol_keepsMem hu).trans ?_
      simp only at hrest
      split at hrest
      · cases hrest
        exact .refl u
      · split at hrest
        · cases hrest
        · obtain ⟨v, hv, hd⟩ := bind_eq_ok_iff.mp hrest
          exact (memWrite_keepsMem hv).trans (ih hd)

theorem storePositions_keepsMem {ps : List (Nat × Nat)} {s t : State} (h : storePositions ps s = .ok t) : KeepsMem s t := by
  induction ps generalizing s with
  | nil => cases h; exact .refl _
  | cons p ps ih =>
    obtain ⟨u, hu, ht⟩ := bind_eq_ok_iff.mp h
    exact (memWrite_keepsMem hu).trans (ih ht)

theorem outputBytes_keepsMem {out : List Byte} {late : Option Stop} {s : State} {d : Finished} (h : outputBytes out late s = .ok d) :
    KeepsMem s d.st := by
  unfold outputBytes at h
  split at h
  · cases h
  · cases late with
    | some e => cases h
    | none =>
      obtain ⟨t, ht, rfl⟩ := map_eq_ok_iff.mp h
      exact writeBytes_keepsMem ht

theorem transformSource_keepsMem {f : List Byte → List Byte} {s t : State} (h : transformSource f s = .next t) : KeepsMem s t := by
  refine .of_conclude h (.refl s) fun d hd => ?_
  obtain ⟨bs, _, hw⟩ := bind_eq_ok_iff.mp hd
  obtain ⟨u, hu, rfl⟩ := map_eq_ok_iff.mp hw
  exact writeBytes_keepsMem hu

/-! ### The commands -/

theorem execBpFlush_keepsMem {s t : State} (h : execBpFlush s = .next t) : KeepsMem s t := by
  refine .of_withChecks h fun hc hop => ?_
  split at hop
  · exact .of_conclude_map hop (drawOutStream_keepsMem (hc _ (by simp [bpFlushChecks]))) fun _ hu =>
      (emitByte_keepsMem hu).trans (.of_eq rfl rfl rfl rfl)
  · cases hop
    exact (KeepsMem.refl s).succeed _ _

theorem execHbuild_keepsMem {s t : State} (h : execHbuild s = .next t) : KeepsMem s t := by
  have hclear : KeepsMem s s.clearCodeTable := .of_eq rfl rfl rfl rfl
  simp only [execHbuild] at h
  split at h
  · cases h
    exact hclear.succeed _ _
  · split at h
    · cases h
      exact hclear.fail _ _
    · cases h
      exact .of_eq rfl rfl rfl rfl

theorem execHenc_keepsMem {s t : State} (h : execHenc s = .next t) : KeepsMem s t := by
  refine .of_withChecks h fun hc hop => .of_conclude hop (drawOutStream_keepsMem (hc _ (by simp [hencChecks]))) fun d hd => ?_
  obtain ⟨bs, _, henc⟩ := bind_eq_ok_iff.mp hd
  obtain ⟨⟨u, bits⟩, hu, rfl⟩ := map_eq_ok_iff.mp henc
  exact encodeBytes_keepsMem hu

theorem execHdec_keepsMem {l : Bool} {s t : State} (h : execHdec l s = .next t) : KeepsMem s t := by
  refine .of_withChecks h fun hc hop => ?_
  have hdst : KeepsMem s (drawDst s) := drawDst_keepsMem (hc _ (by simp [hdecChecks]))
  exact .of_conclude hop (hdst.trans (drawInCursor_keepsMem _)) fun _ hd => decodeLoop_keepsMem hd

/-- RLE_ENC and RLE_DEC: a function of the source's snapshot put to the destination, which is drawn on a run-time error. -/
theorem rle_keepsMem {f : List Byte → List Byte} {late : List Byte → Option Stop} {s t : State}
    (h : withChecks s (rleChecks s) (fun s => conclude (drawDst s)
      ((snapshot s.src.toNat s.srcLen.toNat s).bind fun bs => outputBytes (f bs) (late bs) s)) = .next t) : KeepsMem s t := by
  refine .of_withChecks h fun hc hop => .of_conclude hop (drawDst_keepsMem (hc _ (by simp [rleChecks]))) fun d hd => ?_
  obtain ⟨bs, _, hout⟩ := bind_eq_ok_iff.mp hd
  exact outputBytes_keepsMem hout

/-- Every command keeps MEM canonical and the parameters (R72): by its loop where it writes MEM, by its range check where a run-time error
draws MEM, and because it leaves MEM as it is otherwise. -/
theorem exec_keepsMem {i : Instr} {s t : State} (h : exec i s = .next t) : KeepsMem s t := by
  unfold exec at h
  cases i with
  | nop | bpClear | brAlign | hfreqClr => cases h; exact .of_eq rfl rfl rfl rfl
  | bpPut =>
    exact .of_withChecks h fun hc hop =>
      .of_conclude_map hop (drawOutStream_keepsMem (hc _ (by simp [bpPutChecks]))) fun _ => putBitList_keepsMem
  | bpFlush => exact execBpFlush_keepsMem h
  | brGet => exact .of_withChecks h fun _ hop => .of_conclude_map hop (drawInCursor_keepsMem s) fun _ => getBits_keepsMem
  | hbuild => exact execHbuild_keepsMem h
  | hcbWrite =>
    exact .of_withChecks h fun hc hop =>
      .of_conclude_map hop (drawOutStream_keepsMem (hc _ (by simp [hcbWriteChecks]))) fun _ => emitBytes_keepsMem
  | henc => exact execHenc_keepsMem h
  | hencEob =>
    exact .of_withChecks h fun hc hop =>
      .of_conclude_map hop (drawOutStream_keepsMem (hc _ (by simp [hencEobChecks]))) fun _ => putBitList_keepsMem
  | hcbRead =>
    exact .of_withChecks h fun _ hop => .of_conclude_map hop (.of_eq rfl rfl rfl rfl) fun _ _ => .of_eq rfl rfl rfl rfl
  | hdec l => exact execHdec_keepsMem h
  | hdecSym => exact .of_withChecks h fun _ hop => .of_conclude_map hop (drawInCursor_keepsMem s) fun _ => decodeSymbol_keepsMem
  | deltaEnc | deltaDec => exact .of_withChecks h fun _ => transformSource_keepsMem
  | rleEnc | rleDec => exact rle_keepsMem h
  | geom => exact .of_withChecks h fun _ hop => by cases hop; exact .of_eq rfl rfl rfl rfl
  | hfreqAdd | rleMark | tileLoad | tileDeser b =>
    exact .of_withChecks h fun _ hop => .of_conclude_map hop (.refl s) fun _ _ => .of_eq rfl rfl rfl rfl
  | tileStore => exact .of_withChecks h fun _ hop => .of_conclude_map hop (.refl s) fun _ => storePositions_keepsMem
  | tileSer b => exact .of_withChecks h fun _ hop => .of_conclude_map hop (.refl s) fun _ => writeBytes_keepsMem

/-! ### The soft reset (R51, R293) -/

/-- The write set of an abandoned command is drawn inside MEM only. -/
theorem abandon_keepsMem (i : Instr) (s : State) : KeepsMem s (abandon i s) := by
  have hdraw : KeepsMem s (drawBytes ((memWriteSet s i).filter fun a => decide (a < s.memSize)) s) :=
    drawBytes_keepsMem fun a ha => by simpa using (List.mem_filter.mp ha).2
  unfold abandon
  simp only
  split
  · exact hdraw.trans (.of_eq rfl rfl rfl rfl)
  · exact hdraw

theorem State.abandonPending_keepsMem (s : State) : KeepsMem s s.abandonPending := by
  unfold State.abandonPending
  split
  · exact .refl s
  · split
    · exact abandon_keepsMem _ s
    · exact .refl s

theorem State.softReset_keepsMem (s : State) : KeepsMem s s.softReset :=
  s.abandonPending_keepsMem.trans (.of_eq rfl rfl rfl rfl)

/-! ### The host's accesses -/

theorem State.hostReadReg_keepsMem (s : State) (o : Nat) : KeepsMem s (s.hostReadReg o) := by
  unfold State.hostReadReg
  split <;> exact .of_eq rfl rfl rfl rfl

theorem State.hostReadMem_keepsMem (s : State) (w a : Nat) : KeepsMem s (s.hostReadMem w a) := by
  unfold State.hostReadMem
  split <;> exact .of_eq rfl rfl rfl rfl

theorem State.hostCheck_keepsMem (s : State) : KeepsMem s s.hostCheck :=
  (s.hostReadReg_keepsMem 0x010).trans (.of_eq rfl rfl rfl rfl)

theorem State.writeCtrl_keepsMem (s : State) (v : Word) : KeepsMem s (s.writeCtrl v) := by
  unfold State.writeCtrl
  split
  · exact s.softReset_keepsMem
  · exact .of_eq rfl rfl rfl rfl

theorem State.storeReg_keepsMem (s : State) (o : Nat) (v : Word) : KeepsMem s (s.storeReg o v) := by
  obtain ⟨_, _, _, _, _, _, _, _, _, _, _, _, _, _, _, _, _, _, _, _, _, _, h⟩ := storeReg_frame s o v
  rw [h]
  exact .of_eq rfl rfl rfl rfl

theorem State.hostWriteReg_keepsMem (s : State) (o : Nat) (v : Word) : KeepsMem s (s.hostWriteReg o v) := by
  rcases hostWriteReg_cases s o v with ⟨_, h⟩ | ⟨_, h⟩ | ⟨_, h⟩ | ⟨_, h⟩ | ⟨_, _, h⟩ | ⟨_, h⟩ <;> rw [h]
  · exact s.writeCtrl_keepsMem v
  · exact .of_eq rfl rfl rfl rfl
  · exact .refl s
  · exact .of_eq rfl rfl rfl rfl
  · exact .of_eq rfl rfl rfl rfl
  · exact s.storeReg_keepsMem o v

@[simp] theorem leBytes_length (n v : Nat) : (leBytes n v).length = n := by
  induction n generalizing v with
  | zero => rfl
  | succ n ih => simp [leBytes, ih]

theorem State.setBytes_keepsMem {s : State} {a : Nat} {vs : List Byte} (h : a + vs.length ≤ s.memSize) :
    KeepsMem s (s.setBytes a vs) := by
  induction vs generalizing s a with
  | nil => exact .refl s
  | cons v vs ih =>
    rw [List.length_cons] at h
    exact (KeepsMem.setByte v (by omega)).trans (ih (by rw [State.setByte_memSize]; omega))

theorem State.hostWriteMem_keepsMem {s : State} {w a : Nat} (v : Word) (h : memAdmitted s.memSize w a = true) :
    KeepsMem s (s.hostWriteMem w a v) := by
  obtain ⟨_, _, hend⟩ := (memAdmitted_iff ..).mp h
  unfold State.hostWriteMem
  split
  · exact .of_eq rfl rfl rfl rfl
  · exact State.setBytes_keepsMem (by rwa [leBytes_length])

theorem hostAccess_keepsMem {a : Access} {s t : State} (h : hostAccess a s = .next t) : KeepsMem s t := by
  rcases hostAccess_cases a s t h with
    ⟨w, o, _, _, rfl⟩ | ⟨w, o, v, _, _, rfl⟩ | ⟨w, b, _, _, rfl⟩ | ⟨w, b, v, _, hadm, rfl⟩
  · exact s.hostReadReg_keepsMem o
  · exact s.hostWriteReg_keepsMem o v
  · exact s.hostReadMem_keepsMem w b
  · exact State.hostWriteMem_keepsMem v hadm

/-! ### The step -/

theorem engineTurn_keepsMem {s t : State} (h : engineTurn s = .next t) : KeepsMem s t := by
  rcases engineTurn_cases s with ⟨_, he⟩ | ⟨w, i, _, _, he⟩ | ⟨w, e, _, _, he⟩ <;> rw [he] at h
  · cases h
    exact .refl s
  · exact exec_keepsMem h
  · cases h
    exact (KeepsMem.refl s).fail _ _

/-- Whichever agent moves, MEM stays canonical and the parameters stay (R6, R9, R70, R72). -/
theorem step_keepsMem {s t : State} (h : step s = .next t) : KeepsMem s t := by
  obtain ⟨rest, hmove⟩ := step_cases h
  have hevents : KeepsMem s (s.withEvents rest) := .of_eq rfl rfl rfl rfl
  rcases hmove with hengine | ⟨a, hhost⟩ | rfl
  · exact hevents.trans (engineTurn_keepsMem hengine)
  · exact hevents.trans (hostAccess_keepsMem hhost)
  · exact hevents.trans (State.hostCheck_keepsMem _)

/-- Settles O18: every step relates its states by `KeepsMem`. -/
theorem stepKeepsMemoryCanonical : Obligations.StepKeepsMemoryCanonical := by
  intro s t hinv h
  have hk := step_keepsMem h
  exact ⟨hk.memInv hinv, hk.memAddrBits, hk.regBase, hk.memBase⟩

end Sys2Proof.Machine
end

section
/-! ## PROOFS. The statements of `10_state.md`: what the registers hold and show (R21 to R41, R110, R111), what a host access can
change (R42 to R47), and the write set of every command (R50). -/

namespace Sys2Proof.Machine

/-! ### The reset state -/

@[simp] theorem tableGet_replicate_zero {n : Nat} (i : Nat) : tableGet (Vector.replicate n (0 : Nat)) i = 0 := by
  by_cases h : i < n <;> simp [tableGet, h]

@[simp] theorem tableGet_replicate_zeroWord {n : Nat} (i : Nat) : tableGet (Vector.replicate n (0 : Word)) i = 0 := by
  by_cases h : i < n
  · simp [tableGet, h]
  · simp [tableGet, h]
    rfl

theorem reset_encInv : State.reset.EncInv :=
  ⟨Nat.zero_le _, fun _ => rfl, fun i _ => ⟨Nat.le_of_eq (tableGet_replicate_zero i), fun _ => tableGet_replicate_zeroWord i⟩⟩

theorem reset_cursorInv : State.reset.CursorInv := by
  unfold State.CursorInv
  decide

theorem reset_pendingInv : State.reset.PendingInv := fun w h => absurd h (Option.some_ne_none w).symm

theorem reset_codeInv : State.reset.CodeInv := fun h => absurd h Bool.false_ne_true

theorem reset_decInv : State.reset.DecInv := ⟨fun _ => rfl, fun h => absurd h Bool.false_ne_true⟩

/-- Settles O14: the clauses on a pending word and on valid tables are about none at reset, the others about values that are 0. -/
theorem resetMeetsTheInvariants : Obligations.ResetMeetsTheInvariants :=
  ⟨⟨by decide, by decide, Memory.wf_nil _⟩, reset_cursorInv, reset_pendingInv, reset_encInv, reset_codeInv, reset_decInv⟩

/-! ### STATUS (R23, R260) -/

theorem ErrCode.number_eq_errNumber (c : ErrCode) : c.number = Claims.errNumber c := by cases c <;> rfl

theorem ErrCode.number_le (c : ErrCode) : c.number ≤ 12 := by cases c <;> decide

theorem State.err_eq (s : State) : s.err = decide (s.errCode ≠ .ok) := by
  unfold State.err
  cases s.errCode <;> rfl

/-- The number STATUS spells: seven flags below bit 7, and ERRCODE from bit 8 on. -/
def State.statusNat (s : State) : Nat :=
  s.busy.toNat + 2 * s.done.toNat + 4 * s.err.toNat + 8 * s.overrun.toNat + 16 * s.encValid.toNat
    + 32 * s.decValid.toNat + 64 * s.eob.toNat + 256 * s.errCode.number

theorem State.statusWord_toNat (s : State) : s.statusWord.toNat = s.statusNat := by
  refine (BitVec.toNat_ofNat ..).trans (Nat.mod_eq_of_lt ?_)
  have := s.errCode.number_le
  have := s.busy.toNat_le
  have := s.done.toNat_le
  have := s.err.toNat_le
  have := s.overrun.toNat_le
  have := s.encValid.toNat_le
  have := s.decValid.toNat_le
  have := s.eob.toNat_le
  omega

/-- A bit of STATUS is a digit of the number it spells. -/
theorem State.statusWord_getLsbD (s : State) {i : Nat} {b : Bool} (h : s.statusNat / 2 ^ i % 2 = b.toNat) :
    s.statusWord.getLsbD i = b := by
  rw [← BitVec.testBit_toNat, s.statusWord_toNat, Nat.testBit_eq_decide_div_mod_eq, h]
  cases b <;> rfl

/-- Every flag stands in STATUS as the digit of its weight. -/
theorem State.statusNat_digits (s : State) :
    s.statusNat / 2 ^ 0 % 2 = s.busy.toNat ∧ s.statusNat / 2 ^ 1 % 2 = s.done.toNat ∧ s.statusNat / 2 ^ 2 % 2 = s.err.toNat
    ∧ s.statusNat / 2 ^ 3 % 2 = s.overrun.toNat ∧ s.statusNat / 2 ^ 4 % 2 = s.encValid.toNat
    ∧ s.statusNat / 2 ^ 5 % 2 = s.decValid.toNat ∧ s.statusNat / 2 ^ 6 % 2 = s.eob.toNat
    ∧ s.statusNat / 2 ^ 7 % 2 = false.toNat ∧ s.statusNat / 256 = s.errCode.number := by
  have := s.busy.toNat_le
  have := s.done.toNat_le
  have := s.err.toNat_le
  have := s.overrun.toNat_le
  have := s.encValid.toNat_le
  have := s.decValid.toNat_le
  have := s.eob.toNat_le
  simp only [State.statusNat, Bool.toNat_false]
  omega

theorem State.writeStatus_eq (s : State) (v : Word) :
    s.writeStatus v = { s with
      done := if v.getLsbD 1 then false else s.done
      overrun := if v.getLsbD 3 then false else s.overrun } := by
  unfold State.writeStatus
  cases v.getLsbD 1 <;> cases v.getLsbD 3 <;> simp

/-- Settles O11: the digits of STATUS, and the STATUS write, which no state of the core drops. -/
theorem statusShowsAndClearsTheFlags : Obligations.StatusShowsAndClearsTheFlags := by
  intro s
  obtain ⟨h0, h1, h2, h3, h4, h5, h6, h7, hcode⟩ := s.statusNat_digits
  refine ⟨s.statusWord_getLsbD h0, s.statusWord_getLsbD h1, ?_, s.statusWord_getLsbD h3, s.statusWord_getLsbD h4,
    s.statusWord_getLsbD h5, s.statusWord_getLsbD h6, s.statusWord_getLsbD h7, ?_, fun v => ?_⟩
  · rw [s.statusWord_getLsbD h2, s.err_eq]
  · rw [s.statusWord_toNat, hcode, s.errCode.number_eq_errNumber]
  · exact congrArg _ (s.writeStatus_eq v)

/-! ### Register accesses by offset -/

/-- An offset of the map whose writes have no effect of their own: not that of CTRL, STATUS or CMD. -/
abbrev plainOffset (o : Nat) : Prop := o % 8 = 0 ∧ o < 0x0F8 ∧ o ≠ 0x008 ∧ o ≠ 0x010 ∧ o ≠ 0x018

/-- The RW registers without RO fields: all but CTRL and TILE_GEOM (R41). -/
def wholeRegisters : List Nat :=
  [0x020, 0x028, 0x030, 0x038, 0x040, 0x048, 0x050, 0x068, 0x070, 0x078, 0x080, 0x098, 0x0A0, 0x0A8, 0x0B0, 0x0B8, 0x0C0, 0x0E0, 0x0E8]

/-- The RO registers of which a write is no acceptance and clears nothing (R41). -/
def readOnlyRegisters : List Nat := [0x000, 0x058, 0x060, 0x088, 0x090, 0x0D0, 0x0D8, 0x0F0]

theorem plainOffset_of_mem_wholeRegisters : ∀ {o : Nat}, o ∈ wholeRegisters → plainOffset o := by decide

theorem plainOffset_of_mem_readOnlyRegisters : ∀ {o : Nat}, o ∈ readOnlyRegisters → plainOffset o := by decide

section Register

variable {s : State} {o : Nat}

theorem busy_eq_true_of_pending {w : Word} (h : s.pending = some w) : s.busy = true := by simp [State.busy, h]

theorem busy_eq_false_of_pending (h : s.pending = none) : s.busy = false := by simp [State.busy, h]

theorem hostAccess_regWrite (v : Word) (h8 : o % 8 = 0) (ho : o < 4096) :
    hostAccess (.regWrite 8 o v) s = .next (s.hostWriteReg o v) :=
  if_pos ((regAdmitted_iff 8 o).mpr ⟨rfl, h8, ho⟩)

theorem hostAccess_regRead (h8 : o % 8 = 0) (ho : o < 4096) : hostAccess (.regRead 8 o) s = .next (s.hostReadReg o) :=
  if_pos ((regAdmitted_iff 8 o).mpr ⟨rfl, h8, ho⟩)

/-- A reserved offset ignores a write, busy or not (R40). -/
theorem hostAccess_regWrite_reserved (v : Word) (h8 : o % 8 = 0) (hlow : 0x0F8 ≤ o) (ho : o < 4096) :
    hostAccess (.regWrite 8 o v) s = .next s := by
  have hres : reservedOffset o = true := decide_eq_true hlow
  rw [hostAccess_regWrite v h8 ho, State.hostWriteReg, if_neg (by omega), if_neg (by omega), if_pos hres]

/-- A busy core drops a write to any register of the map but CTRL and STATUS (R110, R111). -/
theorem hostAccess_regWrite_busy {w : Word} (v : Word) (hp : s.pending = some w) (h8 : o % 8 = 0) (ho : o ≤ 0x0F0)
    (hctrl : o ≠ 0x008) (hstatus : o ≠ 0x010) : hostAccess (.regWrite 8 o v) s = .next s.dropWrite := by
  have hres : ¬ reservedOffset o = true := by simp [reservedOffset]; omega
  rw [hostAccess_regWrite v h8 (by omega), State.hostWriteReg, if_neg hctrl, if_neg hstatus, if_neg hres,
    if_pos (busy_eq_true_of_pending hp)]

/-- An idle core stores a write to a register of the map but CTRL, STATUS and CMD (R41). -/
theorem hostAccess_regWrite_idle (v : Word) (hp : s.pending = none) (ho : plainOffset o) :
    hostAccess (.regWrite 8 o v) s = .next (s.storeReg o v) := by
  obtain ⟨h8, hlow, hctrl, hstatus, hcmd⟩ := ho
  have hres : ¬ reservedOffset o = true := by simp [reservedOffset]; omega
  rw [hostAccess_regWrite v h8 (by omega), State.hostWriteReg, if_neg hctrl, if_neg hstatus, if_neg hres,
    if_neg (by rw [busy_eq_false_of_pending hp]; exact Bool.false_ne_true), if_neg hcmd]

/-- An idle core accepts a write to CMD (R108). -/
theorem hostAccess_regWrite_cmd_idle (w : Word) (hp : s.pending = none) :
    hostAccess (.regWrite 8 0x018 w) s = .next (s.accept w) := by
  rw [hostAccess_regWrite w (by decide) (by decide), State.hostWriteReg, if_neg (by decide), if_neg (by decide), if_neg (by decide),
    if_neg (by rw [busy_eq_false_of_pending hp]; exact Bool.false_ne_true), if_pos rfl]

/-- A read of an idle core returns the register's value; one of another register than STATUS changes nothing else. -/
theorem hostAccess_regRead_idle (hp : s.pending = none) (h8 : o % 8 = 0) (ho : o < 4096) (hstatus : o ≠ 0x010) :
    hostAccess (.regRead 8 o) s = .next { s with portData := s.readReg o } := by
  have hseen : s.observes o = s.seenIdle := by simp [State.observes, hstatus]
  rw [hostAccess_regRead h8 ho, State.hostReadReg, busy_eq_false_of_pending hp, Bool.false_and, if_neg Bool.false_ne_true, hseen]

/-- A STATUS read of an idle core shows BUSY = 0. -/
theorem hostAccess_regRead_status_idle (hp : s.pending = none) :
    hostAccess (.regRead 8 0x010) s = .next { s with portData := s.statusWord, seenIdle := true } := by
  have hseen : s.observes 0x010 = true := by simp [State.observes, busy_eq_false_of_pending hp]
  rw [hostAccess_regRead (by decide) (by decide), State.hostReadReg, busy_eq_false_of_pending hp, Bool.false_and,
    if_neg Bool.false_ne_true, hseen]
  rfl

theorem storeReg_pending (v : Word) : (s.storeReg o v).pending = s.pending := by
  obtain ⟨_, _, _, _, _, _, _, _, _, _, _, _, _, _, _, _, _, _, _, _, _, _, h⟩ := storeReg_frame s o v
  rw [h]

/-- What an idle core reads from a register after a write to it. -/
theorem write_then_read_idle (v : Word) (hp : s.pending = none) (ho : plainOffset o) {x : Word}
    (hx : (s.storeReg o v).readReg o = x) :
    ∃ t u : State, hostAccess (.regWrite 8 o v) s = .next t ∧ hostAccess (.regRead 8 o) t = .next u ∧ u.portData = x :=
  ⟨_, _, hostAccess_regWrite_idle v hp ho,
    hostAccess_regRead_idle ((storeReg_pending v).trans hp) ho.1 (by omega) (by omega), hx⟩

end Register

/-! ### Writes while busy (R110, R111) -/

/-- Settles O6: register writes by their offset, memory writes by the busy branch of the memory port. -/
theorem writesWhileBusyAreDropped : Obligations.WritesWhileBusyAreDropped := by
  intro s v w hp
  refine ⟨fun o h8 ho hctrl hstatus => hostAccess_regWrite_busy v hp h8 ho hctrl hstatus,
    fun o h8 hlow ho => hostAccess_regWrite_reserved v h8 hlow ho, fun n a hadm => ?_⟩
  rw [hostAccess, if_pos hadm, State.hostWriteMem, if_pos (busy_eq_true_of_pending hp)]
  rfl

/-! ### What a register reads back (R21 to R41) -/

/-- The low bits of a value are the value under their mask. -/
theorem toWord_extractLsb'_zero (v : Word) (n : Nat) :
    toWord (v.extractLsb' 0 n).toNat = v &&& BitVec.ofNat 64 (2 ^ n - 1) := by
  apply BitVec.eq_of_toNat_eq
  rw [toWord, BitVec.toNat_ofNat, BitVec.toNat_and, BitVec.toNat_ofNat, BitVec.extractLsb'_toNat, Nat.shiftRight_zero,
    ← Nat.and_two_pow_sub_one_eq_mod v.toNat n, Nat.and_mod_two_pow, Nat.mod_eq_of_lt v.isLt]

/-- The 19 whole RW registers return what they were given, less the ignored bits of MARKER and TBL_SEL. -/
theorem readReg_storeReg (s : State) (v : Word) {o : Nat} (ho : o ∈ wholeRegisters) :
    (s.storeReg o v).readReg o = if o = 0x098 then v &&& 0xFF else if o = 0x0E0 then v &&& 0xF else v := by
  by_cases hmarker : o = 0x098
  · subst hmarker
    exact toWord_extractLsb'_zero v 8
  by_cases htblSel : o = 0x0E0
  · subst htblSel
    exact toWord_extractLsb'_zero v 4
  rw [if_neg hmarker, if_neg htblSel]
  simp only [wholeRegisters, List.mem_cons, List.not_mem_nil, or_false, hmarker, htblSel, false_or] at ho
  rcases ho with rfl | rfl | rfl | rfl | rfl | rfl | rfl | rfl | rfl | rfl | rfl | rfl | rfl | rfl | rfl | rfl | rfl <;> rfl

/-- The mask of TILE_GEOM's three fields, taken apart. -/
theorem and_tileGeomMask (n : Nat) :
    n &&& 0x1F1F1F = n % 32 + 2 ^ 8 * (n / 2 ^ 8 % 32) + 2 ^ 16 * (n / 2 ^ 16 % 32) := by
  have hsplit : ∀ x y : Nat, x &&& y = (x % 2 ^ 8 &&& y % 2 ^ 8) + 2 ^ 8 * (x / 2 ^ 8 &&& y / 2 ^ 8) := by
    intro x y
    rw [← Nat.and_mod_two_pow, ← Nat.and_div_two_pow, Nat.mod_add_div]
  have hmask : ∀ x : Nat, x &&& 31 = x % 32 := fun x => Nat.and_two_pow_sub_one_eq_mod x 5
  rw [hsplit n, hsplit (n / 2 ^ 8)]
  simp only [Nat.reducePow, Nat.reduceMod, Nat.reduceDiv, hmask, Nat.div_div_eq_div_mul]
  omega

/-- TILE_GEOM returns the three fields written and TCNT computed from them (R37). -/
theorem readReg_storeReg_tileGeom (s : State) (v : Word) :
    (s.storeReg 0x0C8 v).readReg 0x0C8 = (v &&& 0x1F1F1F)
      + toWord (if v.toNat / 2 ^ 8 % 32 = 0 then 0
                else v.toNat % 32 * (v.toNat / 2 ^ 8 % 32 - 1) + v.toNat / 2 ^ 16 % 32) <<< 32 := by
  have htw : (v.extractLsb' 0 5).toNat = v.toNat % 32 := by simp [BitVec.extractLsb'_toNat]
  have hth : (v.extractLsb' 8 5).toNat = v.toNat / 2 ^ 8 % 32 := by
    simp [BitVec.extractLsb'_toNat, Nat.shiftRight_eq_div_pow]
  have htk : (v.extractLsb' 16 5).toNat = v.toNat / 2 ^ 16 % 32 := by
    simp [BitVec.extractLsb'_toNat, Nat.shiftRight_eq_div_pow]
  show toWord ((v.extractLsb' 0 5).toNat + 2 ^ 8 * (v.extractLsb' 8 5).toNat + 2 ^ 16 * (v.extractLsb' 16 5).toNat
    + 2 ^ 32 * (if (v.extractLsb' 8 5).toNat = 0 then 0
                else (v.extractLsb' 0 5).toNat * ((v.extractLsb' 8 5).toNat - 1) + (v.extractLsb' 16 5).toNat)) = _
  rw [htw, hth, htk, ← and_tileGeomMask]
  generalize (if v.toNat / 2 ^ 8 % 32 = 0 then 0 else v.toNat % 32 * (v.toNat / 2 ^ 8 % 32 - 1) + v.toNat / 2 ^ 16 % 32) = count
  apply BitVec.eq_of_toNat_eq
  simp [toWord, BitVec.toNat_add, BitVec.toNat_and, BitVec.toNat_shiftLeft, Nat.shiftLeft_eq, Nat.mul_comm]

/-! ### The table window (R39) -/

theorem tableGet_of_le {α : Type} [Inhabited α] {n i : Nat} (v : Vector α n) (h : n ≤ i) : tableGet v i = default := by
  simp [tableGet, h]

/-- Past a table's end the window reads 0, which is what an access there gives. -/
theorem window_of_index {α : Type} [Inhabited α] {n : Nat} (v : Vector α n) (i : Nat) (f : α → Word) (hf : f default = 0) :
    f (tableGet v i) = if i < n then f (tableGet v i) else 0 := by
  by_cases h : i < n
  · rw [if_pos h]
  · rw [if_neg h, tableGet_of_le v (by omega), hf]

/-- The same for a table by code length, which has the entries 1 to 64. -/
theorem window_of_length {α : Type} [Inhabited α] (v : Vector α 64) (i : Nat) (f : α → Word) (hf : f default = 0) :
    (if i = 0 then 0 else f (tableGet v (i - 1))) = if 1 ≤ i ∧ i ≤ 64 then f (tableGet v (i - 1)) else 0 := by
  by_cases h0 : i = 0
  · rw [if_pos h0, if_neg (by omega)]
  · by_cases h64 : i ≤ 64
    · rw [if_neg h0, if_pos (by omega)]
    · rw [if_neg h0, if_neg (by omega), tableGet_of_le v (by omega), hf]

theorem toWord_firstCode (s : State) (l : Nat) : toWord (s.firstCode l) = tableGet s.decFirstCode (l - 1) :=
  BitVec.ofNat_toNat ..

theorem tblData_eq_tableEntry (s : State) : s.tblData = Claims.tableEntry s := by
  unfold State.tblData Claims.tableEntry
  simp only
  split
  case h_9 h0 h1 h2 h3 h4 h5 h6 h7 =>
    rw [if_neg fun h => h0 h.1, if_neg fun h => h1 h.1, if_neg fun h => h2 h.1, if_neg fun h => h3 h.1, if_neg fun h => h4 h.1,
      if_neg fun h => h5 h.1, if_neg fun h => h6 h.1, if_neg fun h => h7 h.1]
  all_goals
    rename_i hsel
    simp only [hsel, Nat.reduceEqDiff, true_and, false_and, if_false, Nat.div_add_mod, toWord_firstCode]
  case h_1 => exact window_of_index s.freq _ id rfl
  case h_2 => exact window_of_index s.codeLen _ toWord rfl
  case h_3 => exact window_of_index s.codeVal _ id rfl
  case h_4 => exact window_of_index s.tile _ (fun b => toWord b.toNat) rfl
  case h_5 => exact window_of_length s.decCnt _ toWord rfl
  case h_6 => exact window_of_length s.decFirstCode _ id rfl
  case h_7 => exact window_of_length s.decFirstSym _ toWord rfl
  case h_8 => exact window_of_index s.decAlpha _ toWord rfl

/-! ### Every register of the map -/

theorem hostAccess_regWrite_ctrl (s : State) (v : Word) : hostAccess (.regWrite 8 0x008 v) s = .next (s.writeCtrl v) := rfl

/-- A CTRL write without SRST stores IE, busy or not (R22). -/
theorem writeCtrl_of_not_srst (s : State) {v : Word} (h : v.getLsbD 1 = false) : s.writeCtrl v = { s with ie := v.getLsbD 0 } := by
  rw [State.writeCtrl, h, if_neg Bool.false_ne_true]

/-- The RO registers ignore a write (R41). -/
theorem storeReg_readOnly (s : State) (v : Word) {o : Nat} (ho : o ∈ readOnlyRegisters) :
    s.storeReg o v = s := by
  simp only [readOnlyRegisters, List.mem_cons, List.not_mem_nil, or_false] at ho
  rcases ho with rfl | rfl | rfl | rfl | rfl | rfl | rfl | rfl <;> rfl

theorem readReg_reserved (s : State) {o : Nat} (ho : 0x0F8 ≤ o) : s.readReg o = 0 := by
  unfold State.readReg
  split
  case h_32 => rfl
  all_goals omega

/-- Settles O8: a write is `storeReg` and a read `readReg`, each of them a match on the offset. -/
theorem registersHoldWhatTheHostWrites : Obligations.RegistersHoldWhatTheHostWrites := by
  refine ⟨fun s v hsrst => by rw [hostAccess_regWrite_ctrl, writeCtrl_of_not_srst s hsrst], fun s v o hp => ?_⟩
  have hwrite : ∀ {o : Nat}, plainOffset o → hostAccess (.regWrite 8 o v) s = .next (s.storeReg o v) :=
    hostAccess_regWrite_idle v hp
  have hread : ∀ {o : Nat}, o % 8 = 0 ∧ o < 4096 ∧ o ≠ 0x010 → hostAccess (.regRead 8 o) s = .next { s with portData := s.readReg o } :=
    fun ⟨h8, ho, hstatus⟩ => hostAccess_regRead_idle hp h8 ho hstatus
  refine ⟨fun ho => ?_, ?_, fun ho => ?_, fun h8 hlow ho => ⟨hostAccess_regWrite_reserved v h8 hlow ho, ?_⟩,
    hwrite (by decide), hwrite (by decide), hwrite (by decide), hwrite (by decide), hwrite (by decide), hwrite (by decide),
    hwrite (by decide), hwrite (by decide), hwrite (by decide), hwrite (by decide), hwrite (by decide), hwrite (by decide),
    hwrite (by decide), hwrite (by decide), hwrite (by decide), hwrite (by decide), hwrite (by decide), hwrite (by decide),
    hwrite (by decide), ?_,
    hread (by decide), hread (by decide), hread (by decide), hread (by decide), hread (by decide), hread (by decide),
    hread (by decide), hread (by decide), hread (by decide), hread (by decide), hread (by decide), hread (by decide),
    hread (by decide), hread (by decide), hread (by decide), hread (by decide), hread (by decide), hread (by decide),
    hread (by decide), hread (by decide), hread (by decide), hread (by decide), hostAccess_regRead_status_idle hp,
    hread (by decide), hread (by decide), hread (by decide), hread (by decide), hread (by decide), hread (by decide),
    hread (by decide), ?_⟩
  · exact write_then_read_idle v hp (plainOffset_of_mem_wholeRegisters ho) (readReg_storeReg s v ho)
  · rintro rfl
    exact write_then_read_idle v hp (by decide) (readReg_storeReg_tileGeom s v)
  · rw [hwrite (plainOffset_of_mem_readOnlyRegisters ho), storeReg_readOnly s v ho]
  · rw [hread ⟨h8, ho, by omega⟩, readReg_reserved s hlow]
  · rw [hwrite (by decide), ← Nat.shiftRight_eq_div_pow, ← Nat.shiftRight_eq_div_pow]
    rfl
  · rw [hread (by decide), ← tblData_eq_tableEntry]
    rfl

/-! ### What a host access can change -/

/-- `s` with every field that a host access other than a soft reset can change taken from `t`. -/
def hostPart (s t : State) : State :=
  { s with
    ie := t.ie, pending := t.pending, done := t.done, overrun := t.overrun, eob := t.eob, errCode := t.errCode, cmd := t.cmd
    src := t.src, srcLen := t.srcLen, dst := t.dst, dstCap := t.dstCap, argN := t.argN, argVal := t.argVal, limit := t.limit
    outPtr := t.outPtr, outEnd := t.outEnd, inPtr := t.inPtr, inEnd := t.inEnd, marker := t.marker
    imgBase := t.imgBase, imgSize := t.imgSize, imgWidth := t.imgWidth, tileX := t.tileX, tileY := t.tileY
    tw := t.tw, th := t.th, tk := t.tk, tblSel := t.tblSel, tblIdx := t.tblIdx
    mem := t.mem, portData := t.portData, seenIdle := t.seenIdle, draws := t.draws }

theorem State.hostReadReg_frame (s : State) (o : Nat) :
    s.hostReadReg o = { s with
      portData := (s.hostReadReg o).portData
      seenIdle := (s.hostReadReg o).seenIdle
      draws := (s.hostReadReg o).draws } := by
  unfold State.hostReadReg
  split <;> rfl

theorem State.hostReadMem_frame (s : State) (w a : Nat) :
    s.hostReadMem w a = { s with portData := (s.hostReadMem w a).portData, draws := (s.hostReadMem w a).draws } := by
  unfold State.hostReadMem
  split <;> rfl

theorem State.setBytes_frame (s : State) (a : Nat) (vs : List Byte) : s.setBytes a vs = { s with mem := (s.setBytes a vs).mem } := by
  induction vs generalizing s a with
  | nil => rfl
  | cons v vs ih => exact ih (s.setByte a v) (a + 1)

theorem State.hostWriteMem_frame (s : State) (w a : Nat) (v : Word) :
    s.hostWriteMem w a v = { s with overrun := (s.hostWriteMem w a v).overrun, mem := (s.hostWriteMem w a v).mem } := by
  unfold State.hostWriteMem
  split
  · rfl
  · rw [State.setBytes_frame]

theorem State.hostWriteReg_frame (s : State) (o : Nat) (v : Word) (hsrst : o = 0x008 → v.getLsbD 1 = false) :
    s.hostWriteReg o v = hostPart s (s.hostWriteReg o v) := by
  rcases hostWriteReg_cases s o v with ⟨ho, h⟩ | ⟨_, h⟩ | ⟨_, h⟩ | ⟨_, h⟩ | ⟨_, _, h⟩ | ⟨_, h⟩ <;> rw [h]
  · rw [writeCtrl_of_not_srst s (hsrst ho)]; rfl
  · rfl
  · rfl
  · rfl
  · rfl
  · obtain ⟨_, _, _, _, _, _, _, _, _, _, _, _, _, _, _, _, _, _, _, _, _, _, hstore⟩ := storeReg_frame s o v
    rw [hstore]
    rfl

/-- A host access without SRST changes only what a host access can. -/
theorem hostAccess_frame {a : Access} {s t : State} (h : hostAccess a s = .next t)
    (hsrst : ∀ n v, a = .regWrite n 0x008 v → v.getLsbD 1 = false) : t = hostPart s t := by
  rcases hostAccess_cases a s t h with ⟨w, o, _, _, rfl⟩ | ⟨w, o, v, rfl, _, rfl⟩ | ⟨w, b, _, _, rfl⟩ | ⟨w, b, v, _, _, rfl⟩
  · rw [s.hostReadReg_frame o]; rfl
  · exact s.hostWriteReg_frame o v fun ho => hsrst w v (by rw [ho])
  · rw [s.hostReadMem_frame w b]; rfl
  · rw [s.hostWriteMem_frame w b v]; rfl

/-! ### MARKER, MEM and IRQ under a register write -/

theorem storeReg_marker (s : State) {o : Nat} (v : Word) (ho : o ≠ 0x098) : (s.storeReg o v).marker = s.marker := by
  unfold State.storeReg
  split
  case h_12 => exact absurd rfl ho
  all_goals rfl

theorem State.hostWriteReg_marker (s : State) {o : Nat} (v : Word) (hsrst : o = 0x008 → v.getLsbD 1 = false) (ho : o ≠ 0x098) :
    (s.hostWriteReg o v).marker = s.marker := by
  rcases hostWriteReg_cases s o v with ⟨hctrl, h⟩ | ⟨_, h⟩ | ⟨_, h⟩ | ⟨_, h⟩ | ⟨_, _, h⟩ | ⟨_, h⟩ <;> rw [h]
  · rw [writeCtrl_of_not_srst s (hsrst hctrl)]
  · rfl
  · rfl
  · rfl
  · exact storeReg_marker s v ho

theorem State.hostWriteReg_mem (s : State) (o : Nat) (v : Word) (hsrst : o = 0x008 → v.getLsbD 1 = false) :
    (s.hostWriteReg o v).mem = s.mem := by
  rcases hostWriteReg_cases s o v with ⟨hctrl, h⟩ | ⟨_, h⟩ | ⟨_, h⟩ | ⟨_, h⟩ | ⟨_, _, h⟩ | ⟨_, h⟩ <;> rw [h]
  · rw [writeCtrl_of_not_srst s (hsrst hctrl)]
  · rfl
  · rfl
  · rfl
  · obtain ⟨_, _, _, _, _, _, _, _, _, _, _, _, _, _, _, _, _, _, _, _, _, _, hstore⟩ := storeReg_frame s o v
    rw [hstore]

theorem hostAccess_marker {a : Access} {s t : State} (h : hostAccess a s = .next t)
    (hsrst : ∀ n v, a = .regWrite n 0x008 v → v.getLsbD 1 = false) (ha : ∀ n v, a ≠ .regWrite n 0x098 v) : t.marker = s.marker := by
  rcases hostAccess_cases a s t h with ⟨w, o, _, _, rfl⟩ | ⟨w, o, v, rfl, _, rfl⟩ | ⟨w, b, _, _, rfl⟩ | ⟨w, b, v, _, _, rfl⟩
  · rw [s.hostReadReg_frame o]
  · exact s.hostWriteReg_marker v (fun ho => hsrst w v (by rw [ho])) fun ho => ha w v (by rw [ho])
  · rw [s.hostReadMem_frame w b]
  · rw [s.hostWriteMem_frame w b v]

theorem hostAccess_mem {a : Access} {s t : State} (h : hostAccess a s = .next t)
    (hsrst : ∀ n v, a = .regWrite n 0x008 v → v.getLsbD 1 = false) (ha : ∀ n b v, a ≠ .memWrite n b v) : t.mem = s.mem := by
  rcases hostAccess_cases a s t h with ⟨w, o, _, _, rfl⟩ | ⟨w, o, v, rfl, _, rfl⟩ | ⟨w, b, _, _, rfl⟩ | ⟨w, b, v, rfl, _, rfl⟩
  · rw [s.hostReadReg_frame o]
  · exact s.hostWriteReg_mem o v fun ho => hsrst w v (by rw [ho])
  · rw [s.hostReadMem_frame w b]
  · exact absurd rfl (ha w b v)

/-- Settles O23: the fields outside `hostPart`, then MARKER and MEM each with the one access that writes it. -/
theorem hostAccessesKeepTheTables : Obligations.HostAccessesKeepTheTables := by
  intro s t a h hsrst
  have hf := hostAccess_frame h hsrst
  exact ⟨(congrArg State.freq hf :), (congrArg State.codeLen hf :), (congrArg State.codeVal hf :), (congrArg State.encValid hf :),
    (congrArg State.encMaxlen hf :), (congrArg State.decCnt hf :), (congrArg State.decFirstCode hf :), (congrArg State.decFirstSym hf :),
    (congrArg State.decAlpha hf :), (congrArg State.decValid hf :), (congrArg State.decMaxlen hf :), (congrArg State.tile hf :),
    (congrArg State.bpAcc hf :), (congrArg State.bpFree hf :), (congrArg State.brAcc hf :), (congrArg State.brLeft hf :),
    (congrArg State.result hf :), (congrArg State.errInfo hf :), hostAccess_marker h hsrst, hostAccess_mem h hsrst⟩

/-! ### The interrupt line under a host access (R47, R268) -/

theorem State.writeCtrl_irq (s : State) (v : Word) : (s.writeCtrl v).irq = (v.getLsbD 0 && !v.getLsbD 1 && s.done) := by
  unfold State.writeCtrl
  cases v.getLsbD 1
  · simp [State.irq]
  · simp [State.irq, State.softReset, State.reset]

theorem State.writeStatus_irq (s : State) (v : Word) : (s.writeStatus v).irq = (s.irq && !v.getLsbD 1) :=
  (Bool.and_assoc ..).symm

theorem storeReg_irq (s : State) (o : Nat) (v : Word) : (s.storeReg o v).irq = s.irq := by
  obtain ⟨_, _, _, _, _, _, _, _, _, _, _, _, _, _, _, _, _, _, _, _, _, _, h⟩ := storeReg_frame s o v
  rw [h]
  rfl

/-- A register write raises IRQ only at CTRL. -/
theorem State.irq_of_hostWriteReg_irq {s : State} {o : Nat} {v : Word} (hctrl : o ≠ 0x008) (hirq : (s.hostWriteReg o v).irq = true) :
    s.irq = true := by
  rcases hostWriteReg_cases s o v with ⟨ho, _⟩ | ⟨_, h⟩ | ⟨_, h⟩ | ⟨_, h⟩ | ⟨_, _, h⟩ | ⟨_, h⟩
  · exact absurd ho hctrl
  · rw [h, s.writeStatus_irq, Bool.and_eq_true] at hirq
    exact hirq.1
  · rwa [h] at hirq
  · rwa [h] at hirq
  · rw [h, State.irq, State.accept_done, Bool.and_false] at hirq
    cases hirq
  · rwa [h, storeReg_irq] at hirq

/-- No host access but a CTRL write raises IRQ. -/
theorem irq_of_hostAccess_irq {a : Access} {s t : State} (h : hostAccess a s = .next t) (hctrl : ∀ n v, a ≠ .regWrite n 0x008 v)
    (hirq : t.irq = true) : s.irq = true := by
  rcases hostAccess_cases a s t h with ⟨w, o, _, _, rfl⟩ | ⟨w, o, v, rfl, _, rfl⟩ | ⟨w, b, _, _, rfl⟩ | ⟨w, b, v, _, _, rfl⟩
  · rwa [s.hostReadReg_frame o] at hirq
  · exact State.irq_of_hostWriteReg_irq (fun ho => hctrl w v (by rw [ho])) hirq
  · rwa [s.hostReadMem_frame w b] at hirq
  · rwa [s.hostWriteMem_frame w b v] at hirq

/-! ### The valid positions of a tile (R230, R235) -/

theorem validPos_iff (s : State) (r c : Nat) : s.validPos r c = true ↔ Claims.tileValid s r c := by
  simp [State.validPos, Claims.tileValid, Claims.valid]

theorem shapeLegal_of_shapeCheck {s : State} (h : (shapeCheck s).ok = true) : Claims.shapeLegal s := by
  simpa [shapeCheck, Claims.shapeLegal, and_assoc] using h

theorem tileValid_of_mem_rowMajor {s : State} {p : Nat × Nat} (h : p ∈ s.rowMajor) : Claims.tileValid s p.1 p.2 := by
  obtain ⟨r, _, hp⟩ := List.mem_flatMap.mp h
  obtain ⟨c, hc, rfl⟩ := List.mem_map.mp hp
  exact (validPos_iff s r c).mp (List.mem_filter.mp hc).2

/-- Positions listed line by line are counted by adding up the lines' counts. -/
theorem length_flatMap_filter_map {α : Type} (l m : List Nat) (p : Nat → Nat → Bool) (f : Nat → Nat → α) :
    (l.flatMap fun i => (m.filter fun j => p i j).map fun j => f i j).length = (l.map fun i => m.countP (p i)).sum := by
  induction l with
  | nil => rfl
  | cons i l ih =>
    rw [List.flatMap_cons, List.length_append, List.length_map, ih, List.map_cons, List.sum_cons, List.countP_eq_length_filter]

theorem sum_map_add_ite (m : List Nat) (f : Nat → Nat) (q : Nat → Bool) :
    (m.map fun j => f j + if q j then 1 else 0).sum = m.countP q + (m.map f).sum := by
  induction m with
  | nil => rfl
  | cons j m ih =>
    rw [List.map_cons, List.map_cons, List.sum_cons, List.sum_cons, List.countP_cons, ih]
    omega

/-- Counting pairs line by line and column by column gives the same number. -/
theorem sum_countP_swap (l m : List Nat) (p : Nat → Nat → Bool) :
    (l.map fun i => m.countP (p i)).sum = (m.map fun j => l.countP fun i => p i j).sum := by
  induction l with
  | nil =>
    induction m with
    | nil => rfl
    | cons j m ih => rw [List.map_cons, List.sum_cons, ← ih]; rfl
  | cons i l ih =>
    simp only [List.countP_cons]
    rw [sum_map_add_ite, List.map_cons, List.sum_cons, ih]

/-- Either order lists every valid position once, so both have the same length. -/
theorem tileOrder_length_eq (s : State) (t : Bool) :
    (s.tileOrder t).length = ((List.range 16).map fun r => (List.range 16).countP (s.validPos r)).sum := by
  cases t with
  | false => exact length_flatMap_filter_map _ _ s.validPos fun r c => (r, c)
  | true =>
    exact (length_flatMap_filter_map _ _ (fun c r => s.validPos r c) fun c r => (r, c)).trans (sum_countP_swap _ _ s.validPos).symm

theorem countP_range_lt (n k : Nat) : (List.range n).countP (fun c => decide (c < k)) = min k n := by
  induction n with
  | zero => rw [Nat.min_zero]; rfl
  | succ n ih =>
    rw [List.range_succ, List.countP_append, ih, List.countP_singleton]
    by_cases h : n < k
    · rw [if_pos (decide_eq_true h)]
      omega
    · rw [if_neg (mt of_decide_eq_true h)]
      omega

/-- The valid positions of one row. -/
def State.rowCount (s : State) (r : Nat) : Nat :=
  if r + 1 < s.th.toNat then s.tw.toNat else if r + 1 = s.th.toNat then s.tk.toNat else 0

theorem validPos_iff_lt_rowCount (s : State) (r c : Nat) : s.validPos r c = true ↔ c < s.rowCount r := by
  rw [validPos_iff, Claims.tileValid, Claims.valid, State.rowCount]
  split
  · omega
  · split <;> omega

theorem rowCount_le {s : State} (h : Claims.shapeLegal s) (r : Nat) : s.rowCount r ≤ 16 := by
  obtain ⟨_, htw, _, _, htk⟩ := h
  rw [State.rowCount]
  split
  · omega
  · split <;> omega

theorem countP_validPos {s : State} (h : Claims.shapeLegal s) (r : Nat) : (List.range 16).countP (s.validPos r) = s.rowCount r := by
  have hrow : s.validPos r = fun c => decide (c < s.rowCount r) :=
    funext fun c => Bool.eq_iff_iff.mpr ((validPos_iff_lt_rowCount s r c).trans decide_eq_true_iff.symm)
  rw [hrow, countP_range_lt, Nat.min_eq_left (rowCount_le h r)]

/-- Rows of TW values up to the last, which has TK (R37, R230). -/
theorem sum_rowCount {s : State} (h : 1 ≤ s.th.toNat) (n : Nat) :
    ((List.range n).map s.rowCount).sum
      = if n < s.th.toNat then s.tw.toNat * n else s.tw.toNat * (s.th.toNat - 1) + s.tk.toNat := by
  induction n with
  | zero => rw [if_pos (by omega)]; rfl
  | succ n ih =>
    rw [List.range_succ, List.map_append, List.sum_append, ih, List.map_singleton, List.sum_singleton, State.rowCount]
    rcases Nat.lt_trichotomy (n + 1) s.th.toNat with hlt | heq | hgt
    · rw [if_pos (by omega), if_pos hlt, if_pos hlt, Nat.mul_succ]
    · rw [if_pos (by omega), if_neg (by omega), if_pos heq, if_neg (by omega), ← heq, Nat.add_sub_cancel]
    · rw [if_neg (by omega), if_neg (by omega), if_neg (by omega), if_neg (by omega), Nat.add_zero]

/-- A tile of a legal shape has TCNT valid positions, in either order (R235). -/
theorem tileOrder_length {s : State} (h : Claims.shapeLegal s) (t : Bool) : (s.tileOrder t).length = s.tcnt := by
  rw [tileOrder_length_eq, List.map_congr_left fun r _ => countP_validPos h r]
  obtain ⟨_, _, hlow, hhigh, _⟩ := h
  rw [sum_rowCount hlow, if_neg (by omega), State.tcnt, if_neg (by omega)]

/-! ### What a command may change (R50) -/

theorem toWord_toNat {n : Nat} (h : n < 2 ^ 64) : (toWord n).toNat = n := by
  rw [toWord, BitVec.toNat_ofNat, Nat.mod_eq_of_lt h]

/-- The bytes of MEM that a command started in `s` and completed in `t` may have changed. -/
def storedBytes (s t : State) (i : Instr) (a : Nat) : Prop :=
  match i with
  | .bpPut | .bpFlush | .hcbWrite | .henc | .hencEob =>
    s.outPtr.toNat ≤ a ∧ a < (if t.errCode = .ok then t.outPtr.toNat else s.outEnd.toNat)
  | .hdec _ | .rleEnc | .rleDec =>
    s.dst.toNat ≤ a ∧ a < s.dst.toNat + (if t.errCode = .ok then t.result.toNat else s.dstCap.toNat)
  | .deltaEnc | .deltaDec => t.errCode = .ok ∧ s.dst.toNat ≤ a ∧ a < s.dst.toNat + s.srcLen.toNat
  | .tileStore => t.errCode = .ok ∧ ∃ r c, Claims.tileValid s r c ∧ a = s.sampleAddr r c
  | .tileSer _ => t.errCode = .ok ∧ s.dst.toNat ≤ a ∧ a < s.dst.toNat + s.tcnt
  | .nop | .bpClear | .brAlign | .brGet | .hfreqClr | .hfreqAdd | .hbuild | .hcbRead | .hdecSym | .rleMark | .geom
  | .tileLoad | .tileDeser _ => False

/-- Command `i` from `s` has completed in `t`, within its write set. -/
structure Framed (i : Instr) (s t : State) : Prop where
  writeSet : t = Claims.withWriteSet i s t
  done : t.done = true
  bytes : ∀ a, ¬ storedBytes s t i a → t.byteAt a = s.byteAt a

/-- Commands `i` and `j` have the same rows in R50 and store the same bytes. -/
def SameWriteSet (i j : Instr) : Prop :=
  ∀ s u, Claims.withWriteSet i s u = Claims.withWriteSet j s u ∧ storedBytes s u i = storedBytes s u j

theorem withWriteSet_self (i : Instr) (s : State) : Claims.withWriteSet i s s = s := by cases i <;> rfl

theorem withWriteSet_complete (i : Instr) (s u : State) (code : ErrCode) (info result : Word) (eob : Bool) :
    Claims.withWriteSet i s (u.complete code info result eob) = (Claims.withWriteSet i s u).complete code info result eob := by
  cases i <;> rfl

theorem withWriteSet_ie (i : Instr) (s u : State) : (Claims.withWriteSet i s u).ie = s.ie := by cases i <;> rfl

namespace Framed

variable {i : Instr} {s t u : State}

/-- A completion is within the write set where the state before it is. -/
theorem complete {code : ErrCode} {info result : Word} {eob : Bool} (hset : u = Claims.withWriteSet i s u)
    (hbytes : ∀ a, ¬ storedBytes s (u.complete code info result eob) i a → u.byteAt a = s.byteAt a) :
    Framed i s (u.complete code info result eob) :=
  ⟨by rw [withWriteSet_complete, ← hset], rfl, hbytes⟩

/-- A command that leaves everything but its completion state. -/
theorem fail_self (code : ErrCode) (info : Word) : Framed i s (s.fail code info) :=
  complete (withWriteSet_self i s).symm fun _ _ => rfl

/-- A command with pre-checks is within its write set where its operation is once they hold. -/
theorem of_withChecks {cs : List Check} {op : State → Result} (h : withChecks s cs op = .next t)
    (hop : (∀ c ∈ cs, c.ok = true) → op s = .next t → Framed i s t) : Framed i s t := by
  rcases withChecks_cases s cs op with ⟨code, info, _, hfail⟩ | ⟨hpass, hrun⟩
  · cases hfail.symm.trans h
    exact fail_self code info
  · exact hop ((firstFailing_eq_none cs).mp hpass) (hrun.symm.trans h)

/-- The two ends of an operation: its success and its run-time errors. -/
theorem of_conclude {r : Except Stop Finished} (h : conclude u r = .next t)
    (hok : ∀ d, r = .ok d → Framed i s (d.st.succeed d.result d.eob))
    (hraise : ∀ code info, r = .error (.raise code info) → Framed i s (u.fail code info)) : Framed i s t := by
  rcases conclude_next h with ⟨d, hd, rfl⟩ | ⟨code, info, hr, rfl⟩
  · exact hok d hd
  · exact hraise code info hr

/-- The same for an operation that only turns what a loop leaves into its end. -/
theorem of_conclude_map {α : Type} {x : Except Stop α} {f : α → Finished} (h : conclude u (x.map f) = .next t)
    (hok : ∀ a, x = .ok a → Framed i s ((f a).st.succeed (f a).result (f a).eob))
    (hraise : ∀ code info, x.map f = .error (.raise code info) → Framed i s (u.fail code info)) : Framed i s t := by
  refine of_conclude h (fun d hd => ?_) hraise
  obtain ⟨a, ha, rfl⟩ := map_eq_ok_iff.mp hd
  exact hok a ha

/-- Two commands with the same write set. -/
theorem of_sameWriteSet {j : Instr} (h : Framed j s t) (hsame : SameWriteSet i j) : Framed i s t := by
  obtain ⟨hset, hstored⟩ := hsame s t
  exact ⟨h.writeSet.trans hset.symm, h.done, fun a ha => h.bytes a (hstored ▸ ha)⟩

end Framed

/-! ### Run-time errors report a code -/

/-- A run-time error that ends this operation has another code than OK, so a completion with OK is a success. -/
def RaisesCode {α : Type} (r : Except Stop α) : Prop := ∀ code info, r = .error (.raise code info) → code ≠ .ok

namespace RaisesCode

variable {α β : Type}

theorem ok (a : α) : RaisesCode (.ok a) := fun _ _ h => nomatch h

theorem raise {code : ErrCode} (info : Word) (h : code ≠ .ok) : RaisesCode (.error (.raise code info) : Except Stop α) := by
  intro c i hc
  cases hc
  exact h

theorem fault (f : Fault) : RaisesCode (.error (.fault f) : Except Stop α) := fun _ _ h => nomatch h

theorem bind {x : Except Stop α} {f : α → Except Stop β} (hx : RaisesCode x) (hf : ∀ a, RaisesCode (f a)) :
    RaisesCode (x.bind f) := by
  cases x with
  | ok a => exact hf a
  | error e => exact fun code info h => hx code info (congrArg Except.error (Except.error.inj h))

theorem map {x : Except Stop α} (f : α → β) (hx : RaisesCode x) : RaisesCode (x.map f) := by
  cases x with
  | ok a => exact ok _
  | error e => exact fun code info h => hx code info (congrArg Except.error (Except.error.inj h))

theorem ite {c : Prop} [Decidable c] {x y : Except Stop α} (hx : RaisesCode x) (hy : RaisesCode y) :
    RaisesCode (if c then x else y) := by
  split
  · exact hx
  · exact hy

theorem memRead (a : Nat) (s : State) : RaisesCode (memRead a s) := .ite (.ok _) (.fault _)

theorem memWrite (a : Nat) (v : Byte) (s : State) : RaisesCode (memWrite a v s) := .ite (.ok _) (.fault _)

theorem snapshot (a n : Nat) (s : State) : RaisesCode (snapshot a n s) := .ite (.ok _) (.fault _)

theorem writeBytes (a : Nat) (vs : List Byte) (s : State) : RaisesCode (writeBytes a vs s) := by
  induction vs generalizing a s with
  | nil => exact .ok s
  | cons v vs ih => exact (memWrite a v s).bind (ih (a + 1))

theorem emitByte (v : Byte) (s : State) : RaisesCode (emitByte v s) :=
  .ite (.raise 3 (by decide)) ((memWrite _ v s).bind fun _ => .ok _)

theorem putBit (b : Bool) (s : State) : RaisesCode (putBit b s) := .ite ((emitByte _ s).bind fun _ => .ok _) (.ok _)

theorem putBitList (bits : List Bool) (s : State) : RaisesCode (putBitList bits s) := by
  induction bits generalizing s with
  | nil => exact .ok s
  | cons b bits ih => exact (putBit b s).bind ih

theorem encodeBytes (bs : List Byte) (n : Nat) (s : State) : RaisesCode (encodeBytes bs n s) := by
  induction bs generalizing n s with
  | nil => exact .ok _
  | cons b bs ih => exact .ite (.raise _ (by decide)) ((putBitList _ s).bind (ih _))

theorem getBit (s : State) : RaisesCode (getBit s) :=
  .ite (.bind (.ite (.raise 0 (by decide)) ((memRead _ s).bind fun _ => .ok _)) fun _ => .ok _) (.ok _)

theorem decodeFrom (more cv len : Nat) (s : State) : RaisesCode (decodeFrom more cv len s) := by
  induction more generalizing cv len s with
  | zero => exact (getBit s).bind fun _ => .ok _
  | succ more ih => exact (getBit s).bind fun _ => .ite (.ok _) (ih _ _ _)

theorem decodeLoop (limit : Option Nat) (turns k : Nat) (s : State) : RaisesCode (decodeLoop limit turns k s) := by
  induction turns generalizing k s with
  | zero => exact .raise 0 (by decide)
  | succ turns ih =>
    exact .ite (.ok _) ((decodeFrom _ 0 0 s).bind fun _ =>
      .ite (.ok _) (.ite (.raise 2 (by decide)) ((memWrite _ _ _).bind (ih (k + 1)))))

theorem outputBytes {late : Option Stop} (out : List Byte) (s : State)
    (h : ∀ e, late = some e → RaisesCode (.error e : Except Stop Finished)) : RaisesCode (outputBytes out late s) := by
  refine .ite (.raise 2 (by decide)) ?_
  cases late with
  | none => exact (writeBytes _ out s).map _
  | some e => exact h e rfl

end RaisesCode

theorem escapeError_raisesCode (st : RleState) (e : Stop) (h : escapeError st = some e) :
    RaisesCode (.error e : Except Stop Finished) := by
  cases st with
  | scan => cases h
  | count => cases h; exact .raise 1 (by decide)
  | symbol f => cases h; exact .raise 2 (by decide)

/-! ### The commands that write the output stream -/

/-- `t` is `s` with bits put to the output stream: of MEM only the bytes that OUT_PTR has moved past are new. -/
structure Puts (s t : State) : Prop where
  frame : t = { s with mem := t.mem, outPtr := t.outPtr, bpAcc := t.bpAcc, bpFree := t.bpFree }
  le : s.outPtr.toNat ≤ t.outPtr.toNat
  bytes : ∀ a, ¬ (s.outPtr.toNat ≤ a ∧ a < t.outPtr.toNat) → t.byteAt a = s.byteAt a

namespace Puts

variable {s u t : State}

theorem refl (s : State) : Puts s s := ⟨rfl, Nat.le_refl _, fun _ _ => rfl⟩

theorem trans (h₁ : Puts s u) (h₂ : Puts u t) : Puts s t := by
  have hle₁ := h₁.le
  have hle₂ := h₂.le
  exact ⟨by rw [h₂.frame, h₁.frame], by omega, fun a ha => (h₂.bytes a (by omega)).trans (h₁.bytes a (by omega))⟩

/-- An update of the packer's cursor alone. -/
theorem setPacker (s : State) (acc : Byte) (free : Nat) : Puts s { s with bpAcc := acc, bpFree := free } :=
  ⟨rfl, Nat.le_refl _, fun _ _ => rfl⟩

end Puts

theorem emitByte_puts {v : Byte} {s t : State} (h : emitByte v s = .ok t) : Puts s t := by
  obtain ⟨hroom, _, rfl⟩ := emitByte_ok h
  have hptr := word_succ_toNat _ _ hroom
  refine ⟨rfl, by rw [hptr]; omega, fun a ha => State.byteAt_setByte_ne s _ v a ?_⟩
  simp only [hptr] at ha
  omega

theorem putBit_puts {b : Bool} {s t : State} (h : putBit b s = .ok t) : Puts s t := by
  simp only [putBit] at h
  split at h
  · obtain ⟨u, hu, ht⟩ := bind_eq_ok_iff.mp h
    cases ht
    exact (emitByte_puts hu).trans (.setPacker u 0 8)
  · cases h
    exact .setPacker s _ _

theorem putBitList_puts {bits : List Bool} {s t : State} (h : putBitList bits s = .ok t) : Puts s t := by
  induction bits generalizing s with
  | nil => cases h; exact .refl _
  | cons b bits ih =>
    obtain ⟨u, hu, ht⟩ := bind_eq_ok_iff.mp h
    exact (putBit_puts hu).trans (ih ht)

theorem encodeBytes_puts {bs : List Byte} {n m : Nat} {s t : State} (h : encodeBytes bs n s = .ok (t, m)) : Puts s t := by
  induction bs generalizing n s with
  | nil => cases h; exact .refl _
  | cons b bs ih =>
    simp only [encodeBytes] at h
    split at h
    · cases h
    · obtain ⟨u, hu, ht⟩ := bind_eq_ok_iff.mp h
      exact (putBitList_puts hu).trans (ih ht)

/-- A run-time error draws the output stream's write set (R263). -/
theorem drawOutStream_frame (s : State) :
    drawOutStream s = { s with
      mem := (drawOutStream s).mem
      outPtr := (drawOutStream s).outPtr
      bpAcc := (drawOutStream s).bpAcc
      bpFree := (drawOutStream s).bpFree
      draws := (drawOutStream s).draws } := by
  unfold drawOutStream
  rw [drawBytes_frame]
  rfl

theorem drawOutStream_byteAt (s : State) {a : Nat} (ha : ¬ (s.outPtr.toNat ≤ a ∧ a < s.outEnd.toNat)) :
    (drawOutStream s).byteAt a = s.byteAt a := by
  refine drawBytes_byteAt_of_not_mem _ s a fun hmem => ?_
  rw [mem_regionAddrs] at hmem
  omega

/-- A command that puts bits and draws the output stream on a run-time error has the write set of BP_PUT. -/
theorem framed_of_puts {s t : State} {r : Except Stop Finished} (h : conclude (drawOutStream s) r = .next t) (hcode : RaisesCode r)
    (hputs : ∀ d, r = .ok d → Puts s d.st) : Framed .bpPut s t := by
  refine .of_conclude h (fun d hd => .complete ?_ (hputs d hd).bytes) fun code info hr => .complete ?_ fun a ha => ?_
  · rw [(hputs d hd).frame]; rfl
  · rw [drawOutStream_frame]; rfl
  · simp only [storedBytes, State.complete_errCode, hcode code info hr, if_false] at ha
    exact drawOutStream_byteAt s ha

theorem framed_of_putBits {v n : Nat} {result : State → Word} {s t : State}
    (h : conclude (drawOutStream s) ((putBits v n s).map fun u => ⟨u, result u, false⟩) = .next t) : Framed .bpPut s t := by
  refine framed_of_puts h ((RaisesCode.putBitList _ s).map _) fun d hd => ?_
  obtain ⟨u, hu, rfl⟩ := map_eq_ok_iff.mp hd
  exact putBitList_puts hu

theorem execBpPut_framed {s t : State} (h : execBpPut s = .next t) : Framed .bpPut s t :=
  .of_withChecks h fun _ => framed_of_putBits

theorem execHencEob_framed {s t : State} (h : execHencEob s = .next t) : Framed .hencEob s t :=
  .of_withChecks h fun _ hop => (framed_of_putBits hop).of_sameWriteSet fun _ _ => ⟨rfl, rfl⟩

theorem execBpFlush_framed {s t : State} (h : execBpFlush s = .next t) : Framed .bpFlush s t := by
  refine .of_withChecks h fun _ hop => ?_
  split at hop
  · refine .of_sameWriteSet (framed_of_puts hop ((RaisesCode.emitByte _ s).map _) fun d hd => ?_) fun _ _ => ⟨rfl, rfl⟩
    obtain ⟨u, hu, rfl⟩ := map_eq_ok_iff.mp hd
    exact (emitByte_puts hu).trans (.setPacker u 0 8)
  · cases hop
    exact .complete rfl fun _ _ => rfl

theorem execHenc_framed {s t : State} (h : execHenc s = .next t) : Framed .henc s t := by
  refine .of_withChecks h fun _ hop => .of_sameWriteSet (framed_of_puts hop
    ((RaisesCode.snapshot _ _ s).bind fun bs => (RaisesCode.encodeBytes bs 0 s).map _) fun d hd => ?_) fun _ _ => ⟨rfl, rfl⟩
  obtain ⟨bs, _, henc⟩ := bind_eq_ok_iff.mp hd
  obtain ⟨⟨u, bits⟩, hu, rfl⟩ := map_eq_ok_iff.mp henc
  exact encodeBytes_puts hu

theorem codebookBytes_length (s : State) : (codebookBytes s).length = codebookLength s := by
  simp [codebookBytes, codebookLength]
  omega

/-- HCB_WRITE raises nothing: its pre-checks leave room for the whole codebook (R158). -/
theorem execHcbWrite_framed {s t : State} (h : execHcbWrite s = .next t) : Framed .hcbWrite s t := by
  refine .of_withChecks h fun hc hop => ?_
  have hout : s.outPtr.toNat ≤ s.outEnd.toNat ∧ s.outEnd.toNat ≤ s.memSize := by
    simpa [outCheck] using hc (outCheck s) (by simp [hcbWriteChecks])
  have hroom : (codebookBytes s).length ≤ s.outRoom := by
    rw [codebookBytes_length]
    simpa using hc ⟨codebookLength s ≤ s.outRoom, .overflow, 3⟩ (by simp [hcbWriteChecks])
  obtain ⟨u, hu, hptr, _, hbytes⟩ := emitBytes_of_room _ s hroom hout.1 hout.2
  simp only [hu, Except.map, conclude_ok] at hop
  cases hop
  refine .complete ?_ fun a ha => hbytes a ?_
  · rw [emitBytes_frame hu]; rfl
  · rw [← hptr]
    exact ha

/-! ### The commands that write no memory -/

theorem getBits_frame {n v w : Nat} {s t : State} (h : getBits n v s = .ok (w, t)) :
    t = { s with inPtr := t.inPtr, brAcc := t.brAcc, brLeft := t.brLeft } := by
  induction n generalizing v s with
  | zero => cases h; rfl
  | succ n ih =>
    obtain ⟨⟨b, u⟩, hu, ht⟩ := bind_eq_ok_iff.mp h
    rw [ih ht, getBit_frame hu]

/-- A reader leaves the input cursor as read, or drawn on a run-time error (R263), and MEM as it was. -/
theorem framed_of_reads {s t : State} {r : Except Stop Finished} (h : conclude (drawInCursor s) r = .next t)
    (hok : ∀ d, r = .ok d → d.st = { s with inPtr := d.st.inPtr, brAcc := d.st.brAcc, brLeft := d.st.brLeft }) :
    Framed .brGet s t := by
  refine .of_conclude h (fun d hd => .complete ?_ fun a _ => ?_) fun code info _ => .complete rfl fun a _ => rfl
  · rw [hok d hd]; rfl
  · rw [hok d hd]; rfl

theorem execBrGet_framed {s t : State} (h : execBrGet s = .next t) : Framed .brGet s t := by
  refine .of_withChecks h fun _ hop => framed_of_reads hop fun d hd => ?_
  obtain ⟨⟨v, u⟩, hu, rfl⟩ := map_eq_ok_iff.mp hd
  exact getBits_frame hu

theorem execHdecSym_framed {s t : State} (h : execHdecSym s = .next t) : Framed .hdecSym s t := by
  refine .of_withChecks h fun _ hop => .of_sameWriteSet (framed_of_reads hop fun d hd => ?_) fun _ _ => ⟨rfl, rfl⟩
  obtain ⟨⟨sym, u⟩, hu, rfl⟩ := map_eq_ok_iff.mp hd
  exact decodeFrom_frame hu

theorem execHbuild_framed {s t : State} (h : execHbuild s = .next t) : Framed .hbuild s t := by
  simp only [execHbuild] at h
  split at h
  · cases h
    exact .complete rfl fun _ _ => rfl
  · split at h <;>
    · cases h
      exact .complete rfl fun _ _ => rfl

/-! ### The commands that store -/

/-- `decode_symbol` leaves MEM. -/
theorem decodeSymbol_byteAt {sym : Nat} {s t : State} (h : decodeSymbol s = .ok (sym, t)) (a : Nat) : t.byteAt a = s.byteAt a := by
  rw [decodeFrom_frame h]; rfl

/-- The loop of HDEC stores one byte after the other from DST on, up to its RESULT (R185). -/
theorem decodeLoop_stores {limit : Option Nat} {turns k : Nat} {s : State} {d : Finished} (h : decodeLoop limit turns k s = .ok d)
    (hk : k ≤ s.dstCap.toNat) :
    k ≤ d.result.toNat ∧ ∀ a, ¬ (s.dst.toNat + k ≤ a ∧ a < s.dst.toNat + d.result.toNat) → d.st.byteAt a = s.byteAt a := by
  induction turns generalizing k s with
  | zero => cases h
  | succ turns ih =>
    have hword : (toWord k).toNat = k := toWord_toNat (by have := s.dstCap.isLt; omega)
    simp only [decodeLoop] at h
    split at h
    · cases h
      exact ⟨Nat.le_of_eq hword.symm, fun _ _ => rfl⟩
    · obtain ⟨⟨sym, u⟩, hu, hrest⟩ := bind_eq_ok_iff.mp h
      have hdst : u.dst = s.dst := by rw [decodeFrom_frame hu]
      have hcap : u.dstCap = s.dstCap := by rw [decodeFrom_frame hu]
      simp only at hrest
      split at hrest
      · cases hrest
        exact ⟨Nat.le_of_eq hword.symm, fun a _ => decodeSymbol_byteAt hu a⟩
      · split at hrest
        · cases hrest
        · obtain ⟨v, hv, hd⟩ := bind_eq_ok_iff.mp hrest
          obtain ⟨_, rfl⟩ := memWrite_ok hv
          have hlt : k + 1 ≤ u.dstCap.toNat := by rw [hcap] at *; omega
          obtain ⟨hle, hbytes⟩ := ih hd hlt
          rw [State.setByte_dst, hdst] at hbytes
          refine ⟨by omega, fun a ha => ?_⟩
          rw [hbytes a (by omega), State.byteAt_setByte_ne _ _ _ _ (by omega), decodeSymbol_byteAt hu]

theorem drawDst_frame (s : State) : drawDst s = { s with mem := (drawDst s).mem, draws := (drawDst s).draws } := by
  unfold drawDst
  rw [drawBytes_frame]

theorem drawDst_byteAt (s : State) {a : Nat} (ha : ¬ (s.dst.toNat ≤ a ∧ a < s.dst.toNat + s.dstCap.toNat)) :
    (drawDst s).byteAt a = s.byteAt a :=
  drawBytes_byteAt_of_not_mem _ s a fun hmem => ha ((mem_regionAddrs ..).mp hmem)

theorem execHdec_framed {l : Bool} {s t : State} (h : execHdec l s = .next t) : Framed (.hdec l) s t := by
  refine .of_withChecks h fun _ hop => .of_conclude hop (fun d hd => .complete ?_ fun a ha => ?_) fun code info hr =>
    .complete ?_ fun a ha => ?_
  · rw [decodeLoop_frame hd]; rfl
  · exact (decodeLoop_stores hd (Nat.zero_le _)).2 a ha
  · rw [drawDst_frame]; rfl
  · have hcode := RaisesCode.decodeLoop _ _ _ _ code info hr
    simp only [storedBytes, State.complete_errCode, hcode, if_false] at ha
    exact drawDst_byteAt s ha

/-- Bytes written one after the other change only their own addresses. -/
theorem writeBytes_byteAt_of_outside {a : Nat} {vs : List Byte} {s t : State} (h : writeBytes a vs s = .ok t) {b : Nat}
    (hb : ¬ (a ≤ b ∧ b < a + vs.length)) : t.byteAt b = s.byteAt b := by
  rw [writeBytes_byteAt h]
  split
  · rw [List.getElem?_eq_none (by omega), Option.getD_none]
  · rfl

/-- The output of an RLE command that fits is written from DST on, and RESULT is its length. -/
theorem outputBytes_ok {out : List Byte} {late : Option Stop} {s : State} {d : Finished} (h : outputBytes out late s = .ok d) :
    writeBytes s.dst.toNat out s = .ok d.st ∧ d.result.toNat = out.length := by
  unfold outputBytes at h
  split at h
  · cases h
  · cases late with
    | some e => cases h
    | none =>
      obtain ⟨u, hu, rfl⟩ := map_eq_ok_iff.mp h
      exact ⟨hu, toWord_toNat (by have := s.dstCap.isLt; omega)⟩

/-- RLE_ENC and RLE_DEC: a function of the source's snapshot put to the destination, which is drawn on a run-time error. -/
theorem rle_framed {f : List Byte → List Byte} {late : List Byte → Option Stop} {s t : State}
    (hlate : ∀ bs e, late bs = some e → RaisesCode (.error e : Except Stop Finished))
    (h : withChecks s (rleChecks s) (fun s => conclude (drawDst s)
      ((snapshot s.src.toNat s.srcLen.toNat s).bind fun bs => outputBytes (f bs) (late bs) s)) = .next t) : Framed .rleEnc s t := by
  refine .of_withChecks h fun _ hop => .of_conclude hop (fun d hd => ?_) fun code info hr => .complete ?_ fun a ha => ?_
  · obtain ⟨bs, _, hout⟩ := bind_eq_ok_iff.mp hd
    obtain ⟨hw, hlen⟩ := outputBytes_ok hout
    refine .complete ?_ fun a ha => writeBytes_byteAt_of_outside hw ?_
    · rw [writeBytes_frame hw]; rfl
    · rw [← hlen]
      exact ha
  · rw [drawDst_frame]; rfl
  · have hcode : code ≠ .ok :=
      ((RaisesCode.snapshot _ _ s).bind fun bs => RaisesCode.outputBytes (f bs) s (hlate bs)) code info hr
    simp only [storedBytes, State.complete_errCode, hcode, if_false] at ha
    exact drawDst_byteAt s ha

theorem snapshot_length {a n : Nat} {s : State} {bs : List Byte} (h : snapshot a n s = .ok bs) : bs.length = n := by
  unfold snapshot at h
  split at h
  · cases h
    exact s.bytesAt_length a n
  · cases h

/-- DELTA_ENC and DELTA_DEC: SRC_LEN bytes from DST on (R200, R201). -/
theorem transformSource_framed {f : List Byte → List Byte} {s t : State} (hlen : ∀ bs, (f bs).length = bs.length)
    (h : transformSource f s = .next t) : Framed .deltaEnc s t := by
  refine .of_conclude h (fun d hd => ?_) fun code info _ => .fail_self code info
  obtain ⟨bs, hbs, hmap⟩ := bind_eq_ok_iff.mp hd
  obtain ⟨u, hw, rfl⟩ := map_eq_ok_iff.mp hmap
  refine .complete ?_ fun a ha => writeBytes_byteAt_of_outside hw fun hin => ha ⟨rfl, ?_⟩
  · rw [writeBytes_frame hw]; rfl
  · rwa [hlen, snapshot_length hbs] at hin

/-- The samples stored at some positions change only their own addresses. -/
theorem storePositions_byteAt {ps : List (Nat × Nat)} {s t : State} (h : storePositions ps s = .ok t) {a : Nat}
    (ha : ∀ p ∈ ps, a ≠ s.sampleAddr p.1 p.2) : t.byteAt a = s.byteAt a := by
  induction ps generalizing s with
  | nil => cases h; rfl
  | cons p ps ih =>
    obtain ⟨u, hu, ht⟩ := bind_eq_ok_iff.mp h
    obtain ⟨_, rfl⟩ := memWrite_ok hu
    rw [ih ht fun q hq => ha q (List.mem_cons_of_mem _ hq), State.byteAt_setByte_ne _ _ _ _ (ha p List.mem_cons_self)]

/-- TILE_STORE writes at the addresses of the valid positions (R234). -/
theorem execTileStore_framed {s t : State} (h : execTileStore s = .next t) : Framed .tileStore s t := by
  refine .of_withChecks h fun _ hop => .of_conclude_map hop (fun u hu => .complete ?_ fun a ha => ?_) fun code info _ =>
    .fail_self code info
  · rw [storePositions_frame hu]; rfl
  · exact storePositions_byteAt hu fun p hp heq => ha ⟨rfl, p.1, p.2, tileValid_of_mem_rowMajor hp, heq⟩

/-- TILE_SER writes TCNT bytes from DST on, for the shape it checks is legal (R236). -/
theorem execTileSer_framed {f : Bool} {s t : State} (h : execTileSer f s = .next t) : Framed (.tileSer f) s t := by
  refine .of_withChecks h fun hc hop => .of_conclude_map hop (fun u hu => .complete ?_ fun a ha => ?_) fun code info _ =>
    .fail_self code info
  · rw [writeBytes_frame hu]; rfl
  · have hshape := shapeLegal_of_shapeCheck (hc (shapeCheck s) (by simp [tileSerChecks]))
    refine writeBytes_byteAt_of_outside hu fun hin => ha ⟨rfl, ?_⟩
    rwa [serialized, List.length_map, tileOrder_length hshape] at hin

/-! ### Every command -/

/-- Every command, on success and error alike, changes only its write set and completes (R50, R109). -/
theorem exec_framed {i : Instr} {s t : State} (h : exec i s = .next t) : Framed i s t := by
  unfold exec at h
  cases i with
  | nop | bpClear | brAlign | hfreqClr => cases h; exact .complete rfl fun _ _ => rfl
  | bpPut => exact execBpPut_framed h
  | bpFlush => exact execBpFlush_framed h
  | brGet => exact execBrGet_framed h
  | hbuild => exact execHbuild_framed h
  | hcbWrite => exact execHcbWrite_framed h
  | henc => exact execHenc_framed h
  | hencEob => exact execHencEob_framed h
  | hcbRead =>
    exact .of_withChecks h fun _ hop =>
      .of_conclude_map hop (fun _ _ => .complete rfl fun _ _ => rfl) fun _ _ _ => .complete rfl fun _ _ => rfl
  | hdec l => exact execHdec_framed h
  | hdecSym => exact execHdecSym_framed h
  | deltaEnc => exact .of_withChecks h fun _ => transformSource_framed (deltaEncode_length 0)
  | deltaDec =>
    exact .of_withChecks h fun _ hop => (transformSource_framed (deltaDecode_length 0) hop).of_sameWriteSet fun _ _ => ⟨rfl, rfl⟩
  | rleEnc => exact rle_framed (late := fun _ => none) (fun _ _ he => nomatch he) h
  | rleDec => exact (rle_framed (fun _ => escapeError_raisesCode _) h).of_sameWriteSet fun _ _ => ⟨rfl, rfl⟩
  | geom => exact .of_withChecks h fun _ hop => by cases hop; exact .complete rfl fun _ _ => rfl
  | hfreqAdd | rleMark | tileLoad | tileDeser b =>
    exact .of_withChecks h fun _ hop =>
      .of_conclude_map hop (fun _ _ => .complete rfl fun _ _ => rfl) fun code info _ => .fail_self code info
  | tileStore => exact execTileStore_framed h
  | tileSer b => exact execTileSer_framed h

/-- Settles O24: `exec_framed`, at the commands whose stored bytes are the output stream's. -/
theorem outputStreamCommandsFrame : Obligations.OutputStreamCommandsFrame := by
  intro i s t hi h
  have hf := exec_framed h
  refine ⟨hf.writeSet, fun a ha => hf.bytes a ?_⟩
  simp only [List.mem_cons, List.not_mem_nil, or_false] at hi
  rcases hi with rfl | rfl | rfl | rfl | rfl <;> exact ha

/-- Settles O25: `exec_framed`, at the commands that store no byte. -/
theorem commandsWithoutStoresFrame : Obligations.CommandsWithoutStoresFrame := by
  intro i s t hi h
  have hf := exec_framed h
  refine ⟨hf.writeSet, fun a => hf.bytes a ?_⟩
  simp only [List.mem_cons, List.not_mem_nil, or_false] at hi
  rcases hi with (rfl | rfl | rfl | rfl | rfl | rfl | rfl | rfl | rfl | rfl | rfl | rfl) | ⟨b, rfl⟩ <;> exact not_false

/-- Settles O26: `exec_framed`, at the commands that store. -/
theorem storingCommandsFrame : Obligations.StoringCommandsFrame := by
  intro s t
  refine ⟨fun l h => ⟨(exec_framed h).writeSet, (exec_framed h).bytes⟩, fun i hi h => ⟨(exec_framed h).writeSet, fun a ha => ?_⟩,
    fun i hi h => ⟨(exec_framed h).writeSet, fun a ha => ?_⟩, fun h => ⟨(exec_framed h).writeSet, (exec_framed h).bytes⟩,
    fun f h => ⟨(exec_framed h).writeSet, (exec_framed h).bytes⟩⟩
  all_goals
    refine (exec_framed h).bytes a ?_
    simp only [List.mem_cons, List.not_mem_nil, or_false] at hi
    rcases hi with rfl | rfl <;> exact ha

/-- After a completion IRQ is IE, for it sets DONE and keeps IE (R47). -/
theorem exec_irq {i : Instr} {s t : State} (h : exec i s = .next t) : t.irq = s.ie := by
  have hf := exec_framed h
  have hie : t.ie = s.ie := by rw [hf.writeSet, withWriteSet_ie]
  rw [State.irq, hf.done, hie, Bool.and_true]

/-- Settles O17: the completion, the three register writes that move IRQ, and the accesses that do not raise it. -/
theorem interruptIsEnableAndDone : Obligations.InterruptIsEnableAndDone := by
  refine ⟨fun i s t => exec_irq, fun s t v h => ?_, fun s t v h => ?_, fun s t w hp h => ?_, fun s t a h hctrl =>
    irq_of_hostAccess_irq h hctrl⟩
  · cases h
    exact s.writeCtrl_irq v
  · cases h
    exact s.writeStatus_irq v
  · rw [hostAccess_regWrite_cmd_idle w hp] at h
    cases h
    rw [State.irq, State.accept_done, Bool.and_false]

end Sys2Proof.Machine
end

section
/-! ## PROOFS. The statements of `20_memory.md`: the memory port's bytes (R74, R75) and the reads of a busy core (R82). -/

namespace Sys2Proof.Machine

/-! ### Reads of a busy core (R82) -/

theorem State.drawRead_eq (s : State) (n : Nat) :
    s.drawRead n = { s with portData := (s.drawRead n).portData, draws := s.draws + 1 } := rfl

/-- A drawn value has the width of its access. -/
theorem State.drawRead_portData_lt (s : State) (n : Nat) : (s.drawRead n).portData.toNat < 2 ^ (8 * n) :=
  calc (toWord ((Config.freeWord s.draws).toNat % 2 ^ (8 * n))).toNat
    _ ≤ (Config.freeWord s.draws).toNat % 2 ^ (8 * n) := by
      rw [toWord, BitVec.toNat_ofNat]
      exact Nat.mod_le ..
    _ < 2 ^ (8 * n) := Nat.mod_lt _ (Nat.two_pow_pos _)

section Busy

variable {s : State} {w : Word}

/-- What a busy core returns for a register other than ID, CTRL and STATUS is drawn. -/
theorem hostAccess_regRead_drawn {o : Nat} (hp : s.pending = some w) (h8 : o % 8 = 0) (hlow : 0x018 ≤ o) (ho : o ≤ 0x0F0) :
    hostAccess (.regRead 8 o) s = .next (s.drawRead 8) := by
  have hdrawn : readableWhileBusy o = false := by simp [readableWhileBusy, reservedOffset]; omega
  rw [hostAccess_regRead h8 (by omega), State.hostReadReg, busy_eq_true_of_pending hp, hdrawn]
  rfl

/-- ID, CTRL and STATUS return their values to a read of a busy core, and the host does not observe BUSY = 0. -/
theorem hostAccess_regRead_busy {o : Nat} (hp : s.pending = some w) (h8 : o % 8 = 0) (ho : o ≤ 0x010) :
    hostAccess (.regRead 8 o) s = .next { s with portData := s.readReg o } := by
  have hreadable : readableWhileBusy o = true := by simp [readableWhileBusy, ho]
  have hseen : s.observes o = s.seenIdle := by simp [State.observes, busy_eq_true_of_pending hp]
  rw [hostAccess_regRead h8 (by omega), State.hostReadReg, hreadable, hseen, Bool.not_true, Bool.and_false,
    if_neg Bool.false_ne_true]

theorem hostAccess_memRead_busy {n a : Nat} (hp : s.pending = some w) (hadm : memAdmitted s.memSize n a = true) :
    hostAccess (.memRead n a) s = .next (s.drawRead n) := by
  rw [hostAccess, if_pos hadm, State.hostReadMem, if_pos (busy_eq_true_of_pending hp)]

end Busy

/-- Settles O7: a read of a busy core is a draw or the value of one of the three readable registers. -/
theorem readsWhileBusyChangeNothing : Obligations.ReadsWhileBusyChangeNothing := by
  intro s w hp
  exact ⟨fun o h8 hlow ho => ⟨_, hostAccess_regRead_drawn hp h8 hlow ho, s.drawRead_eq 8⟩,
    fun n a hadm => ⟨_, hostAccess_memRead_busy hp hadm, s.drawRead_eq n, s.drawRead_portData_lt n⟩,
    hostAccess_regRead_busy hp (by decide) (by decide), hostAccess_regRead_busy hp (by decide) (by decide),
    hostAccess_regRead_busy hp (by decide) (by decide)⟩

/-! ### Little-endian values (R74) -/

/-- Byte `i` of a value is its bits `8 i + 7 : 8 i`. -/
theorem leBytes_getElem? {n i : Nat} (v : Nat) (hi : i < n) : (leBytes n v)[i]? = some (toByte (v / 2 ^ (8 * i))) := by
  induction n generalizing v i with
  | zero => omega
  | succ n ih =>
    cases i with
    | zero => simp [leBytes]
    | succ i =>
      have hpow : v / 256 / 2 ^ (8 * i) = v / 2 ^ (8 * (i + 1)) := by
        rw [Nat.div_div_eq_div_mul, Nat.mul_succ, Nat.add_comm, Nat.pow_add]
      rw [leBytes, List.getElem?_cons_succ, ih _ (by omega), hpow]

/-- A byte after the others has their number as its place. -/
theorem leValue_concat (bs : List Byte) (b : Byte) : leValue (bs ++ [b]) = leValue bs + b.toNat * 2 ^ (8 * bs.length) := by
  induction bs with
  | nil => simp [leValue]
  | cons c bs ih =>
    have hpow : 2 ^ (8 * (bs.length + 1)) = 256 * 2 ^ (8 * bs.length) := by rw [Nat.mul_succ, Nat.pow_add, Nat.mul_comm]
    rw [List.cons_append, leValue, ih, leValue, List.length_cons, hpow, Nat.mul_add, Nat.add_assoc, Nat.mul_left_comm]

/-- The value of `n` bytes of MEM is the sum of the bytes at their places. -/
theorem leValue_bytesAt (s : State) (a n : Nat) :
    leValue (s.bytesAt a n) = ((List.range n).map fun i => (s.byteAt (a + i)).toNat * 2 ^ (8 * i)).sum := by
  induction n with
  | zero => rfl
  | succ n ih =>
    have hlast : s.bytesAt a (n + 1) = s.bytesAt a n ++ [s.byteAt (a + n)] := s.bytesAt_append a n 1
    rw [hlast, leValue_concat, ih, State.bytesAt_length, List.range_succ, List.map_append, List.sum_append, List.map_singleton,
      List.sum_singleton]

/-! ### The memory port of an idle core (R74, R75) -/

/-- Inside MEM the port's write is the command engine's. -/
theorem writeBytes_eq_setBytes {s : State} {a : Nat} {vs : List Byte} (h : a + vs.length ≤ s.memSize) :
    writeBytes a vs s = .ok (s.setBytes a vs) := by
  induction vs generalizing a s with
  | nil => rfl
  | cons v vs ih =>
    rw [List.length_cons] at h
    rw [writeBytes, memWrite_of_lt a v s (by omega)]
    exact ih (by rw [State.setByte_memSize]; omega)

section Idle

variable {s : State} {n a : Nat}

theorem hostAccess_memWrite_idle (v : Word) (hp : s.pending = none) (hadm : memAdmitted s.memSize n a = true) :
    hostAccess (.memWrite n a v) s = .next (s.setBytes a (leBytes n v.toNat)) := by
  rw [hostAccess, if_pos hadm, State.hostWriteMem, busy_eq_false_of_pending hp, if_neg Bool.false_ne_true]

theorem hostAccess_memRead_idle (hp : s.pending = none) (hadm : memAdmitted s.memSize n a = true) :
    hostAccess (.memRead n a) s = .next { s with portData := toWord (leValue (s.bytesAt a n)) } := by
  rw [hostAccess, if_pos hadm, State.hostReadMem, busy_eq_false_of_pending hp, if_neg Bool.false_ne_true]

/-- A write inside MEM puts the bytes of its value at consecutive addresses. -/
theorem setBytes_leBytes_byteAt (v : Nat) (h : a + n ≤ s.memSize) {i : Nat} (hi : i < n) :
    ((s.setBytes a (leBytes n v)).byteAt (a + i)).toNat = v / 2 ^ (8 * i) % 256 := by
  have hw := writeBytes_eq_setBytes (vs := leBytes n v) (by rwa [leBytes_length])
  rw [writeBytes_byteAt hw, if_pos (Nat.le_add_right a i), Nat.add_sub_cancel_left, leBytes_getElem? v hi, Option.getD_some, toByte,
    BitVec.toNat_ofNat]

/-- A write inside MEM leaves every other byte as it was. -/
theorem setBytes_leBytes_byteAt_of_outside (v : Nat) (h : a + n ≤ s.memSize) {b : Nat} (hb : ¬ (a ≤ b ∧ b < a + n)) :
    (s.setBytes a (leBytes n v)).byteAt b = s.byteAt b := by
  have hw := writeBytes_eq_setBytes (vs := leBytes n v) (by rwa [leBytes_length])
  exact writeBytes_byteAt_of_outside hw (by rwa [leBytes_length])

end Idle

/-- Settles O9: an admitted access of an idle core writes the bytes of its value, or reads the value of its bytes. -/
theorem memoryPortIsLittleEndian : Obligations.MemoryPortIsLittleEndian := by
  intro s v n a hp hn hal hend
  have hadm : memAdmitted s.memSize n a = true := (memAdmitted_iff ..).mpr ⟨hn, hal, hend⟩
  refine ⟨⟨_, hostAccess_memWrite_idle v hp hadm, s.setBytes_frame .., fun i hi => setBytes_leBytes_byteAt _ hend hi,
    fun b hb => setBytes_leBytes_byteAt_of_outside _ hend hb⟩, ?_⟩
  rw [hostAccess_memRead_idle hp hadm, leValue_bytesAt]

end Sys2Proof.Machine
end

section
/-! ## PROOFS. The statements of `30_encoding.md`: the command word and its legal values (R100 to R106), the step (R105, R109), acceptance
(R108), and the completion of every command (R109). -/

namespace Sys2Proof.Machine

/-! ### The fields of a command word (R100) -/

theorem fieldsOf_op_toNat (w : Word) : (fieldsOf w).op.toNat = w.toNat % 256 := by
  simp [fieldsOf, BitVec.extractLsb'_toNat]

theorem fieldsOf_rsv_toNat (w : Word) : (fieldsOf w).rsv.toNat = w.toNat / 512 := by
  have := w.isLt
  rw [fieldsOf, BitVec.extractLsb'_toNat, Nat.shiftRight_eq_div_pow]
  omega

theorem fieldsOf_flag (w : Word) : (fieldsOf w).flag = decide (w.toNat / 256 % 2 = 1) := by
  rw [fieldsOf, ← BitVec.testBit_toNat, Nat.testBit_eq_decide_div_mod_eq]

/-- The three fields are the whole word. -/
theorem fieldsOf_injective : Function.Injective fieldsOf := by
  intro v w h
  have hop : v.toNat % 256 = w.toNat % 256 := by rw [← fieldsOf_op_toNat, h, fieldsOf_op_toNat]
  have hrsv : v.toNat / 512 = w.toNat / 512 := by rw [← fieldsOf_rsv_toNat, h, fieldsOf_rsv_toNat]
  have hflag : v.toNat / 256 % 2 = 1 ↔ w.toNat / 256 % 2 = 1 := by
    rw [← decide_eq_decide, ← fieldsOf_flag, h, fieldsOf_flag]
  exact BitVec.eq_of_toNat_eq (by omega)

/-! ### The map of commands (R101, R102) -/

/-- A command of the map has the opcode it was found under, and the flag if it admits one. -/
theorem of_commandOf_eq_some {op : Nat} {f : Bool} {i : Instr} (h : commandOf op f = some i) :
    op = i.op ∧ i.flag = (f && flaggedOpcodes.contains op) := by
  unfold commandOf at h
  split at h <;> cases h
  case h_14 | h_24 | h_25 => exact ⟨rfl, (Bool.and_true f).symm⟩
  all_goals exact ⟨rfl, (Bool.and_false f).symm⟩

theorem op_mem_opcodes (i : Instr) : i.op ∈ opcodes := by cases i <;> exact of_decide_eq_true rfl

/-- The map has a command for every opcode of R102. -/
theorem commandOf_ne_none {op : Nat} (h : op ∈ opcodes) (f : Bool) : commandOf op f ≠ none := by
  simp only [opcodes, List.cons_append, List.nil_append, List.mem_cons, List.not_mem_nil, or_false] at h
  rcases h with rfl | rfl | rfl | rfl | rfl | rfl | rfl | rfl | rfl | rfl | rfl | rfl | rfl | rfl | rfl | rfl | rfl | rfl | rfl
    | rfl | rfl | rfl | rfl | rfl | rfl <;> exact Option.some_ne_none _

/-! ### Decoding (R106) -/

theorem encoding_statement : ∀ i, Laws.Encoding.Statement i
  | .nop => Laws.Encoding.nop
  | .bpClear => Laws.Encoding.bpClear
  | .bpPut => Laws.Encoding.bpPut
  | .bpFlush => Laws.Encoding.bpFlush
  | .brAlign => Laws.Encoding.brAlign
  | .brGet => Laws.Encoding.brGet
  | .hfreqClr => Laws.Encoding.hfreqClr
  | .hfreqAdd => Laws.Encoding.hfreqAdd
  | .hbuild => Laws.Encoding.hbuild
  | .hcbWrite => Laws.Encoding.hcbWrite
  | .henc => Laws.Encoding.henc
  | .hencEob => Laws.Encoding.hencEob
  | .hcbRead => Laws.Encoding.hcbRead
  | .hdec l => Laws.Encoding.hdec l
  | .hdecSym => Laws.Encoding.hdecSym
  | .deltaEnc => Laws.Encoding.deltaEnc
  | .deltaDec => Laws.Encoding.deltaDec
  | .rleMark => Laws.Encoding.rleMark
  | .rleEnc => Laws.Encoding.rleEnc
  | .rleDec => Laws.Encoding.rleDec
  | .geom => Laws.Encoding.geom
  | .tileLoad => Laws.Encoding.tileLoad
  | .tileStore => Laws.Encoding.tileStore
  | .tileSer t => Laws.Encoding.tileSer t
  | .tileDeser t => Laws.Encoding.tileDeser t

theorem fieldsOf_encode (i : Instr) : fieldsOf (encode i) = i.fields := (encoding_statement i).2.1

theorem decode_encode (i : Instr) : decode (encode i) = .ok i := (encoding_statement i).2.2

/-- What the three checks of the decoder leave of a word's fields. -/
theorem decodeFields_eq_ok_iff (c : CmdFields) (i : Instr) :
    decodeFields c = .ok i ↔ c.rsvZero = true ∧ commandOf c.op.toNat c.flag = some i ∧ c.flagAdmitted = true := by
  unfold decodeFields
  cases c.rsvZero
  · simp
  · cases commandOf c.op.toNat c.flag with
    | none => simp
    | some j => cases c.flagAdmitted <;> simp

/-- Fields that decode are the fields of the command. -/
theorem eq_fields_of_decodeFields {c : CmdFields} {i : Instr} (h : decodeFields c = .ok i) : c = i.fields := by
  obtain ⟨hrsv, hcmd, hflag⟩ := (decodeFields_eq_ok_iff c i).mp h
  obtain ⟨hop, hadm⟩ := of_commandOf_eq_some hcmd
  obtain ⟨op, flag, rsv⟩ := c
  have hrsv0 : rsv = 0 := eq_of_beq hrsv
  have hop' : op = BitVec.ofNat 8 i.op := by rw [← hop, BitVec.ofNat_toNat, BitVec.setWidth_eq]
  have hflag' : flag = i.flag := by
    rw [hadm]
    cases flag with
    | false => rfl
    | true => exact hflag.symm
  rw [Instr.fields, hop', hflag', hrsv0]

/-- Settles O2: a word that decodes has the fields of its command's encoding, and the fields are the whole word. -/
theorem decodeAcceptsExactlyTheEncodedWords : Obligations.DecodeAcceptsExactlyTheEncodedWords := by
  intro w i
  constructor
  · intro h
    have hfields : fieldsOf w = i.fields := eq_fields_of_decodeFields h
    exact fieldsOf_injective (hfields.trans (fieldsOf_encode i).symm)
  · rintro rfl
    exact decode_encode i

/-- Settles O1: the decoder computed on each word. -/
theorem decodeReadsTheOpcodeMap : Obligations.DecodeReadsTheOpcodeMap := by
  unfold Obligations.DecodeReadsTheOpcodeMap
  and_intros <;> rfl

/-! ### Illegal words (R106) -/

/-- The three conditions of R106, on the number of the word. -/
def illegalWord (w : Word) : Prop :=
  w.toNat / 512 ≠ 0 ∨ w.toNat % 256 ∉ opcodes
    ∨ (w.toNat / 256 % 2 = 1 ∧ w.toNat % 256 ≠ 0x29 ∧ w.toNat % 256 ≠ 0x43 ∧ w.toNat % 256 ≠ 0x44)

theorem fieldsOf_rsvZero_iff (w : Word) : (fieldsOf w).rsvZero = true ↔ w.toNat / 512 = 0 := by
  rw [← fieldsOf_rsv_toNat, CmdFields.rsvZero, beq_iff_eq, ← BitVec.toNat_inj]
  rfl

theorem fieldsOf_flagAdmitted_iff (w : Word) :
    (fieldsOf w).flagAdmitted = true
      ↔ ¬ (w.toNat / 256 % 2 = 1 ∧ w.toNat % 256 ≠ 0x29 ∧ w.toNat % 256 ≠ 0x43 ∧ w.toNat % 256 ≠ 0x44) := by
  rw [CmdFields.flagAdmitted, fieldsOf_flag, fieldsOf_op_toNat]
  simp [flaggedOpcodes]
  omega

/-- A word is a command exactly when no condition of R106 makes it illegal. -/
theorem exists_decode_eq_ok_iff (w : Word) : (∃ i, decode w = .ok i) ↔ ¬ illegalWord w := by
  have hop : (∃ i, commandOf (w.toNat % 256) (fieldsOf w).flag = some i) ↔ w.toNat % 256 ∈ opcodes :=
    ⟨fun ⟨i, hi⟩ => (of_commandOf_eq_some hi).1 ▸ op_mem_opcodes i,
      fun h => Option.ne_none_iff_exists'.mp (commandOf_ne_none h _)⟩
  simp only [decode, decodeFields_eq_ok_iff, fieldsOf_rsvZero_iff, fieldsOf_flagAdmitted_iff, fieldsOf_op_toNat, exists_and_left,
    exists_and_right, hop, illegalWord, not_or, Classical.not_not]

/-! ### The step (R105, R109) -/

/-- A read of STATUS returns STATUS, busy or not. -/
theorem hostReadReg_status_portData (s : State) : (s.hostReadReg 0x010).portData = s.statusWord := by
  have hreadable : readableWhileBusy 0x010 = true := by decide
  rw [State.hostReadReg, hreadable, Bool.not_true, Bool.and_false, if_neg Bool.false_ne_true]
  rfl

/-- A `check` fails the program exactly when ERR is 1. -/
theorem hostCheck_eq_hostReadReg (s : State) :
    s.hostCheck = { s.hostReadReg 0x010 with checkFailed := s.checkFailed || decide (s.errCode ≠ .ok) } := by
  obtain ⟨_, _, herr, _⟩ := s.statusNat_digits
  have hbit : (s.hostReadReg 0x010).portData.getLsbD 2 = decide (s.errCode ≠ .ok) := by
    rw [hostReadReg_status_portData, s.statusWord_getLsbD herr, s.err_eq]
  simp only [State.hostCheck, hbit]

theorem engineTurn_of_decode {s : State} {w : Word} {i : Instr} (hp : s.pending = some w) (hd : decode w = .ok i) :
    engineTurn s = exec i s := by
  simp only [engineTurn, hp, executeWord, hd]

theorem engineTurn_of_illegal {s : State} {w : Word} {e : DecodeError} (hp : s.pending = some w) (hd : decode w = .error e) :
    engineTurn s = .next (s.fail .illegal w) := by
  simp only [engineTurn, hp, executeWord, hd]

theorem engineTurn_of_idle {s : State} (hp : s.pending = none) : engineTurn s = .next s := by
  simp only [engineTurn, hp]

/-- Settles O4: each kind of next move by its step lemma, and the engine's turn by the pending word. -/
theorem stepRunsTheDecodedCommand : Obligations.StepRunsTheDecodedCommand := by
  intro s
  refine ⟨fun w i hp hd => ⟨fun he => ?_, fun rest he => ?_⟩, step_of_no_events s, step_of_engine s, engineTurn_of_idle,
    step_of_host s, step_of_bus s, fun rest he => ⟨_, hostAccess_regRead (by decide) (by decide), ?_⟩, fun nbits w i hd => ?_⟩
  · rw [step_of_no_events s he, engineTurn_of_decode hp hd]
  · rw [step_of_engine s rest he]
    exact engineTurn_of_decode hp hd
  · rw [step_of_check s rest he, hostCheck_eq_hostReadReg]
    rfl
  · rw [step_of_engine _ s.events rfl]
    exact engineTurn_of_decode rfl hd

/-- Settles O5: the write is an acceptance, whose word STATUS shows as BUSY and whose DONE is 0. -/
theorem commandWriteIsAccepted : Obligations.CommandWriteIsAccepted := by
  intro s w hp
  obtain ⟨hbusy, _⟩ := (s.accept w).statusNat_digits
  refine ⟨_, hostAccess_regWrite_cmd_idle w hp, rfl, (s.accept w).statusWord_getLsbD hbusy, ?_⟩
  rw [State.irq, State.accept_done, Bool.and_false]

/-! ### Which errors an operation raises (R263) -/

/-- The codes that a command reports, by a pre-check or by a `raise` (R260): all but OK, and ERR_ILLEGAL, which is for words that are no
command. -/
def ErrCode.ofCommand (code : ErrCode) : Bool := code != .ok && code != .illegal

/-- A run-time error that ends this operation has one of these codes. `RaisesCode` says that it is not OK; that no command ends with
ERR_ILLEGAL needs the codes themselves. -/
def RaisesOnly {α : Type} (codes : List ErrCode) (r : Except Stop α) : Prop :=
  ∀ code info, r = .error (.raise code info) → code ∈ codes

namespace RaisesOnly

variable {α β : Type} {codes : List ErrCode}

theorem ok (a : α) : RaisesOnly codes (.ok a) := fun _ _ h => nomatch h

theorem fault (f : Fault) : RaisesOnly codes (.error (.fault f) : Except Stop α) := fun _ _ h => nomatch h

theorem raise {code : ErrCode} (info : Word) (h : code ∈ codes) : RaisesOnly codes (.error (.raise code info) : Except Stop α) := by
  intro c i hc
  cases hc
  exact h

theorem bind {x : Except Stop α} {f : α → Except Stop β} (hx : RaisesOnly codes x) (hf : ∀ a, RaisesOnly codes (f a)) :
    RaisesOnly codes (x.bind f) := by
  cases x with
  | ok a => exact hf a
  | error e => exact fun code info h => hx code info (congrArg Except.error (Except.error.inj h))

theorem map {x : Except Stop α} (f : α → β) (hx : RaisesOnly codes x) : RaisesOnly codes (x.map f) := by
  cases x with
  | ok a => exact ok _
  | error e => exact fun code info h => hx code info (congrArg Except.error (Except.error.inj h))

theorem ite {c : Prop} [Decidable c] {x y : Except Stop α} (hx : RaisesOnly codes x) (hy : RaisesOnly codes y) :
    RaisesOnly codes (if c then x else y) := by
  split
  · exact hx
  · exact hy

theorem memRead (a : Nat) (s : State) : RaisesOnly codes (memRead a s) := .ite (.ok _) (.fault _)

theorem memWrite (a : Nat) (v : Byte) (s : State) : RaisesOnly codes (memWrite a v s) := .ite (.ok _) (.fault _)

theorem emitByte (hcode : .overflow ∈ codes) (v : Byte) (s : State) : RaisesOnly codes (emitByte v s) :=
  .ite (.raise 3 hcode) ((memWrite _ v s).bind fun _ => .ok _)

theorem emitBytes (hcode : .overflow ∈ codes) (vs : List Byte) (s : State) : RaisesOnly codes (emitBytes vs s) := by
  induction vs generalizing s with
  | nil => exact .ok s
  | cons v vs ih => exact (emitByte hcode v s).bind ih

theorem putBit (hcode : .overflow ∈ codes) (b : Bool) (s : State) : RaisesOnly codes (putBit b s) :=
  .ite ((emitByte hcode _ s).bind fun _ => .ok _) (.ok _)

theorem putBitList (hcode : .overflow ∈ codes) (bits : List Bool) (s : State) : RaisesOnly codes (putBitList bits s) := by
  induction bits generalizing s with
  | nil => exact .ok s
  | cons b bits ih => exact (putBit hcode b s).bind ih

theorem encodeBytes (bs : List Byte) (n : Nat) (s : State) : RaisesOnly [.nocode, .overflow] (encodeBytes bs n s) := by
  induction bs generalizing n s with
  | nil => exact .ok _
  | cons b bs ih => exact .ite (.raise _ (by decide)) ((putBitList (by decide) _ s).bind (ih _))

theorem getBit (hcode : .trunc ∈ codes) (s : State) : RaisesOnly codes (getBit s) :=
  .ite (.bind (.ite (.raise 0 hcode) ((memRead _ s).bind fun _ => .ok _)) fun _ => .ok _) (.ok _)

theorem getBits (n v : Nat) (s : State) : RaisesOnly [.trunc] (getBits n v s) := by
  induction n generalizing v s with
  | zero => exact .ok _
  | succ n ih => exact (getBit (by decide) s).bind fun _ => ih _ _

theorem decodeFrom (hcode : .trunc ∈ codes) (more cv len : Nat) (s : State) : RaisesOnly codes (decodeFrom more cv len s) := by
  induction more generalizing cv len s with
  | zero => exact (getBit hcode s).bind fun _ => .ok _
  | succ more ih => exact (getBit hcode s).bind fun _ => .ite (.ok _) (ih _ _ _)

theorem decodeLoop (limit : Option Nat) (turns k : Nat) (s : State) : RaisesOnly [.trunc, .overflow] (decodeLoop limit turns k s) := by
  induction turns generalizing k s with
  | zero => exact .raise 0 (by decide)
  | succ turns ih =>
    exact .ite (.ok _) ((decodeFrom (by decide) _ 0 0 s).bind fun _ =>
      .ite (.ok _) (.ite (.raise 2 (by decide)) ((memWrite _ _ _).bind (ih (k + 1)))))

end RaisesOnly

theorem getBits_not_fault {n v : Nat} {s : State} (h : s.inEnd.toNat ≤ s.memSize) (f : Fault) : getBits n v s ≠ .error (.fault f) := by
  induction n generalizing v s with
  | zero => exact fun hc => nomatch hc
  | succ n ih =>
    rw [getBits]
    cases hg : getBit s with
    | error e => exact fun hc => getBit_not_fault h f (hg.trans (congrArg Except.error (Except.error.inj hc)))
    | ok p =>
      refine ih ?_
      rw [getBit_frame hg]
      exact h

/-! ### What the pre-checks leave (R79, R231) -/

theorem srcInMem_of_srcCheck {s : State} (h : (srcCheck s).ok = true) : Claims.srcInMem s := by
  simpa [srcCheck, State.inMem, Claims.srcInMem] using h

theorem dstInMem_of_dstCheck {s : State} (h : (dstCheck s).ok = true) : Claims.dstInMem s := by
  simpa [dstCheck, State.inMem, Claims.dstInMem] using h

theorem outInMem_of_outCheck {s : State} (h : (outCheck s).ok = true) : Claims.outInMem s := by
  simpa [outCheck, Claims.outInMem] using h

theorem inInMem_of_inCheck {s : State} (h : (inCheck s).ok = true) : Claims.inInMem s := by
  simpa [inCheck, Claims.inInMem] using h

theorem sampleAddr_lt_of_tileMemCheck {s : State} (h : (tileMemCheck s).ok = true) {p : Nat × Nat} (hp : p ∈ s.rowMajor) :
    s.sampleAddr p.1 p.2 < s.memSize :=
  of_decide_eq_true (List.all_eq_true.mp h p hp)

/-! ### Completion (R28, R29, R109) -/

/-- `t` is the state after a command of the core has completed: on an error RESULT and EOB are 0, on a success ERR_INFO is. -/
structure Completed (t : State) : Prop where
  pending : t.pending = none
  legal : t.errCode ≠ .illegal
  ofError : t.errCode ≠ .ok → t.result = 0 ∧ t.eob = false
  ofSuccess : t.errCode = .ok → t.errInfo = 0

/-- A command answers a next state, in which it has completed. -/
def Completes (r : Result) : Prop := ∃ t, r = .next t ∧ Completed t

namespace Completes

variable {s u : State}

theorem succeed (u : State) (result : Word) (eob : Bool) : Completes (.next (u.succeed result eob)) :=
  ⟨_, rfl, ⟨rfl, (nomatch ·), fun h => absurd rfl h, fun _ => rfl⟩⟩

theorem fail (u : State) {code : ErrCode} (info : Word) (h : code.ofCommand = true) : Completes (.next (u.fail code info)) := by
  simp only [ErrCode.ofCommand, Bool.and_eq_true, bne_iff_ne] at h
  exact ⟨_, rfl, ⟨rfl, h.2, fun _ => ⟨rfl, rfl⟩, fun hok => absurd hok h.1⟩⟩

/-- A failing pre-check completes the command; else its operation has to, with what the pre-checks leave. -/
theorem of_withChecks {cs : List Check} {op : State → Result} (hcodes : cs.all (·.code.ofCommand) = true)
    (hop : (∀ c ∈ cs, c.ok = true) → Completes (op s)) : Completes (withChecks s cs op) := by
  cases hf : firstFailing cs with
  | none =>
    rw [withChecks_of_pass s cs op hf]
    exact hop ((firstFailing_eq_none cs).mp hf)
  | some p =>
    obtain ⟨pre, c, post, rfl, _, _, hcode, _⟩ := firstFailing_eq_some cs p.1 p.2 hf
    rw [withChecks_of_fail s _ op p.1 p.2 hf, ← hcode]
    exact fail s _ (List.all_eq_true.mp hcodes c (by simp))

/-- An operation completes when it meets no fault and raises only codes of commands. -/
theorem of_conclude {codes : List ErrCode} {r : Except Stop Finished} (hcodes : codes.all ErrCode.ofCommand = true)
    (hraise : RaisesOnly codes r) (hfault : ∀ f, r ≠ .error (.fault f)) : Completes (conclude u r) := by
  match r with
  | .ok d => exact succeed d.st d.result d.eob
  | .error (.raise code info) => exact fail u info (List.all_eq_true.mp hcodes code (hraise code info rfl))
  | .error (.fault f) => exact absurd rfl (hfault f)

/-- The same for an operation that only turns what a loop leaves into its end. -/
theorem of_conclude_map {α : Type} {codes : List ErrCode} {x : Except Stop α} {f : α → Finished}
    (hcodes : codes.all ErrCode.ofCommand = true) (hraise : RaisesOnly codes x) (hfault : ∀ f, x ≠ .error (.fault f)) :
    Completes (conclude u (x.map f)) := by
  refine of_conclude hcodes (hraise.map f) fun g hg => ?_
  cases x with
  | ok a => cases hg
  | error e => exact hfault g (congrArg Except.error (Except.error.inj hg))

/-- An operation on the source's snapshot, once the source is known to lie in MEM. -/
theorem of_snapshot {f : List Byte → Except Stop Finished} (hsrc : (srcCheck s).ok = true)
    (h : Completes (conclude u (f (Claims.source s)))) :
    Completes (conclude u ((snapshot s.src.toNat s.srcLen.toNat s).bind f)) := by
  rw [snapshot_of_le _ _ s (srcInMem_of_srcCheck hsrc)]
  exact h

/-- The same for one that only turns the bytes into its end. -/
theorem of_snapshot_map {f : List Byte → Finished} (hsrc : (srcCheck s).ok = true) :
    Completes (conclude u ((snapshot s.src.toNat s.srcLen.toNat s).map f)) := by
  rw [snapshot_of_le _ _ s (srcInMem_of_srcCheck hsrc)]
  exact succeed ..

/-- Bytes written inside MEM. -/
theorem of_writeBytes {a : Nat} {vs : List Byte} {f : State → Finished} (h : a + vs.length ≤ s.memSize) :
    Completes (conclude u ((writeBytes a vs s).map f)) := by
  obtain ⟨t, ht⟩ := writeBytes_of_le a vs s h
  rw [ht]
  exact succeed ..

end Completes

/-! ### Every command completes (R109) -/

/-- BP_PUT and HENC_EOB: bits put to an output stream that lies in MEM. -/
theorem putBits_completes {v n : Nat} {s u : State} {f : State → Finished} (hout : (outCheck s).ok = true) :
    Completes (conclude u ((putBits v n s).map f)) :=
  .of_conclude_map (codes := [.overflow]) rfl (.putBitList (by decide) _ s) (putBitList_not_fault (outInMem_of_outCheck hout).2)

theorem execBpFlush_completes (s : State) : Completes (execBpFlush s) := by
  refine .of_withChecks rfl fun hc => ?_
  split
  · exact .of_conclude_map (codes := [.overflow]) rfl (.emitByte (by decide) _ s)
      (emitByte_not_fault (outInMem_of_outCheck (hc _ (.head _))).2)
  · exact .succeed ..

theorem execBrGet_completes (s : State) : Completes (execBrGet s) :=
  .of_withChecks rfl fun hc => .of_conclude_map rfl (.getBits _ 0 s) (getBits_not_fault (inInMem_of_inCheck (hc _ (.head _))).2)

theorem execHbuild_completes (s : State) : Completes (execHbuild s) := by
  simp only [execHbuild]
  split
  · exact .succeed ..
  · split
    · exact .fail _ _ rfl
    · exact .succeed ..

theorem execHcbWrite_completes (s : State) : Completes (execHcbWrite s) :=
  .of_withChecks rfl fun hc => .of_conclude_map (codes := [.overflow]) rfl (.emitBytes (by decide) _ s)
    (emitBytes_not_fault (outInMem_of_outCheck (hc _ (.head _))).2)

theorem execHenc_completes (s : State) : Completes (execHenc s) :=
  .of_withChecks rfl fun hc => .of_snapshot (hc _ (.head _)) <| .of_conclude_map rfl (.encodeBytes _ 0 s)
    (encodeBytes_not_fault (outInMem_of_outCheck (hc _ (.tail _ (.head _)))).2)

/-- HCB_READ's one run-time error is ERR_CODEBOOK (R181). -/
theorem execHcbRead_completes (s : State) : Completes (execHcbRead s) := by
  refine .of_withChecks rfl fun hc => ?_
  rw [readCodebook_eq s (inInMem_of_inCheck (hc _ (.head _))).2]
  cases parseCodebook s.inBytes with
  | error r => exact .fail _ _ rfl
  | ok cb => exact .succeed ..

theorem execHdec_completes (l : Bool) (s : State) : Completes (execHdec l s) :=
  .of_withChecks rfl fun hc => .of_conclude rfl (.decodeLoop _ _ 0 s)
    (decodeLoop_not_fault (inInMem_of_inCheck (hc _ (.head _))).2 (dstInMem_of_dstCheck (hc _ (.tail _ (.head _)))) (Nat.zero_le _))

theorem execHdecSym_completes (s : State) : Completes (execHdecSym s) :=
  .of_withChecks rfl fun hc => .of_conclude_map (codes := [.trunc]) rfl (.decodeFrom (by decide) _ 0 0 s)
    (decodeFrom_not_fault (inInMem_of_inCheck (hc _ (.head _))).2)

/-- DELTA_ENC and DELTA_DEC write as many bytes as they read, which DST_CAP holds (R200, R201). -/
theorem delta_completes {f : List Byte → List Byte} (hlen : ∀ bs, (f bs).length = bs.length) (s : State) :
    Completes (withChecks s (deltaChecks s) (transformSource f)) := by
  refine .of_withChecks rfl fun hc => .of_snapshot (hc _ (.head _)) (.of_writeBytes ?_)
  have hdst : s.dst.toNat + s.dstCap.toNat ≤ s.memSize := dstInMem_of_dstCheck (hc _ (.tail _ (.head _)))
  have hcap : s.srcLen.toNat ≤ s.dstCap.toNat := of_decide_eq_true (hc _ (.tail _ (.tail _ (.head _))))
  rw [hlen, Claims.source, State.bytesAt_length]
  omega

theorem escapeError_raises_rle {st : RleState} {e : Stop} (h : escapeError st = some e) : ∃ info, e = .raise .rle info := by
  cases st with
  | scan => cases h
  | count => cases h; exact ⟨_, rfl⟩
  | symbol f => cases h; exact ⟨_, rfl⟩

/-- RLE_ENC and RLE_DEC: an output past DST_CAP is ERR_OVERFLOW, and one that fits lies in MEM (R212, R213). -/
theorem rle_completes {f : List Byte → List Byte} {late : List Byte → Option Stop}
    (hlate : ∀ bs e, late bs = some e → ∃ info, e = .raise .rle info) (s : State) :
    Completes (withChecks s (rleChecks s) (fun s => conclude (drawDst s)
      ((snapshot s.src.toNat s.srcLen.toNat s).bind fun bs => outputBytes (f bs) (late bs) s))) := by
  refine .of_withChecks rfl fun hc => .of_snapshot (hc _ (.head _)) ?_
  have hdst : s.dst.toNat + s.dstCap.toNat ≤ s.memSize := dstInMem_of_dstCheck (hc _ (.tail _ (.head _)))
  unfold outputBytes
  split
  · exact .fail _ _ rfl
  · cases hl : late (Claims.source s) with
    | some e =>
      obtain ⟨info, rfl⟩ := hlate _ e hl
      exact .fail _ _ rfl
    | none => exact .of_writeBytes (by omega)

theorem execTileLoad_completes (s : State) : Completes (execTileLoad s) := by
  refine .of_withChecks rfl fun hc => ?_
  rw [loadPositions_of_lt s _ _ fun p => sampleAddr_lt_of_tileMemCheck (hc _ (.tail _ (.tail _ (.head _))))]
  exact .succeed ..

theorem execTileStore_completes (s : State) : Completes (execTileStore s) := by
  refine .of_withChecks rfl fun hc => ?_
  obtain ⟨t, ht⟩ := storePositions_of_lt s.rowMajor s fun p =>
    sampleAddr_lt_of_tileMemCheck (hc _ (.tail _ (.tail _ (.head _))))
  rw [ht]
  exact .succeed ..

theorem execTileSer_completes (f : Bool) (s : State) : Completes (execTileSer f s) := by
  refine .of_withChecks rfl fun hc => .of_writeBytes ?_
  have hshape := shapeLegal_of_shapeCheck (hc _ (.head _))
  have hdst : s.dst.toNat + s.dstCap.toNat ≤ s.memSize := dstInMem_of_dstCheck (hc _ (.tail _ (.head _)))
  have hcap : s.tcnt ≤ s.dstCap.toNat := of_decide_eq_true (hc _ (.tail _ (.tail _ (.head _))))
  rw [serialized, List.length_map, tileOrder_length hshape]
  omega

/-- Every command completes, from every state: its pre-checks keep its accesses in MEM (R72). -/
theorem exec_completes (i : Instr) (s : State) : Completes (exec i s) := by
  unfold exec
  cases i with
  | nop | bpClear | brAlign | hfreqClr => exact .succeed ..
  | bpPut | hencEob => exact .of_withChecks rfl fun hc => putBits_completes (hc _ (.head _))
  | bpFlush => exact execBpFlush_completes s
  | brGet => exact execBrGet_completes s
  | hfreqAdd => exact .of_withChecks rfl fun hc => .of_snapshot_map (hc _ (.head _))
  | hbuild => exact execHbuild_completes s
  | hcbWrite => exact execHcbWrite_completes s
  | henc => exact execHenc_completes s
  | hcbRead => exact execHcbRead_completes s
  | hdec l => exact execHdec_completes l s
  | hdecSym => exact execHdecSym_completes s
  | deltaEnc => exact delta_completes (deltaEncode_length 0) s
  | deltaDec => exact delta_completes (deltaDecode_length 0) s
  | rleMark => exact .of_withChecks rfl fun hc => .of_snapshot_map (hc _ (.head _))
  | rleEnc => exact rle_completes (late := fun _ => none) (fun _ _ h => nomatch h) s
  | rleDec => exact rle_completes (fun _ _ => escapeError_raises_rle) s
  | geom => exact .of_withChecks rfl fun _ => .succeed ..
  | tileLoad => exact execTileLoad_completes s
  | tileStore => exact execTileStore_completes s
  | tileSer f => exact execTileSer_completes f s
  | tileDeser f => exact .of_withChecks rfl fun hc => .of_snapshot_map (hc _ (.tail _ (.head _)))

/-- The registers of R50 that no command has in its write set, and the parameters, stay. -/
theorem withWriteSet_frame (i : Instr) (s t : State) :
    (Claims.withWriteSet i s t).overrun = s.overrun ∧ (Claims.withWriteSet i s t).cmd = s.cmd
    ∧ (Claims.withWriteSet i s t).memAddrBits = s.memAddrBits := by
  cases i <;> exact ⟨rfl, rfl, rfl⟩

/-- Settles O15: every command completes, within its write set. -/
theorem everyCommandCompletes : Obligations.EveryCommandCompletes := by
  intro i s
  obtain ⟨t, ht, hdone⟩ := exec_completes i s
  have hf := exec_framed ht
  obtain ⟨hoverrun, hcmd, hbits⟩ := withWriteSet_frame i s t
  rw [← hf.writeSet] at hoverrun hcmd hbits
  have hie : t.ie = s.ie := by rw [hf.writeSet, withWriteSet_ie]
  exact ⟨t, ht, hdone.pending, hf.done, hdone.ofError, hdone.ofSuccess, hoverrun, hcmd, hie, hbits⟩

/-- Settles O3: an illegal word has no command, and a command reports every code but ERR_ILLEGAL. -/
theorem illegalWordCompletesWithErrIllegal : Obligations.IllegalWordCompletesWithErrIllegal := by
  intro s w hp
  refine ⟨fun hillegal => ?_, fun hlegal t ht => ?_⟩
  · cases hd : decode w with
    | ok i => exact absurd hillegal ((exists_decode_eq_ok_iff w).mp ⟨i, hd⟩)
    | error e => exact engineTurn_of_illegal hp hd
  · obtain ⟨i, hd⟩ := (exists_decode_eq_ok_iff w).mpr hlegal
    obtain ⟨u, hu, hdone⟩ := exec_completes i s
    rw [engineTurn_of_decode hp hd, hu] at ht
    cases ht
    exact hdone.legal

/-! ### The pending command (R23, R24, R46, R108, R312) -/

theorem pendingInv_of_none {s : State} (h : s.pending = none) : s.PendingInv :=
  fun w hw => absurd (h.symm.trans hw) (Option.some_ne_none w).symm

/-- What of a state the invariant of its pending command depends on: an access that leaves these fields of a busy core keeps it. -/
theorem State.PendingInv.of_eq {s t : State} (h : s.PendingInv) (hpending : t.pending = s.pending) (hcmd : t.cmd = s.cmd)
    (hdone : s.done = false → t.done = false) (herr : t.errCode = s.errCode) (heob : t.eob = s.eob)
    (hseen : s.busy = true → t.seenIdle = s.seenIdle) : t.PendingInv := by
  intro w hw
  have hp : s.pending = some w := hpending.symm.trans hw
  obtain ⟨hc, hd, he, hb, hi⟩ := h w hp
  exact ⟨hcmd.trans hc, hdone hd, herr.trans he, heob.trans hb, (hseen (busy_eq_true_of_pending hp)).trans hi⟩

theorem engineTurn_pendingInv {s t : State} (hinv : s.PendingInv) (h : engineTurn s = .next t) : t.PendingInv := by
  rcases engineTurn_cases s with ⟨_, he⟩ | ⟨w, i, _, _, he⟩ | ⟨w, e, _, _, he⟩ <;> rw [he] at h
  · cases h
    exact hinv
  · obtain ⟨u, hu, hdone⟩ := exec_completes i s
    cases hu.symm.trans h
    exact pendingInv_of_none hdone.pending
  · cases h
    exact pendingInv_of_none rfl

theorem hostReadReg_pendingInv {s : State} (hinv : s.PendingInv) (o : Nat) : (s.hostReadReg o).PendingInv := by
  have hseen : s.busy = true → (s.hostReadReg o).seenIdle = s.seenIdle := by
    intro hbusy
    unfold State.hostReadReg
    split
    · rfl
    · simp [State.observes, hbusy]
  have hf := s.hostReadReg_frame o
  exact hinv.of_eq (by rw [hf]) (by rw [hf]) (by rw [hf]; exact id) (by rw [hf]) (by rw [hf]) hseen

theorem hostWriteReg_pendingInv {s : State} (hinv : s.PendingInv) (o : Nat) (v : Word) : (s.hostWriteReg o v).PendingInv := by
  rcases hostWriteReg_cases s o v with ⟨_, h⟩ | ⟨_, h⟩ | ⟨_, h⟩ | ⟨_, h⟩ | ⟨_, _, h⟩ | ⟨hidle, h⟩ <;> rw [h]
  · cases hsrst : v.getLsbD 1 with
    | true =>
      rw [State.writeCtrl, if_pos hsrst]
      exact pendingInv_of_none rfl
    | false =>
      rw [writeCtrl_of_not_srst s hsrst]
      exact hinv
  · exact hinv.of_eq rfl rfl (fun hd => by rw [State.writeStatus, hd]; rfl) rfl rfl fun _ => rfl
  · exact hinv
  · exact hinv
  · intro w hw
    exact ⟨Option.some.inj hw, rfl, rfl, rfl, rfl⟩
  · exact pendingInv_of_none ((storeReg_pending v).trans (Option.not_isSome_iff_eq_none.mp (by simpa [State.busy] using hidle)))

theorem hostAccess_pendingInv {a : Access} {s t : State} (hinv : s.PendingInv) (h : hostAccess a s = .next t) : t.PendingInv := by
  rcases hostAccess_cases a s t h with ⟨w, o, _, _, rfl⟩ | ⟨w, o, v, _, _, rfl⟩ | ⟨w, b, _, _, rfl⟩ | ⟨w, b, v, _, _, rfl⟩
  · exact hostReadReg_pendingInv hinv o
  · exact hostWriteReg_pendingInv hinv o v
  · rw [s.hostReadMem_frame w b]
    exact hinv
  · rw [s.hostWriteMem_frame w b v]
    exact hinv

/-- Settles O20: the engine's turn empties PENDING, an acceptance sets what the invariant says, and no other access of a busy core
touches it. -/
theorem stepKeepsThePendingCommandClean : Obligations.StepKeepsThePendingCommandClean := by
  intro s t hinv h
  obtain ⟨rest, hmove⟩ := step_cases h
  have hevents : (s.withEvents rest).PendingInv := hinv
  rcases hmove with hengine | ⟨a, hhost⟩ | rfl
  · exact engineTurn_pendingInv hevents hengine
  · exact hostAccess_pendingInv hevents hhost
  · exact hostReadReg_pendingInv hevents 0x010

end Sys2Proof.Machine
end

section
/-! ## PROOFS. The statements of `40_control_bitio.md`: the bit cursors under every step (R143), NOP and the commands of the bit packer and
the bit reader (R136 to R141), and HFREQ_CLR (R151). -/

namespace Sys2Proof.Machine

/-! ### The cursor invariant and its two parts (R143) -/

section CursorInv

variable {s t u : State}

theorem State.CursorInv.packerInv (h : s.CursorInv) : s.packerInv := by
  obtain ⟨hlow, hhigh, hacc, _⟩ := h
  exact ⟨hlow, hhigh, hacc⟩

theorem State.CursorInv.brLeft_le (h : s.CursorInv) : s.brLeft ≤ 7 := by
  obtain ⟨_, _, _, hleft⟩ := h
  exact hleft

theorem State.packerInv.cursorInv (h : s.packerInv) (hleft : s.brLeft ≤ 7) : s.CursorInv := by
  obtain ⟨hlow, hhigh, hacc⟩ := h
  exact ⟨hlow, hhigh, hacc, hleft⟩

/-- A reader's command keeps the invariant: it leaves the packer and at most 7 bits of a byte. -/
theorem State.CursorInv.of_reader (h : s.CursorInv) (hacc : t.bpAcc = s.bpAcc) (hfree : t.bpFree = s.bpFree) (hleft : t.brLeft ≤ 7) :
    t.CursorInv := by
  obtain ⟨hlow, hhigh, hmod, _⟩ := h
  exact ⟨hfree ▸ hlow, hfree ▸ hhigh, by rwa [hacc, hfree], hleft⟩

/-- The packer as BP_CLEAR, BP_FLUSH and a byte's last bit leave it. -/
theorem packerInv_aligned (s : State) : State.packerInv { s with bpAcc := 0, bpFree := 8 } :=
  ⟨show 1 ≤ 8 by decide, Nat.le_refl 8, rfl⟩

/-- A command with pre-checks keeps the cursors in range where its operation does. -/
theorem State.CursorInv.of_withChecks {cs : List Check} {op : State → Result} (hinv : s.CursorInv) (h : withChecks s cs op = .next t)
    (hop : op s = .next t → t.CursorInv) : t.CursorInv := by
  rcases withChecks_cases s cs op with ⟨code, info, _, hfail⟩ | ⟨_, hrun⟩
  · cases hfail.symm.trans h
    exact hinv
  · exact hop (hrun.symm.trans h)

/-- The end of an operation keeps the cursors in range where its success does, and where what it leaves on a run-time error does. -/
theorem State.CursorInv.of_conclude {r : Except Stop Finished} (h : conclude u r = .next t) (hraise : u.CursorInv)
    (hok : ∀ d, r = .ok d → d.st.CursorInv) : t.CursorInv := by
  rcases conclude_next h with ⟨d, hd, rfl⟩ | ⟨code, info, _, rfl⟩
  · exact hok d hd
  · exact hraise

end CursorInv

/-! ### The cursors that a run-time error draws (R263) -/

theorem drawBpAcc_mod (b : Byte) {n : Nat} (hn : n ≤ 8) : (drawBpAcc b n).toNat % 2 ^ n = 0 := by
  have hdvd : 2 ^ n ∣ 2 ^ 8 := Nat.pow_dvd_pow 2 hn
  rw [drawBpAcc, BitVec.toNat_shiftLeft, Nat.shiftLeft_eq, Nat.mod_mod_of_dvd _ hdvd, Nat.mul_mod_left]

theorem drawOutStream_packerInv (s : State) : (drawOutStream s).packerInv := by
  have hfree : 1 ≤ (drawOutStream s).bpFree ∧ (drawOutStream s).bpFree ≤ 8 := by
    simp only [drawOutStream, drawOutCursor, drawBpFree]
    omega
  exact ⟨hfree.1, hfree.2, drawBpAcc_mod _ hfree.2⟩

theorem drawOutStream_cursorInv {s : State} (h : s.CursorInv) : (drawOutStream s).CursorInv := by
  refine (drawOutStream_packerInv s).cursorInv ?_
  rw [drawOutStream_frame]
  exact h.brLeft_le

theorem drawInCursor_cursorInv {s : State} (h : s.CursorInv) : (drawInCursor s).CursorInv :=
  h.of_reader rfl rfl (Nat.le_of_lt_succ (Nat.mod_lt _ (Nat.succ_pos 7)))

/-! ### The bit packer's loops -/

theorem putBit_packerInv {b : Bool} {s t : State} (hs : s.packerInv) (h : putBit b s = .ok t) : t.packerInv := by
  obtain ⟨hlow, hhigh, hacc⟩ := hs
  simp only [putBit] at h
  split at h
  · obtain ⟨u, _, ht⟩ := bind_eq_ok_iff.mp h
    cases ht
    exact packerInv_aligned u
  · cases h
    exact ⟨by simp only; omega, by simp only; omega, (accWith_spec _ _ b hlow hhigh hacc).2⟩

theorem putBitList_packerInv {bits : List Bool} {s t : State} (hs : s.packerInv) (h : putBitList bits s = .ok t) : t.packerInv := by
  induction bits generalizing s with
  | nil => cases h; exact hs
  | cons b bits ih =>
    obtain ⟨u, hu, ht⟩ := bind_eq_ok_iff.mp h
    exact ih (putBit_packerInv hs hu) ht

theorem encodeBytes_packerInv {bs : List Byte} {n m : Nat} {s t : State} (hs : s.packerInv) (h : encodeBytes bs n s = .ok (t, m)) :
    t.packerInv := by
  induction bs generalizing n s with
  | nil => cases h; exact hs
  | cons b bs ih =>
    simp only [encodeBytes] at h
    split at h
    · cases h
    · obtain ⟨u, hu, ht⟩ := bind_eq_ok_iff.mp h
      exact ih (putBitList_packerInv hs hu) ht

/-! ### The bit reader's loops -/

/-- A byte fetched leaves 7 bits after the one taken, and a byte held one fewer than before (R132). -/
theorem getBit_brLeft_le {b : Bool} {s t : State} (hs : s.brLeft ≤ 7) (h : getBit s = .ok (b, t)) : t.brLeft ≤ 7 := by
  unfold getBit at h
  split at h
  · obtain ⟨u, _, ht⟩ := bind_eq_ok_iff.mp h
    cases ht
    exact Nat.le_refl 7
  · cases h
    exact Nat.le_trans (Nat.sub_le _ _) hs

theorem getBits_brLeft_le {n v w : Nat} {s t : State} (hs : s.brLeft ≤ 7) (h : getBits n v s = .ok (w, t)) : t.brLeft ≤ 7 := by
  induction n generalizing v s with
  | zero => cases h; exact hs
  | succ n ih =>
    obtain ⟨⟨b, u⟩, hu, ht⟩ := bind_eq_ok_iff.mp h
    exact ih (getBit_brLeft_le hs hu) ht

theorem decodeFrom_brLeft_le {more cv len sym : Nat} {s t : State} (hs : s.brLeft ≤ 7)
    (h : decodeFrom more cv len s = .ok (sym, t)) : t.brLeft ≤ 7 := by
  induction more generalizing cv len s with
  | zero =>
    obtain ⟨⟨b, u⟩, hu, ht⟩ := bind_eq_ok_iff.mp h
    cases ht
    exact getBit_brLeft_le hs hu
  | succ more ih =>
    obtain ⟨⟨b, u⟩, hu, ht⟩ := bind_eq_ok_iff.mp h
    have hleft := getBit_brLeft_le hs hu
    simp only at ht
    split at ht
    · cases ht
      exact hleft
    · exact ih hleft ht

theorem decodeLoop_brLeft_le {limit : Option Nat} {turns k : Nat} {s : State} {d : Finished} (hs : s.brLeft ≤ 7)
    (h : decodeLoop limit turns k s = .ok d) : d.st.brLeft ≤ 7 := by
  induction turns generalizing k s with
  | zero => cases h
  | succ turns ih =>
    simp only [decodeLoop] at h
    split at h
    · cases h
      exact hs
    · obtain ⟨⟨sym, u⟩, hu, hrest⟩ := bind_eq_ok_iff.mp h
      have hleft := decodeFrom_brLeft_le hs hu
      simp only at hrest
      split at hrest
      · cases hrest
        exact hleft
      · split at hrest
        · cases hrest
        · obtain ⟨v, hv, hd⟩ := bind_eq_ok_iff.mp hrest
          obtain ⟨_, rfl⟩ := memWrite_ok hv
          exact ih (s := u.setByte _ _) hleft hd

/-! ### The cursors under every step (R143) -/

section Commands

variable {s t : State}

/-- A command that puts bits leaves a packer's cursor in range on success, and draws one in range on a run-time error. -/
theorem cursorInv_of_puts {r : Except Stop Finished} (hinv : s.CursorInv) (h : conclude (drawOutStream s) r = .next t)
    (hok : ∀ d, r = .ok d → Puts s d.st ∧ d.st.packerInv) : t.CursorInv := by
  refine .of_conclude h (drawOutStream_cursorInv hinv) fun d hd => ?_
  obtain ⟨hputs, hpacker⟩ := hok d hd
  refine hpacker.cursorInv ?_
  rw [hputs.frame]
  exact hinv.brLeft_le

theorem cursorInv_of_putBits {v n : Nat} {result : State → Word} (hinv : s.CursorInv)
    (h : conclude (drawOutStream s) ((putBits v n s).map fun u => ⟨u, result u, false⟩) = .next t) : t.CursorInv := by
  refine cursorInv_of_puts hinv h fun d hd => ?_
  obtain ⟨u, hu, rfl⟩ := map_eq_ok_iff.mp hd
  exact ⟨putBitList_puts hu, putBitList_packerInv hinv.packerInv hu⟩

theorem execBpFlush_cursorInv (hinv : s.CursorInv) (h : execBpFlush s = .next t) : t.CursorInv := by
  refine hinv.of_withChecks h fun hop => ?_
  split at hop
  · refine cursorInv_of_puts hinv hop fun d hd => ?_
    obtain ⟨u, hu, rfl⟩ := map_eq_ok_iff.mp hd
    exact ⟨(emitByte_puts hu).trans (.setPacker u 0 8), packerInv_aligned u⟩
  · cases hop
    exact hinv

theorem execHenc_cursorInv (hinv : s.CursorInv) (h : execHenc s = .next t) : t.CursorInv := by
  refine hinv.of_withChecks h fun hop => cursorInv_of_puts hinv hop fun d hd => ?_
  obtain ⟨bs, _, henc⟩ := bind_eq_ok_iff.mp hd
  obtain ⟨⟨u, bits⟩, hu, rfl⟩ := map_eq_ok_iff.mp henc
  exact ⟨encodeBytes_puts hu, encodeBytes_packerInv hinv.packerInv hu⟩

theorem execBrGet_cursorInv (hinv : s.CursorInv) (h : execBrGet s = .next t) : t.CursorInv := by
  refine hinv.of_withChecks h fun hop => .of_conclude hop (drawInCursor_cursorInv hinv) fun d hd => ?_
  obtain ⟨⟨v, u⟩, hu, rfl⟩ := map_eq_ok_iff.mp hd
  have hleft := getBits_brLeft_le hinv.brLeft_le hu
  have hf := getBits_frame hu
  exact hinv.of_reader (by rw [hf]) (by rw [hf]) hleft

theorem execHdecSym_cursorInv (hinv : s.CursorInv) (h : execHdecSym s = .next t) : t.CursorInv := by
  refine hinv.of_withChecks h fun hop => .of_conclude hop (drawInCursor_cursorInv hinv) fun d hd => ?_
  obtain ⟨⟨sym, u⟩, hu, rfl⟩ := map_eq_ok_iff.mp hd
  have hleft := decodeFrom_brLeft_le hinv.brLeft_le hu
  have hf := decodeFrom_frame hu
  exact hinv.of_reader (by rw [hf]) (by rw [hf]) hleft

theorem execHdec_cursorInv {l : Bool} (hinv : s.CursorInv) (h : execHdec l s = .next t) : t.CursorInv := by
  have hdst : (drawDst s).CursorInv := by rw [drawDst_frame]; exact hinv
  refine hinv.of_withChecks h fun hop => .of_conclude hop (drawInCursor_cursorInv hdst) fun d hd => ?_
  have hleft := decodeLoop_brLeft_le hinv.brLeft_le hd
  have hf := decodeLoop_frame hd
  exact hinv.of_reader (by rw [hf]) (by rw [hf]) hleft

/-- Every command keeps the cursors in range: those with a cursor in their write set by what they leave in it, the others because they
leave it (R50). -/
theorem exec_cursorInv {i : Instr} (hinv : s.CursorInv) (h : exec i s = .next t) : t.CursorInv := by
  cases i with
  | bpClear => cases h; exact (packerInv_aligned s).cursorInv hinv.brLeft_le
  | brAlign => cases h; exact hinv.of_reader rfl rfl (Nat.zero_le 7)
  | bpPut | hencEob =>
    unfold exec at h
    exact hinv.of_withChecks h (cursorInv_of_putBits hinv)
  | bpFlush => exact execBpFlush_cursorInv hinv h
  | henc => exact execHenc_cursorInv hinv h
  | brGet => exact execBrGet_cursorInv hinv h
  | hdecSym => exact execHdecSym_cursorInv hinv h
  | hdec l => exact execHdec_cursorInv hinv h
  | nop | hfreqClr | hfreqAdd | hbuild | hcbWrite | hcbRead | deltaEnc | deltaDec | rleMark | rleEnc | rleDec | geom | tileLoad
  | tileStore | tileSer | tileDeser =>
    rw [(exec_framed h).writeSet]
    exact hinv

theorem engineTurn_cursorInv (hinv : s.CursorInv) (h : engineTurn s = .next t) : t.CursorInv := by
  rcases engineTurn_cases s with ⟨_, he⟩ | ⟨w, i, _, _, he⟩ | ⟨w, e, _, _, he⟩ <;> rw [he] at h
  · cases h
    exact hinv
  · exact exec_cursorInv hinv h
  · cases h
    exact hinv

theorem hostWriteReg_cursorInv (hinv : s.CursorInv) (o : Nat) (v : Word) : (s.hostWriteReg o v).CursorInv := by
  by_cases hsrst : o = 0x008 ∧ v.getLsbD 1 = true
  · obtain ⟨rfl, hv⟩ := hsrst
    have hreset : s.hostWriteReg 0x008 v = s.softReset := if_pos hv
    rw [hreset]
    exact reset_cursorInv
  · rw [s.hostWriteReg_frame o v (by simpa using hsrst)]
    exact hinv

theorem hostReadReg_cursorInv (hinv : s.CursorInv) (o : Nat) : (s.hostReadReg o).CursorInv := by
  rw [s.hostReadReg_frame o]
  exact hinv

theorem hostAccess_cursorInv {a : Access} (hinv : s.CursorInv) (h : hostAccess a s = .next t) : t.CursorInv := by
  rcases hostAccess_cases a s t h with ⟨w, o, _, _, rfl⟩ | ⟨w, o, v, _, _, rfl⟩ | ⟨w, b, _, _, rfl⟩ | ⟨w, b, v, _, _, rfl⟩
  · exact hostReadReg_cursorInv hinv o
  · exact hostWriteReg_cursorInv hinv o v
  · rw [s.hostReadMem_frame w b]
    exact hinv
  · rw [s.hostWriteMem_frame w b v]
    exact hinv

end Commands

/-- Settles O19: every command keeps the cursors in range, a soft reset sets them to their reset values, and no other access touches
them. -/
theorem stepKeepsCursorsInRange : Obligations.StepKeepsCursorsInRange := by
  intro s t hinv h
  obtain ⟨rest, hmove⟩ := step_cases h
  have hevents : (s.withEvents rest).CursorInv := hinv
  rcases hmove with hengine | ⟨a, hhost⟩ | rfl
  · exact engineTurn_cursorInv hevents hengine
  · exact hostAccess_cursorInv hevents hhost
  · exact hostReadReg_cursorInv hevents 0x010

/-! ### The commands of the packer and the reader, with their operands admitted (R138, R139, R141) -/

theorem outCheck_of_outInMem {s : State} (h : Claims.outInMem s) : (outCheck s).ok = true := by
  simpa [outCheck, Claims.outInMem] using h

theorem inCheck_of_inInMem {s : State} (h : Claims.inInMem s) : (inCheck s).ok = true := by
  simpa [inCheck, Claims.inInMem] using h

/-- Settles O28: the pre-checks hold, so the bits are put as `putBitList_bitsPut` says. -/
theorem bpPutAppendsItsBits : Obligations.BpPutAppendsItsBits := by
  intro s hinv hout hn hroom
  have hpass : firstFailing (bpPutChecks s) = none := by
    rw [firstFailing_eq_none]
    simp [bpPutChecks, outCheck_of_outInMem hout, State.bytesFor, State.outRoom, hn, hroom]
  have hbits : s.bytesFor (msbBits s.argVal.toNat s.argN.toNat).length ≤ s.outRoom := by
    rw [msbBits_length]
    exact hroom
  obtain ⟨u, hu, hput⟩ := putBitList_bitsPut _ s hinv.packerInv hbits hout.2
  refine ⟨u, hput, ?_⟩
  rw [exec, execBpPut, withChecks_of_pass s _ _ hpass, putBits, hu]
  rfl

/-- Settles O29: BP_FLUSH emits the byte of a packer that holds bits, there being room, and ends at once on an aligned one. -/
theorem bpFlushWritesThePartialByte : Obligations.BpFlushWritesThePartialByte := by
  intro s hout
  have hpass (h : 8 ≤ s.bpFree ∨ 1 ≤ s.outRoom) : firstFailing (bpFlushChecks s) = none := by
    rw [firstFailing_eq_none]
    simpa [bpFlushChecks, outCheck_of_outInMem hout] using h
  refine ⟨fun hfree hroom => ⟨s.setByte s.outPtr.toNat s.bpAcc, ?_, ?_⟩, fun hfree => ?_⟩
  · refine ⟨rfl, by simp [State.bytesAt], fun b hb => State.byteAt_setByte_ne s _ _ b ?_⟩
    rw [List.length_singleton] at hb
    omega
  · rw [exec, execBpFlush, withChecks_of_pass s _ _ (hpass (.inr (Nat.sub_pos_of_lt hroom))), if_pos hfree,
      emitByte_of_room _ s hroom hout.2]
    rfl
  · rw [exec, execBpFlush, withChecks_of_pass s _ _ (hpass (.inl hfree)), if_neg (Nat.not_lt.mpr hfree)]

/-- Settles O30: the pre-checks hold, so the bits are read as `getBits_bitsRead` says. -/
theorem brGetReadsTheNextBits : Obligations.BrGetReadsTheNextBits := by
  intro s hinv hin hn havail
  have hpass : firstFailing (brGetChecks s) = none := by
    rw [firstFailing_eq_none]
    simp [brGetChecks, inCheck_of_inInMem hin, State.bitsAvail, hn, havail]
  obtain ⟨u, hu, hread⟩ := getBits_bitsRead s.argN.toNat 0 s hinv.brLeft_le havail hin.1 hin.2
  refine ⟨u, hread, ?_⟩
  rw [exec, execBrGet, withChecks_of_pass s _ _ hpass, hu]
  rfl

/-! ### The commands without operands (R136, R137, R140, R151) -/

/-- Settles O27: each word is its command's encoding, and each of the commands is one update of the state. -/
theorem commandsWithoutOperandsComplete : Obligations.CommandsWithoutOperandsComplete := by
  refine ⟨decode_encode .nop, decode_encode .bpClear, decode_encode .brAlign, decode_encode .hfreqClr, fun s => ⟨rfl, rfl, rfl, ?_⟩⟩
  exact ⟨_, rfl, fun v _ => tableGet_replicate_zeroWord v, rfl⟩

end Sys2Proof.Machine
end

section
/-! ## PROOFS. The statements of `41_huffman_encoder.md`: the frequencies (R152), the code that HBUILD builds and its table under every step
(R153 to R157, R161, R164), the commands that write the output stream with it (R158 to R160, R263), and the decoder on its codebook
(R161, R181 to R183). -/

namespace Sys2Proof.Machine

/-! ### The code lengths of the merging (R155) -/

section Merging

open Sys2Proof.Claims

variable {next : Nat} {heap rest rest' : List Node} {a b E : Node} {lens : List (Nat × Nat)} {e : Nat}

/-- The part of a code space of `2 ^ l` that leaves at these depths take. -/
def leafShare (l : Nat) (leaves : List (Nat × Nat)) : Nat := (leaves.map fun x => 2 ^ (l - x.1)).sum

theorem leafShare_perm {l : Nat} {xs ys : List (Nat × Nat)} (h : xs.Perm ys) : leafShare l xs = leafShare l ys := (h.map _).sum_nat

/-- Kraft's equality for leaves: they take the whole of every code space that is deep enough for them. -/
def FillsSpace (leaves : List (Nat × Nat)) : Prop := ∀ l, (∀ x ∈ leaves, x.1 ≤ l) → leafShare l leaves = 2 ^ l

theorem leafShare_joined (l : Nat) (a b : Node) (id : Nat) :
    leafShare (l + 1) (joined a b id).leaves = leafShare l a.leaves + leafShare l b.leaves := by
  simp only [leafShare, joined, List.map_map, Function.comp_def, Nat.add_sub_add_right, List.map_append, List.sum_append_nat]

/-- Two trees joined take half of the space each. -/
theorem FillsSpace.joined {a b : Node} (ha : FillsSpace a.leaves) (hb : FillsSpace b.leaves) (id : Nat) :
    FillsSpace (joined a b id).leaves := by
  intro l hl
  have hdeep : ∀ x ∈ a.leaves ++ b.leaves, x.1 + 1 ≤ l := fun x hx => hl (x.1 + 1, x.2) (List.mem_map.mpr ⟨x, hx, rfl⟩)
  cases l with
  | zero =>
    have hnil : a.leaves = [] :=
      List.eq_nil_iff_forall_not_mem.mpr fun x hx => absurd (hdeep x (List.mem_append_left _ hx)) (Nat.not_succ_le_zero _)
    have hempty := ha 0 fun x hx => absurd (hnil ▸ hx) List.not_mem_nil
    rw [hnil] at hempty
    exact absurd hempty (by decide)
  | succ l =>
    rw [leafShare_joined, ha l fun x hx => Nat.le_of_succ_le_succ (hdeep x (List.mem_append_left _ hx)),
      hb l fun x hx => Nat.le_of_succ_le_succ (hdeep x (List.mem_append_right _ hx)), Nat.pow_succ, Nat.mul_two]

/-- Every node of the merging is the root of a tree in which each inner node has two children, so its leaves take the whole space. -/
theorem merged_fillsSpace (h : Merged next heap lens) (hheap : ∀ n ∈ heap, FillsSpace n.leaves) : FillsSpace lens := by
  induction h with
  | root n => exact hheap _ List.mem_cons_self
  | merge next heap rest a b lens hp _ _ _ ih =>
    have hmem {n : Node} (hn : n ∈ a :: b :: rest) : FillsSpace n.leaves := hheap n (hp.mem_iff.mpr hn)
    refine ih fun n hn => ?_
    rcases List.mem_cons.mp hn with rfl | hn
    · exact (hmem (.head _)).joined (hmem (.tail _ (.head _))) next
    · exact hmem (.tail _ (.tail _ hn))

/-- The merging loses no leaf and adds none. -/
theorem merged_symbols (h : Merged next heap lens) : (lens.map (·.2)).Perm (heap.flatMap fun n => n.leaves.map (·.2)) := by
  induction h with
  | root n => simp
  | merge next heap rest a b lens hp _ _ _ ih =>
    refine ih.trans (.trans ?_ (hp.flatMap_right _).symm)
    simp [Function.comp_def]

/-- While the merging runs, EOB stands in a node `E` at depth `e`, and no leaf stands deeper. A node that will be merged before `E` has its
leaves less deep, and `E` weighs no more than any two of the others together, so that a node made without `E` is merged after it. -/
structure EobLeads (next : Nat) (E : Node) (rest : List Node) (e : Nat) : Prop where
  id_lt : E.id < next
  leaf : (e, 256) ∈ E.leaves
  deepest : ∀ n ∈ E :: rest, ∀ l ∈ n.leaves, l.1 ≤ e
  before : ∀ n ∈ rest, n.before E → ∀ l ∈ n.leaves, l.1 < e
  pairs : rest.Pairwise fun x y => E.weight ≤ x.weight + y.weight

/-- The order in which the other nodes are listed does not matter. -/
theorem EobLeads.perm (h : EobLeads next E rest e) (hp : rest.Perm rest') : EobLeads next E rest' e where
  id_lt := h.id_lt
  leaf := h.leaf
  deepest := fun n hn => h.deepest n ((hp.cons E).mem_iff.mpr hn)
  before := fun n hn => h.before n (hp.mem_iff.mpr hn)
  pairs := (hp.pairwise_iff fun {x y} hxy => by omega).mp h.pairs

/-- A turn that merges EOB's node with another, `c`: EOB is one step deeper, and so are at most the leaves of `c`. -/
theorem EobLeads.merge_eob {c : Node} (h : EobLeads next E (c :: rest) e) (hE : (a = E ∧ b = c) ∨ (a = c ∧ b = E))
    (hab : a.before b) (hb : ∀ x ∈ rest, b.before x) : EobLeads (next + 1) (joined a b next) rest (e + 1) := by
  have hdeep : ∀ l ∈ a.leaves ++ b.leaves, l.1 ≤ e := by
    intro l hl
    rcases hE with ⟨rfl, rfl⟩ | ⟨rfl, rfl⟩ <;>
    · rcases List.mem_append.mp hl with hl | hl <;> exact h.deepest _ (by simp) l hl
  have heob : (e, 256) ∈ a.leaves ++ b.leaves := by
    rcases hE with ⟨rfl, rfl⟩ | ⟨rfl, rfl⟩
    · exact List.mem_append_left _ h.leaf
    · exact List.mem_append_right _ h.leaf
  have hothers : ∀ n ∈ rest, ∀ l ∈ n.leaves, l.1 ≤ e := fun n hn => h.deepest n (.tail _ (.tail _ hn))
  refine ⟨Nat.lt_succ_self _, List.mem_map.mpr ⟨_, heob, rfl⟩, fun n hn l hl => ?_, fun n hn _ l hl => Nat.lt_succ_of_le (hothers n hn l hl),
    List.pairwise_of_forall_mem_list fun x hx y hy => ?_⟩
  · rcases List.mem_cons.mp hn with rfl | hn
    · obtain ⟨l', hl', rfl⟩ := List.mem_map.mp hl
      exact Nat.succ_le_succ (hdeep l' hl')
    · exact Nat.le_succ_of_le (hothers n hn l hl)
  · have hx := hb x hx
    have hy := hb y hy
    simp only [Node.before] at hab hx hy
    simp only [joined]
    omega

/-- A turn that merges two other nodes, both before EOB's: the new one is not deeper than EOB, and stands after EOB's node. -/
theorem EobLeads.merge_others (h : EobLeads next E (a :: b :: rest) e) (hab : a.before b) (hb : b.before E) :
    EobLeads (next + 1) E (joined a b next :: rest) e := by
  have ha : a.before E := by
    simp only [Node.before] at hab hb ⊢
    omega
  have hjoined : ∀ l ∈ (joined a b next).leaves, l.1 ≤ e := by
    intro l hl
    obtain ⟨c, hc, l', hl', rfl⟩ := mem_joined_leaves hl
    rcases hc with rfl | rfl
    · exact h.before _ (by simp) ha l' hl'
    · exact h.before _ (by simp) hb l' hl'
  obtain ⟨hpa, hpb⟩ := List.pairwise_cons.mp h.pairs
  obtain ⟨_, hprest⟩ := List.pairwise_cons.mp hpb
  have hweight : E.weight ≤ a.weight + b.weight := hpa b (by simp)
  refine ⟨Nat.lt_succ_of_lt h.id_lt, h.leaf, fun n hn => ?_, fun n hn hbefore => ?_, List.pairwise_cons.mpr ⟨fun y _ => ?_, hprest⟩⟩
  · rcases List.mem_cons.mp hn with rfl | hn
    · exact h.deepest _ List.mem_cons_self
    · rcases List.mem_cons.mp hn with rfl | hn
      · exact hjoined
      · exact h.deepest n (.tail _ (.tail _ (.tail _ hn)))
  · rcases List.mem_cons.mp hn with rfl | hn
    · have := h.id_lt
      simp only [Node.before, joined] at hbefore
      omega
    · exact h.before n (.tail _ (.tail _ hn)) hbefore
  · simp only [joined]
    omega

/-- EOB ends at the greatest depth (R161, item 3). -/
theorem merged_eob_deepest (h : Merged next heap lens) (hp : heap.Perm (E :: rest)) (hE : EobLeads next E rest e) :
    ∃ d, (d, 256) ∈ lens ∧ ∀ l ∈ lens, l.1 ≤ d := by
  induction h generalizing E rest e with
  | root next n =>
    obtain ⟨rfl, rfl⟩ := List.cons_eq_cons.mp (List.singleton_perm.mp hp)
    exact ⟨e, hE.leaf, hE.deepest _ (by simp)⟩
  | merge next heap others a b lens hheap hab hb _ ih =>
    have hperm : (E :: rest).Perm (a :: b :: others) := hp.symm.trans hheap
    rcases List.mem_cons.mp (hperm.mem_iff.mp List.mem_cons_self) with rfl | hmem
    · exact ih (.refl _) ((hE.perm hperm.cons_inv).merge_eob (.inl ⟨rfl, rfl⟩) hab hb)
    rcases List.mem_cons.mp hmem with rfl | hmem
    · exact ih (.refl _) ((hE.perm (hperm.trans (.swap ..)).cons_inv).merge_eob (.inr ⟨rfl, rfl⟩) hab hb)
    · obtain ⟨l₁, l₂, rfl⟩ := List.append_of_mem hmem
      have hmid : (l₁ ++ E :: l₂).Perm (E :: (l₁ ++ l₂)) := List.perm_middle
      have hrest : rest.Perm (a :: b :: (l₁ ++ l₂)) :=
        (hperm.trans (((hmid.cons b).trans (.swap ..)).cons a |>.trans (.swap ..))).cons_inv
      exact ih ((hmid.cons _).trans (.swap ..)) ((hE.perm hrest).merge_others hab (hb E hmem))

end Merging

/-! ### The code lengths of the participants -/

theorem participants_perm (freq : Vector Word 256) : (participants freq).Perm (256 :: codedBytes freq) := List.perm_append_singleton ..

theorem mem_codedBytes {freq : Vector Word 256} {p : Nat} : p ∈ codedBytes freq ↔ p < 256 ∧ tableGet freq p ≠ 0 := by
  simp [codedBytes_eq]

theorem weight_eob (freq : Vector Word 256) : weight freq 256 = 0 := rfl

theorem weight_pos {freq : Vector Word 256} {p : Nat} (h : p ∈ codedBytes freq) : 0 < weight freq p := by
  obtain ⟨hp, hne⟩ := mem_codedBytes.mp h
  rw [weight, if_pos hp, Nat.pos_iff_ne_zero]
  exact fun h0 => hne (BitVec.eq_of_toNat_eq h0)

/-- At the start EOB's leaf is the only one of weight 0. -/
theorem eobLeads_leafHeap (freq : Vector Word 256) : EobLeads 257 (leafOf freq 256) ((codedBytes freq).map (leafOf freq)) 0 := by
  refine ⟨Nat.lt_succ_self 256, List.mem_cons_self, fun n hn l hl => ?_, fun n hn hbefore => ?_,
    List.pairwise_of_forall fun _ _ => Nat.zero_le _⟩
  · rw [← List.map_cons] at hn
    obtain ⟨p, _, rfl⟩ := List.mem_map.mp hn
    exact Nat.le_of_eq (congrArg Prod.fst (List.mem_singleton.mp hl))
  · obtain ⟨p, hp, rfl⟩ := List.mem_map.mp hn
    have hpos := weight_pos hp
    have hlt := (mem_codedBytes.mp hp).1
    simp only [Claims.Node.before, leafOf, weight_eob] at hbefore
    omega

/-- The code lengths that HBUILD computes from FREQ. -/
def builtLengths (freq : Vector Word 256) : List (Nat × Nat) := codeLengths freq (participants freq)

theorem builtLengths_symbols (freq : Vector Word 256) : (builtLengths freq).map (·.2) = participants freq := by
  simp [builtLengths, codeLengths, Function.comp_def]

theorem builtLengths_symbols_nodup (freq : Vector Word 256) : ((builtLengths freq).map (·.2)).Nodup := by
  rw [builtLengths_symbols]
  exact participants_nodup freq

theorem nodup_of_symbols {lens : List (Nat × Nat)} (h : (lens.map (·.2)).Nodup) : lens.Nodup :=
  List.Pairwise.of_map (·.2) (fun _ _ hne heq => hne (congrArg _ heq)) h

/-- The lengths that HBUILD computes are, in some order, those of R155's loop. -/
theorem builtLengths_merged (s : State) :
    ∃ lens, Claims.Merged 257 (Claims.leafHeap s) lens ∧ lens.Perm (builtLengths s.freq) := by
  obtain ⟨lens, hmerged, hmem⟩ := codeLengths_merged s
  have hsyms : (lens.map (·.2)).Perm (participants s.freq) := by
    have h := merged_symbols hmerged
    simpa [leafHeap_eq, leafOf, List.flatMap_map] using h
  have hnodup : lens.Nodup := nodup_of_symbols (hsyms.nodup_iff.mpr (participants_nodup s.freq))
  have hnodup' : (builtLengths s.freq).Nodup := nodup_of_symbols (builtLengths_symbols_nodup s.freq)
  exact ⟨lens, hmerged, (List.perm_ext_iff_of_nodup hnodup hnodup').mpr hmem⟩

/-- Kraft's equality for the lengths (R161, item 1). -/
theorem builtLengths_fillsSpace (s : State) {l : Nat} (hl : ∀ x ∈ builtLengths s.freq, x.1 ≤ l) :
    leafShare l (builtLengths s.freq) = 2 ^ l := by
  obtain ⟨lens, hmerged, hperm⟩ := builtLengths_merged s
  rw [← leafShare_perm hperm]
  refine merged_fillsSpace hmerged (fun n hn => ?_) l fun x hx => hl x (hperm.mem_iff.mp hx)
  rw [leafHeap_eq] at hn
  obtain ⟨p, _, rfl⟩ := List.mem_map.mp hn
  exact fun _ _ => Nat.add_zero _

/-- EOB has the greatest length (R161, item 3). -/
theorem builtLengths_eob (s : State) : ∃ d, (d, 256) ∈ builtLengths s.freq ∧ ∀ l ∈ builtLengths s.freq, l.1 ≤ d := by
  obtain ⟨lens, hmerged, hperm⟩ := builtLengths_merged s
  have hheap : (Claims.leafHeap s).Perm (leafOf s.freq 256 :: (codedBytes s.freq).map (leafOf s.freq)) := by
    rw [leafHeap_eq]
    exact (participants_perm s.freq).map _
  obtain ⟨d, hd, hmax⟩ := merged_eob_deepest hmerged hheap (eobLeads_leafHeap s.freq)
  exact ⟨d, hperm.mem_iff.mp hd, fun l hl => hmax l (hperm.mem_iff.mpr hl)⟩

/-- With a byte to code, no length is 0. -/
theorem builtLengths_pos {s : State} (h : codedBytes s.freq ≠ []) : ∀ l ∈ builtLengths s.freq, 1 ≤ l.1 := by
  obtain ⟨lens, hmerged, hperm⟩ := builtLengths_merged s
  have hlen : 2 ≤ (Claims.leafHeap s).length := by
    rw [leafHeap_eq, List.length_map, participants, List.length_append, List.length_singleton]
    have := List.length_pos_iff.mpr h
    omega
  exact fun l hl => merged_pos hmerged (.inl hlen) l (hperm.mem_iff.mpr hl)

theorem maxLength_le_iff {lens : List (Nat × Nat)} {n : Nat} : maxLength lens ≤ n ↔ ∀ l ∈ lens, l.1 ≤ n := by
  have hfold (m : Nat) : lens.foldl (fun m p => max m p.1) m ≤ n ↔ m ≤ n ∧ ∀ l ∈ lens, l.1 ≤ n := by
    induction lens generalizing m with
    | nil => simp
    | cons x lens ih => simp only [List.foldl_cons, ih, Nat.max_le, List.forall_mem_cons, and_assoc]
  simpa [maxLength] using hfold 0

/-- The longest length is EOB's. -/
theorem maxLength_builtLengths (s : State) :
    (maxLength (builtLengths s.freq), 256) ∈ builtLengths s.freq ∧ ∀ l ∈ builtLengths s.freq, l.1 ≤ maxLength (builtLengths s.freq) := by
  obtain ⟨d, hd, hmax⟩ := builtLengths_eob s
  have hle := maxLength_le_iff.mp (Nat.le_refl (maxLength (builtLengths s.freq)))
  have heq : d = maxLength (builtLengths s.freq) := Nat.le_antisymm (hle _ hd) (maxLength_le_iff.mpr hmax)
  exact ⟨heq ▸ hd, hle⟩

/-! ### The canonical codes (R156) -/

/-- The place of a code in the order of R156: by length, then by symbol. -/
def Code.key (c : Code) : Nat × Nat := (c.len, c.sym)

theorem lexLt_fst_le {x y : Nat × Nat} (h : lexLt x y) : x.1 ≤ y.1 := by
  unfold lexLt at h
  omega

/-- The part of a code space of `2 ^ l` that these codes take: `sum of 2^(l - length)` (R161). -/
def codeShare (l : Nat) (codes : List Code) : Nat := (codes.map fun c => 2 ^ (l - c.len)).sum

@[simp] theorem codeShare_nil (l : Nat) : codeShare l [] = 0 := rfl

@[simp] theorem codeShare_cons (l : Nat) (c : Code) (codes : List Code) :
    codeShare l (c :: codes) = 2 ^ (l - c.len) + codeShare l codes := by
  simp [codeShare]

@[simp] theorem codeShare_append (l : Nat) (xs ys : List Code) : codeShare l (xs ++ ys) = codeShare l xs + codeShare l ys := by
  simp [codeShare]

theorem codesAfter_keys (prev prevLen : Nat) (lens : List (Nat × Nat)) : (codesAfter prev prevLen lens).map Code.key = lens := by
  induction lens generalizing prev prevLen with
  | nil => rfl
  | cons x lens ih => exact congrArg (x :: ·) (ih _ _)

theorem canonicalCodes_keys (lens : List (Nat × Nat)) : (canonicalCodes lens).map Code.key = lexSort lens := by
  unfold canonicalCodes
  split
  case h_1 h => simp [h]
  case h_2 l sym rest h =>
    rw [h]
    exact congrArg ((l, sym) :: ·) (codesAfter_keys 0 l rest)

theorem shiftLeft_sub_mul {a b l : Nat} (hab : a ≤ b) (hbl : b ≤ l) (v : Nat) :
    (v <<< (b - a)) * 2 ^ (l - b) = v * 2 ^ (l - a) := by
  rw [Nat.shiftLeft_eq, Nat.mul_assoc, ← Nat.pow_add]
  congr 2
  omega

/-- A code starts where the code before the list ends and those before it in the list end. -/
theorem codesAfter_start {l prev prevLen : Nat} {lens : List (Nat × Nat)} {pre post : List Code} {c : Code}
    (hsorted : lens.Pairwise lexLt) (hlow : ∀ x ∈ lens, prevLen ≤ x.1) (hhigh : ∀ x ∈ lens, x.1 ≤ l)
    (hsplit : codesAfter prev prevLen lens = pre ++ c :: post) :
    c.val * 2 ^ (l - c.len) = (prev + 1) * 2 ^ (l - prevLen) + codeShare l pre := by
  induction lens generalizing prev prevLen pre with
  | nil => simp [codesAfter] at hsplit
  | cons x lens ih =>
    obtain ⟨hx, hsorted⟩ := List.pairwise_cons.mp hsorted
    obtain ⟨hxlow, _⟩ := List.forall_mem_cons.mp hlow
    obtain ⟨hxhigh, hhigh⟩ := List.forall_mem_cons.mp hhigh
    have hshift := shiftLeft_sub_mul hxlow hxhigh (prev + 1)
    cases pre with
    | nil =>
      obtain ⟨rfl, _⟩ := List.cons_eq_cons.mp hsplit
      simpa using hshift
    | cons d pre =>
      obtain ⟨rfl, hrest⟩ := List.cons_eq_cons.mp hsplit
      rw [ih hsorted (fun y hy => lexLt_fst_le (hx y hy)) hhigh hrest, Nat.add_mul, hshift, codeShare_cons, Nat.one_mul]
      exact Nat.add_assoc _ _ _

/-- Each code starts where the codes before it end (R156): scaled to the longest length `l`, it is the space that they take. -/
theorem canonicalCodes_start {l : Nat} {lens : List (Nat × Nat)} {pre post : List Code} {c : Code}
    (hnodup : (lens.map (·.2)).Nodup) (hhigh : ∀ x ∈ lens, x.1 ≤ l) (hsplit : canonicalCodes lens = pre ++ c :: post) :
    c.val * 2 ^ (l - c.len) = codeShare l pre := by
  have hsorted := lexSort_sorted lens hnodup
  have hhigh' : ∀ x ∈ lexSort lens, x.1 ≤ l := fun x hx => hhigh x ((lexSort_perm lens).mem_iff.mp hx)
  unfold canonicalCodes at hsplit
  split at hsplit
  case h_1 => simp at hsplit
  case h_2 len sym rest heq =>
    rw [heq] at hsorted hhigh'
    obtain ⟨hfirst, hsorted⟩ := List.pairwise_cons.mp hsorted
    cases pre with
    | nil =>
      obtain ⟨rfl, _⟩ := List.cons_eq_cons.mp hsplit
      simp
    | cons d pre =>
      obtain ⟨rfl, hrest⟩ := List.cons_eq_cons.mp hsplit
      rw [codesAfter_start hsorted (fun y hy => lexLt_fst_le (hfirst y hy)) (fun x hx => hhigh' x (.tail _ hx)) hrest, codeShare_cons, Nat.zero_add, Nat.one_mul]

/-! ### The table that HBUILD writes (R157) -/

theorem tableGet_tabulate {α : Type} [Inhabited α] {n i : Nat} (f : Nat → α) (h : i < n) : tableGet (tabulate n f) i = f i := by
  rw [tableGet, tabulate_getElem? n f i h, Option.getD_some]

theorem codeOf_of_mem {codes : List Code} {c : Code} (hnodup : (codes.map Code.sym).Nodup) (hc : c ∈ codes) :
    codeOf codes c.sym = some c := by
  obtain ⟨pre, post, rfl⟩ := List.append_of_mem hc
  rw [codeOf, List.find?_eq_some_iff_append]
  refine ⟨by simp, pre, post, rfl, fun d hd => ?_⟩
  rw [List.map_append, List.nodup_append] at hnodup
  simpa using hnodup.2.2 d.sym (List.mem_map_of_mem hd) c.sym (by simp)

theorem codeOf_of_not_mem {codes : List Code} {i : Nat} (h : ∀ c ∈ codes, c.sym ≠ i) : codeOf codes i = none :=
  List.find?_eq_none.mpr fun c hc => by simpa using h c hc

/-- These codes are those of `bytes`, followed by EOB's of length `l`. -/
structure EndsWithEob (l : Nat) (codes bytes : List Code) : Prop where
  eob : ∃ v, codes = bytes ++ [⟨256, l, v⟩]
  sym_lt : ∀ c ∈ bytes, c.sym < 256

/-- `t` holds these codes in its code table: a complete canonical code of the symbols they name, in the order of R156, of which EOB's is the last
and one of the longest. -/
structure CodeTable (t : State) (codes : List Code) : Prop where
  /-- The codes stand in the order of R156. -/
  sorted : codes.Pairwise fun c d => lexLt c.key d.key
  /-- No symbol has two codes. -/
  nodup : (codes.map Code.sym).Nodup
  /-- Each code starts where the codes before it end. -/
  start : ∀ {pre c post}, codes = pre ++ c :: post → c.val * 2 ^ (t.encMaxlen - c.len) = codeShare t.encMaxlen pre
  /-- Kraft's equality. -/
  full : codeShare t.encMaxlen codes = 2 ^ t.encMaxlen
  len_pos : ∀ c ∈ codes, 1 ≤ c.len
  len_le : ∀ c ∈ codes, c.len ≤ t.encMaxlen
  maxlen_le : t.encMaxlen ≤ 64
  /-- EOB is last. -/
  eob : ∃ bytes, EndsWithEob t.encMaxlen codes bytes
  /-- What the table holds for the symbols with a code. -/
  entry : ∀ c ∈ codes, tableGet t.codeLen c.sym = c.len ∧ tableGet t.codeVal c.sym = toWord c.val
  /-- What it holds for the others. -/
  uncoded : ∀ {i}, i < 257 → (∀ c ∈ codes, c.sym ≠ i) → tableGet t.codeLen i = 0 ∧ tableGet t.codeVal i = 0

/-! ### What HBUILD leaves (R153, R157) -/

/-- The codes that HBUILD computes from FREQ. -/
def builtCodes (freq : Vector Word 256) : List Code := canonicalCodes (builtLengths freq)

theorem builtCodes_keys (freq : Vector Word 256) : (builtCodes freq).map Code.key = lexSort (builtLengths freq) := canonicalCodes_keys _

/-- The codes are for the symbols, and of the lengths, that R155 gives. -/
theorem mem_builtLengths_iff {freq : Vector Word 256} {x : Nat × Nat} : x ∈ builtLengths freq ↔ ∃ c ∈ builtCodes freq, c.key = x := by
  rw [← (lexSort_perm _).mem_iff, ← builtCodes_keys, List.mem_map]

theorem builtCodes_symbols (freq : Vector Word 256) : ((builtCodes freq).map Code.sym).Perm (participants freq) := by
  have hmap : (builtCodes freq).map Code.sym = (lexSort (builtLengths freq)).map (·.2) := by
    rw [← builtCodes_keys, List.map_map]
    rfl
  rw [hmap, ← builtLengths_symbols]
  exact (lexSort_perm _).map _

/-- HBUILD by its alphabet and its longest length. -/
theorem execHbuild_of_empty {s : State} (h : codedBytes s.freq = []) : exec .hbuild s = .next (s.clearCodeTable.succeed 0) := by
  simp [exec, execHbuild, h]

theorem execHbuild_of_long {s : State} (h : codedBytes s.freq ≠ []) (hlong : 64 < maxLength (builtLengths s.freq)) :
    exec .hbuild s = .next (s.clearCodeTable.fail .codelen (toWord (maxLength (builtLengths s.freq)))) := by
  simp only [builtLengths] at hlong
  simp [exec, execHbuild, h, builtLengths, Config.codeLenMax, hlong]

theorem execHbuild_of_short {s : State} (h : codedBytes s.freq ≠ []) (hshort : maxLength (builtLengths s.freq) ≤ 64) :
    exec .hbuild s = .next ((s.writeCodeTable (builtCodes s.freq) (maxLength (builtLengths s.freq))).succeed
      (toWord (maxLength (builtLengths s.freq)))) := by
  simp only [builtLengths] at hshort
  simp [exec, execHbuild, h, builtCodes, builtLengths, Config.codeLenMax, Nat.not_lt.mpr hshort]

theorem writeCodeTable_entry (s : State) {codes : List Code} (l : Nat) {c : Code} (hnodup : (codes.map Code.sym).Nodup) (hc : c ∈ codes)
    (hsym : c.sym < 257) :
    tableGet (s.writeCodeTable codes l).codeLen c.sym = c.len ∧ tableGet (s.writeCodeTable codes l).codeVal c.sym = toWord c.val := by
  simp [State.writeCodeTable, tableGet_tabulate _ hsym, codeOf_of_mem hnodup hc]

theorem writeCodeTable_uncoded (s : State) {codes : List Code} (l : Nat) {i : Nat} (hi : i < 257) (h : ∀ c ∈ codes, c.sym ≠ i) :
    tableGet (s.writeCodeTable codes l).codeLen i = 0 ∧ tableGet (s.writeCodeTable codes l).codeVal i = 0 := by
  simp [State.writeCodeTable, tableGet_tabulate _ hi, codeOf_of_not_mem h, toWord]

theorem clearCodeTable_entries (s : State) (i : Nat) :
    tableGet s.clearCodeTable.codeLen i = 0 ∧ tableGet s.clearCodeTable.codeVal i = 0 :=
  ⟨tableGet_replicate_zero i, tableGet_replicate_zeroWord i⟩

theorem participants_lt {freq : Vector Word 256} {p : Nat} (h : p ∈ participants freq) : p < 257 := by
  rw [participants_eq, List.mem_filter, List.mem_range] at h
  exact h.1

/-- Codes take the part of the code space that leaves at their lengths take. -/
theorem codeShare_eq_leafShare (l : Nat) (codes : List Code) : codeShare l codes = leafShare l (codes.map Code.key) := by
  rw [codeShare, leafShare, List.map_map]
  rfl

section BuiltCodes

variable {s : State} {c : Code}

theorem builtCodes_nodup (s : State) : ((builtCodes s.freq).map Code.sym).Nodup :=
  (builtCodes_symbols s.freq).nodup_iff.mpr (participants_nodup s.freq)

theorem builtCodes_sorted (s : State) : (builtCodes s.freq).Pairwise fun c d => lexLt c.key d.key := by
  rw [← List.pairwise_map, builtCodes_keys]
  exact lexSort_sorted _ (builtLengths_symbols_nodup s.freq)

theorem builtCodes_sym_lt (hc : c ∈ builtCodes s.freq) : c.sym < 257 :=
  participants_lt ((builtCodes_symbols s.freq).mem_iff.mp (List.mem_map_of_mem hc))

theorem builtCodes_len_le (hc : c ∈ builtCodes s.freq) : c.len ≤ maxLength (builtLengths s.freq) :=
  (maxLength_builtLengths s).2 _ (mem_builtLengths_iff.mpr ⟨c, hc, rfl⟩)

/-- Kraft's equality (R161, item 1). -/
theorem builtCodes_share (s : State) :
    codeShare (maxLength (builtLengths s.freq)) (builtCodes s.freq) = 2 ^ maxLength (builtLengths s.freq) := by
  rw [codeShare_eq_leafShare, builtCodes_keys, leafShare_perm (lexSort_perm _)]
  exact builtLengths_fillsSpace s (maxLength_builtLengths s).2

/-- EOB's code is last: no length is greater than its own, and no symbol than 256. -/
theorem builtCodes_endsWithEob (s : State) : ∃ bytes, EndsWithEob (maxLength (builtLengths s.freq)) (builtCodes s.freq) bytes := by
  obtain ⟨⟨sym, len, v⟩, hc, hkey⟩ := mem_builtLengths_iff.mp (maxLength_builtLengths s).1
  obtain ⟨rfl, rfl⟩ : len = _ ∧ sym = 256 := Prod.mk.inj hkey
  obtain ⟨pre, post, hsplit⟩ := List.append_of_mem hc
  have hsorted := builtCodes_sorted s
  have hnodup := builtCodes_nodup s
  rw [hsplit] at hsorted hnodup
  obtain ⟨_, hafter, _⟩ := List.pairwise_append.mp hsorted
  have hnil : post = [] := by
    refine List.eq_nil_iff_forall_not_mem.mpr fun d hd => ?_
    have hd' : d ∈ builtCodes s.freq := by rw [hsplit]; simp [hd]
    have hlate := (List.pairwise_cons.mp hafter).1 d hd
    have hlen := builtCodes_len_le hd'
    have hsym := builtCodes_sym_lt hd'
    simp only [lexLt, Code.key] at hlate
    omega
  rw [hnil] at hsplit
  refine ⟨pre, ⟨v, hsplit⟩, fun c hc => ?_⟩
  have hsym : c.sym < 257 := builtCodes_sym_lt (s := s) (by rw [hsplit]; simp [hc])
  have hne : c.sym ≠ 256 := by
    rw [List.map_append, List.nodup_append] at hnodup
    exact hnodup.2.2 c.sym (List.mem_map_of_mem hc) 256 (by simp)
  omega

end BuiltCodes

/-- A successful HBUILD writes a complete canonical code (R155 to R157). -/
theorem writeCodeTable_codeTable {s : State} (h : codedBytes s.freq ≠ []) (hshort : maxLength (builtLengths s.freq) ≤ 64) (r : Word) :
    CodeTable ((s.writeCodeTable (builtCodes s.freq) (maxLength (builtLengths s.freq))).succeed r) (builtCodes s.freq) where
  sorted := builtCodes_sorted s
  nodup := builtCodes_nodup s
  start := canonicalCodes_start (builtLengths_symbols_nodup s.freq) (maxLength_builtLengths s).2
  full := builtCodes_share s
  len_pos := fun c hc => builtLengths_pos h _ (mem_builtLengths_iff.mpr ⟨c, hc, rfl⟩)
  len_le := fun _ => builtCodes_len_le
  maxlen_le := hshort
  eob := builtCodes_endsWithEob s
  entry := fun _ hc => writeCodeTable_entry s (maxLength (builtLengths s.freq)) (builtCodes_nodup s) hc (builtCodes_sym_lt hc)
  uncoded := writeCodeTable_uncoded s (maxLength (builtLengths s.freq))

/-- All that HBUILD can leave: a cleared table, or a complete canonical code. -/
theorem execHbuild_cases {s t : State} (h : exec .hbuild s = .next t) :
    (t.encValid = false ∧ t.encMaxlen = 0 ∧ ∀ i, tableGet t.codeLen i = 0 ∧ tableGet t.codeVal i = 0)
    ∨ (t.encValid = true ∧ ∃ codes, CodeTable t codes) := by
  by_cases hempty : codedBytes s.freq = []
  · rw [execHbuild_of_empty hempty] at h
    cases h
    exact .inl ⟨rfl, rfl, clearCodeTable_entries s⟩
  · by_cases hlong : 64 < maxLength (builtLengths s.freq)
    · rw [execHbuild_of_long hempty hlong] at h
      cases h
      exact .inl ⟨rfl, rfl, clearCodeTable_entries s⟩
    · have hshort := Nat.not_lt.mp hlong
      rw [execHbuild_of_short hempty hshort] at h
      cases h
      exact .inr ⟨rfl, _, writeCodeTable_codeTable hempty hshort _⟩

theorem codeTable_of_execHbuild {s t : State} (h : exec .hbuild s = .next t) (hvalid : t.encValid = true) : ∃ codes, CodeTable t codes := by
  rcases execHbuild_cases h with ⟨hclear, _⟩ | ⟨_, hcodes⟩
  · exact absurd (hclear.symm.trans hvalid) Bool.false_ne_true
  · exact hcodes

/-! ### What a complete canonical code is like (R156, R161) -/

section CodeTable

variable {t : State} {codes pre post : List Code} {c d : Code} {i : Nat}

theorem CodeTable.coded_iff (h : CodeTable t codes) (hi : i < 257) : 0 < tableGet t.codeLen i ↔ ∃ c ∈ codes, c.sym = i := by
  constructor
  · intro hpos
    refine Classical.byContradiction fun hne => ?_
    have hzero := (h.uncoded hi fun c hc heq => hne ⟨c, hc, heq⟩).1
    omega
  · rintro ⟨c, hc, rfl⟩
    rw [(h.entry c hc).1]
    exact h.len_pos c hc

/-- A code ends where the next can start, inside the code space. -/
theorem CodeTable.end_eq (h : CodeTable t codes) (hsplit : codes = pre ++ c :: post) :
    (c.val + 1) * 2 ^ (t.encMaxlen - c.len) + codeShare t.encMaxlen post = 2 ^ t.encMaxlen := by
  have hfull := h.full
  rw [hsplit, codeShare_append, codeShare_cons, ← h.start hsplit] at hfull
  rw [← hfull, Nat.succ_mul, Nat.add_assoc]

/-- A code fits its length. -/
theorem CodeTable.val_lt (h : CodeTable t codes) (hc : c ∈ codes) : c.val < 2 ^ c.len := by
  obtain ⟨pre, post, hsplit⟩ := List.append_of_mem hc
  have hend := h.end_eq hsplit
  have hpow : 2 ^ t.encMaxlen = 2 ^ c.len * 2 ^ (t.encMaxlen - c.len) := by
    rw [← Nat.pow_add]
    congr 1
    have := h.len_le c hc
    omega
  have hle : (c.val + 1) * 2 ^ (t.encMaxlen - c.len) ≤ 2 ^ c.len * 2 ^ (t.encMaxlen - c.len) := by omega
  exact Nat.le_of_mul_le_mul_right hle (Nat.two_pow_pos _)

theorem CodeTable.codeVal_toNat (h : CodeTable t codes) (hc : c ∈ codes) : (tableGet t.codeVal c.sym).toNat = c.val := by
  have hpow : 2 ^ c.len ≤ 2 ^ 64 := Nat.pow_le_pow_right Nat.two_pos (Nat.le_trans (h.len_le c hc) h.maxlen_le)
  rw [(h.entry c hc).2, toWord_toNat (Nat.lt_of_lt_of_le (h.val_lt hc) hpow)]

theorem CodeTable.sym_lt (h : CodeTable t codes) (hc : c ∈ codes) : c.sym < 257 := by
  obtain ⟨bytes, ⟨v, rfl⟩, hbytes⟩ := h.eob
  rcases List.mem_append.mp hc with hc | hc
  · exact Nat.lt_succ_of_lt (hbytes c hc)
  · rw [List.mem_singleton.mp hc]
    exact Nat.lt_succ_self 256

/-- The symbols with a code, in the order of the alphabet. -/
theorem CodeTable.symbols_perm (h : CodeTable t codes) :
    ((List.range 257).filter fun i => tableGet t.codeLen i ≠ 0).Perm (codes.map Code.sym) := by
  refine (List.perm_ext_iff_of_nodup (List.nodup_range.filter _) h.nodup).mpr fun i => ?_
  simp only [List.mem_filter, List.mem_range, List.mem_map, decide_eq_true_eq]
  constructor
  · rintro ⟨hi, hne⟩
    exact (h.coded_iff hi).mp (Nat.pos_of_ne_zero hne)
  · rintro ⟨c, hc, rfl⟩
    exact ⟨h.sym_lt hc, Nat.pos_iff_ne_zero.mp ((h.coded_iff (h.sym_lt hc)).mpr ⟨c, hc, rfl⟩)⟩

theorem sum_map_filter_ne_zero {α : Type} (f : α → Nat) (l : List α) : ((l.filter fun x => f x ≠ 0).map f).sum = (l.map f).sum := by
  induction l with
  | nil => rfl
  | cons x l ih => by_cases hx : f x = 0 <;> simp_all

/-- The part of the code space that a symbol's code takes, 0 without a code (R161). -/
def symbolShare (t : State) (i : Nat) : Nat := if tableGet t.codeLen i = 0 then 0 else 2 ^ (t.encMaxlen - tableGet t.codeLen i)

theorem symbolShare_eq_zero_iff : symbolShare t i = 0 ↔ tableGet t.codeLen i = 0 := by
  by_cases hi : tableGet t.codeLen i = 0 <;> simp [symbolShare, hi]

/-- The sum of R161 over the table is that over the codes. -/
theorem CodeTable.codeSpace_eq (h : CodeTable t codes) : t.codeSpace = codeShare t.encMaxlen codes := by
  calc t.codeSpace = (((List.range 257).filter fun i => symbolShare t i ≠ 0).map (symbolShare t)).sum :=
        (sum_map_filter_ne_zero (symbolShare t) _).symm
    _ = ((codes.map Code.sym).map (symbolShare t)).sum := by
      simp only [ne_eq, symbolShare_eq_zero_iff]
      exact (h.symbols_perm.map _).sum_nat
    _ = codeShare t.encMaxlen codes := by
      rw [List.map_map, codeShare]
      refine congrArg List.sum (List.map_congr_left fun c hc => ?_)
      have hpos := Nat.pos_iff_ne_zero.mp (h.len_pos c hc)
      simp only [Function.comp_apply, symbolShare, (h.entry c hc).1, hpos, if_false]

/-- EOB has the longest length and the code of all one bits. -/
theorem CodeTable.eob_entry (h : CodeTable t codes) :
    tableGet t.codeLen 256 = t.encMaxlen ∧ (tableGet t.codeVal 256).toNat = 2 ^ t.encMaxlen - 1 := by
  obtain ⟨bytes, ⟨v, hsplit⟩, _⟩ := h.eob
  have hmem : ⟨256, t.encMaxlen, v⟩ ∈ codes := by simp [hsplit]
  have hend := h.end_eq hsplit
  rw [Nat.sub_self, codeShare_nil] at hend
  refine ⟨(h.entry _ hmem).1, ?_⟩
  rw [h.codeVal_toNat hmem]
  omega

theorem CodeTable.encMaxlen_pos (h : CodeTable t codes) : 1 ≤ t.encMaxlen := by
  obtain ⟨bytes, ⟨v, hsplit⟩, _⟩ := h.eob
  exact h.len_pos ⟨256, t.encMaxlen, v⟩ (by simp [hsplit])

/-- A code is the one before it, plus 1, shifted by the difference of their lengths (R156). -/
theorem CodeTable.val_next (h : CodeTable t codes) (hsplit : codes = pre ++ c :: d :: post) :
    d.val = (c.val + 1) <<< (d.len - c.len) := by
  have hc := h.start hsplit
  have hd := h.start (pre := pre ++ [c]) (c := d) (post := post) (by simpa using hsplit)
  have hmem : d ∈ codes := by simp [hsplit]
  have hle : c.len ≤ d.len := by
    have hsorted := h.sorted
    rw [hsplit, List.pairwise_append] at hsorted
    exact lexLt_fst_le ((List.pairwise_cons.mp hsorted.2.1).1 d List.mem_cons_self)
  refine Nat.mul_right_cancel (Nat.two_pow_pos (t.encMaxlen - d.len)) ?_
  rw [shiftLeft_sub_mul hle (h.len_le d hmem), hd, codeShare_append, codeShare_cons, codeShare_nil, Nat.add_zero, ← hc,
    Nat.succ_mul]

end CodeTable

/-! ### The statements about HBUILD (R153 to R157, R161, R164) -/

/-- Settles O35: the codes that HBUILD computes take up the shares of the merging's leaves, which are the whole. -/
theorem hbuildCodeFillsTheCodeSpace : Obligations.HbuildCodeFillsTheCodeSpace := by
  intro s t h hvalid
  obtain ⟨codes, htable⟩ := codeTable_of_execHbuild h hvalid
  rw [htable.codeSpace_eq, htable.full]

/-- Settles O36: EOB ends deepest in the merging, comes last in the order of R156, and the codes fill the code space. -/
theorem eobHasTheLastLongestCode : Obligations.EobHasTheLastLongestCode := by
  intro s t h hvalid
  obtain ⟨codes, htable⟩ := codeTable_of_execHbuild h hvalid
  exact htable.eob_entry

/-- The first of an ordered list. -/
theorem split_of_first {α : Type} {r : α → α → Prop} {l : List α} {x : α} (hsorted : l.Pairwise r) (hx : x ∈ l)
    (hfirst : ∀ y ∈ l, ¬ r y x) : ∃ post, l = x :: post := by
  obtain ⟨pre, post, rfl⟩ := List.append_of_mem hx
  cases pre with
  | nil => exact ⟨post, rfl⟩
  | cons y pre => exact absurd ((List.pairwise_cons.mp hsorted).1 x (by simp)) (hfirst y (by simp))

/-- Two entries of an ordered list with none between them are neighbours. -/
theorem split_of_adjacent {α : Type} {r : α → α → Prop} {l : List α} {x y : α} (hsorted : l.Pairwise r) (hasymm : ∀ a b, r a b → ¬ r b a)
    (hx : x ∈ l) (hy : y ∈ l) (hxy : r x y) (hbetween : ∀ z ∈ l, ¬ (r x z ∧ r z y)) : ∃ pre post, l = pre ++ x :: y :: post := by
  obtain ⟨pre, rest, rfl⟩ := List.append_of_mem hx
  obtain ⟨_, hrest, hcross⟩ := List.pairwise_append.mp hsorted
  obtain ⟨hxrest, hrest⟩ := List.pairwise_cons.mp hrest
  have hyrest : y ∈ rest := by
    rcases List.mem_append.mp hy with hpre | hmem
    · exact absurd (hcross y hpre x List.mem_cons_self) (hasymm x y hxy)
    · rcases List.mem_cons.mp hmem with rfl | hmem
      · exact absurd hxy (hasymm _ _ hxy)
      · exact hmem
  obtain ⟨post, rfl⟩ := split_of_first hrest hyrest fun z hz hzy => hbetween z (by simp [hz]) ⟨hxrest z hz, hzy⟩
  exact ⟨pre, post, rfl⟩

theorem toWord_succ_shiftLeft (v n : Nat) : toWord ((v + 1) <<< n) = (toWord v + 1) <<< n := by
  apply BitVec.eq_of_toNat_eq
  simp [toWord, Nat.shiftLeft_eq, Nat.succ_mul]

/-- Settles O34: the codes stand in the table in the order of R156, each starting where the one before it ends. -/
theorem hbuildAssignsCanonicalCodes : Obligations.HbuildAssignsCanonicalCodes := by
  intro s t h hvalid before coded
  obtain ⟨codes, htable⟩ := codeTable_of_execHbuild h hvalid
  have hcode {p : Nat} (hp : coded p) : ∃ c ∈ codes, c.sym = p := (htable.coded_iff hp.1).mp hp.2
  have hcoded {c : Code} (hc : c ∈ codes) : coded c.sym := ⟨htable.sym_lt hc, (htable.coded_iff (htable.sym_lt hc)).mpr ⟨c, hc, rfl⟩⟩
  have hbefore {c d : Code} (hc : c ∈ codes) (hd : d ∈ codes) : before c.sym d.sym ↔ lexLt c.key d.key := by
    simp only [before, lexLt, Code.key, (htable.entry c hc).1, (htable.entry d hd).1]
  refine ⟨fun p hp hfirst => ?_, fun p q hp hq hpq hbetween => ?_⟩
  · obtain ⟨c, hc, rfl⟩ := hcode hp
    obtain ⟨post, hsplit⟩ := split_of_first htable.sorted hc fun d hd hlt => hfirst d.sym (hcoded hd) ((hbefore hd hc).mpr hlt)
    have hstart := htable.start (pre := []) hsplit
    rw [(htable.entry c hc).2, (Nat.mul_eq_zero.mp hstart).resolve_right (Nat.ne_of_gt (Nat.two_pow_pos _))]
    rfl
  · obtain ⟨c, hc, rfl⟩ := hcode hp
    obtain ⟨d, hd, rfl⟩ := hcode hq
    obtain ⟨pre, post, hsplit⟩ := split_of_adjacent htable.sorted
      (fun a b hab hba => by simp only [lexLt] at hab hba; omega) hc hd ((hbefore hc hd).mp hpq)
      fun e he hlt => hbetween e.sym (hcoded he) ⟨(hbefore hc he).mpr hlt.1, (hbefore he hd).mpr hlt.2⟩
    rw [(htable.entry c hc).2, (htable.entry d hd).2, (htable.entry c hc).1, (htable.entry d hd).1, htable.val_next hsplit,
      toWord_succ_shiftLeft]

/-- Settles O32: no byte has a frequency, so the alphabet is empty. -/
theorem hbuildOnTheEmptyAlphabetClears : Obligations.HbuildOnTheEmptyAlphabetClears := by
  intro s hzero
  have hempty : codedBytes s.freq = [] :=
    List.eq_nil_iff_forall_not_mem.mpr fun p hp => (mem_codedBytes.mp hp).2 (hzero p (mem_codedBytes.mp hp).1)
  exact ⟨s.clearCodeTable, execHbuild_of_empty hempty, rfl, fun i _ => clearCodeTable_entries s i⟩

theorem participates_iff {s : State} {p : Nat} : Claims.participates s p ↔ p ∈ participants s.freq := by
  rw [(participants_perm _).mem_iff, List.mem_cons, mem_codedBytes]
  rfl

/-- Settles O33: the lengths are those of the merging, and EOB's is the longest. -/
theorem hbuildWritesTheCodeLengths : Obligations.HbuildWritesTheCodeLengths := by
  rintro s ⟨v, hv, hfreq⟩
  have hne : codedBytes s.freq ≠ [] := List.ne_nil_of_mem (mem_codedBytes.mpr ⟨hv, hfreq⟩)
  obtain ⟨lens, hmerged, hperm⟩ := builtLengths_merged s
  obtain ⟨heob, hmax⟩ := maxLength_builtLengths s
  refine ⟨lens, maxLength (builtLengths s.freq), hmerged, ⟨_, hperm.mem_iff.mpr heob, rfl⟩, fun p hp => hmax p (hperm.mem_iff.mp hp),
    fun hlong => ⟨_, execHbuild_of_long hne hlong, rfl, fun i _ => clearCodeTable_entries s i⟩,
    fun hshort => ⟨_, execHbuild_of_short hne hshort, rfl, fun i hi => ?_⟩⟩
  have htable := writeCodeTable_codeTable hne hshort (toWord (maxLength (builtLengths s.freq)))
  have hsyms := builtCodes_symbols s.freq
  refine ⟨fun hp => ?_, fun hp => ?_⟩
  · obtain ⟨c, hc, rfl⟩ := List.mem_map.mp (hsyms.mem_iff.mpr (participates_iff.mp hp))
    have hlen := (htable.entry c hc).1
    rw [State.succeed_codeLen] at hlen
    rw [hlen]
    exact ⟨hperm.mem_iff.mpr (mem_builtLengths_iff.mpr ⟨c, hc, rfl⟩), htable.len_pos c hc⟩
  · exact htable.uncoded hi fun c hc heq => hp (participates_iff.mpr (heq ▸ hsyms.mem_iff.mp (List.mem_map_of_mem hc)))

/-! ### The encoder's table under every step (R157, R161) -/

/-- What the two invariants of the encoder's table say of one state. -/
def State.EncTableInv (s : State) : Prop := s.EncInv ∧ s.CodeInv

theorem CodeTable.encTableInv {t : State} {codes : List Code} (h : CodeTable t codes) (hvalid : t.encValid = true) : t.EncTableInv := by
  refine ⟨⟨h.maxlen_le, fun hno => absurd (hno.symm.trans hvalid) Bool.false_ne_true, fun i hi => ?_⟩, fun _ =>
    ⟨h.encMaxlen_pos, h.codeSpace_eq.trans h.full, h.eob_entry⟩⟩
  by_cases hcoded : ∃ c ∈ codes, c.sym = i
  · obtain ⟨c, hc, rfl⟩ := hcoded
    rw [(h.entry c hc).1]
    exact ⟨h.len_le c hc, fun hzero => absurd hzero (Nat.pos_iff_ne_zero.mp (h.len_pos c hc))⟩
  · obtain ⟨hlen, hval⟩ := h.uncoded hi fun c hc heq => hcoded ⟨c, hc, heq⟩
    rw [hlen, hval]
    exact ⟨Nat.zero_le _, fun _ => rfl⟩

theorem execHbuild_encTableInv {s t : State} (h : exec .hbuild s = .next t) : t.EncTableInv := by
  rcases execHbuild_cases h with ⟨hvalid, hmaxlen, hclear⟩ | ⟨hvalid, codes, htable⟩
  · refine ⟨⟨by simp [hmaxlen], fun _ => hmaxlen, fun i _ => ?_⟩, fun hyes => absurd (hvalid.symm.trans hyes) Bool.false_ne_true⟩
    obtain ⟨hlen, hval⟩ := hclear i
    rw [hlen, hval]
    exact ⟨Nat.zero_le _, fun _ => rfl⟩
  · exact htable.encTableInv hvalid

/-- HBUILD writes a complete code or clears the table, and no other command has the table in its write set (R50). -/
theorem exec_encTableInv {i : Instr} {s t : State} (hinv : s.EncTableInv) (h : exec i s = .next t) : t.EncTableInv := by
  cases i with
  | hbuild => exact execHbuild_encTableInv h
  | nop | bpClear | bpPut | bpFlush | brAlign | brGet | hfreqClr | hfreqAdd | hcbWrite | henc | hencEob | hcbRead | hdec | hdecSym
  | deltaEnc | deltaDec | rleMark | rleEnc | rleDec | geom | tileLoad | tileStore | tileSer | tileDeser =>
    rw [(exec_framed h).writeSet]
    exact hinv

theorem engineTurn_encTableInv {s t : State} (hinv : s.EncTableInv) (h : engineTurn s = .next t) : t.EncTableInv := by
  rcases engineTurn_cases s with ⟨_, he⟩ | ⟨w, i, _, _, he⟩ | ⟨w, e, _, _, he⟩ <;> rw [he] at h
  · cases h
    exact hinv
  · exact exec_encTableInv hinv h
  · cases h
    exact hinv

theorem hostAccess_encTableInv {a : Access} {s t : State} (hinv : s.EncTableInv) (h : hostAccess a s = .next t) : t.EncTableInv := by
  rcases hostAccess_cases a s t h with ⟨w, o, _, _, rfl⟩ | ⟨w, o, v, _, _, rfl⟩ | ⟨w, b, _, _, rfl⟩ | ⟨w, b, v, _, _, rfl⟩
  · rw [s.hostReadReg_frame o]
    exact hinv
  · by_cases hsrst : o = 0x008 ∧ v.getLsbD 1 = true
    · obtain ⟨rfl, hv⟩ := hsrst
      have hreset : s.hostWriteReg 0x008 v = s.softReset := if_pos hv
      rw [hreset]
      exact ⟨reset_encInv, reset_codeInv⟩
    · rw [s.hostWriteReg_frame o v (by simpa using hsrst)]
      exact hinv
  · rw [s.hostReadMem_frame w b]
    exact hinv
  · rw [s.hostWriteMem_frame w b v]
    exact hinv

/-- Settles O21: HBUILD writes a complete code or clears the table, a soft reset clears it, and nothing else touches it. -/
theorem stepKeepsTheEncoderTableComplete : Obligations.StepKeepsTheEncoderTableComplete := by
  intro s t henc hcode h
  obtain ⟨rest, hmove⟩ := step_cases h
  have hevents : (s.withEvents rest).EncTableInv := ⟨henc, hcode⟩
  rcases hmove with hengine | ⟨a, hhost⟩ | rfl
  · exact engineTurn_encTableInv hevents hengine
  · exact hostAccess_encTableInv hevents hhost
  · rw [State.hostCheck, State.hostReadReg_frame]
    exact hevents

/-! ### HFREQ_ADD (R152) -/

theorem tableGet_countByte (f : Vector Word 256) (b : Byte) {v : Nat} (hv : v < 256) :
    tableGet (countByte f b) v = tableGet f v + if b.toNat = v then 1 else 0 := by
  have hb := b.isLt
  by_cases h : b.toNat = v
  · subst h
    simp [countByte, tableGet]
  · simp [countByte, tableGet, h]

theorem tableGet_foldl_countByte (bs : List Byte) (f : Vector Word 256) {v : Nat} (hv : v < 256) :
    tableGet (bs.foldl countByte f) v = tableGet f v + toWord (bs.countP fun b => b.toNat == v) := by
  induction bs generalizing f with
  | nil => simp [toWord]
  | cons b bs ih =>
    rw [List.foldl_cons, ih, tableGet_countByte f b hv, List.countP_cons]
    by_cases h : b.toNat = v
    · simp only [h, if_true, beq_self_eq_true, toWord, BitVec.ofNat_add]
      ac_rfl
    · simp [h]

theorem srcCheck_of_srcInMem {s : State} (h : Claims.srcInMem s) : (srcCheck s).ok = true := by
  simpa [srcCheck, State.inMem, Claims.srcInMem] using h

/-- Settles O31: each byte of the source's snapshot adds 1 to its entry. -/
theorem hfreqAddCountsTheSource : Obligations.HfreqAddCountsTheSource := by
  intro s hsrc
  have hpass : firstFailing (hfreqAddChecks s) = none := by
    rw [firstFailing_eq_none]
    simp [hfreqAddChecks, srcCheck_of_srcInMem hsrc]
  refine ⟨(Claims.source s).foldl countByte s.freq, ?_, fun v hv => tableGet_foldl_countByte _ _ hv⟩
  rw [exec, execHfreqAdd, withChecks_of_pass s _ _ hpass, snapshot_of_le _ _ s hsrc]
  rfl

/-! ### HENC and HENC_EOB (R159, R160, R263) -/

theorem putBitList_append (xs ys : List Bool) (s : State) : putBitList (xs ++ ys) s = (putBitList xs s).bind (putBitList ys) := by
  induction xs generalizing s with
  | nil => rfl
  | cons x xs ih =>
    rw [List.cons_append, putBitList, putBitList]
    cases putBit x s with
    | error e => rfl
    | ok u => exact ih u

/-- A bit put without room for the byte it completes (R131). -/
theorem putBit_of_full {b : Bool} {s : State} (hs : s.packerInv) (hfull : s.outRoom < s.bytesFor 1) :
    putBit b s = .error (.raise .overflow 3) := by
  obtain ⟨hlow, hhigh, _⟩ := hs
  simp only [State.outRoom, State.bytesFor] at hfull
  have hfree : s.bpFree - 1 = 0 := by omega
  have hend : s.outPtr.toNat ≥ s.outEnd.toNat := by omega
  simp only [putBit, if_pos hfree, emitByte, if_pos hend, Except.bind]

/-- What is left to put after some bits have been put completes as many bytes, with as much less room. -/
theorem bitsPut_room {s u : State} {xs : List Bool} (h : bitsPut s xs u) (n : Nat) :
    s.bytesFor (xs.length + n) = s.bytesFor xs.length + u.bytesFor n ∧ u.outRoom = s.outRoom - s.bytesFor xs.length := by
  obtain ⟨hframe, hptr, hbits, _, _⟩ := h
  have hlen : 8 * s.bytesFor xs.length + (8 - u.bpFree) = 8 - s.bpFree + xs.length := by
    simpa [bitsOfBytes_length, State.heldBits_length] using congrArg List.length hbits
  have hend : u.outEnd = s.outEnd := by rw [hframe]
  constructor
  · simp only [State.bytesFor] at *
    omega
  · simp only [State.outRoom, hend, hptr]
    omega

/-- Bits put without room for the bytes they complete (R131, R134). -/
theorem putBitList_of_full {bits : List Bool} {s : State} (hs : s.packerInv) (hmem : s.outEnd.toNat ≤ s.memSize)
    (hfull : s.outRoom < s.bytesFor bits.length) : putBitList bits s = .error (.raise .overflow 3) := by
  induction bits generalizing s with
  | nil =>
    have := hs.1
    simp only [State.bytesFor, List.length_nil] at hfull
    omega
  | cons b bits ih =>
    rw [putBitList]
    by_cases hroom : s.outRoom < s.bytesFor 1
    · rw [putBit_of_full hs hroom]
      rfl
    · obtain ⟨u, hu, hput⟩ := putBit_bitsPut b s hs (Nat.not_lt.mp hroom) hmem
      obtain ⟨hbytes, hleft⟩ := bitsPut_room hput bits.length
      obtain ⟨hframe, _, _, hpacker, _⟩ := hput
      rw [hu]
      refine ih hpacker ?_ ?_
      · rw [hframe]
        exact hmem
      · rw [List.length_singleton] at hbytes hleft
        rw [List.length_cons, Nat.add_comm] at hfull
        omega

/-- The bits that HENC puts for these bytes (R159). -/
def encodedBits (s : State) (bs : List Byte) : List Bool := bs.flatMap fun b => Claims.codeBits s b.toNat

theorem codeBits_length (s : State) (sym : Nat) : (Claims.codeBits s sym).length = tableGet s.codeLen sym := msbBits_length ..

theorem encodedBits_congr {s t : State} (hlen : t.codeLen = s.codeLen) (hval : t.codeVal = s.codeVal) (bs : List Byte) :
    encodedBits t bs = encodedBits s bs := by
  simp only [encodedBits, Claims.codeBits, hlen, hval]

/-- The loop of HENC puts the codes of the bytes at the beginning of its source, as far as they have one, and then goes on. -/
theorem encodeBytes_coded {pre : List Byte} (post : List Byte) (n : Nat) {s : State} (hcoded : ∀ b ∈ pre, tableGet s.codeLen b.toNat ≠ 0) :
    encodeBytes (pre ++ post) n s = (putBitList (encodedBits s pre) s).bind (encodeBytes post (n + (encodedBits s pre).length)) := by
  induction pre generalizing n s with
  | nil => rfl
  | cons b pre ih =>
    obtain ⟨hb, hpre⟩ := List.forall_mem_cons.mp hcoded
    have hsplit : encodedBits s (b :: pre) = Claims.codeBits s b.toNat ++ encodedBits s pre := List.flatMap_cons
    rw [List.cons_append, encodeBytes, if_neg hb, hsplit, putBitList_append, putBits]
    change (putBitList (Claims.codeBits s b.toNat) s).bind _ = _
    cases hput : putBitList (Claims.codeBits s b.toNat) s with
    | error e => rfl
    | ok u =>
      have hframe := putBitList_frame hput
      have hlen : u.codeLen = s.codeLen := by rw [hframe]
      have hval : u.codeVal = s.codeVal := by rw [hframe]
      change encodeBytes (pre ++ post) _ u = (putBitList (encodedBits s pre) u).bind _
      rw [ih _ (by rw [hlen]; exact hpre), encodedBits_congr hlen hval, List.length_append, codeBits_length, Nat.add_assoc]

/-- With its operands admitted HENC runs its loop on the bytes of its source (R159). -/
theorem execHenc_of_checks {s : State} (hsrc : Claims.srcInMem s) (hout : Claims.outInMem s) (hvalid : s.encValid = true)
    (hapart : Claims.apart s.src.toNat s.srcLen.toNat s.outPtr.toNat (s.outEnd.toNat - s.outPtr.toNat)) :
    exec .henc s = conclude (drawOutStream s)
      ((encodeBytes (Claims.source s) 0 s).map fun p => ⟨p.1, toWord p.2, false⟩) := by
  have hpass : firstFailing (hencChecks s) = none := by
    have hapart' : overlap s.src.toNat s.srcLen.toNat s.outPtr.toNat (s.outEnd.toNat - s.outPtr.toNat) = false := by
      unfold Claims.apart at hapart
      simp only [overlap, Bool.and_eq_false_iff, decide_eq_false_iff_not]
      omega
    rw [firstFailing_eq_none]
    simp [hencChecks, srcCheck_of_srcInMem hsrc, outCheck_of_outInMem hout, encTableCheck, hvalid, disjointCheck, hapart']
  rw [exec, execHenc, withChecks_of_pass s _ _ hpass, snapshot_of_le _ _ s hsrc]
  rfl

/-- Settles O38: the loop puts the codes of the whole source. -/
theorem hencPutsTheCodesOfTheSource : Obligations.HencPutsTheCodesOfTheSource := by
  intro s hinv hsrc hout hvalid hapart bits hcoded hroom
  obtain ⟨u, hu, hput⟩ := putBitList_bitsPut bits s hinv.packerInv hroom hout.2
  have hloop := encodeBytes_coded [] 0 hcoded
  rw [List.append_nil, show encodedBits s (Claims.source s) = bits from rfl, hu] at hloop
  refine ⟨u, hput, ?_⟩
  rw [execHenc_of_checks hsrc hout hvalid hapart, hloop]
  simp only [Except.bind, encodeBytes, Except.map, Nat.zero_add, conclude_ok]

theorem drawBetween_bounds (free : Word) {lo hi : Word} (hle : lo.toNat ≤ hi.toNat) :
    lo.toNat ≤ (drawBetween free lo.toNat hi.toNat).toNat ∧ (drawBetween free lo.toNat hi.toNat).toNat ≤ hi.toNat := by
  have hmod := Nat.mod_lt free.toNat (show 0 < hi.toNat - lo.toNat + 1 by omega)
  have hhi := hi.isLt
  rw [drawBetween, toWord_toNat (by omega)]
  omega

theorem drawOutStream_outPtr (s : State) : ∃ free, (drawOutStream s).outPtr = drawBetween free s.outPtr.toNat s.outEnd.toNat :=
  ⟨_, by rw [drawOutStream, drawBytes_frame]; rfl⟩

/-- A run-time error leaves the output stream drawn within the bounds of R263. -/
theorem drawOutStream_drawn {s : State} (hle : s.outPtr.toNat ≤ s.outEnd.toNat) : Claims.outStreamDrawn s (drawOutStream s) := by
  obtain ⟨hlow, hhigh, hacc⟩ := drawOutStream_packerInv s
  obtain ⟨free, hptr⟩ := drawOutStream_outPtr s
  obtain ⟨hstart, hend⟩ := drawBetween_bounds free hle
  rw [← hptr] at hstart hend
  exact ⟨drawOutStream_frame s, hstart, hend, hlow, hhigh, hacc, fun a ha => drawOutStream_byteAt s ha⟩

/-- Settles O39: the loop puts the codes of the coded beginning, and stops inside them or at the byte after them. -/
theorem hencStopsAtAnUncodedByteOrAFullStream : Obligations.HencStopsAtAnUncodedByteOrAFullStream := by
  intro s hinv hsrc hout hvalid hapart pre post hsource hcoded n
  have hloop := encodeBytes_coded post 0 hcoded
  have hexec := execHenc_of_checks hsrc hout hvalid hapart
  rw [hsource, hloop] at hexec
  refine ⟨fun b rest hpost hb hroom => ⟨_, drawOutStream_drawn hout.1, ?_⟩, fun hfull => ⟨_, drawOutStream_drawn hout.1, ?_⟩⟩
  · obtain ⟨u, hu, hput⟩ := putBitList_bitsPut (encodedBits s pre) s hinv.packerInv hroom hout.2
    have hlen : u.codeLen = s.codeLen := by rw [putBitList_frame hu]
    rw [hexec, hu, hpost]
    simp only [Except.bind, encodeBytes, hlen, hb, if_true]
    rfl
  · rw [hexec, putBitList_of_full (bits := encodedBits s pre) hinv.packerInv hout.2 hfull]
    rfl

/-- Settles O40: the pre-checks hold, so the bits of EOB's code are put. -/
theorem hencEobPutsTheEobCode : Obligations.HencEobPutsTheEobCode := by
  intro s hinv hout hvalid hroom
  have hpass : firstFailing (hencEobChecks s) = none := by
    rw [firstFailing_eq_none]
    simp [hencEobChecks, outCheck_of_outInMem hout, encTableCheck, hvalid, eobLen, eobSymbol, State.bytesFor, State.outRoom, hroom]
  have hbits : s.bytesFor (Claims.codeBits s 256).length ≤ s.outRoom := by
    rw [codeBits_length]
    exact hroom
  obtain ⟨u, hu, hput⟩ := putBitList_bitsPut _ s hinv.packerInv hbits hout.2
  have hputs : putBits (tableGet s.codeVal eobSymbol).toNat (eobLen s) s = .ok u := hu
  refine ⟨u, hput, ?_⟩
  rw [exec, execHencEob, withChecks_of_pass s _ _ hpass, hputs]
  rfl

/-! ### HCB_WRITE (R158) -/

/-- The byte symbols of `t` with their code lengths, by length and then by value (R158). -/
def byteOrder (t : State) : List (Nat × Nat) :=
  ((List.range t.encMaxlen).map (· + 1)).flatMap fun l => (Claims.bytesOfLength t l).map fun b => (l, b)

theorem mem_bytesOfLength {t : State} {l b : Nat} : b ∈ Claims.bytesOfLength t l ↔ b < 256 ∧ tableGet t.codeLen b = l := by
  simp [Claims.bytesOfLength]

theorem bytesOfLength_sorted (t : State) (l : Nat) : (Claims.bytesOfLength t l).Pairwise (· < ·) :=
  List.pairwise_lt_range.filter _

theorem mem_byteOrder {t : State} {x : Nat × Nat} :
    x ∈ byteOrder t ↔ 1 ≤ x.1 ∧ x.1 ≤ t.encMaxlen ∧ x.2 < 256 ∧ tableGet t.codeLen x.2 = x.1 := by
  simp only [byteOrder, List.mem_flatMap, List.mem_map, List.mem_range, mem_bytesOfLength]
  constructor
  · rintro ⟨_, ⟨k, hk, rfl⟩, b, ⟨hb, hlen⟩, rfl⟩
    exact ⟨Nat.le_add_left 1 k, hk, hb, hlen⟩
  · rintro ⟨hpos, hle, hb, hlen⟩
    exact ⟨x.1, ⟨x.1 - 1, by omega, by omega⟩, x.2, ⟨hb, hlen⟩, rfl⟩

theorem byteOrder_sorted (t : State) : (byteOrder t).Pairwise lexLt := by
  refine List.pairwise_flatMap.mpr ⟨fun l _ => ?_, ?_⟩
  · exact List.pairwise_map.mpr ((bytesOfLength_sorted t l).imp fun h => .inr ⟨rfl, h⟩)
  · refine List.pairwise_map.mpr (List.pairwise_lt_range.imp fun {k m} hkm x hx y hy => .inl ?_)
    obtain ⟨_, _, rfl⟩ := List.mem_map.mp hx
    obtain ⟨_, _, rfl⟩ := List.mem_map.mp hy
    exact Nat.succ_lt_succ hkm

/-- Two lists in the order of R156 with the same members are the same. -/
theorem eq_of_sorted_of_mem_iff {xs ys : List (Nat × Nat)} (hxs : xs.Pairwise lexLt) (hys : ys.Pairwise lexLt)
    (hmem : ∀ x, x ∈ xs ↔ x ∈ ys) : xs = ys := by
  have hne {x y : Nat × Nat} (h : lexLt x y) : x ≠ y := by
    rintro rfl
    unfold lexLt at h
    omega
  have hperm := (List.perm_ext_iff_of_nodup (hxs.imp hne) (hys.imp hne)).mpr hmem
  refine hperm.eq_of_pairwise (fun x y _ _ hxy hyx => ?_) hxs hys
  unfold lexLt at hxy hyx
  omega

/-- With lengths that ENC_MAXLEN bounds, the symbols that the model transmits are those of the codebook, in its order. -/
theorem transmitted_eq_byteOrder {s : State} (h : s.EncInv) : transmitted s = byteOrder s := by
  obtain ⟨_, _, hbound⟩ := h
  have hmem (x : Nat × Nat) : x ∈ transmitted s ↔ x ∈ byteOrder s := by
    rw [transmitted, (lexSort_perm _).mem_iff, mem_byteOrder]
    simp only [List.mem_filterMap, List.mem_range, Option.ite_none_right_eq_some, Option.some.injEq]
    constructor
    · rintro ⟨i, hi, hpos, rfl⟩
      exact ⟨hpos, (hbound i (by omega)).1, hi, rfl⟩
    · rintro ⟨hpos, _, hlt, hlen⟩
      exact ⟨x.2, hlt, by omega, by rw [hlen]⟩
  refine eq_of_sorted_of_mem_iff (lexSort_sorted _ ?_) (byteOrder_sorted s) hmem
  rw [List.map_filterMap]
  refine List.Pairwise.filterMap _ (fun i j hij x hi y hj => ?_) List.nodup_range
  simp only [Option.map_eq_some_iff, Option.ite_none_right_eq_some, Option.some.injEq] at hi hj
  obtain ⟨_, ⟨_, rfl⟩, rfl⟩ := hi
  obtain ⟨_, ⟨_, rfl⟩, rfl⟩ := hj
  exact hij

/-- The number of symbols transmitted of each length is the number of bytes of that length. -/
theorem byteOrder_countP {t : State} {l : Nat} (h1 : 1 ≤ l) (h2 : l ≤ t.encMaxlen) :
    (byteOrder t).countP (fun x => x.1 == l) = (Claims.bytesOfLength t l).length := by
  have hfilter : ((byteOrder t).filter fun x => x.1 == l) = (Claims.bytesOfLength t l).map fun b => (l, b) := by
    refine eq_of_sorted_of_mem_iff ((byteOrder_sorted t).filter _) ?_ fun x => ?_
    · exact List.pairwise_map.mpr ((bytesOfLength_sorted t l).imp fun h => .inr ⟨rfl, h⟩)
    · simp only [List.mem_filter, mem_byteOrder, beq_iff_eq, List.mem_map, mem_bytesOfLength]
      constructor
      · rintro ⟨⟨_, _, hlt, hlen⟩, rfl⟩
        exact ⟨x.2, ⟨hlt, hlen⟩, rfl⟩
      · rintro ⟨b, ⟨hlt, hlen⟩, rfl⟩
        exact ⟨⟨h1, h2, hlt, hlen⟩, rfl⟩
  rw [List.countP_eq_length_filter, hfilter, List.length_map]

/-- The counts of R158, one byte for each length. -/
def countBytes (t : State) : List Byte := (List.range t.encMaxlen).map fun k => toByte (Claims.bytesOfLength t (k + 1)).length

/-- The symbols of R158. -/
def symbolBytes (t : State) : List Byte := (byteOrder t).map fun x => toByte x.2

theorem codebook_eq (t : State) : Claims.codebook t = toByte (t.encMaxlen - 1) :: countBytes t ++ symbolBytes t := by
  simp [Claims.codebook, countBytes, symbolBytes, byteOrder, List.map_flatMap, List.flatMap_map, Function.comp_def]

/-- The model's codebook is the one of R158. -/
theorem codebookBytes_eq {s : State} (h : s.EncInv) : codebookBytes s = Claims.codebook s := by
  have hcounts : (List.range s.encMaxlen).map (fun k => toByte ((byteOrder s).countP fun p => p.1 == k + 1))
      = countBytes s :=
    List.map_congr_left fun k hk => by rw [byteOrder_countP (Nat.le_add_left 1 k) (List.mem_range.mp hk)]
  rw [codebookBytes, codebook_eq, transmitted_eq_byteOrder h, hcounts]
  rfl

/-- Settles O37: the pre-checks hold, so the codebook's bytes are emitted as `emitBytes_of_room` says. -/
theorem hcbWriteSerializesTheCodebook : Obligations.HcbWriteSerializesTheCodebook := by
  intro s hinv hout hvalid halign hroom
  have hlen : codebookLength s = (Claims.codebook s).length := by rw [← codebookBytes_length, codebookBytes_eq hinv]
  have hpass : firstFailing (hcbWriteChecks s) = none := by
    rw [firstFailing_eq_none]
    simp [hcbWriteChecks, outCheck_of_outInMem hout, encTableCheck, hvalid, halign, hlen, State.outRoom, hroom]
  obtain ⟨u, hu, hptr, hbytes, hother⟩ := emitBytes_of_room (Claims.codebook s) s hroom hout.1 hout.2
  have hframe := emitBytes_frame hu
  have hptr' : u.outPtr = s.outPtr + toWord (Claims.codebook s).length := by
    have := u.outPtr.isLt
    apply BitVec.eq_of_toNat_eq
    rw [BitVec.toNat_add, toWord_toNat (by omega), ← hptr, Nat.mod_eq_of_lt this]
  refine ⟨{ s with mem := u.mem }, ⟨rfl, ?_, fun a ha => ?_⟩, ?_⟩
  · exact (State.bytesAt_congr u _ _ _ fun a _ _ => by rw [hframe]; rfl).trans hbytes
  · rw [← hother a ha, hframe]
    rfl
  · rw [exec, execHcbWrite, withChecks_of_pass s _ _ hpass, codebookBytes_eq hinv, hu, hlen, ← hptr']
    simp only [Except.map, conclude_ok]
    rw [hframe]

/-! ### Codes by their length (R182) -/

/-- How many of the codes have this length. -/
def countAt (codes : List Code) (l : Nat) : Nat := codes.countP fun c => c.len == l

/-- How many of the codes have at most this length. -/
def countUpTo (codes : List Code) (m : Nat) : Nat := codes.countP fun c => decide (c.len ≤ m)

/-- The part of the code space that the codes of at most this length take. -/
def shareUpTo (l : Nat) (codes : List Code) (m : Nat) : Nat := codeShare l (codes.filter fun c => decide (c.len ≤ m))

section Lengths

variable {l m : Nat} {codes pre post : List Code} {c : Code}

theorem countAt_append (xs ys : List Code) (m : Nat) : countAt (xs ++ ys) m = countAt xs m + countAt ys m := List.countP_append

theorem countUpTo_succ (codes : List Code) (m : Nat) : countUpTo codes (m + 1) = countUpTo codes m + countAt codes (m + 1) := by
  induction codes with
  | nil => rfl
  | cons c codes ih =>
    simp only [countUpTo, countAt, List.countP_cons, decide_eq_true_eq, beq_iff_eq] at ih ⊢
    rcases Nat.lt_trichotomy c.len (m + 1) with h | h | h
    · rw [if_pos (Nat.le_of_lt h), if_pos (Nat.le_of_lt_succ h), if_neg (Nat.ne_of_lt h)]
      omega
    · rw [if_pos (Nat.le_of_eq h), if_neg (by omega), if_pos h]
      omega
    · rw [if_neg (by omega), if_neg (by omega), if_neg (by omega)]
      omega

theorem shareUpTo_succ (l : Nat) (codes : List Code) (m : Nat) :
    shareUpTo l codes (m + 1) = shareUpTo l codes m + countAt codes (m + 1) * 2 ^ (l - (m + 1)) := by
  induction codes with
  | nil => simp [shareUpTo, countAt]
  | cons c codes ih =>
    simp only [shareUpTo, countAt, List.filter_cons, List.countP_cons, decide_eq_true_eq, beq_iff_eq] at ih ⊢
    rcases Nat.lt_trichotomy c.len (m + 1) with h | h | h
    · rw [if_pos (Nat.le_of_lt h), if_pos (Nat.le_of_lt_succ h), if_neg (Nat.ne_of_lt h), codeShare_cons, codeShare_cons, ih]
      exact (Nat.add_assoc _ _ _).symm
    · rw [if_pos (Nat.le_of_eq h), if_neg (by omega), if_pos h, codeShare_cons, ih, h, Nat.succ_mul]
      omega
    · rw [if_neg (by omega), if_neg (by omega), if_neg (by omega)]
      exact ih

theorem countUpTo_zero (hpos : ∀ c ∈ codes, 1 ≤ c.len) : countUpTo codes 0 = 0 :=
  List.countP_eq_zero.mpr fun c hc => by simpa using Nat.ne_of_gt (hpos c hc)

theorem shareUpTo_zero (hpos : ∀ c ∈ codes, 1 ≤ c.len) : shareUpTo l codes 0 = 0 := by
  rw [shareUpTo, List.filter_eq_nil_iff.mpr fun c hc => by simpa using Nat.ne_of_gt (hpos c hc), codeShare_nil]

theorem countUpTo_of_le (hle : ∀ c ∈ codes, c.len ≤ m) : countUpTo codes m = codes.length :=
  List.countP_eq_length.mpr fun c hc => decide_eq_true (hle c hc)

theorem shareUpTo_of_le (hle : ∀ c ∈ codes, c.len ≤ m) : shareUpTo l codes m = codeShare l codes := by
  rw [shareUpTo, List.filter_eq_self.mpr fun c hc => decide_eq_true (hle c hc)]

theorem shareUpTo_le (l : Nat) (codes : List Code) (m : Nat) : shareUpTo l codes m ≤ codeShare l codes := by
  induction codes with
  | nil => exact Nat.le_refl 0
  | cons c codes ih =>
    simp only [shareUpTo, List.filter_cons, codeShare_cons] at ih ⊢
    split
    · rw [codeShare_cons]
      exact Nat.add_le_add_left ih _
    · exact Nat.le_add_left_of_le ih

/-- In the order of R156 the codes before one of length `n` hold all the shorter ones, and none that is longer. -/
theorem len_le_of_sorted (hsorted : (pre ++ c :: post).Pairwise fun c d => lexLt c.key d.key) :
    (∀ d ∈ pre, d.len ≤ c.len) ∧ ∀ d ∈ c :: post, c.len ≤ d.len := by
  obtain ⟨_, hpost, hcross⟩ := List.pairwise_append.mp hsorted
  exact ⟨fun d hd => lexLt_fst_le (hcross d hd c List.mem_cons_self),
    List.forall_mem_cons.mpr ⟨Nat.le_refl _, fun d hd => lexLt_fst_le ((List.pairwise_cons.mp hpost).1 d hd)⟩⟩

theorem upTo_of_sorted (hsorted : (pre ++ c :: post).Pairwise fun c d => lexLt c.key d.key) (hm : m < c.len) :
    countUpTo (pre ++ c :: post) m = countUpTo pre m ∧ shareUpTo l (pre ++ c :: post) m = shareUpTo l pre m := by
  have hnone : ∀ d ∈ c :: post, ¬ decide (d.len ≤ m) = true := fun d hd => by
    have := (len_le_of_sorted hsorted).2 d hd
    simp only [decide_eq_true_eq]
    omega
  constructor
  · rw [countUpTo, List.countP_append, List.countP_eq_zero.mpr hnone]
    rfl
  · rw [shareUpTo, List.filter_append, List.filter_eq_nil_iff.mpr hnone, List.append_nil]
    rfl

end Lengths

/-! ### The tables of R182 for these codes -/

/-- The counts of lengths `m + 1` to `m + n`. -/
def countsFrom (codes : List Code) (m n : Nat) : List Nat := (List.range' (m + 1) n).map (countAt codes)

theorem countsFrom_succ (codes : List Code) (m n : Nat) :
    countsFrom codes m (n + 1) = countAt codes (m + 1) :: countsFrom codes (m + 1) n := rfl

theorem countsFrom_concat (codes : List Code) (m n : Nat) :
    countsFrom codes m (n + 1) = countsFrom codes m n ++ [countAt codes (m + 1 + n)] := by
  simp [countsFrom, List.range'_1_concat]

theorem countsFrom_length (codes : List Code) (m n : Nat) : (countsFrom codes m n).length = n := by simp [countsFrom]

theorem countsFrom_getD (codes : List Code) {n k : Nat} (hk : k < n) : (countsFrom codes 0 n).getD k 0 = countAt codes (k + 1) := by
  simp [countsFrom, List.getD, hk, Nat.add_comm]

/-- The sum of R181 is the space that the codes take. -/
theorem kraftSum_countsFrom {l m n : Nat} (codes : List Code) (h : m + n = l) :
    kraftSum (countsFrom codes m n) + shareUpTo l codes m = shareUpTo l codes l := by
  induction n generalizing m with
  | zero => simp [countsFrom, kraftSum, ← h]
  | succ n ih =>
    have hpow : l - (m + 1) = n := by omega
    have hsucc := shareUpTo_succ l codes m
    have ih := ih (m := m + 1) (by omega)
    rw [hpow] at hsucc
    rw [countsFrom_succ, kraftSum, countsFrom_length]
    omega

theorem sum_countsFrom {m n : Nat} (codes : List Code) : (countsFrom codes m n).sum + countUpTo codes m = countUpTo codes (m + n) := by
  induction n generalizing m with
  | zero => simp [countsFrom]
  | succ n ih =>
    have hsucc := countUpTo_succ codes m
    have ih := ih (m := m + 1)
    rw [countsFrom_succ, List.sum_cons, Nat.add_comm n, ← Nat.add_assoc]
    omega

/-- The first code of a length starts where the shorter codes end, and its first symbol comes after theirs. -/
theorem firstTables_countsFrom {l m n code sym k : Nat} (codes : List Code) (h : m + n = l) (hk : k < n)
    (hcode : code * 2 ^ (l - (m + 1)) = shareUpTo l codes m) (hsym : sym = countUpTo codes m) :
    ((firstTables (countsFrom codes m n) code sym).getD k (0, 0)).1 * 2 ^ (l - (m + k + 1)) = shareUpTo l codes (m + k)
    ∧ ((firstTables (countsFrom codes m n) code sym).getD k (0, 0)).2 = countUpTo codes (m + k) := by
  induction n generalizing m code sym k with
  | zero => omega
  | succ n ih =>
    rw [countsFrom_succ, firstTables]
    cases k with
    | zero => exact ⟨hcode, hsym⟩
    | succ k =>
      have hsucc := shareUpTo_succ l codes m
      have hnext : ((code + countAt codes (m + 1)) <<< 1) * 2 ^ (l - (m + 1 + 1)) = shareUpTo l codes (m + 1) := by
        rw [hsucc, ← hcode, ← Nat.add_mul, Nat.shiftLeft_eq, Nat.mul_assoc, ← Nat.pow_add, show 1 + (l - (m + 1 + 1)) = l - (m + 1) by omega]
      have hsym' : sym + countAt codes (m + 1) = countUpTo codes (m + 1) := by rw [hsym, countUpTo_succ]
      have ih := ih (k := k) (show m + 1 + n = l by omega) (by omega) hnext hsym'
      rw [List.getD_cons_succ, show m + (k + 1) = m + 1 + k by omega]
      exact ih

/-- `v` holds the decoder's tables of these codes, of lengths up to `l` (R182). -/
structure DecodesCodes (v : State) (l : Nat) (codes : List Code) : Prop where
  maxlen : v.decMaxlen = l
  count : ∀ {n}, 1 ≤ n → n ≤ l → v.decCount n = countAt codes n
  firstCode : ∀ {n}, 1 ≤ n → n ≤ l → v.firstCode n * 2 ^ (l - n) = shareUpTo l codes (n - 1)
  firstSym : ∀ {n}, 1 ≤ n → n ≤ l → v.firstSym n = countUpTo codes (n - 1)
  alpha : ∀ {pre c post}, codes = pre ++ c :: post → tableGet v.decAlpha pre.length = c.sym

/-! ### Decoding one code (R183) -/

theorem bitsValue_append_singleton (bs : List Bool) (b : Bool) : bitsValue (bs ++ [b]) = 2 * bitsValue bs + b.toNat := by
  simp [bitsValue]

/-- The first bits of a number, most significant first, spell its quotient. -/
theorem bitsValue_take_msbBits {v n m : Nat} (hv : v < 2 ^ n) (hm : m ≤ n) : bitsValue ((msbBits v n).take m) = v / 2 ^ (n - m) := by
  induction m with
  | zero => simp [bitsValue, Nat.div_eq_of_lt hv]
  | succ m ih =>
    have hlt : m < (msbBits v n).length := by rw [msbBits_length]; omega
    have hbit : (msbBits v n)[m] = v.testBit (n - 1 - m) := by simp [msbBits]
    have hexp : n - m = n - (m + 1) + 1 := by omega
    have hmod : (v.testBit (n - 1 - m)).toNat = v / 2 ^ (n - (m + 1)) % 2 := by
      rw [show n - 1 - m = n - (m + 1) by omega]
      exact Nat.toNat_testBit v _
    rw [List.take_succ_eq_append_getElem hlt, bitsValue_append_singleton, ih (by omega), hbit, hmod, hexp, Nat.pow_succ, ← Nat.div_div_eq_div_mul]
    omega

section Decode

variable {v t : State} {codes pre post : List Code} {c : Code}

/-- The number of a code among those of its length is that of the codes of its length before it. -/
theorem DecodesCodes.val_eq (h : DecodesCodes v t.encMaxlen codes) (htable : CodeTable t codes) (hsplit : codes = pre ++ c :: post) :
    c.val = v.firstCode c.len + countAt pre c.len := by
  have hmem : c ∈ codes := by simp [hsplit]
  have hpos := htable.len_pos c hmem
  have hsorted := htable.sorted
  rw [hsplit] at hsorted
  have hsucc := shareUpTo_succ t.encMaxlen pre (c.len - 1)
  rw [Nat.sub_add_cancel hpos, shareUpTo_of_le (len_le_of_sorted hsorted).1, ← htable.start hsplit,
    ← (upTo_of_sorted hsorted (Nat.sub_lt hpos Nat.one_pos)).2, ← hsplit, ← h.firstCode hpos (htable.len_le c hmem), ← Nat.add_mul] at hsucc
  exact Nat.mul_right_cancel (Nat.two_pow_pos _) hsucc

/-- Its place in the order of R156 is that number after the first symbol of its length. -/
theorem DecodesCodes.place_eq (h : DecodesCodes v t.encMaxlen codes) (htable : CodeTable t codes) (hsplit : codes = pre ++ c :: post) :
    pre.length = v.firstSym c.len + countAt pre c.len := by
  have hmem : c ∈ codes := by simp [hsplit]
  have hpos := htable.len_pos c hmem
  have hsorted := htable.sorted
  rw [hsplit] at hsorted
  have hsucc := countUpTo_succ pre (c.len - 1)
  rwa [Nat.sub_add_cancel hpos, countUpTo_of_le (len_le_of_sorted hsorted).1,
    ← (upTo_of_sorted (l := 0) hsorted (Nat.sub_lt hpos Nat.one_pos)).1, ← hsplit, ← h.firstSym hpos (htable.len_le c hmem)] at hsucc

/-- Cut to a shorter length, a code lies past the codes of that length. -/
theorem DecodesCodes.shorter_le (h : DecodesCodes v t.encMaxlen codes) (htable : CodeTable t codes) (hc : c ∈ codes) {m : Nat} (hm : 1 ≤ m)
    (hlt : m < c.len) : v.firstCode m + v.decCount m ≤ c.val / 2 ^ (c.len - m) := by
  obtain ⟨pre, post, hsplit⟩ := List.append_of_mem hc
  have hle := htable.len_le c hc
  have hsorted := htable.sorted
  rw [hsplit] at hsorted
  have hend : (v.firstCode m + v.decCount m) * 2 ^ (t.encMaxlen - m) ≤ c.val * 2 ^ (t.encMaxlen - c.len) := by
    have hsucc := shareUpTo_succ t.encMaxlen codes (m - 1)
    rw [Nat.sub_add_cancel hm, ← h.firstCode hm (by omega), ← h.count hm (by omega), ← Nat.add_mul] at hsucc
    rw [← hsucc, htable.start hsplit, hsplit, (upTo_of_sorted hsorted hlt).2]
    exact shareUpTo_le _ _ _
  rw [Nat.le_div_iff_mul_le (Nat.two_pow_pos _)]
  refine Nat.le_of_mul_le_mul_right ?_ (Nat.two_pow_pos (t.encMaxlen - c.len))
  rwa [Nat.mul_assoc, ← Nat.pow_add, show c.len - m + (t.encMaxlen - c.len) = t.encMaxlen - m by omega]

/-- A code is decoded to its symbol, whatever bits follow it (R161, items 2 and 5): not at a shorter length, and at its own by its place in the
order of R156. -/
theorem DecodesCodes.codeAt_of_mem (h : DecodesCodes v t.encMaxlen codes) (htable : CodeTable t codes) (hc : c ∈ codes) (rest : List Bool) :
    Claims.codeAt v (msbBits c.val c.len ++ rest) c.len c.sym := by
  obtain ⟨pre, post, hsplit⟩ := List.append_of_mem hc
  have hpos := htable.len_pos c hc
  have hle := htable.len_le c hc
  have hval := h.val_eq htable hsplit
  have hplace := h.place_eq htable hsplit
  have htake {m : Nat} (hm : m ≤ c.len) : bitsValue ((msbBits c.val c.len ++ rest).take m) = c.val / 2 ^ (c.len - m) := by
    rw [List.take_append_of_le_length (by rwa [msbBits_length]), bitsValue_take_msbBits (htable.val_lt hc) hm]
  have hwhole : bitsValue ((msbBits c.val c.len ++ rest).take c.len) = c.val := by
    rw [htake (Nat.le_refl _), Nat.sub_self, Nat.pow_zero, Nat.div_one]
  have hcount : countAt pre c.len < countAt codes c.len := by
    rw [hsplit, countAt_append]
    simp only [countAt, List.countP_cons, beq_self_eq_true, if_true]
    omega
  refine ⟨hpos, by rwa [h.maxlen], by simp, ?_, fun m hm hlt => ?_, ?_⟩
  · rw [hwhole, h.count hpos hle]
    omega
  · rw [htake (Nat.le_of_lt hlt)]
    exact h.shorter_le htable hc hm hlt
  · rw [hwhole, show v.firstSym c.len + (c.val - v.firstCode c.len) = pre.length by omega, h.alpha hsplit]

end Decode

/-! ### HCB_READ on the codebook of R158 (R181, R182) -/

theorem toByte_toNat {n : Nat} (h : n < 256) : (toByte n).toNat = n := by
  rw [toByte, BitVec.toNat_ofNat, Nat.mod_eq_of_lt h]

/-- A codebook that passes the checks of R181 is parsed into its counts and symbols, whatever follows it. -/
theorem parseCodebook_of_wellFormed {counts syms : List Byte} (rest : List Byte) (hpos : 1 ≤ counts.length) (hmax : counts.length ≤ 64)
    (hsum : (counts.map BitVec.toNat).sum = syms.length) (hsyms : syms.length ≤ 256)
    (hkraft : kraftSum (counts.map BitVec.toNat) + 1 = 2 ^ counts.length) :
    parseCodebook (toByte (counts.length - 1) :: counts ++ syms ++ rest) = .ok ⟨counts.map BitVec.toNat, syms.map BitVec.toNat⟩ := by
  have hlen : (toByte (counts.length - 1)).toNat + 1 = counts.length := by
    rw [toByte_toNat (by omega)]
    omega
  simp only [List.cons_append, List.append_assoc, parseCodebook, hlen, List.take_left', List.drop_left', hsum, Config.codeLenMax,
    List.length_append]
  rw [if_neg (by omega), if_neg (by omega), if_neg (by omega), if_neg (by omega), if_neg (by omega)]

section Codebook

variable {t : State} {codes bytes : List Code}

theorem EndsWithEob.mem (h : EndsWithEob t.encMaxlen codes bytes) {c : Code} (hc : c ∈ bytes) : c ∈ codes := by
  obtain ⟨v, rfl⟩ := h.eob
  exact List.mem_append_left _ hc

/-- The symbols transmitted are those of the codes before EOB's, in their order. -/
theorem EndsWithEob.keys (h : EndsWithEob t.encMaxlen codes bytes) (htable : CodeTable t codes) : bytes.map Code.key = byteOrder t := by
  obtain ⟨v, hcodes⟩ := h.eob
  have hsorted := htable.sorted
  rw [hcodes] at hsorted
  refine eq_of_sorted_of_mem_iff (List.pairwise_map.mpr (List.pairwise_append.mp hsorted).1) (byteOrder_sorted t) fun x => ?_
  rw [mem_byteOrder, List.mem_map]
  constructor
  · rintro ⟨c, hc, rfl⟩
    exact ⟨htable.len_pos c (h.mem hc), htable.len_le c (h.mem hc), h.sym_lt c hc, (htable.entry c (h.mem hc)).1⟩
  · rintro ⟨hpos, _, hlt, hlen⟩
    obtain ⟨c, hc, hsym⟩ := (htable.coded_iff (Nat.lt_succ_of_lt hlt)).mp (by omega)
    have hkey : c.key = x := Prod.ext (by rw [Code.key, ← hlen, ← hsym, (htable.entry c hc).1]) hsym
    rw [hcodes] at hc
    rcases List.mem_append.mp hc with hc | hc
    · exact ⟨c, hc, hkey⟩
    · rw [List.mem_singleton.mp hc] at hsym
      simp only at hsym
      omega

theorem EndsWithEob.countAt_eq (h : EndsWithEob t.encMaxlen codes bytes) (htable : CodeTable t codes) {l : Nat} (h1 : 1 ≤ l) (h2 : l ≤ t.encMaxlen) :
    (Claims.bytesOfLength t l).length = countAt bytes l := by
  rw [← byteOrder_countP h1 h2, ← h.keys htable, List.countP_map]
  rfl

theorem EndsWithEob.share (h : EndsWithEob t.encMaxlen codes bytes) (htable : CodeTable t codes) :
    codeShare t.encMaxlen bytes + 1 = 2 ^ t.encMaxlen := by
  obtain ⟨v, hcodes⟩ := h.eob
  rw [← htable.full, hcodes, codeShare_append, codeShare_cons, Nat.sub_self]
  rfl

theorem EndsWithEob.length_le (h : EndsWithEob t.encMaxlen codes bytes) (htable : CodeTable t codes) : bytes.length ≤ 256 := by
  obtain ⟨v, hcodes⟩ := h.eob
  have hnodup := htable.nodup
  rw [hcodes, List.map_append] at hnodup
  have hsub : bytes.map Code.sym ⊆ List.range 256 := fun i hi => by
    obtain ⟨c, hc, rfl⟩ := List.mem_map.mp hi
    exact List.mem_range.mpr (h.sym_lt c hc)
  simpa only [List.length_map, List.length_range] using (List.nodup_append.mp hnodup).1.length_le_of_subset hsub

/-- A count fits its byte: 256 codes of one length, and EOB's, would take an odd number of equal parts of the code space. -/
theorem EndsWithEob.countAt_lt (h : EndsWithEob t.encMaxlen codes bytes) (htable : CodeTable t codes) (l : Nat) : countAt bytes l < 256 := by
  have hle := h.length_le htable
  have hcount : countAt bytes l ≤ bytes.length := List.countP_le_length
  refine Classical.byContradiction fun hge => ?_
  have hall : ∀ c ∈ bytes, (c.len == l) = true := List.countP_eq_length.mp (show countAt bytes l = bytes.length by omega)
  have hshare : codeShare t.encMaxlen bytes = 256 * 2 ^ (t.encMaxlen - l) := by
    rw [codeShare, List.map_congr_left (g := fun _ => 2 ^ (t.encMaxlen - l)) fun c hc => by rw [beq_iff_eq.mp (hall c hc)],
      List.map_const', List.sum_replicate_nat, show bytes.length = 256 by omega]
  have htotal := h.share htable
  have heven : 2 ^ t.encMaxlen = 2 * 2 ^ (t.encMaxlen - 1) := by
    rw [← Nat.pow_add_one', Nat.sub_add_cancel htable.encMaxlen_pos]
  omega

/-- The counts of the codebook. -/
theorem EndsWithEob.counts (h : EndsWithEob t.encMaxlen codes bytes) (htable : CodeTable t codes) :
    (countBytes t).map BitVec.toNat = countsFrom bytes 0 t.encMaxlen := by
  rw [countBytes, countsFrom, List.range'_eq_map_range, List.map_map, List.map_map]
  refine List.map_congr_left fun k hk => ?_
  have hlt := List.mem_range.mp hk
  simp only [Function.comp_apply]
  rw [h.countAt_eq htable (Nat.le_add_left 1 k) hlt, toByte_toNat (h.countAt_lt htable _)]
  congr 1
  omega

/-- The symbols of the codebook. -/
theorem EndsWithEob.symbols (h : EndsWithEob t.encMaxlen codes bytes) (htable : CodeTable t codes) :
    (symbolBytes t).map BitVec.toNat = bytes.map Code.sym := by
  rw [symbolBytes, ← h.keys htable, List.map_map, List.map_map]
  refine List.map_congr_left fun c hc => ?_
  exact toByte_toNat (h.sym_lt c hc)

/-- HCB_READ parses the codebook of a table into the counts and the symbols of its codes. -/
theorem EndsWithEob.parse (h : EndsWithEob t.encMaxlen codes bytes) (htable : CodeTable t codes) (rest : List Byte) :
    parseCodebook (Claims.codebook t ++ rest) = .ok ⟨countsFrom bytes 0 t.encMaxlen, bytes.map Code.sym⟩ := by
  have hle : ∀ c ∈ bytes, c.len ≤ t.encMaxlen := fun c hc => htable.len_le c (h.mem hc)
  have hpos : ∀ c ∈ bytes, 1 ≤ c.len := fun c hc => htable.len_pos c (h.mem hc)
  have hkraft := kraftSum_countsFrom bytes (Nat.zero_add t.encMaxlen)
  have hsum := sum_countsFrom (m := 0) (n := t.encMaxlen) bytes
  rw [shareUpTo_zero hpos, shareUpTo_of_le hle] at hkraft
  rw [countUpTo_zero hpos, Nat.zero_add, countUpTo_of_le hle] at hsum
  have hlen : bytes.length = (byteOrder t).length := by rw [← h.keys htable, List.length_map]
  have hparse := parseCodebook_of_wellFormed (counts := countBytes t) (syms := symbolBytes t) rest
  rw [h.counts htable, h.symbols htable] at hparse
  simp only [countBytes, symbolBytes, List.length_map, List.length_range] at hparse
  rw [codebook_eq]
  exact hparse htable.encMaxlen_pos htable.maxlen_le (by omega) (by rw [← hlen]; exact h.length_le htable)
    (by rw [← h.share htable]; omega)

/-- EOB's slot is counted at the longest length. -/
theorem EndsWithEob.decCounts (h : EndsWithEob t.encMaxlen codes bytes) (htable : CodeTable t codes) :
    Codebook.decCounts ⟨countsFrom bytes 0 t.encMaxlen, bytes.map Code.sym⟩ = countsFrom codes 0 t.encMaxlen := by
  obtain ⟨v, hcodes⟩ := h.eob
  obtain ⟨n, hn⟩ : ∃ n, t.encMaxlen = n + 1 := ⟨_, (Nat.sub_add_cancel htable.encMaxlen_pos).symm⟩
  have hcount (l : Nat) : countAt codes l = countAt bytes l + if t.encMaxlen = l then 1 else 0 := by
    rw [hcodes, countAt_append]
    simp [countAt, List.countP_cons]
  have hshort : countsFrom codes 0 n = countsFrom bytes 0 n := by
    refine List.map_congr_left fun l hl => ?_
    obtain ⟨k, hk, rfl⟩ := List.mem_range'.mp hl
    rw [hcount, if_neg (by omega), Nat.add_zero]
  rw [Codebook.decCounts, hn, countsFrom_concat codes, countsFrom_concat bytes, hshort, List.dropLast_concat, hcount, if_pos (by omega)]
  simp

end Codebook

/-- At a length that EOB's code still fits, the shorter codes leave some of the code space. -/
theorem CodeTable.shareUpTo_lt {t : State} {codes : List Code} (htable : CodeTable t codes) {m : Nat} (hm : m < t.encMaxlen) :
    shareUpTo t.encMaxlen codes m < 2 ^ t.encMaxlen := by
  obtain ⟨bytes, hbytes⟩ := htable.eob
  obtain ⟨v, hcodes⟩ := hbytes.eob
  have hsorted := htable.sorted
  rw [hcodes] at hsorted ⊢
  rw [(upTo_of_sorted hsorted hm).2, ← hbytes.share htable]
  exact Nat.lt_succ_of_le (shareUpTo_le _ _ _)

/-- The tables that R182 builds of the codebook are the decoder's tables of the code. -/
theorem EndsWithEob.decodesCodes {t : State} {codes bytes : List Code} (h : EndsWithEob t.encMaxlen codes bytes) (htable : CodeTable t codes)
    (u : State) : DecodesCodes (u.buildTables ⟨countsFrom bytes 0 t.encMaxlen, bytes.map Code.sym⟩) t.encMaxlen codes := by
  have hmax := htable.maxlen_le
  have hcounts := h.decCounts htable
  have hfirst {n : Nat} (h1 : 1 ≤ n) (hn : n ≤ t.encMaxlen) :
      ((firstTables (countsFrom codes 0 t.encMaxlen) 0 0).getD (n - 1) (0, 0)).1 * 2 ^ (t.encMaxlen - n)
          = shareUpTo t.encMaxlen codes (n - 1)
        ∧ ((firstTables (countsFrom codes 0 t.encMaxlen) 0 0).getD (n - 1) (0, 0)).2 = countUpTo codes (n - 1) := by
    have hrec := firstTables_countsFrom (code := 0) (sym := 0) (k := n - 1) codes (Nat.zero_add t.encMaxlen) (by omega)
      (by rw [Nat.zero_mul, shareUpTo_zero htable.len_pos]) (countUpTo_zero htable.len_pos).symm
    rwa [Nat.zero_add, Nat.sub_add_cancel h1] at hrec
  refine ⟨countsFrom_length _ _ _, fun {n} h1 hn => ?_, fun {n} h1 hn => ?_, fun {n} h1 hn => ?_, fun {pre c post} hsplit => ?_⟩
  · rw [State.decCount, State.buildTables, tableGet_tabulate _ (by omega), hcounts, countsFrom_getD _ (by omega), Nat.sub_add_cancel h1]
  · obtain ⟨hcode, _⟩ := hfirst h1 hn
    have hlt : ((firstTables (countsFrom codes 0 t.encMaxlen) 0 0).getD (n - 1) (0, 0)).1 < 2 ^ 64 := by
      have hshare := htable.shareUpTo_lt (show n - 1 < t.encMaxlen by omega)
      rw [← hcode, show 2 ^ t.encMaxlen = 2 ^ n * 2 ^ (t.encMaxlen - n) by rw [← Nat.pow_add, Nat.add_sub_cancel' hn]] at hshare
      exact Nat.lt_of_lt_of_le (Nat.lt_of_mul_lt_mul_right hshare) (Nat.pow_le_pow_right Nat.two_pos (by omega))
    rw [State.firstCode, State.buildTables, tableGet_tabulate _ (by omega), hcounts, toWord_toNat hlt, hcode]
  · obtain ⟨_, hsym⟩ := hfirst h1 hn
    rw [State.firstSym, State.buildTables, tableGet_tabulate _ (by omega), hcounts, hsym]
  · obtain ⟨v, hcodes⟩ := h.eob
    have halpha : bytes.map Code.sym ++ [eobSymbol] = codes.map Code.sym := by rw [hcodes, List.map_append]; rfl
    have hlt : pre.length < 257 := by
      have hlen := congrArg List.length (hcodes.symm.trans hsplit)
      have hbytes := h.length_le htable
      simp only [List.length_append, List.length_cons, List.length_nil] at hlen
      omega
    rw [State.buildTables, tableGet_tabulate _ hlt, halpha, hsplit]
    simp [List.getD]

/-- HCB_READ at an aligned reader, on a stream that begins with a codebook. -/
theorem execHcbRead_of_parse {u : State} {cb : Codebook} (halign : u.brLeft = 0) (hin : Claims.inInMem u)
    (hparse : parseCodebook u.inBytes = .ok cb) :
    exec .hcbRead u = .next ({ u.buildTables cb with inPtr := u.inPtr + toWord cb.size }.succeed (toWord cb.size)) := by
  have hpass : firstFailing (hcbReadChecks u) = none := by
    rw [firstFailing_eq_none]
    simp [hcbReadChecks, inCheck_of_inInMem hin, halign]
  rw [exec, execHcbRead, withChecks_of_pass u _ _ hpass, readCodebook_eq u hin.2, hparse]
  rfl

/-- The completion, and the move of IN_PTR, leave the tables. -/
theorem DecodesCodes.succeed {v : State} {l : Nat} {codes : List Code} (h : DecodesCodes v l codes) (ptr result : Word) :
    DecodesCodes ({ v with inPtr := ptr }.succeed result) l codes :=
  ⟨h.maxlen, h.count, h.firstCode, h.firstSym, h.alpha⟩

/-- Settles O46: the codebook is parsed into the counts and symbols of the code, whose tables decode every code of it. -/
theorem decoderUndoesTheEncoder : Obligations.DecoderUndoesTheEncoder := by
  intro s t h hvalid cb u halign hin hroom hbytes
  obtain ⟨codes, htable⟩ := codeTable_of_execHbuild h hvalid
  obtain ⟨bytes, hbook⟩ := htable.eob
  have hparse : parseCodebook u.inBytes = .ok ⟨countsFrom bytes 0 t.encMaxlen, bytes.map Code.sym⟩ := by
    rw [State.inBytes, State.inRoom, ← Nat.add_sub_cancel' hroom, State.bytesAt_append, hbytes]
    exact hbook.parse htable _
  have hsize : Codebook.size ⟨countsFrom bytes 0 t.encMaxlen, bytes.map Code.sym⟩ = cb.length := by
    have hlen : bytes.length = (byteOrder t).length := by rw [← hbook.keys htable, List.length_map]
    simp only [cb, codebook_eq, countBytes, symbolBytes, Codebook.size, Codebook.maxLen, countsFrom_length, List.length_map, List.length_append, List.length_cons,
      List.length_range, hlen]
    omega
  have hptr : (u.inPtr + toWord cb.length).toNat = u.inPtr.toNat + cb.length := by
    have hend := u.inEnd.isLt
    have hle := hin.1
    rw [BitVec.toNat_add, toWord_toNat (by omega), Nat.mod_eq_of_lt (by omega)]
  have hexec := execHcbRead_of_parse halign hin hparse
  rw [hsize] at hexec
  refine ⟨_, hexec, rfl, rfl, hptr, rfl, countsFrom_length _ _ _, fun sym rest hsym hcoded => ?_⟩
  have hdecodes := (hbook.decodesCodes htable u).succeed (u.inPtr + toWord cb.length) (toWord cb.length)
  obtain ⟨c, hc, rfl⟩ := (htable.coded_iff hsym).mp hcoded
  rw [Claims.codeBits, htable.codeVal_toNat hc, (htable.entry c hc).1]
  exact hdecodes.codeAt_of_mem htable hc rest

end Sys2Proof.Machine
end

section
/-! ## PROOFS. The statements of `42_huffman_decoder.md`: the codebooks that HCB_READ accepts and rejects (R181), the tables it builds and
what every step keeps of them (R182, R183), and the decoding of symbols from the input stream (R183 to R186, R188, R263). -/

namespace Sys2Proof.Machine

/-! ### The entries of a list -/

theorem getD_of_length_le {α : Type} {l : List α} {k : Nat} (h : l.length ≤ k) (d : α) : l.getD k d = d := by
  rw [List.getD, List.getElem?_eq_none h, Option.getD_none]

theorem getD_map_toNat (bs : List Byte) (k : Nat) : (bs.map BitVec.toNat).getD k 0 = (bs.getD k 0).toNat := by
  rw [List.getD, List.getD, List.getElem?_map]
  cases bs[k]? <;> rfl

/-! ### The sum of R181 -/

theorem kraftSum_concat_succ (cs : List Nat) (c : Nat) : kraftSum (cs ++ [c + 1]) = kraftSum (cs ++ [c]) + 1 := by
  induction cs with
  | nil => simp [kraftSum]
  | cons d cs ih => simp [kraftSum, ih, Nat.add_assoc]

theorem kraftSum_pos {cs : List Nat} {c : Nat} (hc : 0 < c) (h : c ∈ cs) : 0 < kraftSum cs := by
  induction cs with
  | nil => cases h
  | cons d cs ih =>
    rw [kraftSum]
    rcases List.mem_cons.mp h with rfl | h
    · exact Nat.add_pos_left (Nat.mul_pos hc (Nat.two_pow_pos _)) _
    · exact Nat.add_pos_right _ (ih h)

theorem kraftSum_map_range (n : Nat) (c : Nat → Nat) :
    kraftSum ((List.range n).map c) = ((List.range n).map fun k => c k * 2 ^ (n - (k + 1))).sum := by
  induction n generalizing c with
  | zero => rfl
  | succ n ih =>
    simp only [List.range_succ_eq_map, List.map_cons, List.map_map, kraftSum, List.sum_cons, List.length_map, List.length_range]
    rw [ih]
    simp [Function.comp_def]

/-! ### Codebooks that pass the checks (R181) -/

/-- What the checks of R181 leave of a codebook: L is in 1..CODE_LEN_MAX, there is one symbol for each code counted and at most 256 of them, and
the codes leave exactly EOB's slot at length L. -/
structure Codebook.WellFormed (cb : Codebook) : Prop where
  pos : 1 ≤ cb.maxLen
  le : cb.maxLen ≤ 64
  total : cb.counts.sum = cb.syms.length
  syms_le : cb.syms.length ≤ 256
  complete : kraftSum cb.counts + 1 = 2 ^ cb.maxLen

theorem wellFormed_of_parseCodebook {bs : List Byte} {cb : Codebook} (h : parseCodebook bs = .ok cb) : cb.WellFormed := by
  cases bs with
  | nil => cases h
  | cons b rest =>
    simp only [parseCodebook] at h
    split at h
    · cases h
    rename_i hmax
    split at h
    · cases h
    rename_i hcounts
    split at h
    · cases h
    rename_i htotal
    split at h
    · cases h
    rename_i hsyms
    split at h
    · cases h
    rename_i hkraft
    cases h
    have hlen : ((rest.take (b.toNat + 1)).map BitVec.toNat).length = b.toNat + 1 := by simp; omega
    have hsize (n : Nat) (hn : ¬ (rest.drop (b.toNat + 1)).length < n) : (((rest.drop (b.toNat + 1)).take n).map BitVec.toNat).length = n := by
      rw [List.length_map, List.length_take]
      omega
    refine ⟨?_, ?_, (hsize _ hsyms).symm, ?_, ?_⟩
    · rw [Codebook.maxLen, hlen]
      exact Nat.le_add_left 1 _
    · rw [Codebook.maxLen, hlen]
      exact Nat.le_of_not_lt hmax
    · rw [hsize _ hsyms]
      exact Nat.le_of_not_lt htotal
    · rw [Codebook.maxLen, hlen]
      exact Decidable.not_not.mp hkraft

/-! ### First codes and first symbols (R182) -/

section FirstTables

variable {cs : List Nat} {code sym k : Nat}

theorem firstTables_zero (h : cs ≠ []) : (firstTables cs code sym).getD 0 (0, 0) = (code, sym) := by
  cases cs with
  | nil => exact absurd rfl h
  | cons c cs => rfl

/-- The recurrence of R182. -/
theorem firstTables_succ (h : k + 1 < cs.length) :
    (firstTables cs code sym).getD (k + 1) (0, 0)
      = (2 * (((firstTables cs code sym).getD k (0, 0)).1 + cs.getD k 0), ((firstTables cs code sym).getD k (0, 0)).2 + cs.getD k 0) := by
  induction cs generalizing code sym k with
  | nil => cases h
  | cons c cs ih =>
    have hlt : k < cs.length := Nat.lt_of_succ_lt_succ h
    cases k with
    | zero =>
      rw [firstTables, List.getD_cons_succ, firstTables_zero (List.ne_nil_of_length_pos hlt), Nat.shiftLeft_eq, Nat.mul_comm]
      rfl
    | succ k => exact ih hlt

theorem firstTables_length : (firstTables cs code sym).length = cs.length := by
  induction cs generalizing code sym with
  | nil => rfl
  | cons c cs ih => rw [firstTables, List.length_cons, ih, List.length_cons]

/-- The codes of a length, and all longer ones, take the code space from the first of them on. -/
theorem firstTables_space (h : k < cs.length) :
    (((firstTables cs code sym).getD k (0, 0)).1 + cs.getD k 0) * 2 ^ (cs.length - (k + 1)) + kraftSum (cs.drop (k + 1))
      = code * 2 ^ (cs.length - 1) + kraftSum cs := by
  induction cs generalizing code sym k with
  | nil => cases h
  | cons c cs ih =>
    cases k with
    | zero => simp [firstTables, kraftSum, Nat.add_mul, Nat.add_assoc]
    | succ k =>
      have hlt : k < cs.length := Nat.lt_of_succ_lt_succ h
      have hpow : (code + c) <<< 1 * 2 ^ (cs.length - 1) = (code + c) * 2 ^ cs.length := by
        rw [Nat.shiftLeft_eq, Nat.mul_assoc, ← Nat.pow_add, Nat.add_sub_cancel' (Nat.one_le_of_lt hlt)]
      have htail := ih (code := (code + c) <<< 1) (sym := sym + c) hlt
      rw [hpow] at htail
      simpa [firstTables, kraftSum, Nat.add_mul, Nat.add_assoc] using htail

/-- The symbols of a length, and of all longer ones, come from its first symbol on. -/
theorem firstTables_symbols (h : k < cs.length) :
    ((firstTables cs code sym).getD k (0, 0)).2 + cs.getD k 0 + (cs.drop (k + 1)).sum = sym + cs.sum := by
  induction cs generalizing code sym k with
  | nil => cases h
  | cons c cs ih =>
    cases k with
    | zero => simp [firstTables, Nat.add_assoc]
    | succ k =>
      have htail := ih (code := (code + c) <<< 1) (sym := sym + c) (Nat.lt_of_succ_lt_succ h)
      rw [Nat.add_assoc sym] at htail
      simpa [firstTables] using htail

end FirstTables

/-! ### The counts with EOB's slot (R182) -/

namespace Codebook.WellFormed

variable {cb : Codebook}

theorem counts_eq (h : cb.WellFormed) : ∃ cs c, cb.counts = cs ++ [c] ∧ cb.decCounts = cs ++ [c + 1] := by
  rcases List.eq_nil_or_concat cb.counts with hnil | ⟨cs, c, hcounts⟩
  · have hpos := h.pos
    simp [Codebook.maxLen, hnil] at hpos
  · rw [List.concat_eq_append] at hcounts
    exact ⟨cs, c, hcounts, by simp [Codebook.decCounts, hcounts, List.getLastD_eq_getLast?]⟩

theorem decCounts_length (h : cb.WellFormed) : cb.decCounts.length = cb.maxLen := by
  obtain ⟨cs, c, hcounts, hdec⟩ := h.counts_eq
  simp [Codebook.maxLen, hcounts, hdec]

theorem kraftSum_decCounts (h : cb.WellFormed) : kraftSum cb.decCounts = 2 ^ cb.maxLen := by
  obtain ⟨cs, c, hcounts, hdec⟩ := h.counts_eq
  rw [hdec, kraftSum_concat_succ, ← hcounts, h.complete]

theorem sum_decCounts (h : cb.WellFormed) : cb.decCounts.sum = cb.syms.length + 1 := by
  obtain ⟨cs, c, hcounts, hdec⟩ := h.counts_eq
  have htotal := h.total
  rw [hcounts, List.sum_append, List.sum_singleton] at htotal
  rw [hdec, List.sum_append, List.sum_singleton]
  omega

theorem decCounts_getD (h : cb.WellFormed) {k : Nat} (hk : k < cb.maxLen) :
    cb.decCounts.getD k 0 = cb.counts.getD k 0 + if k + 1 = cb.maxLen then 1 else 0 := by
  obtain ⟨cs, c, hcounts, hdec⟩ := h.counts_eq
  have hlen : cb.maxLen = cs.length + 1 := by simp [Codebook.maxLen, hcounts]
  rw [hdec, hcounts, hlen]
  by_cases hlast : k = cs.length
  · subst hlast
    simp [List.getD]
  · have hlt : k < cs.length := by omega
    simp [List.getD, List.getElem?_append_left hlt, hlast]

/-- EOB's slot is left to the lengths after a shorter one. -/
theorem kraftSum_drop_pos (h : cb.WellFormed) {k : Nat} (hk : k + 1 < cb.maxLen) : 0 < kraftSum (cb.decCounts.drop (k + 1)) := by
  obtain ⟨cs, c, hcounts, hdec⟩ := h.counts_eq
  have hlen : cb.maxLen = cs.length + 1 := by simp [Codebook.maxLen, hcounts]
  refine kraftSum_pos (Nat.succ_pos c) ?_
  rw [hdec, List.drop_append_of_le_length (by omega)]
  exact List.mem_append_right _ (List.mem_singleton.mpr rfl)

end Codebook.WellFormed

/-! ### The tables of R182 -/

/-- The first code and the first symbol of length `k + 1`. -/
def Codebook.first (cb : Codebook) (k : Nat) : Nat × Nat := (firstTables cb.decCounts 0 0).getD k (0, 0)

section Tables

variable {cb : Codebook}

theorem Codebook.WellFormed.first_zero (h : cb.WellFormed) : cb.first 0 = (0, 0) := by
  obtain ⟨cs, c, _, hdec⟩ := h.counts_eq
  exact firstTables_zero (by simp [hdec])

theorem Codebook.WellFormed.first_succ (h : cb.WellFormed) {k : Nat} (hk : k + 1 < cb.maxLen) :
    cb.first (k + 1) = (2 * ((cb.first k).1 + cb.decCounts.getD k 0), (cb.first k).2 + cb.decCounts.getD k 0) :=
  firstTables_succ (by rwa [h.decCounts_length])

theorem Codebook.WellFormed.first_of_le (h : cb.WellFormed) {k : Nat} (hk : cb.maxLen ≤ k) : cb.first k = (0, 0) :=
  getD_of_length_le (by rwa [firstTables_length, h.decCounts_length]) _

/-- The codes up to a length take the code space that the longer ones leave. -/
theorem Codebook.WellFormed.first_space (h : cb.WellFormed) {k : Nat} (hk : k < cb.maxLen) :
    ((cb.first k).1 + cb.decCounts.getD k 0) * 2 ^ (cb.maxLen - (k + 1)) + kraftSum (cb.decCounts.drop (k + 1)) = 2 ^ cb.maxLen := by
  have hspace := firstTables_space (code := 0) (sym := 0) (k := k) (cs := cb.decCounts) (by rwa [h.decCounts_length])
  rwa [h.decCounts_length, h.kraftSum_decCounts, Nat.zero_mul, Nat.zero_add] at hspace

/-- The codes of length L end where the code space does. -/
theorem Codebook.WellFormed.first_end (h : cb.WellFormed) {k : Nat} (hk : k + 1 = cb.maxLen) :
    (cb.first k).1 + cb.decCounts.getD k 0 = 2 ^ cb.maxLen ∧ (cb.first k).2 + cb.decCounts.getD k 0 = cb.syms.length + 1 := by
  have hspace := h.first_space (k := k) (by omega)
  have hsyms := firstTables_symbols (code := 0) (sym := 0) (k := k) (cs := cb.decCounts) (by rw [h.decCounts_length]; omega)
  have hdrop : cb.decCounts.drop (k + 1) = [] := List.drop_eq_nil_of_le (by rw [h.decCounts_length]; omega)
  rw [hdrop, h.sum_decCounts, Nat.zero_add] at hsyms
  rw [hdrop, hk, Nat.sub_self, Nat.pow_zero, Nat.mul_one] at hspace
  exact ⟨hspace, hsyms⟩

/-- Every shorter length leaves some of the code space. -/
theorem Codebook.WellFormed.first_lt (h : cb.WellFormed) {k : Nat} (hk : k + 1 < cb.maxLen) :
    (cb.first k).1 + cb.decCounts.getD k 0 < 2 ^ (k + 1) := by
  have hspace := h.first_space (k := k) (by omega)
  have hpos := h.kraftSum_drop_pos hk
  have hpow : 2 ^ cb.maxLen = 2 ^ (k + 1) * 2 ^ (cb.maxLen - (k + 1)) := by rw [← Nat.pow_add, Nat.add_sub_cancel' (Nat.le_of_lt hk)]
  exact Nat.lt_of_mul_lt_mul_right (a := 2 ^ (cb.maxLen - (k + 1))) (by omega)

/-- Every first code fits its 64-bit entry. -/
theorem Codebook.WellFormed.first_lt_word (h : cb.WellFormed) {k : Nat} (hk : k < 64) : (cb.first k).1 < 2 ^ 64 := by
  rcases Nat.lt_trichotomy (k + 1) cb.maxLen with hlt | heq | hgt
  · have hpow : 2 ^ (k + 1) ≤ 2 ^ 64 := Nat.pow_le_pow_right Nat.two_pos hk
    have hcode := h.first_lt hlt
    omega
  · cases k with
    | zero =>
      rw [h.first_zero]
      exact Nat.two_pow_pos 64
    | succ k =>
      have hpow : 2 * 2 ^ (k + 1) ≤ 2 ^ 64 := Nat.pow_succ' ▸ Nat.pow_le_pow_right Nat.two_pos hk
      have hcode := h.first_lt (k := k) (by omega)
      rw [h.first_succ (by omega)]
      simp only
      omega
  · rw [h.first_of_le (by omega)]
    exact Nat.two_pow_pos 64

variable (s : State) {k : Nat}

theorem buildTables_decCount (cb : Codebook) (hk : k < 64) : (s.buildTables cb).decCount (k + 1) = cb.decCounts.getD k 0 :=
  tableGet_tabulate _ hk

theorem buildTables_firstSym (cb : Codebook) (hk : k < 64) : (s.buildTables cb).firstSym (k + 1) = (cb.first k).2 :=
  tableGet_tabulate _ hk

theorem buildTables_firstCode (h : cb.WellFormed) (hk : k < 64) : (s.buildTables cb).firstCode (k + 1) = (cb.first k).1 := by
  rw [State.firstCode, State.buildTables, Nat.add_sub_cancel, tableGet_tabulate _ hk]
  exact toWord_toNat (h.first_lt_word hk)

theorem buildTables_decAlpha (cb : Codebook) (hk : k < 257) :
    tableGet (s.buildTables cb).decAlpha k = (cb.syms ++ [eobSymbol]).getD k 0 :=
  tableGet_tabulate _ hk

theorem buildTables_decAlpha_eob (h : cb.WellFormed) : tableGet (s.buildTables cb).decAlpha cb.syms.length = eobSymbol := by
  have hlt : cb.syms.length < 257 := Nat.lt_succ_of_le h.syms_le
  rw [buildTables_decAlpha s cb hlt]
  simp [List.getD]

/-- The tables of a codebook that passes the checks describe a complete code with EOB last (R182, R183). -/
theorem buildTables_decInv (h : cb.WellFormed) : (s.buildTables cb).DecInv := by
  have hpos := h.pos
  have hle := h.le
  obtain ⟨m, hm⟩ : ∃ m, cb.maxLen = m + 1 := ⟨cb.maxLen - 1, by omega⟩
  have hmax : (s.buildTables cb).decMaxlen = m + 1 := hm
  obtain ⟨hcode, hsym⟩ := h.first_end hm.symm
  refine ⟨fun hno => (nomatch hno), fun _ => ⟨?_, ?_, ?_, ?_, fun l hl hlt => ?_, ?_, ?_, ?_, ?_⟩⟩
  · omega
  · rw [hmax, Config.codeLenMax]
    omega
  · rw [buildTables_firstCode s h (by omega), h.first_zero]
  · rw [buildTables_firstSym s cb (by omega), h.first_zero]
  · obtain ⟨k, rfl⟩ : ∃ k, l = k + 1 := ⟨l - 1, by omega⟩
    rw [hmax] at hlt
    rw [buildTables_firstCode s h (by omega), buildTables_firstCode s h (by omega), buildTables_firstSym s cb (by omega),
      buildTables_firstSym s cb (by omega), buildTables_decCount s cb (by omega), h.first_succ (by omega)]
    exact ⟨rfl, rfl, h.first_lt (by omega)⟩
  · rw [hmax, buildTables_firstCode s h (by omega), buildTables_decCount s cb (by omega), hcode, hm]
  · have hsyms := h.syms_le
    rw [hmax, buildTables_firstSym s cb (by omega), buildTables_decCount s cb (by omega), hsym]
    omega
  · rw [hmax, buildTables_decCount s cb (by omega), h.decCounts_getD (by omega), if_pos hm.symm]
    omega
  · rw [hmax, buildTables_firstSym s cb (by omega), buildTables_decCount s cb (by omega), hsym, Nat.add_sub_cancel]
    exact buildTables_decAlpha_eob s h

end Tables

/-! ### HCB_READ and the decoder's tables under every step (R181 to R183) -/

theorem clearDecTables_decInv (s : State) : s.clearDecTables.DecInv := ⟨fun _ => rfl, fun h => nomatch h⟩

theorem firstFailing_hcbReadChecks {s : State} (halign : s.brLeft = 0) (hin : Claims.inInMem s) : firstFailing (hcbReadChecks s) = none := by
  rw [firstFailing_eq_none]
  simp [hcbReadChecks, inCheck_of_inInMem hin, halign]

/-- HCB_READ at an aligned reader, on a stream that a check of R181 rejects. -/
theorem execHcbRead_of_reject {s : State} {r : Nat} (halign : s.brLeft = 0) (hin : Claims.inInMem s)
    (hparse : parseCodebook s.inBytes = .error r) :
    exec .hcbRead s = .next (s.clearDecTables.fail .codebook (toWord r)) := by
  rw [exec, execHcbRead, withChecks_of_pass s _ _ (firstFailing_hcbReadChecks halign hin), readCodebook_eq s hin.2, hparse]
  rfl

/-- HCB_READ leaves the tables at a failed pre-check, clears them for a rejected codebook, and builds them of one that passes the checks. -/
theorem execHcbRead_decInv {s t : State} (hinv : s.DecInv) (h : exec .hcbRead s = .next t) : t.DecInv := by
  by_cases hok : Claims.inInMem s ∧ s.brLeft = 0
  · obtain ⟨hin, halign⟩ := hok
    cases hparse : parseCodebook s.inBytes with
    | error r =>
      cases (execHcbRead_of_reject halign hin hparse).symm.trans h
      exact clearDecTables_decInv s
    | ok cb =>
      cases (execHcbRead_of_parse halign hin hparse).symm.trans h
      exact buildTables_decInv s (wellFormed_of_parseCodebook hparse)
  · rcases withChecks_cases s (hcbReadChecks s) fun s => conclude s.clearDecTables (readCodebook s) with ⟨code, info, _, hfail⟩ | ⟨hpass, _⟩
    · cases hfail.symm.trans h
      exact hinv
    · have hall := (firstFailing_eq_none _).mp hpass
      exact absurd ⟨inInMem_of_inCheck (hall _ (.head _)), by simpa using hall _ (.tail _ (.head _))⟩ hok

/-- No other command has the decoder's tables in its write set (R50, R180). -/
theorem exec_decInv {i : Instr} {s t : State} (hinv : s.DecInv) (h : exec i s = .next t) : t.DecInv := by
  cases i with
  | hcbRead => exact execHcbRead_decInv hinv h
  | nop | bpClear | bpPut | bpFlush | brAlign | brGet | hfreqClr | hfreqAdd | hbuild | hcbWrite | henc | hencEob | hdec | hdecSym
  | deltaEnc | deltaDec | rleMark | rleEnc | rleDec | geom | tileLoad | tileStore | tileSer | tileDeser =>
    rw [(exec_framed h).writeSet]
    exact hinv

theorem engineTurn_decInv {s t : State} (hinv : s.DecInv) (h : engineTurn s = .next t) : t.DecInv := by
  rcases engineTurn_cases s with ⟨_, hidle⟩ | ⟨w, i, _, _, hlegal⟩ | ⟨w, e, _, _, hillegal⟩
  · cases hidle.symm.trans h
    exact hinv
  · exact exec_decInv hinv (hlegal.symm.trans h)
  · cases hillegal.symm.trans h
    exact hinv

/-- A soft reset clears the tables, and no other host access touches them. -/
theorem hostAccess_decInv {a : Access} {s t : State} (hinv : s.DecInv) (h : hostAccess a s = .next t) : t.DecInv := by
  by_cases hsrst : ∃ n v, a = .regWrite n 0x008 v ∧ v.getLsbD 1 = true
  · obtain ⟨n, v, rfl, hv⟩ := hsrst
    rcases hostAccess_cases _ s t h with ⟨_, _, heq, _⟩ | ⟨_, o, w, heq, _, rfl⟩ | ⟨_, _, heq, _⟩ | ⟨_, _, _, heq, _⟩ <;> cases heq
    have hreset : s.hostWriteReg 0x008 v = s.softReset := if_pos hv
    rw [hreset]
    exact reset_decInv
  · rw [hostAccess_frame h fun n v ha => by simpa using fun hv => hsrst ⟨n, v, ha, hv⟩]
    exact hinv

/-- Settles O22: HCB_READ builds complete tables or clears them, a soft reset clears them, and nothing else touches them. -/
theorem stepKeepsTheDecoderTablesComplete : Obligations.StepKeepsTheDecoderTablesComplete := by
  intro s t hinv h
  obtain ⟨rest, hmove⟩ := step_cases h
  have hevents : (s.withEvents rest).DecInv := hinv
  rcases hmove with hengine | ⟨a, hhost⟩ | rfl
  · exact engineTurn_decInv hevents hengine
  · exact hostAccess_decInv hevents hhost
  · rw [State.hostCheck, State.hostReadReg_frame]
    exact hevents

/-! ### HCB_READ of a codebook that passes the checks (R181, R182) -/

theorem map_toNat_eq_map_range (bs : List Byte) : bs.map BitVec.toNat = (List.range bs.length).map fun k => (bs.getD k 0).toNat := by
  refine List.ext_getElem (by simp) fun k h _ => ?_
  have hk : k < bs.length := by simpa using h
  simp [List.getD, hk]

/-- IN_PTR moves past some bytes of the input stream without wrap-around. -/
theorem inPtr_add_toNat {s : State} {n : Nat} (hin : Claims.inInMem s) (hroom : n ≤ s.inEnd.toNat - s.inPtr.toNat) :
    (s.inPtr + toWord n).toNat = s.inPtr.toNat + n := by
  have hend := s.inEnd.isLt
  have hle := hin.1
  rw [BitVec.toNat_add, toWord_toNat (by omega), Nat.mod_eq_of_lt (by omega)]

/-- Settles O41: the codebook is parsed into its counts and symbols, and the tables built of them are read entry by entry. -/
theorem hcbReadBuildsTheTables : Obligations.HcbReadBuildsTheTables := by
  intro s counts syms halign hin l total c hpos hmax htotal hsyms hroom hbytes hkraft
  have hcounts : kraftSum (counts.map BitVec.toNat) + 1 = 2 ^ counts.length := by
    rw [map_toNat_eq_map_range, kraftSum_map_range]
    exact hkraft
  have hparse : parseCodebook s.inBytes = .ok ⟨counts.map BitVec.toNat, syms.map BitVec.toNat⟩ := by
    rw [State.inBytes, State.inRoom, ← Nat.add_sub_cancel' hroom, State.bytesAt_append, hbytes]
    exact parseCodebook_of_wellFormed _ hpos hmax hsyms.symm (hsyms ▸ htotal) hcounts
  have hexec := execHcbRead_of_parse halign hin hparse
  have h := wellFormed_of_parseCodebook hparse
  generalize hcb : (⟨counts.map BitVec.toNat, syms.map BitVec.toNat⟩ : Codebook) = cb at hexec h
  have hmaxlen : cb.maxLen = l := by rw [← hcb, Codebook.maxLen, List.length_map]
  have hsymbols : cb.syms.length = total := by rw [← hcb, List.length_map, hsyms]
  have hdec {k : Nat} (hk : k < l) : cb.decCounts.getD k 0 = c (k + 1) := by
    rw [h.decCounts_getD (by omega), hmaxlen, ← hcb]
    exact congrArg (· + _) (getD_map_toNat counts k)
  rw [show cb.size = 1 + l + total by rw [Codebook.size, hmaxlen, hsymbols]] at hexec
  let t : State := { s.buildTables cb with inPtr := s.inPtr + toWord (1 + l + total) }
  have hcount {k : Nat} (hk : k < 64) : t.decCount (k + 1) = cb.decCounts.getD k 0 := buildTables_decCount s cb hk
  have hcode {k : Nat} (hk : k < 64) : t.firstCode (k + 1) = (cb.first k).1 := buildTables_firstCode s h hk
  have hsym {k : Nat} (hk : k < 64) : t.firstSym (k + 1) = (cb.first k).2 := buildTables_firstSym s cb hk
  have halpha {j : Nat} (hj : j < 257) : tableGet t.decAlpha j = (cb.syms ++ [eobSymbol]).getD j 0 := buildTables_decAlpha s cb hj
  refine ⟨t, hexec, inPtr_add_toNat hin hroom, rfl, hmaxlen, fun k h1 hk => ?_, ?_, ?_, fun k h1 hk => ?_, fun k h1 hk => ?_,
    fun j hj => ?_, ?_, fun j h1 hj => ?_⟩
  · obtain ⟨k, rfl⟩ := Nat.exists_eq_add_of_le' h1
    rw [hcount (by omega), hdec hk]
  · rw [hcode (by omega), h.first_zero]
  · rw [hsym (by omega), h.first_zero]
  · obtain ⟨k, rfl⟩ := Nat.exists_eq_add_of_le' h1
    rw [hcode (by omega), hcode (by omega), hsym (by omega), hsym (by omega), h.first_succ (by omega), hdec (by omega)]
    exact ⟨rfl, rfl⟩
  · obtain ⟨k, rfl⟩ := Nat.exists_eq_add_of_le' (Nat.one_le_of_lt h1)
    rw [hcount (by omega), hcode (by omega), hsym (by omega), h.first_of_le (by omega),
      getD_of_length_le (by rw [h.decCounts_length]; omega)]
    exact ⟨rfl, rfl, rfl⟩
  · rw [halpha (by omega), List.getD, List.getElem?_append_left (by rwa [hsymbols]), ← hcb]
    exact getD_map_toNat syms j
  · rw [← hsymbols]
    exact buildTables_decAlpha_eob s h
  · rw [halpha hj, getD_of_length_le]
    rwa [List.length_append, hsymbols]

/-! ### HCB_READ of a codebook that fails a check (R181) -/

theorem map_toNat_take_bytesAt (s : State) (a : Nat) {m n : Nat} (h : m ≤ n) :
    ((s.bytesAt a n).take m).map BitVec.toNat = (List.range m).map fun k => (s.byteAt (a + k)).toNat := by
  rw [← Nat.add_sub_cancel' h, State.bytesAt_append, List.take_left' (State.bytesAt_length s a m), State.bytesAt, List.map_map]
  rfl

/-- A check of R181 with the reason reported where it fails, once as a reason and once as a parse that stops. -/
theorem error_of_check {α : Type} {failed : Prop} [Decidable failed] {k r : Nat} {later : Option Nat} {parse : Except Nat α}
    (h : (if failed then some k else later) = some r) (hlater : ¬ failed → later = some r → parse = .error r) :
    (if failed then .error k else parse) = .error r := by
  by_cases hc : failed
  · rw [if_pos hc] at h ⊢
    rw [Option.some.inj h]
  · rw [if_neg hc] at h ⊢
    exact hlater hc h

/-- The checks of R181 on the stream's bytes, in their order, are those of the parse. -/
theorem parseCodebook_of_codebookFault {s : State} {r : Nat} (h : Claims.codebookFault s = some r) : parseCodebook s.inBytes = .error r := by
  have hroomdef : s.inRoom = s.inEnd.toNat - s.inPtr.toNat := rfl
  simp only [Claims.codebookFault] at h
  rw [← hroomdef] at h
  by_cases hempty : s.inRoom < 1
  · have hnil : s.inBytes = [] := List.eq_nil_of_length_eq_zero (by rw [State.inBytes_length]; omega)
    rw [if_pos hempty] at h
    rw [hnil, parseCodebook, Option.some.inj h]
  have hbytes : s.inBytes = s.byteAt s.inPtr.toNat :: s.bytesAt (s.inPtr.toNat + 1) (s.inRoom - 1) := by
    rw [State.inBytes, ← Nat.add_sub_cancel' (Nat.le_of_not_lt hempty), State.bytesAt_append, Nat.add_sub_cancel_left]
    rfl
  rw [if_neg hempty] at h
  simp only [hbytes, parseCodebook, Config.codeLenMax, State.bytesAt_length, List.length_drop]
  generalize (s.byteAt s.inPtr.toNat).toNat + 1 = l at h ⊢
  refine error_of_check h fun _ h => error_of_check h fun hlong h => ?_
  have hcounts : ((s.bytesAt (s.inPtr.toNat + 1) (s.inRoom - 1)).take l).map BitVec.toNat
      = (List.range l).map fun k => (s.byteAt (s.inPtr.toNat + (k + 1))).toNat := by
    rw [map_toNat_take_bytesAt s _ (Nat.le_of_not_lt hlong)]
    simp only [Nat.add_assoc, Nat.add_comm 1]
  rw [hcounts, kraftSum_map_range]
  exact error_of_check h fun _ h => error_of_check h fun _ h => error_of_check h fun _ h => nomatch h

/-- Settles O42: the parse stops at the first check that fails, and the error clears the tables. -/
theorem hcbReadRejectsAndClears : Obligations.HcbReadRejectsAndClears := by
  intro s r halign hin hfault
  exact ⟨s.clearDecTables, execHcbRead_of_reject halign hin (parseCodebook_of_codebookFault hfault), rfl,
    fun k _ => ⟨tableGet_replicate_zero k, tableGet_replicate_zeroWord k, tableGet_replicate_zero k⟩, fun j _ => tableGet_replicate_zero j⟩

/-! ### The numbers that bits spell -/

theorem bitsValue_take_succ {bits : List Bool} {n : Nat} (h : n < bits.length) :
    bitsValue (bits.take (n + 1)) = 2 * bitsValue (bits.take n) + bits[n].toNat := by
  rw [List.take_succ_eq_append_getElem h, bitsValue_append_singleton]

theorem two_mul_bitsValue_take_le {bits : List Bool} {n : Nat} (h : n < bits.length) :
    2 * bitsValue (bits.take n) ≤ bitsValue (bits.take (n + 1)) := by
  rw [bitsValue_take_succ h]
  exact Nat.le_add_right ..

/-- Bits read after the number `v` has been spelt stay below `v + 1` followed by zeros. -/
theorem foldl_bits_lt (bits : List Bool) (v : Nat) : bits.foldl (fun v b => 2 * v + b.toNat) v < (v + 1) * 2 ^ bits.length := by
  induction bits generalizing v with
  | nil => simp
  | cons b bits ih =>
    have hb := Bool.toNat_le b
    rw [List.foldl_cons, List.length_cons, Nat.pow_succ', ← Nat.mul_assoc]
    exact Nat.lt_of_lt_of_le (ih _) (Nat.mul_le_mul_right _ (by omega))

theorem bitsValue_lt (bits : List Bool) : bitsValue bits < 2 ^ bits.length := by
  have hlt := foldl_bits_lt bits 0
  rwa [Nat.zero_add, Nat.one_mul] at hlt

theorem bitsValue_replicate_true (n : Nat) : bitsValue (List.replicate n true) + 1 = 2 ^ n := by
  induction n with
  | zero => rfl
  | succ n ih =>
    rw [List.replicate_succ', bitsValue_append_singleton, Nat.pow_succ, Bool.toNat_true]
    omega

/-! ### Valid tables (R182, R183) -/

/-- What `DecInv` says of tables that hold a codebook. -/
structure ValidTables (s : State) : Prop where
  pos : 1 ≤ s.decMaxlen
  le : s.decMaxlen ≤ 64
  firstCode_one : s.firstCode 1 = 0
  firstCode_succ : ∀ {l}, 1 ≤ l → l < s.decMaxlen → s.firstCode (l + 1) = 2 * (s.firstCode l + s.decCount l)
  firstSym_succ : ∀ {l}, 1 ≤ l → l < s.decMaxlen → s.firstSym (l + 1) = s.firstSym l + s.decCount l
  room : ∀ {l}, 1 ≤ l → l < s.decMaxlen → s.firstCode l + s.decCount l < 2 ^ l
  full : s.firstCode s.decMaxlen + s.decCount s.decMaxlen = 2 ^ s.decMaxlen
  eob_slot : 1 ≤ s.decCount s.decMaxlen
  eob : tableGet s.decAlpha (s.firstSym s.decMaxlen + s.decCount s.decMaxlen - 1) = eobSymbol

theorem State.DecInv.validTables {s : State} (h : s.DecInv) (hvalid : s.decValid = true) : ValidTables s := by
  obtain ⟨hpos, hle, hcode, _, hrec, hfull, _, hslot, heob⟩ := h.2 hvalid
  exact ⟨hpos, hle, hcode, fun h1 h2 => (hrec _ h1 h2).1, fun h1 h2 => (hrec _ h1 h2).2.1, fun h1 h2 => (hrec _ h1 h2).2.2, hfull, hslot, heob⟩

/-! ### The code at the read position (R183) -/

/-- The first `n` bits spell no number below the end of the codes of length `n`. -/
def pastCodes (s : State) (bits : List Bool) (n : Nat) : Prop := s.firstCode n + s.decCount n ≤ bitsValue (bits.take n)

theorem codeAt_iff {s : State} {bits : List Bool} {n sym : Nat} :
    Claims.codeAt s bits n sym ↔ 1 ≤ n ∧ n ≤ s.decMaxlen ∧ n ≤ bits.length ∧ ¬ pastCodes s bits n
      ∧ (∀ m, 1 ≤ m → m < n → pastCodes s bits m) ∧ sym = symbolOf s (bitsValue (bits.take n)) n := by
  simp only [Claims.codeAt, pastCodes, symbolOf, Nat.not_le]

/-- A stream begins with one code at most. -/
theorem codeAt_unique {s : State} {bits : List Bool} {n sym m sym' : Nat} (h : Claims.codeAt s bits n sym) (h' : Claims.codeAt s bits m sym') :
    n = m ∧ sym = sym' := by
  obtain ⟨hn, _, _, hcode, hshorter, hsym⟩ := codeAt_iff.mp h
  obtain ⟨hm, _, _, hcode', hshorter', hsym'⟩ := codeAt_iff.mp h'
  rcases Nat.lt_trichotomy n m with hlt | rfl | hgt
  · exact absurd (hshorter' n hn hlt) hcode
  · exact ⟨rfl, hsym.trans hsym'.symm⟩
  · exact absurd (hshorter m hm hgt) hcode'

section Tables

variable {s : State} {bits : List Bool}

/-- The numbers of L bits are the codes of length L and those past the shorter ones. -/
theorem ValidTables.not_pastCodes (h : ValidTables s) (hlen : s.decMaxlen ≤ bits.length) : ¬ pastCodes s bits s.decMaxlen := by
  have hlt := bitsValue_lt (bits.take s.decMaxlen)
  rw [List.length_take_of_le hlen] at hlt
  rw [pastCodes, h.full]
  omega

/-- Bits past the codes of a length spell, with one bit more, no number below the first code of the next. -/
theorem ValidTables.firstCode_le (h : ValidTables s) {n : Nat} (hn : 1 ≤ n) (hmax : n ≤ s.decMaxlen) (hlen : n ≤ bits.length)
    (hpast : ∀ m, 1 ≤ m → m < n → pastCodes s bits m) : s.firstCode n ≤ bitsValue (bits.take n) := by
  obtain ⟨m, rfl⟩ := Nat.exists_eq_add_of_le' hn
  cases m with
  | zero => rw [h.firstCode_one]; exact Nat.zero_le _
  | succ m =>
    have hprev := hpast (m + 1) (by omega) (by omega)
    have hbit := two_mul_bitsValue_take_le (bits := bits) (n := m + 1) (by omega)
    rw [h.firstCode_succ (by omega) (by omega)]
    unfold pastCodes at hprev
    omega

/-- The symbols of a length come before those of the longer ones. -/
theorem ValidTables.symbols_le (h : ValidTables s) {n : Nat} (hn : 1 ≤ n) (hmax : n ≤ s.decMaxlen) :
    s.firstSym n + s.decCount n ≤ s.firstSym s.decMaxlen + s.decCount s.decMaxlen := by
  obtain ⟨d, hd⟩ := Nat.exists_eq_add_of_le hmax
  induction d generalizing n with
  | zero => exact Nat.le_of_eq (by rw [hd, Nat.add_zero])
  | succ d ih =>
    have hnext := ih (n := n + 1) (by omega) (by omega) (by omega)
    rw [h.firstSym_succ hn (by omega)] at hnext
    omega

/-- Up to any length the bits are past all the codes, or there is a first length at which they are not. -/
theorem pastCodes_or_first (s : State) (bits : List Bool) (k : Nat) :
    (∀ m, 1 ≤ m → m ≤ k → pastCodes s bits m)
    ∨ ∃ n, 1 ≤ n ∧ n ≤ k ∧ ¬ pastCodes s bits n ∧ ∀ m, 1 ≤ m → m < n → pastCodes s bits m := by
  induction k with
  | zero => exact .inl fun m hm hle => absurd (Nat.le_trans hm hle) (Nat.not_succ_le_zero 0)
  | succ k ih =>
    rcases ih with hall | ⟨n, hn, hle, hfirst⟩
    · by_cases hcode : pastCodes s bits (k + 1)
      · refine .inl fun m hm hle => ?_
        rcases Nat.lt_or_eq_of_le hle with hlt | rfl
        · exact hall m hm (Nat.le_of_lt_succ hlt)
        · exact hcode
      · exact .inr ⟨k + 1, Nat.le_add_left 1 k, Nat.le_refl _, hcode, fun m hm hlt => hall m hm (Nat.le_of_lt_succ hlt)⟩
    · exact .inr ⟨n, hn, Nat.le_succ_of_le hle, hfirst⟩

/-- L bits begin with a code (R188): the first length at which they are not past the codes. -/
theorem ValidTables.exists_codeAt (h : ValidTables s) (hlen : s.decMaxlen ≤ bits.length) : ∃ n sym, Claims.codeAt s bits n sym := by
  rcases pastCodes_or_first s bits s.decMaxlen with hall | ⟨n, hn, hmax, hcode, hshorter⟩
  · exact absurd (hall _ h.pos (Nat.le_refl _)) (h.not_pastCodes hlen)
  · exact ⟨n, _, codeAt_iff.mpr ⟨hn, hmax, Nat.le_trans hmax hlen, hcode, hshorter, rfl⟩⟩

/-- L one bits are EOB's code (R184): they are past the codes of every shorter length, which leaves some of the code space. -/
theorem ValidTables.codeAt_ones (h : ValidTables s) (rest : List Bool) :
    Claims.codeAt s (List.replicate s.decMaxlen true ++ rest) s.decMaxlen eobSymbol := by
  have htake {m : Nat} (hm : m ≤ s.decMaxlen) : bitsValue ((List.replicate s.decMaxlen true ++ rest).take m) + 1 = 2 ^ m := by
    rw [List.take_append_of_le_length (by simpa using hm), List.take_replicate, Nat.min_eq_left hm, bitsValue_replicate_true]
  have hwhole := htake (Nat.le_refl _)
  have hfull := h.full
  have hslot := h.eob_slot
  refine codeAt_iff.mpr ⟨h.pos, Nat.le_refl _, by simp, h.not_pastCodes (by simp), fun m hm hlt => ?_, ?_⟩
  · have hroom := h.room hm hlt
    have hones := htake (Nat.le_of_lt hlt)
    unfold pastCodes
    omega
  · rw [symbolOf, ← h.eob]
    congr 1
    omega

end Tables

/-- Settles O44: the code that `exists_codeAt` finds is not below the first of its length, so its index is that of a symbol of its length. -/
theorem decoderIsTotal : Obligations.DecoderIsTotal := by
  intro s bits hinv hvalid hlen
  have h := hinv.validTables hvalid
  obtain ⟨n, sym, hat⟩ := h.exists_codeAt hlen
  obtain ⟨hn, hmax, hbits, hcode, hshorter, _⟩ := codeAt_iff.mp hat
  have hfirst := h.firstCode_le hn hmax hbits hshorter
  have hsymbols := h.symbols_le hn hmax
  unfold pastCodes at hcode
  exact ⟨n, sym, hat, by omega, hfirst⟩

/-! ### Reading one symbol (R183, R186) -/

/-- `t` is `s` but for the cursor of the input stream. -/
def SameButReader (s t : State) : Prop := t = { s with inPtr := t.inPtr, brAcc := t.brAcc, brLeft := t.brLeft }

theorem unreadBits_length {s : State} (hleft : s.brLeft ≤ 7) : s.unreadBits.length = s.bitsAvail := by
  simp only [State.unreadBits, List.length_append, List.length_drop, byteBits_length, bitsOfBytes_length, State.bytesAt_length, State.bitsAvail]
  omega

/-- A bit is read where there is one, and else the stream is truncated (R132, R133). -/
theorem getBit_cases {s : State} (hleft : s.brLeft ≤ 7) (hin : Claims.inInMem s) :
    (∃ b t, getBit s = .ok (b, t) ∧ s.unreadBits = b :: t.unreadBits ∧ bitsRead s 1 t)
    ∨ (getBit s = .error (.raise .trunc 0) ∧ s.unreadBits = []) := by
  by_cases havail : 1 ≤ s.bitsAvail
  · exact .inl (getBit_bitsRead s hleft havail hin.1 hin.2)
  · have hzero : s.bitsAvail = 0 := Nat.lt_one_iff.mp (Nat.lt_of_not_le havail)
    have hnil : s.unreadBits = [] := List.eq_nil_of_length_eq_zero ((unreadBits_length hleft).trans hzero)
    simp only [State.bitsAvail] at hzero
    have hend : s.inPtr.toNat ≥ s.inEnd.toNat := by omega
    exact .inr ⟨by rw [getBit, if_pos (by omega), fetchByte, if_pos hend]; rfl, hnil⟩

theorem bitsRead_inInMem {s t : State} {n : Nat} (h : bitsRead s n t) (hin : Claims.inInMem s) : Claims.inInMem t := by
  obtain ⟨hframe, _, hend, _⟩ := h
  refine ⟨?_, ?_⟩
  · rw [hframe]; exact hend
  · rw [hframe]; exact hin.2

theorem bitsRead_brLeft {s t : State} {n : Nat} (h : bitsRead s n t) : t.brLeft ≤ 7 := by
  obtain ⟨_, _, _, hleft, _⟩ := h
  exact hleft

theorem bitsRead_unreadBits {s t : State} {n : Nat} (h : bitsRead s n t) : t.unreadBits = s.unreadBits.drop n := by
  obtain ⟨_, _, _, _, _, _, hbits⟩ := h
  exact hbits

theorem decodeFrom_of_error {u : State} {e : Stop} (h : getBit u = .error e) (more cv len : Nat) : decodeFrom more cv len u = .error e := by
  cases more <;> simp [decodeFrom, h, Except.bind]

/-- One turn of the loop of `decode_symbol`, on the bits read before it and the one it reads. -/
theorem decodeFrom_of_bit {u v : State} {b : Bool} (h : getBit u = .ok (b, v)) (more : Nat) (pre : List Bool) :
    decodeFrom more (bitsValue pre) pre.length u
      = if more = 0 ∨ 2 * bitsValue (pre ++ [b]) < v.firstCode ((pre ++ [b]).length + 1)
        then .ok (symbolOf v (bitsValue (pre ++ [b])) (pre ++ [b]).length, v)
        else decodeFrom (more - 1) (bitsValue (pre ++ [b])) (pre ++ [b]).length v := by
  rw [bitsValue_append_singleton, List.length_append, List.length_singleton]
  cases more <;> simp [decodeFrom, h, Except.bind]

/-- Bits that are past the codes of every shorter length and not past those of their own are a code. -/
theorem codeAt_append {s : State} {pre rest : List Bool} (hpos : 1 ≤ pre.length) (hmax : pre.length ≤ s.decMaxlen)
    (hcode : ¬ pastCodes s (pre ++ rest) pre.length) (hpast : ∀ m, 1 ≤ m → m < pre.length → pastCodes s (pre ++ rest) m) :
    Claims.codeAt s (pre ++ rest) pre.length (symbolOf s (bitsValue pre) pre.length) :=
  codeAt_iff.mpr ⟨hpos, hmax, by simp, hcode, hpast, by rw [List.take_left]⟩

/-- The loop of `decode_symbol` ends where the bits read are not past the codes of their length (R183). -/
theorem ValidTables.stop_iff {s : State} (h : ValidTables s) {more : Nat} {pre : List Bool} (rest : List Bool) (hpos : 1 ≤ pre.length)
    (hmore : pre.length + more = s.decMaxlen) :
    (more = 0 ∨ 2 * bitsValue pre < s.firstCode (pre.length + 1)) ↔ ¬ pastCodes s (pre ++ rest) pre.length := by
  rcases Nat.eq_zero_or_pos more with rfl | hlt
  · simp only [true_or, true_iff]
    rw [show pre.length = s.decMaxlen from hmore]
    exact h.not_pastCodes (by rw [List.length_append]; omega)
  · rw [h.firstCode_succ hpos (by omega), pastCodes, List.take_left]
    omega

/-- The loop of `decode_symbol` after the bits `pre`, which are past the codes of every length so far: it reads on to the code that the bits begin
with, or the stream ends inside it. -/
theorem decodeFrom_cases {s : State} (h : ValidTables s) {more : Nat} {pre : List Bool} {u : State}
    (hsame : SameButReader s u) (hleft : u.brLeft ≤ 7) (hin : Claims.inInMem u) (hmore : pre.length + more + 1 = s.decMaxlen)
    (hpast : ∀ m, 1 ≤ m → m ≤ pre.length → pastCodes s (pre ++ u.unreadBits) m) :
    (∃ n sym t, Claims.codeAt s (pre ++ u.unreadBits) (pre.length + n) sym
        ∧ decodeFrom more (bitsValue pre) pre.length u = .ok (sym, t) ∧ bitsRead u n t)
    ∨ (decodeFrom more (bitsValue pre) pre.length u = .error (.raise .trunc 0)
        ∧ ∀ n sym, ¬ Claims.codeAt s (pre ++ u.unreadBits) n sym) := by
  induction hbits : u.unreadBits generalizing more pre u with
  | nil =>
    rcases getBit_cases hleft hin with ⟨b, v, _, hcons, _⟩ | ⟨hget, _⟩
    · rw [hbits] at hcons
      cases hcons
    · refine .inr ⟨decodeFrom_of_error hget .., fun n sym hat => ?_⟩
      obtain ⟨hn, _, hlen, hcode, _⟩ := codeAt_iff.mp hat
      rw [hbits] at hpast
      exact hcode (hpast n hn (by simpa using hlen))
  | cons b rest ih =>
    rcases getBit_cases hleft hin with ⟨b', v, hget, hcons, hread⟩ | ⟨_, hnil⟩
    · obtain ⟨rfl, rfl⟩ := List.cons.inj (hbits.symm.trans hcons)
      have hsplit : pre ++ b :: v.unreadBits = (pre ++ [b]) ++ v.unreadBits := by rw [List.append_assoc]; rfl
      have hlen : (pre ++ [b]).length = pre.length + 1 := List.length_append
      have hsame' : SameButReader s v := by
        obtain ⟨hframe, _⟩ := hread
        rw [SameButReader, hframe, hsame]
      have hfirst : v.firstCode = s.firstCode := by rw [hsame']; rfl
      have hsymbol : symbolOf v = symbolOf s := by rw [hsame']; rfl
      have hstop := h.stop_iff (more := more) (pre := pre ++ [b]) v.unreadBits (by omega) (by omega)
      rw [hbits, hsplit] at hpast
      rw [decodeFrom_of_bit hget, hfirst, hsymbol, hsplit]
      by_cases hcode : pastCodes s (pre ++ [b] ++ v.unreadBits) (pre ++ [b]).length
      · have hgo := mt hstop.mp (not_not_intro hcode)
        have hpast' : ∀ m, 1 ≤ m → m ≤ (pre ++ [b]).length → pastCodes s (pre ++ [b] ++ v.unreadBits) m := fun m hm hle => by
          rcases Nat.lt_or_eq_of_le hle with hlt | rfl
          · exact hpast m hm (by omega)
          · exact hcode
        rw [if_neg hgo]
        rcases ih (more := more - 1) hsame' (bitsRead_brLeft hread) (bitsRead_inInMem hread hin) (by omega) hpast' rfl with
          ⟨n, sym, t, hat, hdecode, hrest⟩ | hnone
        · exact .inl ⟨1 + n, sym, t, by rwa [← Nat.add_assoc, ← hlen], hdecode, bitsRead_trans hread hrest⟩
        · exact .inr hnone
      · rw [if_pos (hstop.mpr hcode)]
        refine .inl ⟨1, _, v, ?_, rfl, hread⟩
        rw [← hlen]
        exact codeAt_append (by omega) (by omega) hcode fun m hm hlt => hpast m hm (by omega)
    · rw [hbits] at hnil
      cases hnil

/-- `decode_symbol` reads the code that the stream begins with and returns its symbol, or the stream ends inside a code (R183). -/
theorem decodeSymbol_cases {s : State} (h : ValidTables s) (hleft : s.brLeft ≤ 7) (hin : Claims.inInMem s) :
    (∃ n sym t, Claims.codeAt s s.unreadBits n sym ∧ decodeSymbol s = .ok (sym, t) ∧ bitsRead s n t)
    ∨ (decodeSymbol s = .error (.raise .trunc 0) ∧ ∀ n sym, ¬ Claims.codeAt s s.unreadBits n sym) := by
  have hmore : ([] : List Bool).length + (s.decMaxlen - 1) + 1 = s.decMaxlen := by
    rw [List.length_nil, Nat.zero_add, Nat.sub_add_cancel h.pos]
  have hcases := decodeFrom_cases h (pre := []) (u := s) rfl hleft hin hmore fun m hm hle => absurd (Nat.le_trans hm hle) (Nat.not_succ_le_zero 0)
  simp only [List.nil_append, List.length_nil, Nat.zero_add] at hcases
  exact hcases

theorem decodeSymbol_of_codeAt {s : State} (h : ValidTables s) (hleft : s.brLeft ≤ 7) (hin : Claims.inInMem s) {n sym : Nat}
    (hat : Claims.codeAt s s.unreadBits n sym) : ∃ t, decodeSymbol s = .ok (sym, t) ∧ bitsRead s n t := by
  rcases decodeSymbol_cases h hleft hin with ⟨m, sym', t, hat', hdecode, hread⟩ | ⟨_, hnone⟩
  · obtain ⟨rfl, rfl⟩ := codeAt_unique hat hat'
    exact ⟨t, hdecode, hread⟩
  · exact absurd hat (hnone n sym)

theorem decodeSymbol_of_no_code {s : State} (h : ValidTables s) (hleft : s.brLeft ≤ 7) (hin : Claims.inInMem s)
    (hnone : ∀ n sym, ¬ Claims.codeAt s s.unreadBits n sym) : decodeSymbol s = .error (.raise .trunc 0) := by
  rcases decodeSymbol_cases h hleft hin with ⟨m, sym, t, hat, _, _⟩ | ⟨hdecode, _⟩
  · exact absurd hat (hnone m sym)
  · exact hdecode

/-- HDEC_SYM with its operands admitted (R186). -/
theorem execHdecSym_of_checks {s : State} (hin : Claims.inInMem s) (hvalid : s.decValid = true) :
    exec .hdecSym s = conclude (drawInCursor s) ((decodeSymbol s).map fun (sym, t) => ⟨t, toWord sym, sym == eobSymbol⟩) := by
  have hpass : firstFailing (hdecSymChecks s) = none := by
    rw [firstFailing_eq_none]
    simp [hdecSymChecks, decTableCheck, inCheck_of_inInMem hin, hvalid]
  rw [exec, execHdecSym, withChecks_of_pass s _ _ hpass]

theorem execHdecSym_of_codeAt {s : State} (hinv : s.CursorInv) (hdec : s.DecInv) (hin : Claims.inInMem s) (hvalid : s.decValid = true) {n sym : Nat}
    (hat : Claims.codeAt s s.unreadBits n sym) : ∃ u, bitsRead s n u ∧ exec .hdecSym s = .next (u.succeed (toWord sym) (sym == eobSymbol)) := by
  obtain ⟨u, hdecode, hread⟩ := decodeSymbol_of_codeAt (hdec.validTables hvalid) hinv.brLeft_le hin hat
  exact ⟨u, hread, by rw [execHdecSym_of_checks hin hvalid, hdecode]; rfl⟩

/-- A run-time error leaves the input cursor drawn within the bounds of R263. -/
theorem drawInCursor_drawn {s : State} (hin : Claims.inInMem s) : Claims.inStreamDrawn s 0 (drawInCursor s) := by
  obtain ⟨hstart, hend⟩ := drawBetween_bounds (Config.freeWord s.draws) hin.1
  exact ⟨rfl, hstart, hend, Nat.le_of_lt_succ (Nat.mod_lt _ (by decide)), fun _ _ => rfl⟩

/-- Settles O43: `decode_symbol` finds the code there is, or the stream ends inside it. -/
theorem hdecSymReadsOneSymbol : Obligations.HdecSymReadsOneSymbol := by
  intro s hinv hdec hin hvalid
  refine ⟨fun n sym hat => execHdecSym_of_codeAt hinv hdec hin hvalid hat, fun hnone => ⟨drawInCursor s, drawInCursor_drawn hin, ?_⟩⟩
  rw [execHdecSym_of_checks hin hvalid, decodeSymbol_of_no_code (hdec.validTables hvalid) hinv.brLeft_le hin hnone]
  rfl

/-- Settles O45: the one bits are EOB's code. -/
theorem allOnesDecodesToEob : Obligations.AllOnesDecodesToEob := by
  intro s rest hinv hdec hin hvalid hbits
  have hat := (hdec.validTables hvalid).codeAt_ones rest
  rw [← hbits] at hat
  obtain ⟨u, hread, hexec⟩ := execHdecSym_of_codeAt hinv hdec hin hvalid hat
  exact ⟨u, hread, by rw [bitsRead_unreadBits hread, hbits, List.drop_left' List.length_replicate], hexec⟩

/-! ### The codes of a list of symbols (R185) -/

/-- The code at the read position depends on the tables alone. -/
theorem codeAt_congr {s t : State} (h : t = { s with mem := t.mem, inPtr := t.inPtr, brAcc := t.brAcc, brLeft := t.brLeft }) :
    Claims.codeAt t = Claims.codeAt s := by
  rw [h]
  rfl

theorem codesOf_append {s : State} {xs ys : List Nat} {bits rest : List Bool} :
    Claims.codesOf s bits (xs ++ ys) rest ↔ ∃ mid, Claims.codesOf s bits xs mid ∧ Claims.codesOf s mid ys rest := by
  induction xs generalizing bits with
  | nil => exact ⟨fun h => ⟨bits, rfl, h⟩, fun ⟨mid, hmid, h⟩ => by cases hmid; exact h⟩
  | cons x xs ih =>
    constructor
    · rintro ⟨n, hat, h⟩
      obtain ⟨mid, hxs, hys⟩ := ih.mp h
      exact ⟨mid, ⟨n, hat, hxs⟩, hys⟩
    · rintro ⟨mid, ⟨n, hat, hxs⟩, hys⟩
      exact ⟨n, hat, ih.mpr ⟨mid, hxs, hys⟩⟩

/-- Every code has a bit. -/
theorem length_le_of_codesOf {s : State} {syms : List Nat} {bits rest : List Bool} (h : Claims.codesOf s bits syms rest) :
    syms.length ≤ bits.length := by
  induction syms generalizing bits with
  | nil => exact Nat.zero_le _
  | cons sym syms ih =>
    obtain ⟨n, ⟨hpos, _, hlen, _⟩, hrest⟩ := h
    have htail := ih hrest
    rw [List.length_drop] at htail
    rw [List.length_cons]
    omega

/-! ### What the loop of HDEC leaves (R185) -/

/-- The bits that a stream still holds are those of its cursor and of the bytes up to its end. -/
theorem unreadBits_congr {u v : State} (hframe : u = { v with mem := u.mem })
    (hbytes : ∀ a, v.inPtr.toNat ≤ a → a < v.inEnd.toNat → u.byteAt a = v.byteAt a) : u.unreadBits = v.unreadBits := by
  have hptr : u.inPtr = v.inPtr := by rw [hframe]
  have hend : u.inEnd = v.inEnd := by rw [hframe]
  have hacc : u.brAcc = v.brAcc := by rw [hframe]
  have hleft : u.brLeft = v.brLeft := by rw [hframe]
  rw [State.unreadBits, State.unreadBits, hptr, hend, hacc, hleft, State.bytesAt_congr v u _ _ fun b hb hlt => hbytes b hb (by omega)]

theorem bitsRead_count_le {s u : State} {n : Nat} (h : bitsRead s n u) (hleft : s.brLeft ≤ 7) : n ≤ s.unreadBits.length := by
  obtain ⟨_, hstart, hend, _, hcount, _⟩ := h
  rw [unreadBits_length hleft, State.bitsAvail]
  omega

section Exchange

variable {u v w : State} {bytes : List Byte} {a n : Nat}

/-- No byte of the input stream of `v` is one of the `n` from address `a` on. -/
def OutsideInput (v : State) (a n : Nat) : Prop := ∀ b, v.inPtr.toNat ≤ b → b < v.inEnd.toNat → ¬ (a ≤ b ∧ b < a + n)

theorem unreadBits_of_wrote (hwrote : Claims.wrote v a bytes u) (hout : OutsideInput v a bytes.length) : u.unreadBits = v.unreadBits := by
  obtain ⟨hframe, _, hbytes⟩ := hwrote
  exact unreadBits_congr hframe fun b hb hlt => hbytes b (hout b hb hlt)

/-- A write outside the input stream and a read of the stream after it can change places. -/
theorem bitsRead_of_wrote (hwrote : Claims.wrote v a bytes u) (hread : bitsRead u n w) (hout : OutsideInput v a bytes.length) :
    ∃ c, bitsRead v n c ∧ Claims.wrote c a bytes w := by
  have hbits := unreadBits_of_wrote hwrote hout
  obtain ⟨hframe, hstored, hbytes⟩ := hwrote
  obtain ⟨hreadFrame, hstart, hend, hleft, hcount, hacc, hdrop⟩ := hread
  have hptr : u.inPtr = v.inPtr := by rw [hframe]
  have hinEnd : u.inEnd = v.inEnd := by rw [hframe]
  have hbrLeft : u.brLeft = v.brLeft := by rw [hframe]
  have hbrAcc : u.brAcc = v.brAcc := by rw [hframe]
  have hbyteAt (b : Nat) : w.byteAt b = u.byteAt b := by rw [hreadFrame]; rfl
  have hwrote' : Claims.wrote { w with mem := v.mem } a bytes w := by
    refine ⟨rfl, ?_, fun b hb => (hbyteAt b).trans (hbytes b hb)⟩
    rw [State.bytesAt_congr u w _ _ fun b _ _ => hbyteAt b, hstored]
  have hinEnd' : w.inEnd = v.inEnd := by rw [hreadFrame, hinEnd]
  rw [hptr] at hstart hcount hacc
  rw [hinEnd] at hend
  have hout' : OutsideInput { w with mem := v.mem } a bytes.length := fun b hb hlt =>
    hout b (Nat.le_trans hstart hb) (Nat.lt_of_lt_of_eq hlt (congrArg BitVec.toNat hinEnd'))
  refine ⟨{ w with mem := v.mem }, ⟨?_, hstart, hend, hleft, by rw [← hbrLeft]; exact hcount, ?_, ?_⟩, hwrote'⟩
  · rw [hreadFrame, hframe]
  · show w.brAcc = if w.inPtr = v.inPtr then v.brAcc else v.byteAt (w.inPtr.toNat - 1)
    rw [hacc, hbrAcc]
    by_cases hmoved : w.inPtr = v.inPtr
    · rw [if_pos hmoved, if_pos hmoved]
    · rw [if_neg hmoved, if_neg hmoved]
      have hne : w.inPtr.toNat ≠ v.inPtr.toNat := fun heq => hmoved (BitVec.eq_of_toNat_eq heq)
      exact hbytes _ (hout _ (by omega) (by omega))
  · rw [← unreadBits_of_wrote hwrote' hout', hdrop, hbits]

theorem wrote_setByte (hwrote : Claims.wrote v a bytes u) (b : Byte) : Claims.wrote v a (bytes ++ [b]) (u.setByte (a + bytes.length) b) := by
  obtain ⟨hframe, hstored, hbytes⟩ := hwrote
  refine ⟨?_, ?_, fun c hc => ?_⟩
  · rw [State.setByte, hframe]
  · rw [List.length_append, State.bytesAt_append,
      State.bytesAt_congr u _ _ _ fun c hc hlt => State.byteAt_setByte_ne u _ b c (by omega), hstored]
    simp [State.bytesAt]
  · rw [List.length_append, List.length_singleton] at hc
    rw [State.byteAt_setByte_ne _ _ _ _ (by omega), hbytes c (by omega)]

end Exchange

/-- A turn of HDEC's loop that decodes a byte (R185). -/
theorem decodeLoop_of_byte {limit : Option Nat} {k : Nat} {v w : State} {b : Byte} (hlimit : limit ≠ some k)
    (hdecode : decodeSymbol v = .ok (b.toNat, w)) (turns : Nat) :
    decodeLoop limit (turns + 1) k v
      = if k = w.dstCap.toNat then .error (.raise .overflow 2)
        else (memWrite (w.dst.toNat + k) b w).bind (decodeLoop limit turns (k + 1)) := by
  have hbyte : toByte b.toNat = b := BitVec.ofNat_toNat ..
  have heob : b.toNat ≠ eobSymbol := Nat.ne_of_lt b.isLt
  rw [decodeLoop, if_neg hlimit, hdecode, Except.bind]
  simp only
  rw [if_neg heob, hbyte]

/-- What HDEC's pre-checks ask for, and the invariants of the reader and the tables. -/
structure HdecReady (s : State) : Prop where
  left : s.brLeft ≤ 7
  dec : s.DecInv
  valid : s.decValid = true
  inMem : Claims.inInMem s
  dstMem : Claims.dstInMem s
  apart : Claims.apart s.inPtr.toNat (s.inEnd.toNat - s.inPtr.toNat) s.dst.toNat s.dstCap.toNat

/-- HDEC, started in `s`, has come to `u`: it has read the bits of `s` that are not left in `u`, and written `bytes` from DST on. -/
def Decoded (s : State) (bytes : List Byte) (u : State) : Prop :=
  ∃ c, bitsRead s (s.unreadBits.length - u.unreadBits.length) c ∧ Claims.wrote c s.dst.toNat bytes u

section Decoded

variable {s u v : State} {bytes : List Byte} {limit : Option Nat}

theorem Decoded.frame (h : Decoded s bytes v) : v = { s with mem := v.mem, inPtr := v.inPtr, brAcc := v.brAcc, brLeft := v.brLeft } := by
  obtain ⟨c, ⟨hread, _⟩, ⟨hwrote, _⟩⟩ := h
  rw [hwrote, hread]

theorem HdecReady.decoded_nil (h : HdecReady s) : Decoded s [] s :=
  ⟨s, by rw [Nat.sub_self]; exact bitsRead_zero s h.left h.inMem.1, rfl, rfl, fun _ _ => rfl⟩

/-- What is still to be read lies apart from what is written. -/
theorem HdecReady.outsideInput (h : HdecReady s) {n : Nat} (hread : bitsRead s n v) (hfit : bytes.length ≤ s.dstCap.toNat) :
    OutsideInput v s.dst.toNat bytes.length := by
  obtain ⟨hframe, hstart, _⟩ := hread
  have hend : v.inEnd = s.inEnd := by rw [hframe]
  intro b hb hlt
  rw [hend] at hlt
  have hapart := h.apart
  unfold Claims.apart at hapart
  omega

/-- In the middle of its loop HDEC still has a stream in MEM, a reader of at most 7 bits, and the tables. -/
theorem HdecReady.of_decoded (h : HdecReady s) (hd : Decoded s bytes v) :
    ValidTables v ∧ v.brLeft ≤ 7 ∧ Claims.inInMem v ∧ Claims.codeAt v = Claims.codeAt s := by
  have hframe := hd.frame
  obtain ⟨c, hread, hwrote, _⟩ := hd
  have hmem := bitsRead_inInMem hread h.inMem
  have hleft := bitsRead_brLeft hread
  refine ⟨State.DecInv.validTables ?_ ?_, ?_, ?_, codeAt_congr hframe⟩
  · rw [hframe]; exact h.dec
  · rw [hframe]; exact h.valid
  · rw [hwrote]; exact hleft
  · rw [hwrote]; exact hmem

/-- Reading on from the middle of the loop. -/
theorem HdecReady.decoded_of_bitsRead (h : HdecReady s) (hd : Decoded s bytes v) (hfit : bytes.length ≤ s.dstCap.toNat) {n : Nat}
    (hread : bitsRead v n u) : Decoded s bytes u := by
  obtain ⟨_, hleft, _, _⟩ := h.of_decoded hd
  obtain ⟨c, hc, hwrote⟩ := hd
  have hout := h.outsideInput (bytes := bytes) hc hfit
  have hlen := congrArg List.length (unreadBits_of_wrote hwrote hout)
  have hcount := bitsRead_count_le hread hleft
  obtain ⟨d, hd, hwrote'⟩ := bitsRead_of_wrote hwrote hread hout
  refine ⟨d, ?_, hwrote'⟩
  have htrans := bitsRead_trans hc hd
  rw [bitsRead_unreadBits hc, List.length_drop] at hlen
  rw [bitsRead_unreadBits hread, List.length_drop]
  rwa [show s.unreadBits.length - (v.unreadBits.length - n) = s.unreadBits.length - v.unreadBits.length + n by omega]

/-- Writing a byte after those written, which leaves the bits still to be read. -/
theorem HdecReady.decoded_setByte (h : HdecReady s) (hd : Decoded s bytes v) (hfit : bytes.length < s.dstCap.toNat) (b : Byte) :
    Decoded s (bytes ++ [b]) (v.setByte (s.dst.toNat + bytes.length) b)
      ∧ (v.setByte (s.dst.toNat + bytes.length) b).unreadBits = v.unreadBits := by
  obtain ⟨c, hc, hwrote⟩ := hd
  have hwrote' := wrote_setByte hwrote b
  have hfit' : (bytes ++ [b]).length ≤ s.dstCap.toNat := by
    rw [List.length_append]
    exact hfit
  have hbits : (v.setByte (s.dst.toNat + bytes.length) b).unreadBits = v.unreadBits :=
    (unreadBits_of_wrote hwrote' (h.outsideInput hc hfit')).trans (unreadBits_of_wrote hwrote (h.outsideInput hc (Nat.le_of_lt hfit))).symm
  exact ⟨⟨c, by rwa [hbits], hwrote'⟩, hbits⟩

/-- A turn of the loop at the code of a byte, with room for it and the limit not reached (R185). -/
theorem HdecReady.turn (h : HdecReady s) (hd : Decoded s bytes v) (hfit : bytes.length < s.dstCap.toNat)
    (hlimit : ∀ m, limit = some m → bytes.length < m) {n : Nat} {b : Byte} (hat : Claims.codeAt s v.unreadBits n b.toNat) (turns : Nat) :
    ∃ u, Decoded s (bytes ++ [b]) u ∧ u.unreadBits = v.unreadBits.drop n
      ∧ decodeLoop limit (turns + 1) bytes.length v = decodeLoop limit turns (bytes.length + 1) u := by
  obtain ⟨htables, hleft, hin, hcodeAt⟩ := h.of_decoded hd
  obtain ⟨w, hdecode, hread⟩ := decodeSymbol_of_codeAt htables hleft hin (n := n) (sym := b.toNat) (by rwa [hcodeAt])
  have hw := h.decoded_of_bitsRead hd (Nat.le_of_lt hfit) hread
  obtain ⟨hu, hbits⟩ := h.decoded_setByte hw hfit b
  refine ⟨_, hu, hbits.trans (bitsRead_unreadBits hread), ?_⟩
  have hdst : w.dst = s.dst := by rw [hw.frame]
  have hcap : w.dstCap = s.dstCap := by rw [hw.frame]
  have hsize : w.memSize = s.memSize := by rw [hw.frame]; rfl
  have hmem : s.dst.toNat + bytes.length < w.memSize := by
    have hdstMem := h.dstMem
    unfold Claims.dstInMem at hdstMem
    omega
  have hnot : limit ≠ some bytes.length := fun heq => Nat.lt_irrefl _ (hlimit _ heq)
  rw [decodeLoop_of_byte hnot hdecode, hcap, if_neg (Nat.ne_of_lt hfit), hdst, memWrite_of_lt _ _ _ hmem, Except.bind]

/-- The loop at the codes of bytes that fit, with the limit not reached before the last of them (R185). -/
theorem HdecReady.turns (h : HdecReady s) (hd : Decoded s bytes v) {more : List Byte} {rest : List Bool}
    (hcodes : Claims.codesOf s v.unreadBits (more.map BitVec.toNat) rest) (hfit : bytes.length + more.length ≤ s.dstCap.toNat)
    (hlimit : ∀ m, limit = some m → bytes.length + more.length ≤ m) (turns : Nat) :
    ∃ u, Decoded s (bytes ++ more) u ∧ u.unreadBits = rest
      ∧ decodeLoop limit (turns + more.length) bytes.length v = decodeLoop limit turns (bytes ++ more).length u := by
  induction more generalizing bytes v with
  | nil => exact ⟨v, by rwa [List.append_nil], hcodes, by rw [List.append_nil]; rfl⟩
  | cons b more ih =>
    obtain ⟨n, hat, hrest⟩ := hcodes
    rw [List.length_cons] at hfit hlimit
    obtain ⟨w, hw, hbits, hturn⟩ := h.turn hd (by omega) (fun m hm => by have := hlimit m hm; omega) hat (turns + more.length)
    have hlen : (bytes ++ [b]).length = bytes.length + 1 := List.length_append
    obtain ⟨u, hu, hleft, hloop⟩ := ih hw (by rwa [hbits]) (by omega) fun m hm => by have := hlimit m hm; omega
    refine ⟨u, by rwa [List.append_cons bytes b more], hleft, ?_⟩
    rw [List.length_cons, ← Nat.add_assoc, hturn, ← hlen, hloop, List.append_cons bytes b more]

/-- HDEC's limit (R185): LIMIT when its flag L is 1. -/
def hdecLimit (l : Bool) (s : State) : Option Nat := if l then some s.limit.toNat else none

theorem hdecLimit_ne {l : Bool} {k : Nat} (h : l = true → k < s.limit.toNat) : hdecLimit l s ≠ some k := by
  cases l with
  | false => exact Option.some_ne_none k |>.symm
  | true => exact fun heq => Nat.ne_of_gt (h rfl) (Option.some.inj heq)

/-- HDEC with its operands admitted runs its loop (R185). -/
theorem HdecReady.exec_eq (h : HdecReady s) (l : Bool) :
    exec (.hdec l) s = conclude (drawInCursor (drawDst s)) (decodeLoop (hdecLimit l s) (s.bitsAvail + 1) 0 s) := by
  have hpass : firstFailing (hdecChecks s) = none := by
    have hapart := h.apart
    have hdst : (dstCheck s).ok = true := by simpa [dstCheck, State.inMem, Claims.dstInMem] using h.dstMem
    have hdisjoint : overlap s.inPtr.toNat (s.inEnd.toNat - s.inPtr.toNat) s.dst.toNat s.dstCap.toNat = false := by
      unfold Claims.apart at hapart
      simp [overlap]
      omega
    rw [firstFailing_eq_none]
    simp [hdecChecks, disjointCheck, decTableCheck, inCheck_of_inInMem h.inMem, hdst, h.valid, hdisjoint]
  rw [exec, execHdec, withChecks_of_pass s _ _ hpass]
  rfl

/-- HDEC's loop at the codes of bytes that fit, at the beginning of the stream: each code has a bit, so there are turns enough. -/
theorem HdecReady.run (h : HdecReady s) (l : Bool) {rest : List Bool} (hcodes : Claims.codesOf s s.unreadBits (bytes.map BitVec.toNat) rest)
    (hfit : bytes.length ≤ s.dstCap.toNat) (hlimit : l = true → bytes.length ≤ s.limit.toNat) :
    ∃ u turns, Decoded s bytes u ∧ u.unreadBits = rest
      ∧ exec (.hdec l) s = conclude (drawInCursor (drawDst s)) (decodeLoop (hdecLimit l s) (turns + 1) bytes.length u) := by
  have hturns := length_le_of_codesOf hcodes
  rw [List.length_map, unreadBits_length h.left] at hturns
  have hlimit' : ∀ m, hdecLimit l s = some m → ([] : List Byte).length + bytes.length ≤ m := fun m hm => by
    cases l with
    | false => cases hm
    | true =>
      cases hm
      rw [List.length_nil, Nat.zero_add]
      exact hlimit rfl
  obtain ⟨u, hu, hbits, hloop⟩ := h.turns h.decoded_nil hcodes (by rwa [List.length_nil, Nat.zero_add]) hlimit' (s.bitsAvail - bytes.length + 1)
  refine ⟨u, s.bitsAvail - bytes.length, hu, hbits, ?_⟩
  rw [h.exec_eq l, show s.bitsAvail + 1 = s.bitsAvail - bytes.length + 1 + bytes.length by omega]
  exact congrArg _ hloop

end Decoded

/-- Settles O47: after the codes of the bytes the loop stops at EOB's code, or at the limit. -/
theorem hdecWritesTheDecodedSymbols : Obligations.HdecWritesTheDecodedSymbols := by
  intro s l bytes rest hinv hdec hin hdst hvalid hapart hfit
  have h : HdecReady s := ⟨hinv.brLeft_le, hdec, hvalid, hin, hdst, hapart⟩
  refine ⟨fun hcodes hlimit => ?_, fun hcodes hl hlimit => ?_⟩
  · obtain ⟨mid, hbytes, n, heob, rfl⟩ := codesOf_append.mp hcodes
    obtain ⟨u, turns, hu, rfl, hexec⟩ := h.run l hbytes hfit fun hl => Nat.le_of_lt (hlimit hl)
    obtain ⟨htables, hleft, hmem, hcodeAt⟩ := h.of_decoded hu
    obtain ⟨w, hdecode, hread⟩ := decodeSymbol_of_codeAt htables hleft hmem (n := n) (sym := 256) (by rwa [hcodeAt])
    have hbits := bitsRead_unreadBits hread
    obtain ⟨c, hc, hwrote⟩ := h.decoded_of_bitsRead hu hfit hread
    rw [hbits] at hc
    refine ⟨c, w, hc, hwrote, hbits, ?_⟩
    rw [hexec, decodeLoop, if_neg (hdecLimit_ne hlimit), hdecode]
    rfl
  · obtain ⟨u, turns, hu, rfl, hexec⟩ := h.run l hcodes hfit fun _ => Nat.le_of_eq hlimit
    obtain ⟨c, hc, hwrote⟩ := hu
    refine ⟨c, u, hc, hwrote, rfl, ?_⟩
    rw [hexec, decodeLoop, if_pos (by rw [hl, hlimit]; rfl)]
    rfl

/-- A run-time error of HDEC leaves the destination and the input cursor drawn within the bounds of R263. -/
theorem drawInCursor_drawDst_drawn {s : State} (hin : Claims.inInMem s) :
    Claims.inStreamDrawn s s.dstCap.toNat (drawInCursor (drawDst s)) := by
  have hdst := drawDst_frame s
  have hptr : (drawDst s).inPtr = s.inPtr := by rw [hdst]
  have hinEnd : (drawDst s).inEnd = s.inEnd := by rw [hdst]
  have hin' : Claims.inInMem (drawDst s) := by rw [hdst]; exact hin
  obtain ⟨hframe, hstart, hend, hleft, _⟩ := drawInCursor_drawn hin'
  rw [hptr] at hstart
  rw [hinEnd] at hend
  exact ⟨by rw [hframe, hdst], hstart, hend, hleft, fun a ha => drawDst_byteAt s ha⟩

/-- Settles O48: after the codes of the bytes the loop stops at the end of the stream, or at a byte past the destination. -/
theorem hdecStopsAtAnEndOfStreamOrAFullDestination : Obligations.HdecStopsAtAnEndOfStreamOrAFullDestination := by
  intro s l bytes rest hinv hdec hin hdst hvalid hapart hcodes
  have h : HdecReady s := ⟨hinv.brLeft_le, hdec, hvalid, hin, hdst, hapart⟩
  refine ⟨fun hfit hlimit hnone => ?_, fun hlen hlimit => ?_⟩ <;> refine ⟨_, drawInCursor_drawDst_drawn hin, ?_⟩
  · obtain ⟨u, turns, hu, rfl, hexec⟩ := h.run l hcodes hfit fun hl => Nat.le_of_lt (hlimit hl)
    obtain ⟨htables, hleft, hmem, hcodeAt⟩ := h.of_decoded hu
    have hdecode := decodeSymbol_of_no_code htables hleft hmem (by rwa [hcodeAt])
    rw [hexec, decodeLoop, if_neg (hdecLimit_ne hlimit), hdecode]
    rfl
  · obtain ⟨init, b, rfl⟩ : ∃ init b, bytes = init ++ [b] := by
      rcases List.eq_nil_or_concat bytes with rfl | ⟨init, b, hconcat⟩
      · cases hlen
      · exact ⟨init, b, by rw [hconcat, List.concat_eq_append]⟩
    have hcap : init.length = s.dstCap.toNat := by simpa using hlen
    rw [← hcap] at hlimit
    rw [List.map_append] at hcodes
    obtain ⟨mid, hinit, n, hat, _⟩ := codesOf_append.mp hcodes
    obtain ⟨u, turns, hu, rfl, hexec⟩ := h.run l hinit (Nat.le_of_eq hcap) fun hl => Nat.le_of_lt (hlimit hl)
    obtain ⟨htables, hleft, hmem, hcodeAt⟩ := h.of_decoded hu
    obtain ⟨w, hdecode, hread⟩ := decodeSymbol_of_codeAt htables hleft hmem (n := n) (sym := b.toNat) (by rwa [hcodeAt])
    have hw := h.decoded_of_bitsRead hu (Nat.le_of_eq hcap) hread
    have hfull : init.length = w.dstCap.toNat := by rw [hw.frame]; exact hcap
    rw [hexec, decodeLoop_of_byte (hdecLimit_ne hlimit) hdecode, if_pos hfull]
    rfl

end Sys2Proof.Machine
end

section
/-! ## PROOFS. The statements of `43_predictive.md`: what DELTA_ENC and DELTA_DEC write (R200, R201), and that each undoes the other (R202). -/

namespace Sys2Proof.Machine

/-! ### The two transforms (R200 to R202) -/

theorem byte_add_sub_cancel (a b : Byte) : a + (b - a) = b := by
  rw [BitVec.add_comm, BitVec.sub_add_cancel]

theorem byte_add_sub_cancel_left (a b : Byte) : a + b - a = b := by
  rw [BitVec.add_comm, BitVec.add_sub_cancel]

theorem deltaDecode_deltaEncode (prev : Byte) (bs : List Byte) : deltaDecode prev (deltaEncode prev bs) = bs := by
  induction bs generalizing prev with
  | nil => rfl
  | cons b bs ih => rw [deltaEncode, deltaDecode, byte_add_sub_cancel, ih]

theorem deltaEncode_deltaDecode (prev : Byte) (bs : List Byte) : deltaEncode prev (deltaDecode prev bs) = bs := by
  induction bs generalizing prev with
  | nil => rfl
  | cons b bs ih => rw [deltaDecode, deltaEncode, byte_add_sub_cancel_left, ih]

theorem deltaEncode_getD (prev : Byte) {bs : List Byte} {i : Nat} (hi : i < bs.length) :
    (deltaEncode prev bs).getD i 0 = bs.getD i 0 - if i = 0 then prev else bs.getD (i - 1) 0 := by
  induction bs generalizing prev i with
  | nil => exact absurd hi (Nat.not_lt_zero i)
  | cons b bs ih =>
    match i with
    | 0 => rfl
    | 1 => exact ih b (Nat.lt_of_succ_lt_succ hi)
    | i + 2 => exact ih b (Nat.lt_of_succ_lt_succ hi)

/-- The running sum is read off the differences of DELTA_DEC's output, which are its input. -/
theorem deltaDecode_getD (prev : Byte) {bs : List Byte} {i : Nat} (hi : i < bs.length) :
    (deltaDecode prev bs).getD i 0 = (if i = 0 then prev else (deltaDecode prev bs).getD (i - 1) 0) + bs.getD i 0 := by
  have hdiff := deltaEncode_getD prev (bs := deltaDecode prev bs) (by rwa [deltaDecode_length])
  rw [deltaEncode_deltaDecode] at hdiff
  rw [hdiff, byte_add_sub_cancel]

/-! ### Bytes written to a region of MEM -/

theorem bytesAt_getD (s : State) (a : Nat) {n i : Nat} (hi : i < n) : (s.bytesAt a n).getD i 0 = s.byteAt (a + i) := by
  have hlen : i < (s.bytesAt a n).length := by rwa [State.bytesAt_length]
  rw [List.getD_eq_getElem?_getD, List.getElem?_eq_getElem hlen, Option.getD_some, State.bytesAt_getElem]

theorem source_length (s : State) : (Claims.source s).length = s.srcLen.toNat := State.bytesAt_length ..

theorem byteAt_of_wrote {s u : State} {a i : Nat} {bs : List Byte} (hwrote : Claims.wrote s a bs u) (hi : i < bs.length) :
    u.byteAt (a + i) = bs.getD i 0 := by
  obtain ⟨_, hstored, _⟩ := hwrote
  rw [← bytesAt_getD u a hi, hstored]

theorem writeBytes_wrote {s : State} {a : Nat} {bs : List Byte} (h : a + bs.length ≤ s.memSize) :
    ∃ u, writeBytes a bs s = .ok u ∧ Claims.wrote s a bs u := by
  obtain ⟨u, hu⟩ := writeBytes_of_le a bs s h
  refine ⟨u, hu, writeBytes_frame hu, List.ext_getElem (State.bytesAt_length ..) fun i _ hi => ?_, fun b => writeBytes_byteAt_of_outside hu⟩
  rw [State.bytesAt_getElem, writeBytes_byteAt hu, if_pos (Nat.le_add_right a i), Nat.add_sub_cancel_left, List.getElem?_eq_getElem hi,
    Option.getD_some]

/-- The source of the next command, when one command has overwritten its source. -/
theorem source_succeed_of_wrote {s t : State} {bs : List Byte} (hwrote : Claims.wrote s s.src.toNat bs t)
    (hlen : bs.length = s.srcLen.toNat) (r : Word) : Claims.source (t.succeed r) = bs := by
  obtain ⟨hframe, hstored, _⟩ := hwrote
  have hsrc : t.src = s.src := by rw [hframe]
  have hsrcLen : t.srcLen = s.srcLen := by rw [hframe]
  change t.bytesAt t.src.toNat t.srcLen.toNat = bs
  rw [hsrc, hsrcLen, ← hlen, hstored]

/-- What one command wrote to a region, and the next, writing the region's first bytes again, together change no byte. -/
theorem byteAt_of_wrote_back {s t u : State} {a n : Nat} {bs : List Byte} {r : Word} (hlen : bs.length = n) (hout : Claims.wrote s a bs t)
    (hback : Claims.wrote (t.succeed r) a (s.bytesAt a n) u) (b : Nat) : u.byteAt b = s.byteAt b := by
  by_cases hb : a ≤ b ∧ b < a + n
  · obtain ⟨i, rfl⟩ := Nat.exists_eq_add_of_le hb.1
    have hi : i < n := by omega
    rw [byteAt_of_wrote hback (by rwa [State.bytesAt_length]), bytesAt_getD s a hi]
  · obtain ⟨_, _, houtside⟩ := hout
    obtain ⟨_, _, hbackOutside⟩ := hback
    rw [hbackOutside b (by rwa [State.bytesAt_length]), State.succeed_byteAt, houtside b (by rwa [hlen])]

/-! ### The two commands (R200, R201) -/

theorem dstCheck_of_dstInMem {s : State} (h : Claims.dstInMem s) : (dstCheck s).ok = true := by
  simpa [dstCheck, State.inMem, Claims.dstInMem] using h

/-- What the pre-checks of DELTA_ENC and DELTA_DEC ask for. -/
structure DeltaReady (s : State) : Prop where
  srcMem : Claims.srcInMem s
  dstMem : Claims.dstInMem s
  fits : s.srcLen.toNat ≤ s.dstCap.toNat
  regions : s.dst = s.src ∨ Claims.apart s.src.toNat s.srcLen.toNat s.dst.toNat s.srcLen.toNat

namespace DeltaReady

variable {s t : State} {f g : List Byte → List Byte}

theorem firstFailing_deltaChecks (h : DeltaReady s) : firstFailing (deltaChecks s) = none := by
  have hregions : s.dst = s.src ∨ overlap s.src.toNat s.srcLen.toNat s.dst.toNat s.srcLen.toNat = false := by
    refine h.regions.imp_right fun hapart => ?_
    unfold Claims.apart at hapart
    simp only [overlap, Bool.and_eq_false_iff, decide_eq_false_iff_not]
    omega
  rw [firstFailing_eq_none]
  simp [deltaChecks, srcCheck_of_srcInMem h.srcMem, dstCheck_of_dstInMem h.dstMem, h.fits, hregions]

/-- Either command, its operands admitted, writes its transform of the source from DST on. -/
theorem run (h : DeltaReady s) (hlen : ∀ bs, (f bs).length = bs.length) :
    ∃ t, Claims.wrote s s.dst.toNat (f (Claims.source s)) t
      ∧ withChecks s (deltaChecks s) (transformSource f) = .next (t.succeed s.srcLen) := by
  have hroom : s.dst.toNat + (f (Claims.source s)).length ≤ s.memSize := by
    have hdst : s.dst.toNat + s.dstCap.toNat ≤ s.memSize := h.dstMem
    have hfits := h.fits
    rw [hlen, source_length]
    omega
  obtain ⟨t, ht, hwrote⟩ := writeBytes_wrote hroom
  refine ⟨t, hwrote, ?_⟩
  rw [withChecks_of_pass s _ _ h.firstFailing_deltaChecks, transformSource, snapshot_of_le _ _ s h.srcMem]
  change conclude s ((writeBytes s.dst.toNat (f (Claims.source s)) s).map _) = _
  rw [ht]
  rfl

/-- `run`, byte by byte. -/
theorem run_bytes (h : DeltaReady s) (hlen : ∀ bs, (f bs).length = bs.length) :
    ∃ t : State, withChecks s (deltaChecks s) (transformSource f) = .next (t.succeed s.srcLen) ∧ t = { s with mem := t.mem }
      ∧ (∀ i, i < s.srcLen.toNat → t.byteAt (s.dst.toNat + i) = (f (Claims.source s)).getD i 0)
      ∧ ∀ a, ¬ (s.dst.toNat ≤ a ∧ a < s.dst.toNat + s.srcLen.toNat) → t.byteAt a = s.byteAt a := by
  obtain ⟨t, hwrote, hrun⟩ := h.run hlen
  have hcount : (f (Claims.source s)).length = s.srcLen.toNat := by rw [hlen, source_length]
  have ⟨hframe, _, houtside⟩ := hwrote
  exact ⟨t, hrun, hframe, fun i hi => byteAt_of_wrote hwrote (by rwa [hcount]), fun a ha => houtside a (by rwa [hcount])⟩

theorem of_wrote {a : Nat} {bs : List Byte} (h : DeltaReady s) (hwrote : Claims.wrote s a bs t) : DeltaReady (t.succeed s.srcLen) := by
  obtain ⟨hframe, _⟩ := hwrote
  rw [hframe]
  exact ⟨h.srcMem, h.dstMem, h.fits, h.regions⟩

/-- A transform in place, and then one that undoes it, restore MEM (R202). -/
theorem round_trip (h : DeltaReady s) (hplace : s.dst = s.src) (hf : ∀ bs, (f bs).length = bs.length)
    (hg : ∀ bs, (g bs).length = bs.length) (hundo : ∀ bs, g (f bs) = bs) :
    ∃ t u, withChecks s (deltaChecks s) (transformSource f) = .next t ∧ withChecks t (deltaChecks t) (transformSource g) = .next u
      ∧ t.errCode = .ok ∧ u.errCode = .ok ∧ ∀ a, u.byteAt a = s.byteAt a := by
  obtain ⟨t, hout, hrun⟩ := h.run hf
  obtain ⟨u, hback, hrun'⟩ := (h.of_wrote hout).run hg
  have hcount : (f (Claims.source s)).length = s.srcLen.toNat := by rw [hf, source_length]
  have hdst : (t.succeed s.srcLen).dst = s.src := by
    obtain ⟨hframe, _⟩ := hout
    rw [hframe, ← hplace]
    rfl
  rw [hplace] at hout
  rw [hdst, source_succeed_of_wrote hout hcount, hundo] at hback
  exact ⟨_, _, hrun, hrun', rfl, rfl, fun a => (State.succeed_byteAt ..).trans (byteAt_of_wrote_back hcount hout hback a)⟩

end DeltaReady

/-- Settles O49: `DeltaReady.run_bytes`, at the bytes of each transform. -/
theorem deltaCommandsWriteDifferencesAndSums : Obligations.DeltaCommandsWriteDifferencesAndSums := by
  intro s hsrc hdst hfits hregions src
  have h : DeltaReady s := ⟨hsrc, hdst, hfits, hregions⟩
  have hsource {i : Nat} (hi : i < s.srcLen.toNat) : (Claims.source s).getD i 0 = src i := bytesAt_getD s _ hi
  constructor
  · obtain ⟨t, hrun, hframe, hbytes, houtside⟩ := h.run_bytes (deltaEncode_length 0)
    refine ⟨t, hrun, hframe, fun i hi => ?_, houtside⟩
    rw [hbytes i hi, deltaEncode_getD 0 (by rwa [source_length]), hsource hi, hsource (i := i - 1) (by omega)]
  · obtain ⟨t, hrun, hframe, hbytes, houtside⟩ := h.run_bytes (deltaDecode_length 0)
    refine ⟨t, hrun, hframe, fun i hi => ?_, houtside⟩
    rw [hbytes i hi, deltaDecode_getD 0 (by rwa [source_length]), hbytes (i - 1) (by omega), hsource hi]

/-- Settles O50: `DeltaReady.round_trip`, at each transform and the one that undoes it. -/
theorem deltaTransformsAreInverse : Obligations.DeltaTransformsAreInverse := by
  refine ⟨fun bs => ⟨deltaDecode_deltaEncode 0 bs, deltaEncode_deltaDecode 0 bs, deltaEncode_length 0 bs, fun i => deltaEncode_getD 0⟩,
    fun s hdst hfits hplace => ?_⟩
  have hsrc : Claims.srcInMem s := by
    unfold Claims.srcInMem Claims.dstInMem at *
    rw [← hplace]
    omega
  have h : DeltaReady s := ⟨hsrc, hdst, hfits, .inl hplace⟩
  exact ⟨h.round_trip hplace (deltaEncode_length 0) (deltaDecode_length 0) (deltaDecode_deltaEncode 0),
    h.round_trip hplace (deltaDecode_length 0) (deltaEncode_length 0) (deltaEncode_deltaDecode 0)⟩

end Sys2Proof.Machine
end

section
/-! ## PROOFS. The statements of `44_rle.md`: the marker RLE_MARK chooses (R211, R215), what RLE_ENC and RLE_DEC write (R210, R212, R213), and that
RLE_DEC undoes RLE_ENC (R214). -/

namespace Sys2Proof.Machine

/-! ### Pieces and their decoding (R210, R213) -/

section Pieces

variable {m : Byte} {p : Claims.RlePiece} {pieces : List Claims.RlePiece}

theorem rleDecode_piece (hok : p.ok m) (rest : List Byte) :
    rleDecode m .scan (p.input m ++ rest) = (p.output m ++ (rleDecode m .scan rest).1, (rleDecode m .scan rest).2) := by
  cases p with
  | literal b =>
    have hb : b ≠ m := hok
    simp [Claims.RlePiece.input, Claims.RlePiece.output, rleDecode, hb]
  | pair f =>
    have hf : f.toNat ≤ 1 := hok
    simp [Claims.RlePiece.input, Claims.RlePiece.output, rleDecode, hf]
  | triple f v =>
    have hf : ¬ f.toNat ≤ 1 := Nat.not_le_of_gt hok
    simp [Claims.RlePiece.input, Claims.RlePiece.output, rleDecode, hf]

theorem rleDecode_pieces (hok : ∀ p ∈ pieces, p.ok m) (tail : List Byte) :
    rleDecode m .scan (pieces.flatMap (·.input m) ++ tail)
      = (pieces.flatMap (·.output m) ++ (rleDecode m .scan tail).1, (rleDecode m .scan tail).2) := by
  induction pieces with
  | nil => rfl
  | cons p pieces ih =>
    obtain ⟨hp, hpieces⟩ := List.forall_mem_cons.mp hok
    simp [rleDecode_piece hp, ih hpieces]

theorem piece_input_length_le (hok : p.ok m) : (p.input m).length ≤ 2 * (p.output m).length := by
  cases p with
  | literal b => exact Nat.le_succ 1
  | pair f =>
    simp only [Claims.RlePiece.input, Claims.RlePiece.output, List.length_cons, List.length_nil, List.length_replicate]
    omega
  | triple f v =>
    have hf : 2 ≤ f.toNat := hok
    simp only [Claims.RlePiece.input, Claims.RlePiece.output, List.length_cons, List.length_nil, List.length_replicate]
    omega

theorem pieces_input_length_le (hok : ∀ p ∈ pieces, p.ok m) :
    (pieces.flatMap (·.input m)).length ≤ 2 * (pieces.flatMap (·.output m)).length := by
  induction pieces with
  | nil => exact Nat.le_refl 0
  | cons p pieces ih =>
    obtain ⟨hp, hpieces⟩ := List.forall_mem_cons.mp hok
    have hhead := piece_input_length_le hp
    have htail := ih hpieces
    simp only [List.flatMap_cons, List.length_append]
    omega

end Pieces

/-! ### The output of RLE_ENC in pieces (R212, R214) -/

/-- The pieces that one encoding run of `c` bytes `v` is written as. -/
def runPieces (m v : Byte) (c : Nat) : List Claims.RlePiece :=
  if 3 ≤ c then [.triple (toByte (c - 1)) v]
  else if v = m then [.pair (toByte (c - 1))]
  else List.replicate c (.literal v)

section Encoding

variable {m v : Byte} {c : Nat}

theorem runPieces_input : (runPieces m v c).flatMap (·.input m) = encodeRun m v c := by
  unfold runPieces encodeRun
  split
  · rfl
  · split
    · rfl
    · simp [Claims.RlePiece.input, List.flatMap_replicate]

theorem runPieces_ok (hc : c ≤ 256) : ∀ p ∈ runPieces m v c, p.ok m := by
  have hcount : (toByte (c - 1)).toNat = c - 1 := toByte_toNat (by omega)
  unfold runPieces
  split
  · exact List.forall_mem_singleton.mpr (show 2 ≤ (toByte (c - 1)).toNat by omega)
  · split
    · exact List.forall_mem_singleton.mpr (show (toByte (c - 1)).toNat ≤ 1 by omega)
    · simp [Claims.RlePiece.ok, *]

theorem runPieces_output (hc : 1 ≤ c) (hc' : c ≤ 256) : (runPieces m v c).flatMap (·.output m) = List.replicate c v := by
  have hcount : (toByte (c - 1)).toNat + 1 = c := by rw [toByte_toNat (by omega), Nat.sub_add_cancel hc]
  unfold runPieces
  split
  · simp [Claims.RlePiece.output, hcount]
  · split
    · simp [Claims.RlePiece.output, *]
    · simp [Claims.RlePiece.output, List.flatMap_replicate]

theorem leading_le (v : Byte) (most : Nat) (bs : List Byte) : leading v most bs ≤ most := by
  fun_induction leading v most bs <;> omega

theorem replicate_leading_append (v : Byte) (most : Nat) (bs : List Byte) :
    List.replicate (leading v most bs) v ++ bs.drop (leading v most bs) = bs := by
  fun_induction leading v most bs with
  | case1 most bs ih => simp [List.replicate_succ, ih]
  | _ => simp

/-- The loop of RLE_ENC writes pieces of the format, which decode to its input. -/
theorem exists_pieces_of_rleEncodeTurns (m : Byte) {turns : Nat} {bs : List Byte} (hturns : bs.length ≤ turns) :
    ∃ pieces : List Claims.RlePiece, (∀ p ∈ pieces, p.ok m) ∧ pieces.flatMap (·.input m) = rleEncodeTurns m turns bs
      ∧ pieces.flatMap (·.output m) = bs := by
  fun_induction rleEncodeTurns m turns bs with
  | case1 turns v rest more ih =>
    have hmore : more ≤ 255 := leading_le v 255 rest
    have hrest : (rest.drop more).length ≤ turns := by
      rw [List.length_drop]
      exact Nat.le_trans (Nat.sub_le ..) (Nat.le_of_succ_le_succ hturns)
    obtain ⟨pieces, hok, hinput, houtput⟩ := ih hrest
    refine ⟨runPieces m v (more + 1) ++ pieces, ?_, ?_, ?_⟩
    · exact List.forall_mem_append.mpr ⟨runPieces_ok (by omega), hok⟩
    · rw [List.flatMap_append, runPieces_input, hinput]
    · rw [List.flatMap_append, runPieces_output (by omega) (by omega), houtput, List.replicate_succ, List.cons_append,
        replicate_leading_append]
  | case2 => exact ⟨[], by simp, rfl, rfl⟩
  | case3 bs => exact ⟨[], by simp, rfl, (List.length_eq_zero_iff.mp (Nat.le_zero.mp hturns)).symm⟩

theorem exists_pieces_of_rleEncode (m : Byte) (bs : List Byte) :
    ∃ pieces : List Claims.RlePiece, (∀ p ∈ pieces, p.ok m) ∧ pieces.flatMap (·.input m) = rleEncode m bs
      ∧ pieces.flatMap (·.output m) = bs :=
  exists_pieces_of_rleEncodeTurns m (Nat.le_refl _)

theorem rleDecode_rleEncode (m : Byte) (bs : List Byte) : rleDecode m .scan (rleEncode m bs) = (bs, .scan) := by
  obtain ⟨pieces, hok, hinput, houtput⟩ := exists_pieces_of_rleEncode m bs
  have hdecode := rleDecode_pieces hok []
  rw [List.append_nil, hinput, houtput] at hdecode
  rw [hdecode]
  simp [rleDecode]

theorem rleEncode_length_le (m : Byte) (bs : List Byte) : (rleEncode m bs).length ≤ 2 * bs.length := by
  obtain ⟨pieces, hok, hinput, houtput⟩ := exists_pieces_of_rleEncode m bs
  have hlen := pieces_input_length_le hok
  rwa [hinput, houtput] at hlen

end Encoding

/-! ### Encoding runs (R210, R212) -/

section Runs

variable {v : Byte} {c : Nat}

/-- The bytes that a list of runs stands for. -/
def runsBytes (runs : List (Byte × Nat)) : List Byte := runs.flatMap fun r => List.replicate r.2 r.1

theorem runsBytes_cons (v : Byte) (c : Nat) (runs : List (Byte × Nat)) :
    runsBytes ((v, c) :: runs) = List.replicate c v ++ runsBytes runs := rfl

theorem encodingRuns_pos {runs : List (Byte × Nat)} (h : Claims.encodingRuns ((v, c) :: runs)) : 1 ≤ c := by
  cases runs with
  | nil => exact h.1
  | cons r runs => exact h.1

/-- An encoding run ends at 256 bytes or where its byte does (R210). -/
theorem encodingRuns_cons {runs : List (Byte × Nat)} (h : Claims.encodingRuns ((v, c) :: runs)) :
    c ≤ 256 ∧ ((runsBytes runs).head? = some v → c = 256) ∧ Claims.encodingRuns runs := by
  match runs with
  | [] => exact ⟨h.2, (fun hhead => nomatch hhead), trivial⟩
  | (v', c') :: runs =>
    obtain ⟨_, hle, hcut, hruns⟩ := h
    refine ⟨hle, fun hhead => hcut.resolve_left fun hne => hne ?_, hruns⟩
    obtain ⟨k, rfl⟩ := Nat.exists_eq_add_of_le' (encodingRuns_pos hruns)
    exact (Option.some.inj hhead).symm

/-- The bytes of a run are counted up to the limit or to a byte that differs. -/
theorem leading_replicate_append {more most : Nat} {rest : List Byte} (hle : more ≤ most) (hend : rest.head? = some v → more = most) :
    leading v most (List.replicate more v ++ rest) = more := by
  induction more generalizing most with
  | zero =>
    match most, rest with
    | 0, _ => simp [leading]
    | _ + 1, [] => rfl
    | most + 1, b :: rest =>
      have hb : b ≠ v := by rintro rfl; cases hend rfl
      simp [leading, hb]
  | succ more ih =>
    obtain ⟨most, rfl⟩ := Nat.exists_eq_add_of_le' (Nat.one_le_of_lt hle)
    have hcount := ih (most := most) (by omega) fun hhead => by have := hend hhead; omega
    simp [List.replicate_succ, leading, hcount]

/-- The loop of RLE_ENC cuts the encoding runs of its input and writes their escapes. -/
theorem rleEncodeTurns_of_encodingRuns (m : Byte) {runs : List (Byte × Nat)} (hruns : Claims.encodingRuns runs) {turns : Nat}
    (hturns : (runsBytes runs).length ≤ turns) : rleEncodeTurns m turns (runsBytes runs) = runs.flatMap (Claims.escapeOf m) := by
  induction runs generalizing turns with
  | nil => cases turns <;> rfl
  | cons r runs ih =>
    obtain ⟨v, c⟩ := r
    obtain ⟨hle, hend, hrest⟩ := encodingRuns_cons hruns
    obtain ⟨more, rfl⟩ := Nat.exists_eq_add_of_le' (encodingRuns_pos hruns)
    rw [runsBytes_cons, List.length_append, List.length_replicate] at hturns
    obtain ⟨turns, rfl⟩ := Nat.exists_eq_add_of_le' (show 1 ≤ turns by omega)
    have hmore : leading v 255 (List.replicate more v ++ runsBytes runs) = more :=
      leading_replicate_append (by omega) fun hhead => by have := hend hhead; omega
    rw [runsBytes_cons, List.replicate_succ, List.cons_append, rleEncodeTurns, hmore, List.drop_left' List.length_replicate,
      ih hrest (by omega)]
    rfl

theorem rleEncode_of_encodingRuns (m : Byte) {runs : List (Byte × Nat)} (hruns : Claims.encodingRuns runs) :
    rleEncode m (runs.flatMap fun r => List.replicate r.2 r.1) = runs.flatMap (Claims.escapeOf m) :=
  rleEncodeTurns_of_encodingRuns m hruns (Nat.le_refl _)

end Runs

/-! ### RLE_ENC and RLE_DEC, their operands admitted (R212, R213) -/

theorem drawDst_drawn (s : State) : Claims.dstDrawn s (drawDst s) := ⟨drawDst_frame s, fun _ => drawDst_byteAt s⟩

/-- What the pre-checks of RLE_ENC and RLE_DEC ask for. -/
structure RleReady (s : State) : Prop where
  srcMem : Claims.srcInMem s
  dstMem : Claims.dstInMem s
  regions : Claims.apart s.src.toNat s.srcLen.toNat s.dst.toNat s.dstCap.toNat

section Commands

variable {s t : State} {out : List Byte} {late : Option Stop}

theorem disjointCheck_ok_iff {a n b m : Nat} : (disjointCheck a n b m).ok = true ↔ Claims.apart a n b m := by
  simp only [disjointCheck, overlap, Claims.apart, Bool.not_eq_true', Bool.and_eq_false_iff, decide_eq_false_iff_not]
  omega

theorem firstFailing_rleChecks : firstFailing (rleChecks s) = none ↔ RleReady s := by
  rw [firstFailing_eq_none]
  refine ⟨fun h => ⟨srcInMem_of_srcCheck (h _ (by simp [rleChecks])), dstInMem_of_dstCheck (h _ (by simp [rleChecks])),
    disjointCheck_ok_iff.mp (h _ (by simp [rleChecks]))⟩, fun h => ?_⟩
  simp [rleChecks, srcCheck_of_srcInMem h.srcMem, dstCheck_of_dstInMem h.dstMem, disjointCheck_ok_iff.mpr h.regions]

theorem RleReady.exec_rleEnc (h : RleReady s) :
    exec .rleEnc s = conclude (drawDst s) (outputBytes (rleEncode s.marker (Claims.source s)) none s) := by
  rw [exec, execRleEnc, withChecks_of_pass s _ _ (firstFailing_rleChecks.mpr h), snapshot_of_le _ _ s h.srcMem]
  rfl

theorem RleReady.exec_rleDec (h : RleReady s) :
    exec .rleDec s = conclude (drawDst s) (outputBytes (rleDecode s.marker .scan (Claims.source s)).1
      (escapeError (rleDecode s.marker .scan (Claims.source s)).2) s) := by
  rw [exec, execRleDec, withChecks_of_pass s _ _ (firstFailing_rleChecks.mpr h), snapshot_of_le _ _ s h.srcMem]
  rfl

theorem conclude_outputBytes_of_fits (hdst : Claims.dstInMem s) (hfits : out.length ≤ s.dstCap.toNat) :
    ∃ u, Claims.wrote s s.dst.toNat out u
      ∧ conclude (drawDst s) (outputBytes out none s) = .next (u.succeed (toWord out.length)) := by
  obtain ⟨u, hu, hwrote⟩ := writeBytes_wrote (s := s) (Nat.le_trans (Nat.add_le_add_left hfits s.dst.toNat) hdst)
  refine ⟨u, hwrote, ?_⟩
  rw [outputBytes, if_neg (Nat.not_lt_of_le hfits), hu]
  rfl

theorem conclude_outputBytes_of_late {code : ErrCode} {info : Word} (hfits : out.length ≤ s.dstCap.toNat) :
    ∃ u, Claims.dstDrawn s u
      ∧ conclude (drawDst s) (outputBytes out (some (.raise code info)) s) = .next (u.fail code info) := by
  refine ⟨_, drawDst_drawn s, ?_⟩
  rw [outputBytes, if_neg (Nat.not_lt_of_le hfits), conclude_raise]

theorem conclude_outputBytes_of_overflow (hover : s.dstCap.toNat < out.length) :
    ∃ u, Claims.dstDrawn s u ∧ conclude (drawDst s) (outputBytes out late s) = .next (u.fail .overflow 2) := by
  refine ⟨_, drawDst_drawn s, ?_⟩
  simp [outputBytes, hover]

theorem code_ne_ok_of_mem_rleChecks {c : Check} (hc : c ∈ rleChecks s) : c.code ≠ .ok := by
  simp only [rleChecks, List.mem_cons, List.not_mem_nil, or_false] at hc
  rcases hc with rfl | rfl | rfl <;> exact nofun

/-- What an RLE_ENC without an error leaves for RLE_DEC. -/
theorem rleEnc_of_errCode_ok (hexec : exec .rleEnc s = .next t) (hok : t.errCode = .ok) :
    Claims.dstInMem s ∧ t.memSize = s.memSize ∧ t.marker = s.marker ∧ t.result.toNat ≤ s.dstCap.toNat
      ∧ t.bytesAt s.dst.toNat t.result.toNat = rleEncode s.marker (Claims.source s) := by
  cases hchecks : firstFailing (rleChecks s) with
  | some failure =>
    rw [exec, execRleEnc, withChecks_of_fail s _ _ _ _ hchecks] at hexec
    cases hexec
    obtain ⟨pre, c, post, hsplit, _, _, hcode, _⟩ := firstFailing_eq_some _ _ _ hchecks
    exact absurd (hcode.trans hok) (code_ne_ok_of_mem_rleChecks (s := s) (by simp [hsplit]))
  | none =>
    have h : RleReady s := firstFailing_rleChecks.mp hchecks
    rw [h.exec_rleEnc] at hexec
    rcases Nat.lt_or_ge s.dstCap.toNat (rleEncode s.marker (Claims.source s)).length with hover | hfits
    · obtain ⟨u, _, hrun⟩ := conclude_outputBytes_of_overflow (late := none) hover
      cases hexec.symm.trans hrun
      cases hok
    · obtain ⟨u, ⟨hframe, hstored, _⟩, hrun⟩ := conclude_outputBytes_of_fits h.dstMem hfits
      cases hexec.symm.trans hrun
      rw [State.succeed_result, toWord_toNat (Nat.lt_of_le_of_lt hfits s.dstCap.isLt)]
      exact ⟨h.dstMem, by rw [hframe]; rfl, by rw [hframe]; rfl, hfits, hstored⟩

/-- RLE_DEC of an encoding writes what was encoded (R214). -/
theorem RleReady.rleDec_of_encoding (h : RleReady s) {bs : List Byte} (hsource : Claims.source s = rleEncode s.marker bs)
    (hroom : bs.length ≤ s.dstCap.toNat) :
    ∃ u, Claims.wrote s s.dst.toNat bs u ∧ exec .rleDec s = .next (u.succeed (toWord bs.length)) := by
  rw [h.exec_rleDec, hsource, rleDecode_rleEncode]
  exact conclude_outputBytes_of_fits h.dstMem hroom

end Commands

/-- Settles O52: the loop of RLE_ENC writes the escapes of the encoding runs. -/
theorem rleEncWritesTheEscapesOfTheRuns : Obligations.RleEncWritesTheEscapesOfTheRuns := by
  intro s runs hsrc hdst hapart hruns hsource out
  have h : RleReady s := ⟨hsrc, hdst, hapart⟩
  rw [h.exec_rleEnc, hsource, rleEncode_of_encodingRuns s.marker hruns]
  exact ⟨conclude_outputBytes_of_fits hdst, conclude_outputBytes_of_overflow⟩

/-- Settles O53: the pieces are decoded one by one, and the tail says in which state the input ends. -/
theorem rleDecWritesWhatThePiecesDecodeTo : Obligations.RleDecWritesWhatThePiecesDecodeTo := by
  intro s pieces tail hsrc hdst hapart hok hsource out
  have h : RleReady s := ⟨hsrc, hdst, hapart⟩
  rw [h.exec_rleDec, hsource, rleDecode_pieces hok]
  refine ⟨?_, ?_, ?_, fun hover => conclude_outputBytes_of_overflow ?_⟩
  · rintro rfl hfits
    rw [rleDecode, List.append_nil]
    exact conclude_outputBytes_of_fits hdst hfits
  · rintro rfl hfits
    have hend : rleDecode s.marker .scan [s.marker] = ([], .count) := by simp [rleDecode]
    rw [hend, List.append_nil]
    exact conclude_outputBytes_of_late hfits
  · rintro f rfl hf hfits
    have hend : rleDecode s.marker .scan [s.marker, f] = ([], .symbol f.toNat) := by simp [rleDecode, Nat.not_le_of_gt hf]
    rw [hend, List.append_nil]
    exact conclude_outputBytes_of_late hfits
  · rw [List.length_append]
    exact Nat.lt_of_lt_of_le hover (Nat.le_add_right ..)

/-- Settles O54: an encoding consists of pieces that decode to its input, and RLE_DEC finds it where RLE_ENC wrote it. -/
theorem rleDecoderUndoesTheEncoder : Obligations.RleDecoderUndoesTheEncoder := by
  refine ⟨fun m bs => ⟨rleDecode_rleEncode m bs, rleEncode_length_le m bs⟩, fun s t d cap hexec hok hcap hmem hapart => ?_⟩
  obtain ⟨hdst, hsize, hmarker, hfits, hstored⟩ := rleEnc_of_errCode_ok hexec hok
  have hsrcMem : s.dst.toNat + t.result.toNat ≤ t.memSize := by
    rw [hsize]
    exact Nat.le_trans (Nat.add_le_add_left hfits _) hdst
  rw [← hsize] at hmem
  rw [← hmarker] at hstored
  have hready : RleReady { t with src := s.dst, srcLen := t.result, dst := d, dstCap := cap } := ⟨hsrcMem, hmem, hapart⟩
  obtain ⟨u, ⟨_, hback, _⟩, hrun⟩ := hready.rleDec_of_encoding hstored (by rwa [source_length])
  rw [source_length] at hback hrun
  exact ⟨_, hrun, rfl, BitVec.ofNat_toNat .., hback⟩

/-! ### RLE_MARK (R211, R215) -/

/-- The byte before position `i` of a sequence, `prev` being the one before the sequence. -/
def byteBefore (prev : Option Byte) (bs : List Byte) : Nat → Option Byte
  | 0 => prev
  | i + 1 => bs[i]?

/-- Position `i` of a sequence is a maximal run of length 1 and value `v` (R211), `prev` being the byte before the sequence. -/
def singleAt (prev : Option Byte) (bs : List Byte) (v i : Nat) : Bool :=
  (bs[i]?.map BitVec.toNat == some v) && (byteBefore prev bs i != bs[i]?) && (bs[i + 1]? != bs[i]?)

theorem countP_singletons (prev : Option Byte) (bs : List Byte) (v : Nat) :
    (singletons prev bs).countP (fun b => b.toNat == v) = (List.range bs.length).countP (singleAt prev bs v) := by
  induction bs generalizing prev with
  | nil => rfl
  | cons b bs ih =>
    have hshift : singleAt prev (b :: bs) v ∘ Nat.succ = singleAt (some b) bs v := by
      funext i
      cases i <;> rfl
    have hhead : singleAt prev (b :: bs) v 0 = true ↔ b.toNat = v ∧ prev ≠ some b ∧ bs.head? ≠ some b := by
      simp [singleAt, byteBefore, and_assoc, List.head?_eq_getElem?]
    rw [List.length_cons, List.range_succ_eq_map, List.countP_cons, List.countP_map, hshift, ← ih, singletons]
    simp only [hhead]
    split
    next hsingle => simp [hsingle, List.countP_cons]
    next hsingle => simp [hsingle]

theorem singletonCount_eq_single (bs : List Byte) (v : Nat) : singletonCount bs v = Claims.single bs v := by
  rw [singletonCount, countP_singletons, Claims.single]
  refine List.countP_congr fun i hi => ?_
  have hlt : i < bs.length := List.mem_range.mp hi
  have hbefore : (byteBefore none bs i != bs[i]?) = (i == 0 || bs[i - 1]? != bs[i]?) := by
    cases i with
    | zero => simp [byteBefore, hlt]
    | succ i => rfl
  have hafter : (i + 1 == bs.length || bs[i + 1]? != bs[i]?) = (bs[i + 1]? != bs[i]?) := by
    by_cases hend : i + 1 = bs.length
    · simp [hend, hlt]
    · simp [hend]
  rw [singleAt, hbefore, hafter]

/-- `leastMarker` is the least of the values whose count is least. -/
theorem leastMarker_spec (bs : List Byte) (n : Nat) :
    leastMarker bs n ≤ n - 1 ∧ ∀ v < n, singletonCount bs (leastMarker bs n) ≤ singletonCount bs v
      ∧ (v < leastMarker bs n → singletonCount bs (leastMarker bs n) < singletonCount bs v) := by
  induction n with
  | zero => exact ⟨Nat.le_refl 0, fun v hv => absurd hv (Nat.not_lt_zero v)⟩
  | succ n ih =>
    obtain ⟨hle, hleast⟩ := ih
    rw [leastMarker]
    split
    next hless =>
      refine ⟨Nat.le_refl n, fun v hv => ?_⟩
      rcases Nat.lt_succ_iff_lt_or_eq.mp hv with hv | rfl
      · have hv' := (hleast v hv).1
        omega
      · omega
    next hless =>
      refine ⟨by omega, fun v hv => ?_⟩
      rcases Nat.lt_succ_iff_lt_or_eq.mp hv with hv | rfl
      · exact hleast v hv
      · omega

/-- Settles O51: the marker chosen is the least value whose count of singletons is least. -/
theorem rleMarkChoosesTheLeastSingleton : Obligations.RleMarkChoosesTheLeastSingleton := by
  intro s hsrc
  have hpass : firstFailing (rleMarkChecks s) = none := by
    rw [firstFailing_eq_none]
    simp [rleMarkChecks, srcCheck_of_srcInMem hsrc]
  obtain ⟨hle, hleast⟩ := leastMarker_spec (Claims.source s) 256
  have hvalue : (optimalMarker (Claims.source s)).toNat = leastMarker (Claims.source s) 256 := toByte_toNat (by omega)
  refine ⟨optimalMarker (Claims.source s), ?_, ?_⟩
  · rw [exec, execRleMark, withChecks_of_pass s _ _ hpass, snapshot_of_le _ _ s hsrc]
    rfl
  · simpa only [hvalue, ← singletonCount_eq_single] using hleast

end Sys2Proof.Machine
end

section
/-! ## PROOFS. The statements of `45_geometry.md`: the tiles that GEOM computes and how they cover an image (R232, R238), TILE_LOAD and
TILE_STORE (R233, R234), the orders of a tile (R235), and TILE_SER and TILE_DESER (R236, R237, R239). -/

namespace Sys2Proof.Machine

/-! ### Rows and columns -/

theorem lt_ceilDiv_iff {a b k : Nat} (hb : 1 ≤ b) : k < ceilDiv a b ↔ k * b < a := by
  have hle : ceilDiv a b ≤ k ↔ a ≤ b * k := ceilDiv_le_iff_le_mul hb
  rw [← not_le, hle, not_le, Nat.mul_comm]

theorem div_mod_of_row_col {w q a : Nat} (ha : a < w) : (q * w + a) / w = q ∧ (q * w + a) % w = a :=
  (Nat.div_mod_unique (Nat.zero_lt_of_lt ha)).mpr ⟨by rw [Nat.add_comm, Nat.mul_comm], ha⟩

/-- Counting row by row, an index has one row and one column. -/
theorem row_col_unique {w q q' a a' : Nat} (ha : a < w) (ha' : a' < w) (h : q * w + a = q' * w + a') : q = q' ∧ a = a' := by
  obtain ⟨hq, hmod⟩ := div_mod_of_row_col (q := q) ha
  obtain ⟨hq', hmod'⟩ := div_mod_of_row_col (q := q') ha'
  rw [← h] at hq' hmod'
  exact ⟨hq.symm.trans hq', hmod.symm.trans hmod'⟩

/-! ### The tiles of an image (R232, R238) -/

section Image

variable {n w t t' r r' c c' : Nat}

theorem lt_imageRows_iff (hw : 1 ≤ w) : r < imageRows n w ↔ r * w < n := lt_ceilDiv_iff hw

theorem tileShape_x_lt (ht : t < tileCount n w) : (tileShape n w t).x < w := by
  have hcol : t % tilesPerRow w < tilesPerRow w := Nat.mod_lt _ (Nat.pos_of_mul_pos_right (Nat.zero_lt_of_lt ht))
  have hx := (lt_ceilDiv_iff (by decide)).mp hcol
  rwa [Nat.mul_comm] at hx

theorem tileShape_y_lt (ht : t < tileCount n w) : (tileShape n w t).y < imageRows n w := by
  have hrow : t / tilesPerRow w < ceilDiv (imageRows n w) 16 := Nat.div_lt_of_lt_mul ht
  have hy := (lt_ceilDiv_iff (by decide)).mp hrow
  rwa [Nat.mul_comm] at hy

theorem tileShape_y_lt_size (hw : 1 ≤ w) (ht : t < tileCount n w) : (tileShape n w t).y < n :=
  Nat.lt_of_le_of_lt (Nat.le_mul_of_pos_right _ hw) ((lt_imageRows_iff hw).mp (tileShape_y_lt ht))

theorem tileShape_legal (ht : t < tileCount n w) :
    1 ≤ (tileShape n w t).tw ∧ (tileShape n w t).tw ≤ 16 ∧ 1 ≤ (tileShape n w t).th ∧ (tileShape n w t).th ≤ 16
      ∧ (tileShape n w t).tk ≤ (tileShape n w t).tw := by
  have hx := tileShape_x_lt ht
  have hy := tileShape_y_lt ht
  simp only [tileShape] at *
  split <;> omega

theorem tileShape_within_width (ht : t < tileCount n w) : (tileShape n w t).x + (tileShape n w t).tw ≤ w := by
  have hx := tileShape_x_lt ht
  simp only [tileShape] at *
  omega

/-- The valid positions of a tile are those of its 16 by 16 square that lie in the image: in its width and before its end. -/
theorem valid_tileShape_iff (hw : 1 ≤ w) (ht : t < tileCount n w) :
    Claims.valid (tileShape n w t).tw (tileShape n w t).th (tileShape n w t).tk r c
      ↔ r < 16 ∧ c < 16 ∧ (tileShape n w t).x + c < w ∧ ((tileShape n w t).y + r) * w + (tileShape n w t).x + c < n := by
  have hx := tileShape_x_lt ht
  have hrow : (tileShape n w t).y + r < imageRows n w ↔ _ := lt_imageRows_iff hw
  have hnext : (tileShape n w t).y + r + 1 < imageRows n w ↔ _ := lt_imageRows_iff hw
  rw [Nat.succ_mul] at hnext
  rcases Nat.lt_trichotomy ((tileShape n w t).y + r + 1) (imageRows n w) with hwhole | hlast | hbelow
  · simp only [tileShape, Claims.valid] at *
    split <;> omega
  · have hstart : (imageRows n w - 1) * w = ((tileShape n w t).y + r) * w := by rw [← hlast, Nat.add_sub_cancel]
    simp only [tileShape, Claims.valid] at *
    split <;> omega
  · simp only [tileShape, Claims.valid] at *
    omega

/-- A tile is empty exactly when its first position lies past the image's end. -/
theorem tileShape_samples_eq_zero_iff (hw : 1 ≤ w) (ht : t < tileCount n w) :
    (tileShape n w t).tw * ((tileShape n w t).th - 1) + (tileShape n w t).tk = 0
      ↔ n ≤ (tileShape n w t).y * w + (tileShape n w t).x := by
  have hx := tileShape_x_lt ht
  have hfirst := valid_tileShape_iff (r := 0) (c := 0) hw ht
  obtain ⟨htw, _, hth, _, _⟩ := tileShape_legal ht
  rw [Nat.add_eq_zero_iff, Nat.mul_eq_zero]
  simp only [Claims.valid, Nat.add_zero] at hfirst
  omega

/-- Tiles are counted along the rows of the image. -/
theorem tileShape_first_mono (ht : t < tileCount n w) (hlt : t < t') :
    (tileShape n w t).y * w + (tileShape n w t).x ≤ (tileShape n w t').y * w + (tileShape n w t').x := by
  have hx := tileShape_x_lt ht
  have hsplit : tilesPerRow w * (t / tilesPerRow w) + t % tilesPerRow w = t := Nat.div_add_mod ..
  have hsplit' : tilesPerRow w * (t' / tilesPerRow w) + t' % tilesPerRow w = t' := Nat.div_add_mod ..
  rcases Nat.eq_or_lt_of_le (Nat.div_le_div_right (c := tilesPerRow w) (Nat.le_of_lt hlt)) with hsame | hbelow
  · simp only [tileShape, hsame] at *
    omega
  · have hy : (tileShape n w t).y + 1 ≤ (tileShape n w t').y := by
      simp only [tileShape]
      omega
    have hrows := Nat.mul_le_mul_right w hy
    rw [Nat.succ_mul] at hrows
    omega

theorem exists_tile_of_lt {k : Nat} (hw : 1 ≤ w) (hk : k < n) :
    ∃ t r c, t < tileCount n w ∧ Claims.valid (tileShape n w t).tw (tileShape n w t).th (tileShape n w t).tk r c
      ∧ ((tileShape n w t).y + r) * w + (tileShape n w t).x + c = k := by
  have hcol : k % w < w := Nat.mod_lt _ hw
  have hindex : k / w * w + k % w = k := Nat.div_add_mod' ..
  have hrow : k / w < imageRows n w := (lt_imageRows_iff hw).mpr (by omega)
  have hj : k % w / 16 < tilesPerRow w := (lt_ceilDiv_iff (by decide)).mpr (by omega)
  have hi : k / w / 16 < ceilDiv (imageRows n w) 16 := (lt_ceilDiv_iff (by decide)).mpr (by omega)
  obtain ⟨t, hdiv, hmod⟩ : ∃ t, t / tilesPerRow w = k / w / 16 ∧ t % tilesPerRow w = k % w / 16 := ⟨_, div_mod_of_row_col hj⟩
  have hx : (tileShape n w t).x + k % w % 16 = k % w := by simp only [tileShape, hmod]; omega
  have hy : (tileShape n w t).y + k / w % 16 = k / w := by simp only [tileShape, hdiv]; omega
  have ht : t < tileCount n w := by
    rw [← hdiv, Nat.div_lt_iff_lt_mul (Nat.zero_lt_of_lt hj), Nat.mul_comm] at hi
    exact hi
  have hk' : ((tileShape n w t).y + k / w % 16) * w + (tileShape n w t).x + k % w % 16 = k := by rw [hy, Nat.add_assoc, hx, hindex]
  refine ⟨t, k / w % 16, k % w % 16, ht, (valid_tileShape_iff hw ht).mpr ⟨?_, ?_, ?_, ?_⟩, hk'⟩ <;> omega

theorem tile_position_unique (hw : 1 ≤ w) (ht : t < tileCount n w) (ht' : t' < tileCount n w)
    (hv : Claims.valid (tileShape n w t).tw (tileShape n w t).th (tileShape n w t).tk r c)
    (hv' : Claims.valid (tileShape n w t').tw (tileShape n w t').th (tileShape n w t').tk r' c')
    (h : ((tileShape n w t').y + r') * w + (tileShape n w t').x + c' = ((tileShape n w t).y + r) * w + (tileShape n w t).x + c) :
    t' = t ∧ r' = r ∧ c' = c := by
  obtain ⟨hr, hc, hcol, _⟩ := (valid_tileShape_iff hw ht).mp hv
  obtain ⟨hr', hc', hcol', _⟩ := (valid_tileShape_iff hw ht').mp hv'
  rw [Nat.add_assoc, Nat.add_assoc] at h
  obtain ⟨hy, hx⟩ := row_col_unique hcol' hcol h
  simp only [tileShape] at hx hy
  have hdiv : t' / tilesPerRow w = t / tilesPerRow w := by omega
  have hmod : t' % tilesPerRow w = t % tilesPerRow w := by omega
  refine ⟨?_, by omega, by omega⟩
  rw [← Nat.div_add_mod t' (tilesPerRow w), hdiv, hmod, Nat.div_add_mod]

end Image

/-- Settles O56: by `valid_tileShape_iff`, a tile's valid positions are the samples of the image in its square, and each sample's row and column
lie in one square; an empty tile starts past the last sample, and so does every tile after it. -/
theorem tilesPartitionTheImage : Obligations.TilesPartitionTheImage := by
  intro n w _ hw
  refine ⟨fun t ht => ⟨tileShape_within_width ht, fun t' hlt ht' hempty => ?_⟩, fun k => exists_tile_of_lt hw, fun t r c ht hv => ?_⟩
  · rw [tileShape_samples_eq_zero_iff hw ht] at hempty
    exact (tileShape_samples_eq_zero_iff hw ht').mpr (Nat.le_trans hempty (tileShape_first_mono ht hlt))
  · obtain ⟨_, _, _, hinside⟩ := (valid_tileShape_iff hw ht).mp hv
    exact ⟨hinside, fun t' r' c' ht' hv' => tile_position_unique hw ht ht' hv hv'⟩

/-! ### GEOM (R232) -/

theorem setTile_fields {s : State} {g : TileShape} (hx : g.x < 2 ^ 64) (hy : g.y < 2 ^ 64) (htw : g.tw < 32) (hth : g.th < 32)
    (htk : g.tk < 32) :
    (s.setTile g).tileX.toNat = g.x ∧ (s.setTile g).tileY.toNat = g.y ∧ (s.setTile g).tw.toNat = g.tw
      ∧ (s.setTile g).th.toNat = g.th ∧ (s.setTile g).tk.toNat = g.tk := by
  simp only [State.setTile, toWord, BitVec.toNat_ofNat]
  omega

/-- Settles O55: the shape that GEOM computes is that of `tileShape`, and each of its numbers fits its field. -/
theorem geomComputesTheTile : Obligations.GeomComputesTheTile := by
  intro s n w h tpr ntiles x y tw th tk hw ht
  change s.argN.toNat < tileCount n w at ht
  have hpass : firstFailing (geomChecks s) = none := by
    rw [firstFailing_eq_none]
    simp [geomChecks, ht, hw, n, w]
  have hlegal := tileShape_legal ht
  have hwidth := tileShape_within_width ht
  have hxlt := Nat.lt_trans (tileShape_x_lt ht) s.imgWidth.isLt
  have hylt := Nat.lt_trans (tileShape_y_lt_size hw ht) s.imgSize.isLt
  obtain ⟨hx, hy, htw, hth, htk⟩ :=
    setTile_fields (s := s) (g := tileShape n w s.argN.toNat) hxlt hylt (by omega) (by omega) (by omega)
  refine ⟨s.setTile (tileShape n w s.argN.toNat), ?_, rfl, hx, hy, htw, hth, htk, ?_, hwidth, ?_⟩
  · rw [exec, execGeom, withChecks_of_pass s _ _ hpass]
    rfl
  · rwa [Claims.shapeLegal, htw, hth, htk]
  · rw [State.tcnt, if_neg (by omega), htw, hth, htk]
    rfl

/-! ### The orders of a tile (R230, R235) -/

/-- Positions listed line by line, in each line those that `p` selects, stand in any order that lines and the places in a line follow. -/
theorem pairwise_flatMap_filter_map {α : Type} {n m : Nat} (p : Nat → Nat → Bool) (f : Nat → Nat → α) {R : α → α → Prop}
    (hline : ∀ i j j', j < j' → R (f i j) (f i j')) (hlines : ∀ i i' j j', i < i' → R (f i j) (f i' j')) :
    ((List.range n).flatMap fun i => ((List.range m).filter fun j => p i j).map fun j => f i j).Pairwise R := by
  refine List.pairwise_flatMap.mpr ⟨fun i _ => ?_, List.pairwise_lt_range.imp fun {i i'} hlt x hx y hy => ?_⟩
  · exact List.pairwise_map.mpr ((List.pairwise_lt_range.filter _).imp fun {j j'} => hline i j j')
  · obtain ⟨j, _, rfl⟩ := List.mem_map.mp hx
    obtain ⟨j', _, rfl⟩ := List.mem_map.mp hy
    exact hlines i i' j j' hlt

theorem tileOrder_sorted (s : State) (f : Bool) :
    (s.tileOrder f).Pairwise fun p q =>
      if f then p.2 < q.2 ∨ (p.2 = q.2 ∧ p.1 < q.1) else p.1 < q.1 ∨ (p.1 = q.1 ∧ p.2 < q.2) := by
  cases f with
  | false => exact pairwise_flatMap_filter_map s.validPos Prod.mk (fun _ _ _ h => .inr ⟨rfl, h⟩) fun _ _ _ _ h => .inl h
  | true =>
    exact pairwise_flatMap_filter_map (fun c r => s.validPos r c) (fun c r => (r, c)) (fun _ _ _ h => .inr ⟨rfl, h⟩)
      fun _ _ _ _ h => .inl h

section Tile

variable {s : State} {f : Bool} {p : Nat × Nat} {r c : Nat}

theorem lt_of_tileValid (h : Claims.shapeLegal s) (hv : Claims.tileValid s r c) : r < 16 ∧ c < s.tw.toNat ∧ c < 16 := by
  unfold Claims.shapeLegal Claims.tileValid Claims.valid at *
  omega

theorem mem_tileOrder_iff (h : Claims.shapeLegal s) : p ∈ s.tileOrder f ↔ Claims.tileValid s p.1 p.2 := by
  have hlisted : p ∈ s.tileOrder f ↔ p.1 < 16 ∧ p.2 < 16 ∧ s.validPos p.1 p.2 = true := by
    obtain ⟨r, c⟩ := p
    cases f <;> simp [State.tileOrder, State.rowMajor, State.transposed, and_assoc, and_left_comm]
  rw [hlisted, validPos_iff]
  refine ⟨fun hp => hp.2.2, fun hv => ?_⟩
  obtain ⟨hr, _, hc⟩ := lt_of_tileValid h hv
  exact ⟨hr, hc, hv⟩

theorem tileOrder_nodup (s : State) (f : Bool) : (s.tileOrder f).Nodup := by
  refine (tileOrder_sorted s f).imp ?_
  rintro p _ hlt rfl
  cases f <;> simp at hlt

theorem tileIndex_lt_of_mem (h : Claims.shapeLegal s) (hp : p ∈ s.tileOrder f) : tileIndex p < 256 := by
  obtain ⟨hr, _, hc⟩ := lt_of_tileValid h ((mem_tileOrder_iff h).mp hp)
  rw [tileIndex]
  omega

/-- The entries of TILE that an order names are distinct. -/
theorem tileOrder_map_tileIndex_nodup (h : Claims.shapeLegal s) (f : Bool) : ((s.tileOrder f).map tileIndex).Nodup := by
  refine (tileOrder_nodup s f).map_on fun p hp q hq heq => Prod.ext_iff.mpr ?_
  obtain ⟨_, _, hc⟩ := lt_of_tileValid h ((mem_tileOrder_iff h).mp hp)
  obtain ⟨_, _, hc'⟩ := lt_of_tileValid h ((mem_tileOrder_iff h).mp hq)
  unfold tileIndex at heq
  omega

end Tile

/-- Settles O58: the valid positions are counted row by row, and an order lists its lines, and the places in a line, from 0 up. -/
theorem tileOrdersListTheValidPositions : Obligations.TileOrdersListTheValidPositions :=
  fun s h f => ⟨tileOrder_length h f, fun _ => mem_tileOrder_iff h, tileOrder_sorted s f⟩

/-! ### TILE filled from a sequence (R233, R237) -/

section Fill

variable {ps : List (Nat × Nat)} {vs : List Byte} {tile : Vector Byte 256} {p : Nat × Nat} {v : Byte} {i j : Nat}

theorem tableGet_setPos_self (hp : tileIndex p < 256) : tableGet (setPos tile p v) (tileIndex p) = v := by
  simp [tableGet, setPos, hp]

theorem tableGet_setPos_ne (hi : i ≠ tileIndex p) : tableGet (setPos tile p v) i = tableGet tile i := by
  simp [tableGet, setPos, hi.symm]

theorem tableGet_zeroTile (i : Nat) : tableGet zeroTile i = 0 := by
  rw [tableGet, zeroTile, Vector.getElem?_replicate]
  split <;> rfl

theorem fillPositions_of_not_mem (hi : i ∉ ps.map tileIndex) : tableGet (fillPositions ps vs tile) i = tableGet tile i := by
  fun_induction fillPositions ps vs tile with
  | case1 p ps v vs tile ih =>
    rw [List.map_cons, List.mem_cons, not_or] at hi
    rw [ih hi.2, tableGet_setPos_ne hi.1]
  | case2 | case3 => rfl

/-- Where the positions are distinct entries of TILE, each takes its byte of the sequence. -/
theorem fillPositions_of_getElem (hnodup : (ps.map tileIndex).Nodup) (hps : ps[j]? = some p) (hvs : vs[j]? = some v)
    (hp : tileIndex p < 256) : tableGet (fillPositions ps vs tile) (tileIndex p) = v := by
  induction ps generalizing vs tile j with
  | nil => cases hps
  | cons q ps ih =>
    obtain ⟨hq, hrest⟩ := List.nodup_cons.mp hnodup
    cases vs with
    | nil => cases hvs
    | cons v' vs =>
      cases j with
      | zero =>
        cases hps
        cases hvs
        rw [fillPositions, fillPositions_of_not_mem hq, tableGet_setPos_self hp]
      | succ j => exact ih hrest hps hvs

theorem foldl_setPos_eq_fillPositions (g : Nat × Nat → Byte) :
    ps.foldl (fun tile p => setPos tile p (g p)) tile = fillPositions ps (ps.map g) tile := by
  induction ps generalizing tile with
  | nil => rfl
  | cons p ps ih => exact ih

end Fill

section Tile

variable {s : State} {f : Bool} {vs : List Byte}

theorem fill_tileOrder_of_getElem {j : Nat} {p : Nat × Nat} {v : Byte} (h : Claims.shapeLegal s) (hp : (s.tileOrder f)[j]? = some p)
    (hv : vs[j]? = some v) : tableGet (fillPositions (s.tileOrder f) vs zeroTile) (16 * p.1 + p.2) = v :=
  fillPositions_of_getElem (tileOrder_map_tileIndex_nodup h f) hp hv (tileIndex_lt_of_mem h (List.mem_of_getElem? hp))

theorem fill_tileOrder_of_not_valid {r c : Nat} (h : Claims.shapeLegal s) (hc : c < 16) (hv : ¬ Claims.tileValid s r c) :
    tableGet (fillPositions (s.tileOrder f) vs zeroTile) (16 * r + c) = 0 := by
  rw [fillPositions_of_not_mem]
  · exact tableGet_zeroTile _
  · intro hi
    obtain ⟨⟨r', c'⟩, hp, hi⟩ := List.mem_map.mp hi
    have hv' := (mem_tileOrder_iff h).mp hp
    obtain ⟨_, _, hc'⟩ := lt_of_tileValid h hv'
    unfold tileIndex at hi
    obtain rfl : r' = r := by omega
    obtain rfl : c' = c := by omega
    exact hv hv'

theorem shapeCheck_of_shapeLegal (h : Claims.shapeLegal s) : (shapeCheck s).ok = true := by
  simpa [shapeCheck, Claims.shapeLegal, and_assoc] using h

end Tile

/-! ### TILE_LOAD and TILE_STORE (R233, R234) -/

section Moves

variable {s : State}

theorem sampleAddr_lt_of_mem (hplaced : Claims.tilePlaced s) {p : Nat × Nat} (hp : p ∈ s.rowMajor) :
    s.sampleAddr p.1 p.2 < s.memSize :=
  hplaced.2 p.1 p.2 (tileValid_of_mem_rowMajor hp)

theorem firstFailing_tileMoveChecks (h : Claims.shapeLegal s) (hplaced : Claims.tilePlaced s) : firstFailing (tileMoveChecks s) = none := by
  rw [firstFailing_eq_none]
  have hmem : (tileMemCheck s).ok = true :=
    List.all_eq_true.mpr fun p hp => decide_eq_true (sampleAddr_lt_of_mem hplaced hp)
  have hwidth : (placementCheck s).ok = true := decide_eq_true hplaced.1
  simp [tileMoveChecks, shapeCheck_of_shapeLegal h, hwidth, hmem]

/-- No two valid positions have the same sample. -/
theorem rowMajor_map_sampleAddr_nodup (h : Claims.shapeLegal s) (hplaced : Claims.tilePlaced s) :
    ((s.tileOrder false).map fun p => s.sampleAddr p.1 p.2).Nodup := by
  refine (tileOrder_nodup s false).map_on fun p hp q hq heq => ?_
  obtain ⟨_, hc, _⟩ := lt_of_tileValid h ((mem_tileOrder_iff h).mp hp)
  obtain ⟨_, hc', _⟩ := lt_of_tileValid h ((mem_tileOrder_iff h).mp hq)
  obtain ⟨hwidth, _⟩ := hplaced
  have hindex : (s.tileY.toNat + p.1) * s.imgWidth.toNat + (s.tileX.toNat + p.2)
      = (s.tileY.toNat + q.1) * s.imgWidth.toNat + (s.tileX.toNat + q.2) := by
    unfold State.sampleAddr at heq
    omega
  obtain ⟨hr, hcol⟩ := row_col_unique (by omega) (by omega) hindex
  exact Prod.ext (Nat.add_left_cancel hr) (Nat.add_left_cancel hcol)

theorem storePositions_byteAt_of_mem {ps : List (Nat × Nat)} {t : State} (hstore : storePositions ps s = .ok t)
    (hnodup : (ps.map fun p => s.sampleAddr p.1 p.2).Nodup) {p : Nat × Nat} (hp : p ∈ ps) :
    t.byteAt (s.sampleAddr p.1 p.2) = tableGet s.tile (tileIndex p) := by
  induction ps generalizing s with
  | nil => cases hp
  | cons q ps ih =>
    obtain ⟨u, hu, ht⟩ := bind_eq_ok_iff.mp hstore
    obtain ⟨_, rfl⟩ := memWrite_ok hu
    obtain ⟨hq, hrest⟩ := List.nodup_cons.mp hnodup
    rcases List.mem_cons.mp hp with rfl | hp
    · rw [storePositions_byteAt ht fun p' hp' heq => hq (List.mem_map.mpr ⟨p', hp', heq.symm⟩), State.byteAt_setByte_self]
    · exact (ih ht hrest hp :)

end Moves

/-- Settles O57: the entries of TILE that TILE_LOAD sets are distinct, and so are the addresses that TILE_STORE writes. -/
theorem tileLoadAndStoreMoveTheValidSamples : Obligations.TileLoadAndStoreMoveTheValidSamples := by
  intro s h hplaced addr
  have hpass := firstFailing_tileMoveChecks h hplaced
  have haddr : ∀ p ∈ s.rowMajor, s.sampleAddr p.1 p.2 < s.memSize := fun p => sampleAddr_lt_of_mem hplaced
  constructor
  · refine ⟨fillPositions (s.tileOrder false) (s.rowMajor.map fun p => s.byteAt (s.sampleAddr p.1 p.2)) zeroTile, ?_,
      fun r c _ hc => ⟨fun hv => ?_, fill_tileOrder_of_not_valid h hc⟩⟩
    · rw [exec, execTileLoad, withChecks_of_pass s _ _ hpass, loadPositions_of_lt s _ _ haddr, foldl_setPos_eq_fillPositions]
      rfl
    · obtain ⟨j, hj⟩ := List.mem_iff_getElem?.mp ((mem_tileOrder_iff (p := (r, c)) (f := false) h).mpr hv)
      refine fill_tileOrder_of_getElem h hj ?_
      rw [List.getElem?_map]
      exact congrArg (Option.map _) hj
  · obtain ⟨t, ht⟩ := storePositions_of_lt s.rowMajor s haddr
    refine ⟨t, ?_, storePositions_frame ht, fun r c hv => ?_, fun a ha => ?_⟩
    · rw [exec, execTileStore, withChecks_of_pass s _ _ hpass, ht]
      rfl
    · exact storePositions_byteAt_of_mem ht (rowMajor_map_sampleAddr_nodup h hplaced) ((mem_tileOrder_iff (p := (r, c)) (f := false) h).mpr hv)
    · exact storePositions_byteAt ht fun p hp => ha p.1 p.2 (tileValid_of_mem_rowMajor hp)

/-! ### TILE_SER and TILE_DESER (R236, R237, R239) -/

/-- Settles O59: TILE_SER writes the entries of the order as they are listed, and TILE_DESER fills the order's entries, which are distinct. -/
theorem tileSerAndDeserFollowTheOrder : Obligations.TileSerAndDeserFollowTheOrder := by
  intro s f h
  refine ⟨fun hdst hroom => ?_, fun hsrc hcount => ?_⟩
  · have hpass : firstFailing (tileSerChecks s) = none := by
      rw [firstFailing_eq_none]
      simp [tileSerChecks, shapeCheck_of_shapeLegal h, dstCheck_of_dstInMem hdst, hroom]
    have hfits : s.dst.toNat + (serialized s f).length ≤ s.memSize := by
      rw [serialized, List.length_map, tileOrder_length h]
      exact Nat.le_trans (Nat.add_le_add_left hroom _) hdst
    obtain ⟨u, hu, hwrote⟩ := writeBytes_wrote hfits
    refine ⟨u, hwrote, ?_⟩
    rw [exec, execTileSer, withChecks_of_pass s _ _ hpass, hu]
    rfl
  · have hpass : firstFailing (tileDeserChecks s) = none := by
      rw [firstFailing_eq_none]
      simp [tileDeserChecks, shapeCheck_of_shapeLegal h, srcCheck_of_srcInMem hsrc, hcount]
    refine ⟨fillPositions (s.tileOrder f) (Claims.source s) zeroTile, ?_, fun j p hp => fill_tileOrder_of_getElem h hp ?_,
      fun r c _ hc => fill_tileOrder_of_not_valid h hc⟩
    · rw [exec, execTileDeser, withChecks_of_pass s _ _ hpass, snapshot_of_le _ _ s hsrc]
      rfl
    · have hj : j < (Claims.source s).length := by
        obtain ⟨hlt, _⟩ := List.getElem?_eq_some_iff.mp hp
        rw [tileOrder_length h] at hlt
        rw [source_length]
        omega
      rw [List.getElem?_eq_getElem hj]
      exact congrArg some (State.bytesAt_getElem ..)

/-- Settles O60: `tileSerAndDeserFollowTheOrder` for each of the two commands, of which the first keeps the shape and so the order. -/
theorem tileSerializationRoundTrips : Obligations.TileSerializationRoundTrips := by
  intro s f h hdst hroom
  obtain ⟨t, hwrote, hrun⟩ := (tileSerAndDeserFollowTheOrder s f h).1 hdst hroom
  have hbytes {j : Nat} {p : Nat × Nat} (hp : (s.tileOrder f)[j]? = some p) :
      t.byteAt (s.dst.toNat + j) = tableGet s.tile (16 * p.1 + p.2) := by
    obtain ⟨hlt, _⟩ := List.getElem?_eq_some_iff.mp hp
    rw [byteAt_of_wrote hwrote (by rwa [List.length_map]), List.getD_eq_getElem?_getD, List.getElem?_map, hp]
    rfl
  obtain ⟨hframe, _⟩ := hwrote
  obtain ⟨m, rfl⟩ : ∃ m, t = { s with mem := m } := ⟨_, hframe⟩
  obtain ⟨tile, hback, hvalid, hrest⟩ := (tileSerAndDeserFollowTheOrder
    { ({ s with mem := m } : State).succeed (toWord s.tcnt) with src := s.dst, srcLen := s.dstCap, tile := Vector.replicate 256 0xFF }
    f h).2 hdst hroom
  refine ⟨_, _, hrun, hback, rfl, fun r c hr hc => ⟨fun hv => ?_, hrest r c hr hc⟩⟩
  obtain ⟨j, hj⟩ := List.mem_iff_getElem?.mp ((mem_tileOrder_iff (p := (r, c)) (f := f) h).mpr hv)
  exact (hvalid j (r, c) hj).trans (hbytes hj)

end Sys2Proof.Machine
end

section
/-! ## PROOFS. The statement of `60_exceptions.md`: the first failing pre-check is reported and nothing else changes (R262, R264). Each command
runs behind the pre-checks that its rule lists, so one lemma on `withChecks` settles the statement. -/

namespace Sys2Proof.Machine

/-! ### The checks of the rules are the model's -/

/-- A restated check is the model's when their conditions agree. -/
theorem check_eq {p : Prop} [Decidable p] {ok : Bool} {code : ErrCode} {info : Word} (h : p ↔ ok = true) :
    Claims.check p code info = ⟨ok, code, info⟩ := by
  simp [Claims.check, h]

section Checks

variable (s : State)

theorem check_eq_outCheck :
    Claims.check (s.outPtr.toNat ≤ s.outEnd.toNat ∧ s.outEnd.toNat ≤ 2 ^ s.memAddrBits) .range 3 = outCheck s :=
  check_eq ⟨outCheck_of_outInMem, outInMem_of_outCheck⟩

theorem check_eq_inCheck :
    Claims.check (s.inPtr.toNat ≤ s.inEnd.toNat ∧ s.inEnd.toNat ≤ 2 ^ s.memAddrBits) .range 4 = inCheck s :=
  check_eq ⟨inCheck_of_inInMem, inInMem_of_inCheck⟩

theorem check_eq_encTableCheck : Claims.check (s.encValid = true) .notable 1 = encTableCheck s := check_eq .rfl

theorem check_eq_decTableCheck : Claims.check (s.decValid = true) .notable 2 = decTableCheck s := check_eq .rfl

theorem overlap_iff {a n b m : Nat} : overlap a n b m = true ↔ 0 < n ∧ 0 < m ∧ a < b + m ∧ b < a + n := by
  simp [overlap, and_assoc]

theorem check_eq_disjointCheck (a n b m : Nat) :
    Claims.check (¬ (0 < n ∧ 0 < m ∧ a < b + m ∧ b < a + n)) .overlap 0 = disjointCheck a n b m :=
  check_eq (by rw [Bool.not_eq_true', ← overlap_iff, Bool.not_eq_true])

theorem check_eq_shapeCheck :
    Claims.check (1 ≤ s.tw.toNat ∧ s.tw.toNat ≤ 16 ∧ 1 ≤ s.th.toNat ∧ s.th.toNat ≤ 16 ∧ s.tk.toNat ≤ s.tw.toNat) .arg 3 = shapeCheck s :=
  check_eq ⟨shapeCheck_of_shapeLegal, shapeLegal_of_shapeCheck⟩

theorem mem_rowMajor_iff {r c : Nat} : (r, c) ∈ s.rowMajor ↔ r < 16 ∧ c < 16 ∧ Claims.tileValid s r c := by
  simp [State.rowMajor, validPos_iff]

theorem check_eq_tileMemCheck :
    Claims.check (∀ r ∈ List.range 16, ∀ c ∈ List.range 16,
      ((r + 1 < s.th.toNat ∧ c < s.tw.toNat) ∨ (r + 1 = s.th.toNat ∧ c < s.tk.toNat)) →
      s.imgBase.toNat + (s.tileY.toNat + r) * s.imgWidth.toNat + s.tileX.toNat + c < 2 ^ s.memAddrBits) .range 5 = tileMemCheck s := by
  refine check_eq ?_
  simp only [List.all_eq_true, decide_eq_true_eq, List.mem_range, Prod.forall, mem_rowMajor_iff, and_imp]
  exact ⟨fun h r c hr hc => h r hr c hc, fun h r hr c hc => h r c hr hc⟩

end Checks

/-! ### The pre-checks of each command -/

section PreChecks

variable (s : State)

theorem preChecks_hfreqAdd : Claims.preChecks s .hfreqAdd = hfreqAddChecks s := rfl

theorem preChecks_rleMark : Claims.preChecks s .rleMark = rleMarkChecks s := rfl

theorem preChecks_geom : Claims.preChecks s .geom = geomChecks s := rfl

theorem preChecks_bpPut : Claims.preChecks s .bpPut = bpPutChecks s := by
  simp only [Claims.preChecks, check_eq_outCheck]
  rfl

theorem preChecks_bpFlush : Claims.preChecks s .bpFlush = bpFlushChecks s := by
  have hroom : Claims.check (s.bpFree < 8 → 1 ≤ s.outEnd.toNat - s.outPtr.toNat) .overflow 3
      = ⟨s.bpFree ≥ 8 || s.outRoom ≥ 1, .overflow, 3⟩ :=
    check_eq (by rw [Bool.or_eq_true, decide_eq_true_eq, decide_eq_true_eq, State.outRoom]; omega)
  simp only [Claims.preChecks, check_eq_outCheck, hroom, bpFlushChecks]

theorem preChecks_brGet : Claims.preChecks s .brGet = brGetChecks s := by
  simp only [Claims.preChecks, check_eq_inCheck]
  rfl

/-- The symbols transmitted are the bytes that have a code. -/
theorem transmitted_length : (transmitted s).length = (List.range 256).countP fun b => decide (0 < tableGet s.codeLen b) := by
  rw [transmitted, (lexSort_perm _).length_eq, List.length_filterMap_eq_countP]
  refine List.countP_congr fun b _ => ?_
  by_cases h : 0 < tableGet s.codeLen b <;> simp [h]

theorem preChecks_hcbWrite : Claims.preChecks s .hcbWrite = hcbWriteChecks s := by
  have halign : Claims.check (s.bpFree = 8) .align 1 = ⟨s.bpFree == 8, .align, 1⟩ := check_eq beq_iff_eq.symm
  simp only [Claims.preChecks, check_eq_outCheck, check_eq_encTableCheck, halign, ← transmitted_length]
  rfl

theorem preChecks_henc : Claims.preChecks s .henc = hencChecks s := by
  simp only [Claims.preChecks, check_eq_outCheck, check_eq_encTableCheck, check_eq_disjointCheck]
  rfl

theorem preChecks_hencEob : Claims.preChecks s .hencEob = hencEobChecks s := by
  simp only [Claims.preChecks, check_eq_outCheck, check_eq_encTableCheck]
  rfl

theorem preChecks_hcbRead : Claims.preChecks s .hcbRead = hcbReadChecks s := by
  have halign : Claims.check (s.brLeft = 0) .align 2 = ⟨s.brLeft == 0, .align, 2⟩ := check_eq beq_iff_eq.symm
  simp only [Claims.preChecks, check_eq_inCheck, halign, hcbReadChecks]

theorem preChecks_hdec (l : Bool) : Claims.preChecks s (.hdec l) = hdecChecks s := by
  simp only [Claims.preChecks, check_eq_inCheck, check_eq_decTableCheck, check_eq_disjointCheck]
  rfl

theorem preChecks_hdecSym : Claims.preChecks s .hdecSym = hdecSymChecks s := by
  simp only [Claims.preChecks, check_eq_inCheck, check_eq_decTableCheck, hdecSymChecks]

theorem preChecks_deltaEnc : Claims.preChecks s .deltaEnc = deltaChecks s := by
  have hregions : Claims.check (s.dst = s.src
        ∨ ¬ (0 < s.srcLen.toNat ∧ s.src.toNat < s.dst.toNat + s.srcLen.toNat ∧ s.dst.toNat < s.src.toNat + s.srcLen.toNat)) .overlap 0
      = ⟨s.dst == s.src || !overlap s.src.toNat s.srcLen.toNat s.dst.toNat s.srcLen.toNat, .overlap, 0⟩ :=
    check_eq (by
      rw [Bool.or_eq_true, beq_iff_eq, Bool.not_eq_true', ← Bool.not_eq_true, overlap_iff, and_self_left])
  simp only [Claims.preChecks, hregions]
  rfl

theorem preChecks_deltaDec : Claims.preChecks s .deltaDec = deltaChecks s := preChecks_deltaEnc s

theorem preChecks_rleEnc : Claims.preChecks s .rleEnc = rleChecks s := by
  simp only [Claims.preChecks, check_eq_disjointCheck]
  rfl

theorem preChecks_rleDec : Claims.preChecks s .rleDec = rleChecks s := preChecks_rleEnc s

theorem preChecks_tileLoad : Claims.preChecks s .tileLoad = tileMoveChecks s := by
  simp only [Claims.preChecks, check_eq_shapeCheck, check_eq_tileMemCheck]
  rfl

theorem preChecks_tileStore : Claims.preChecks s .tileStore = tileMoveChecks s := preChecks_tileLoad s

theorem preChecks_tileSer (t : Bool) : Claims.preChecks s (.tileSer t) = tileSerChecks s := by
  simp only [Claims.preChecks, check_eq_shapeCheck]
  rfl

theorem preChecks_tileDeser (t : Bool) : Claims.preChecks s (.tileDeser t) = tileDeserChecks s := by
  simp only [Claims.preChecks, check_eq_shapeCheck]
  rfl

end PreChecks

/-! ### The first failing pre-check (R262, R264) -/

theorem firstFailing_of_split {pre post : List Check} {c : Check} (hpre : ∀ d ∈ pre, d.ok = true) (hc : c.ok = false) :
    firstFailing (pre ++ c :: post) = some (c.code, c.info) := by
  induction pre with
  | nil => simp [firstFailing_cons, hc]
  | cons d ds ih =>
    rw [List.forall_mem_cons] at hpre
    rw [List.cons_append, firstFailing_cons, if_pos hpre.1, ih hpre.2]

/-- A command without pre-checks is its operation. -/
theorem exists_operation_of_nil {i : Instr} {s : State} (h : Claims.preChecks s i = []) :
    ∃ op, exec i s = withChecks s (Claims.preChecks s i) op :=
  ⟨exec i, by rw [h]; rfl⟩

/-- Every command is its rule's pre-checks and then an operation (R112). -/
theorem exec_eq_withChecks_preChecks (i : Instr) (s : State) : ∃ op, exec i s = withChecks s (Claims.preChecks s i) op := by
  cases i with
  | nop | bpClear | brAlign | hfreqClr | hbuild => exact exists_operation_of_nil rfl
  | bpPut => exact ⟨_, by rw [preChecks_bpPut, exec, execBpPut]⟩
  | bpFlush => exact ⟨_, by rw [preChecks_bpFlush, exec, execBpFlush]⟩
  | brGet => exact ⟨_, by rw [preChecks_brGet, exec, execBrGet]⟩
  | hfreqAdd => exact ⟨_, by rw [preChecks_hfreqAdd, exec, execHfreqAdd]⟩
  | rleMark => exact ⟨_, by rw [preChecks_rleMark, exec, execRleMark]⟩
  | geom => exact ⟨_, by rw [preChecks_geom, exec, execGeom]⟩
  | hcbWrite => exact ⟨_, by rw [preChecks_hcbWrite, exec, execHcbWrite]⟩
  | henc => exact ⟨_, by rw [preChecks_henc, exec, execHenc]⟩
  | hencEob => exact ⟨_, by rw [preChecks_hencEob, exec, execHencEob]⟩
  | hcbRead => exact ⟨_, by rw [preChecks_hcbRead, exec, execHcbRead]⟩
  | hdec l => exact ⟨_, by rw [preChecks_hdec, exec, execHdec]⟩
  | hdecSym => exact ⟨_, by rw [preChecks_hdecSym, exec, execHdecSym]⟩
  | deltaEnc => exact ⟨_, by rw [preChecks_deltaEnc, exec, execDeltaEnc]⟩
  | deltaDec => exact ⟨_, by rw [preChecks_deltaDec, exec, execDeltaDec]⟩
  | rleEnc => exact ⟨_, by rw [preChecks_rleEnc, exec, execRleEnc]⟩
  | rleDec => exact ⟨_, by rw [preChecks_rleDec, exec, execRleDec]⟩
  | tileLoad => exact ⟨_, by rw [preChecks_tileLoad, exec, execTileLoad]⟩
  | tileStore => exact ⟨_, by rw [preChecks_tileStore, exec, execTileStore]⟩
  | tileSer t => exact ⟨_, by rw [preChecks_tileSer, exec, execTileSer]⟩
  | tileDeser t => exact ⟨_, by rw [preChecks_tileDeser, exec, execTileDeser]⟩

/-- Settles O16: the command runs behind the pre-checks of its rule, and the first that fails ends it with `State.fail`. -/
theorem failedPrecheckChangesOnlyCompletionState : Obligations.FailedPrecheckChangesOnlyCompletionState := by
  intro i s pre post c hsplit hpre hc
  obtain ⟨op, hop⟩ := exec_eq_withChecks_preChecks i s
  rw [hop, hsplit, withChecks_of_fail s _ op c.code c.info (firstFailing_of_split hpre hc)]
  rfl

end Sys2Proof.Machine
end

section
/-! ## PROOFS. The statements of `70_reset_and_hazards.md`: the reset state is a clean entry (R291), and a soft reset at any time gives it back but for
MEM and TILE, of which it changes only what an abandoned command writes (R292, R293). -/

namespace Sys2Proof.Machine

/-! ### The abandoned command (R293) -/

/-- All that abandoning a command changes: TILE, MEM and the count of draws. -/
theorem abandon_frame (i : Instr) (s : State) :
    abandon i s = { s with tile := (abandon i s).tile, mem := (abandon i s).mem, draws := (abandon i s).draws } := by
  unfold abandon
  rw [drawBytes_frame]
  cases writesTile i <;> rfl

/-- Bytes outside the command's write set stay. -/
theorem abandon_byteAt_of_not_mem {i : Instr} {s : State} {a : Nat} (h : a ∉ memWriteSet s i) :
    (abandon i s).byteAt a = s.byteAt a := by
  have hdraw := drawBytes_byteAt_of_not_mem ((memWriteSet s i).filter fun a => decide (a < s.memSize)) s a
    fun ha => h (List.mem_of_mem_filter ha)
  unfold abandon
  cases writesTile i <;> exact hdraw

theorem abandon_tile_of_not_writesTile {i : Instr} {s : State} (h : writesTile i = false) : (abandon i s).tile = s.tile := by
  rw [abandon, h, drawBytes_frame]
  rfl

/-! ### What a soft reset abandons (R106, R292, R293) -/

section Pending

variable {s : State} {w : Word}

theorem abandonPending_of_idle (h : s.pending = none) : s.abandonPending = s := by
  rw [State.abandonPending, h]

theorem abandonPending_of_legal {i : Instr} (h : s.pending = some w) (hi : decode w = .ok i) : s.abandonPending = abandon i s := by
  simp only [State.abandonPending, h, hi]

theorem abandonPending_of_illegal {e : DecodeError} (h : s.pending = some w) (he : decode w = .error e) : s.abandonPending = s := by
  simp only [State.abandonPending, h, he]

end Pending

/-- At most one command is abandoned. -/
theorem State.abandonPending_cases (s : State) : s.abandonPending = s ∨ ∃ i, s.abandonPending = abandon i s := by
  unfold State.abandonPending
  split
  · exact .inl rfl
  · split
    · exact .inr ⟨_, rfl⟩
    · exact .inl rfl

theorem State.abandonPending_frame (s : State) :
    s.abandonPending = { s with
      tile := s.abandonPending.tile
      mem := s.abandonPending.mem
      draws := s.abandonPending.draws } := by
  rcases s.abandonPending_cases with h | ⟨i, h⟩
  · rw [h]
  · rw [h]
    exact abandon_frame i s

/-! ### The soft reset (R51, R292) -/

theorem State.softReset_cleanEntry (s : State) : s.softReset.cleanEntry :=
  ⟨rfl, rfl, rfl, rfl, rfl, rfl, rfl, rfl, rfl, rfl, rfl, rfl, rfl⟩

/-- The reset state but for TILE, MEM and the draws, with the parameters and the model's own fields of the state before. -/
theorem State.softReset_eq (s : State) :
    s.softReset = { State.reset with
      memAddrBits := s.memAddrBits
      regBase := s.regBase
      memBase := s.memBase
      tile := s.softReset.tile
      mem := s.softReset.mem
      events := s.events
      portData := s.portData
      seenIdle := s.seenIdle
      checkFailed := s.checkFailed
      draws := s.softReset.draws } := by
  unfold State.softReset
  rw [s.abandonPending_frame]

/-- A CTRL write with SRST is a soft reset, busy or not (R22). -/
theorem writeCtrl_of_srst (s : State) {v : Word} (h : v.getLsbD 1 = true) : s.writeCtrl v = s.softReset := if_pos h

/-- Settles O13: the soft reset takes MEM and TILE from `abandonPending`, which is the state itself unless a legal command is pending. -/
theorem softResetRestoresCleanEntry : Obligations.SoftResetRestoresCleanEntry := by
  intro s v hsrst
  have hwrite : hostAccess (.regWrite 8 0x008 v) s = .next s.softReset := by
    rw [hostAccess_regWrite_ctrl, writeCtrl_of_srst s hsrst]
  have hmem : s.softReset.mem = s.abandonPending.mem := rfl
  have htile : s.softReset.tile = s.abandonPending.tile := rfl
  have hbyte : ∀ a, s.softReset.byteAt a = s.abandonPending.byteAt a := fun _ => rfl
  refine ⟨s.softReset, hwrite, s.softReset_cleanEntry, s.softReset_eq, fun hp => ?_, fun w hp => ⟨fun e he => ?_, fun i hi => ?_⟩⟩
  · rw [hmem, htile, abandonPending_of_idle hp]
    exact ⟨rfl, rfl⟩
  · rw [hmem, htile, abandonPending_of_illegal hp he]
    exact ⟨rfl, rfl⟩
  · rw [htile, abandonPending_of_legal hp hi]
    refine ⟨fun a ha => ?_, abandon_tile_of_not_writesTile⟩
    rw [hbyte, abandonPending_of_legal hp hi]
    exact abandon_byteAt_of_not_mem ha

/-! ### Hardware reset (R51, R291) -/

/-- The reset state is its own soft reset: no command is pending in it. -/
theorem reset_softReset : State.reset.softReset = State.reset := rfl

theorem reset_cleanEntry : State.reset.cleanEntry := reset_softReset ▸ State.reset.softReset_cleanEntry

/-- Settles O12: clean entry as after a soft reset, the registers by their values in `State.reset`, and tables that hold 0 everywhere. -/
theorem resetStateIsCleanEntry : Obligations.ResetStateIsCleanEntry := by
  refine ⟨reset_cleanEntry, rfl, rfl, rfl, rfl, rfl, rfl, rfl, rfl, rfl, rfl, rfl, rfl, rfl, rfl, rfl, rfl, rfl, rfl, rfl, rfl, rfl,
    rfl, rfl, rfl, rfl, rfl, rfl, rfl, rfl, rfl, ?_, ?_, ?_⟩
  · exact fun i _ => tableGet_replicate_zeroWord i
  · exact fun i _ => ⟨tableGet_replicate_zero i, tableGet_replicate_zeroWord i, tableGet_replicate_zero i⟩
  · exact fun i _ => ⟨tableGet_replicate_zero i, tableGet_replicate_zeroWord i, tableGet_replicate_zero i⟩

end Sys2Proof.Machine
end
